-- ==== Sys2Proof/Word.lean ====
section
/-! DEFINITION. The machine's word types: the 32-bit word of the host window and of CTRL (00_scope.md, parameter
REG_W; 10_state.md R14), the 16-bit half word of OFFSET, DATA and the checksum engine (R19, 43_flash_ops.md R83), and
the byte of the buffers (20_memory.md R38). -/

namespace Sys2Proof

/-- A 32-bit register of the host window, and CTRL itself. -/
abbrev Word := BitVec 32

/-- A 16-bit quantity: OFFSET, DATA, a checksum word. -/
abbrev Half := BitVec 16

/-- One byte of BUF, SCR or OPB. -/
abbrev Byte := BitVec 8

end Sys2Proof
end

