-- ==== Sys2Proof/Config.lean ====
section
/-! DEFINITION. What a build of the block fixes (the parameters of 00_scope.md R3 and R4, and the word order of
20_memory.md R34), the spec's reference values for them, and the free values of the environment (00_scope.md R7). -/

namespace Sys2Proof

/-- The byte order of the 16-bit checksum words: CHECKSUM_WORD_ORDER, 20_memory.md R34. -/
inductive WordOrder where
  | little
  | big
deriving DecidableEq, Repr

/-- The host bus's store ordering, HOST_STORE_ORDER, left open by the spec (20_memory.md R45; 93_implementation_defined.md
U21): the host's stores reach the window in program order, or in any order (log 17). -/
inductive StoreOrder where
  | program
  | any
deriving DecidableEq, Repr

/-- Who may access the window, WINDOW_ACCESS, left open by the spec (60_exceptions.md R96; U21): every host agent, or those
with the given numbers (log 17). -/
inductive WindowAccess where
  | everyone
  | only (agents : List Nat)
deriving DecidableEq, Repr

/-- The platform lets this host agent's accesses reach the window. -/
def WindowAccess.admits (a : WindowAccess) (agent : Nat) : Bool :=
  match a with
  | .everyone => true
  | .only agents => agents.contains agent

/-- The implementation parameters, one configuration record fixed for the block's lifetime (00_scope.md R3, R4). The
six bit positions are integers in 0..31 by their type; that they are distinct, and the bound on `checksumIndex`, are
`Params.wellFormed`. The last three are the platform's: WINDOW_BASE (20_memory.md R40), HOST_STORE_ORDER (R45) and
WINDOW_ACCESS (60_exceptions.md R96); no step of the block reads them. -/
structure Params where
  bitSk : Fin 32
  bitCen : Fin 32
  bitSi : Fin 32
  bitSo : Fin 32
  bitReq : Fin 32
  bitGnt : Fin 32
  opWren : Byte
  opWrsr : Byte
  opRdsr : Byte
  opRead : Byte
  opWrite : Byte
  opChipErase : Byte
  statusBusyMask : Byte
  protectMask : Byte
  grantAttempts : Nat
  grantPollUs : Nat
  checksumIndex : Nat
  checksumSum : Half
  wordOrder : WordOrder
  windowBase : Nat
  storeOrder : StoreOrder
  windowAccess : WindowAccess
deriving DecidableEq, Repr

/-- The reference values of 00_scope.md section 4. PRESUMED (the spec marks them as general knowledge, not in the
source); log 2. The platform's three have no reference value in the spec: DESIGN CHOICE, log 17. Only
`Machine.State.reset` uses them. -/
def Config.reference : Params where
  bitSk := 0
  bitCen := 1
  bitSi := 2
  bitSo := 3
  bitReq := 6
  bitGnt := 7
  opWren := 0x06#8
  opWrsr := 0x01#8
  opRdsr := 0x05#8
  opRead := 0x03#8
  opWrite := 0x02#8
  opChipErase := 0xC7#8
  statusBusyMask := 0x01#8
  protectMask := 0x8C#8
  grantAttempts := 1000
  grantPollUs := 5
  checksumIndex := 0x3F
  checksumSum := 0xBABA#16
  wordOrder := .little
  windowBase := 0
  storeOrder := .program
  windowAccess := .everyone

/-- The quantities that 70_reset_and_hazards.md R100 leaves unspecified after a block reset: LS, the fields of the
command latch, the bytes of OPB and of SCR. -/
inductive Unspecified where
  | ls
  | latchCode
  | latchFlags
  | latchOff
  | latchLen
  | latchSrca
  | latchDsta
  | latchDat
  | latchPresent
  | latchPs
  | latchDu
  | opb (index : Nat)
  | scr (index : Nat)
deriving DecidableEq, Repr

/-- FREE VALUE: the answer to the n-th free RegRead (00_scope.md R7, 93_implementation_defined.md U1; log 3). -/
opaque Config.freeRead : Nat → Word

/-- FREE VALUE: the answer to the n-th free CancelPending (00_scope.md R7, U2; log 4). -/
opaque Config.freeCancel : Nat → Bool

/-- FREE VALUE: what an unspecified quantity holds after the n-th block reset step (70_reset_and_hazards.md R100; U5,
U6; log 10). -/
opaque Config.freeAtReset : Unspecified → Nat → Word

end Sys2Proof
end

