-- ==== Sys2Proof/Syntax.lean ====
section
/-! DEFINITION. The syntax: the sixteen host commands (30_encoding.md R50), one constructor of `Instr` each, and the
assembler's statements and pseudo-instructions (R59, R61). -/

namespace Sys2Proof

/-- The mnemonics of 30_encoding.md R50, in the table's order. -/
inductive Mnemonic where
  | transfer
  | acquire
  | release
  | standby
  | enableWrite
  | writeStatus
  | readStatus
  | writePage
  | readPage
  | pollReady
  | clearBp
  | dump
  | program
  | erase
  | unlock
  | checksum
deriving DecidableEq, Repr

/-- One command. A constructor's arguments are the flag bits its row allows (30_encoding.md R50): `c` cancellable,
`s` source supplied, `d` destination supplied, `rp` repair (R49). The other operands are registers, latched at
acceptance (10_state.md R26). -/
inductive Instr where
  | transfer (c s d : Bool)
  | acquire
  | release
  | standby
  | enableWrite (c : Bool)
  | writeStatus (c : Bool)
  | readStatus (c : Bool)
  | writePage (c : Bool)
  | readPage (c : Bool)
  | pollReady (c : Bool)
  | clearBp (c : Bool)
  | dump (c : Bool)
  | program (c : Bool)
  | erase (c : Bool)
  | unlock (c : Bool)
  | checksum (c rp : Bool)
deriving DecidableEq, Repr

/-- The four flag bits CMD[11:8] of a command word (30_encoding.md R49). -/
structure CmdFlags where
  c : Bool
  s : Bool
  d : Bool
  rp : Bool
deriving DecidableEq, Repr

/-- The operand shapes of the assembler (30_encoding.md R59). -/
inductive StmtArgs where
  | none
  /-- `n, src, dst`; an absent buffer is written `-`. -/
  | bits (n : Word) (src dst : Option Word)
  /-- `#s`. -/
  | statusByte (s : Byte)
  /-- `off, len, src` or `off, len, dst`. -/
  | page (off : Half) (len buf : Word)
  /-- `#E`. -/
  | expected (e : Half)
deriving DecidableEq, Repr

/-- One assembler statement `MNEMONIC[.C][.R] operands` (30_encoding.md R59), as written: `WellFormed` says which are
no assembly errors. -/
structure Stmt where
  op : Mnemonic
  dotC : Bool
  dotR : Bool
  args : StmtArgs
deriving DecidableEq, Repr

/-- The pseudo-instructions of 30_encoding.md R61. -/
inductive Pseudo where
  | wait
  | config (present : Bool) (pageLog2 : BitVec 4) (delayUs wordSize : Half)
  | showFlash (off : Half) (len dst : Word)
  | programS (src : Word) (off : Half) (len : Word)
  | checksumS (update : Bool)
  | eraseS
  | unlockS
deriving DecidableEq, Repr

end Sys2Proof
end

