-- ==== Sys2Proof/WellFormed.lean ====
section
/-! DEFINITION. Well-formedness, as decidable checks: of the parameter record (00_scope.md R3, R4), of a command (only
the flags its row allows, 30_encoding.md R50), and of an assembler statement (R59). -/

namespace Sys2Proof

/-- The six bit positions of 00_scope.md R3. -/
def Params.positions (p : Params) : List (Fin 32) :=
  [p.bitSk, p.bitCen, p.bitSi, p.bitSo, p.bitReq, p.bitGnt]

/-- 00_scope.md R3: six distinct positions; R4: CHECKSUM_REG_INDEX is at most 32766. -/
def Params.wellFormed (p : Params) : Bool :=
  decide p.positions.Nodup && decide (p.checksumIndex ≤ 32766)

/-- The mnemonic of a command. -/
def Instr.mnemonic : Instr → Mnemonic
  | .transfer _ _ _ => .transfer
  | .acquire => .acquire
  | .release => .release
  | .standby => .standby
  | .enableWrite _ => .enableWrite
  | .writeStatus _ => .writeStatus
  | .readStatus _ => .readStatus
  | .writePage _ => .writePage
  | .readPage _ => .readPage
  | .pollReady _ => .pollReady
  | .clearBp _ => .clearBp
  | .dump _ => .dump
  | .program _ => .program
  | .erase _ => .erase
  | .unlock _ => .unlock
  | .checksum _ _ => .checksum

/-- The flag bits a command sets (30_encoding.md R49). -/
def Instr.flags : Instr → CmdFlags
  | .transfer c s d => ⟨c, s, d, false⟩
  | .acquire => ⟨false, false, false, false⟩
  | .release => ⟨false, false, false, false⟩
  | .standby => ⟨false, false, false, false⟩
  | .enableWrite c => ⟨c, false, false, false⟩
  | .writeStatus c => ⟨c, false, false, false⟩
  | .readStatus c => ⟨c, false, false, false⟩
  | .writePage c => ⟨c, false, false, false⟩
  | .readPage c => ⟨c, false, false, false⟩
  | .pollReady c => ⟨c, false, false, false⟩
  | .clearBp c => ⟨c, false, false, false⟩
  | .dump c => ⟨c, false, false, false⟩
  | .program c => ⟨c, false, false, false⟩
  | .erase c => ⟨c, false, false, false⟩
  | .unlock c => ⟨c, false, false, false⟩
  | .checksum c rp => ⟨c, false, false, rp⟩

/-- The column "flags allowed" of 30_encoding.md R50. -/
def Mnemonic.allowed : Mnemonic → CmdFlags
  | .transfer => ⟨true, true, true, false⟩
  | .acquire => ⟨false, false, false, false⟩
  | .release => ⟨false, false, false, false⟩
  | .standby => ⟨false, false, false, false⟩
  | .enableWrite => ⟨true, false, false, false⟩
  | .writeStatus => ⟨true, false, false, false⟩
  | .readStatus => ⟨true, false, false, false⟩
  | .writePage => ⟨true, false, false, false⟩
  | .readPage => ⟨true, false, false, false⟩
  | .pollReady => ⟨true, false, false, false⟩
  | .clearBp => ⟨true, false, false, false⟩
  | .dump => ⟨true, false, false, false⟩
  | .program => ⟨true, false, false, false⟩
  | .erase => ⟨true, false, false, false⟩
  | .unlock => ⟨true, false, false, false⟩
  | .checksum => ⟨true, false, false, true⟩

/-- Every flag that is set is allowed. -/
def CmdFlags.within (f allowed : CmdFlags) : Bool :=
  (!f.c || allowed.c) && (!f.s || allowed.s) && (!f.d || allowed.d) && (!f.rp || allowed.rp)

/-- A command sets only the flags its row allows (30_encoding.md R50). `Instr` has no argument for any other flag, so
this holds of every term of it. -/
def Instr.wellFormed (i : Instr) : Bool := i.flags.within i.mnemonic.allowed

/-- The operand shape each mnemonic takes (30_encoding.md R59). -/
def StmtArgs.fits : StmtArgs → Mnemonic → Bool
  | .bits _ _ _, m => m == .transfer
  | .statusByte _, m => m == .writeStatus
  | .page _ _ _, m => m == .writePage || m == .readPage || m == .dump || m == .program
  | .expected _, m => m == .checksum
  | .none, m =>
    m == .acquire || m == .release || m == .standby || m == .enableWrite || m == .readStatus || m == .pollReady ||
      m == .clearBp || m == .erase || m == .unlock

/-- 30_encoding.md R59: the suffixes are ones the command allows ("A suffix the command does not allow … is an assembly
error") and the operands have the mnemonic's shape. -/
def Stmt.wellFormed (t : Stmt) : Bool :=
  (!t.dotC || t.op.allowed.c) && (!t.dotR || t.op.allowed.rp) && t.args.fits t.op

end Sys2Proof
end

