-- ==== Sys2Proof/Decode.lean ====
section
/-! DEFINITION. The decoder of the command word (30_encoding.md R49, R50, R52, R55), total on every 32-bit word and
rejecting by name, and after it the encoder (R60: CODE | C<<8 | S<<9 | D<<10 | RP<<11). A command is one whole word of
the register CMD, so no byte order enters (20_memory.md R35). -/

namespace Sys2Proof

/-- One row of the table of 30_encoding.md R50: a word w selects it when `(w & mask) == match`. -/
structure Row where
  op : Mnemonic
  mask : Word
  pattern : Word
deriving DecidableEq, Repr

/-- Does the word select the row (30_encoding.md R50)? -/
def Row.selects (r : Row) (w : Word) : Bool := w &&& r.mask == r.pattern

/-- The sixteen rows of 30_encoding.md R50. -/
def commandRows : List Row :=
  [⟨.transfer, 0xFFFFF8FF#32, 0x00000001#32⟩,
   ⟨.acquire, 0xFFFFFFFF#32, 0x00000002#32⟩,
   ⟨.release, 0xFFFFFFFF#32, 0x00000003#32⟩,
   ⟨.standby, 0xFFFFFFFF#32, 0x00000004#32⟩,
   ⟨.enableWrite, 0xFFFFFEFF#32, 0x00000010#32⟩,
   ⟨.writeStatus, 0xFFFFFEFF#32, 0x00000011#32⟩,
   ⟨.readStatus, 0xFFFFFEFF#32, 0x00000012#32⟩,
   ⟨.writePage, 0xFFFFFEFF#32, 0x00000013#32⟩,
   ⟨.readPage, 0xFFFFFEFF#32, 0x00000014#32⟩,
   ⟨.pollReady, 0xFFFFFEFF#32, 0x00000015#32⟩,
   ⟨.clearBp, 0xFFFFFEFF#32, 0x00000016#32⟩,
   ⟨.dump, 0xFFFFFEFF#32, 0x00000020#32⟩,
   ⟨.program, 0xFFFFFEFF#32, 0x00000021#32⟩,
   ⟨.erase, 0xFFFFFEFF#32, 0x00000022#32⟩,
   ⟨.unlock, 0xFFFFFEFF#32, 0x00000023#32⟩,
   ⟨.checksum, 0xFFFFF6FF#32, 0x00000024#32⟩]

/-- Why a word is illegal (30_encoding.md R55): a code outside the sixteen listed, a non-zero bit in [31:12], or a flag
bit the command does not allow. -/
inductive Reject where
  | unknownCode
  | reservedBits
  | flagNotAllowed
deriving DecidableEq, Repr

/-- The field CODE, CMD[7:0] (30_encoding.md R49). -/
def codeField (w : Word) : Byte := w.extractLsb' 0 8

/-- The field C, CMD[8]. -/
def flagC (w : Word) : Bool := w.getLsbD 8

/-- The field S, CMD[9]. -/
def flagS (w : Word) : Bool := w.getLsbD 9

/-- The field D, CMD[10]. -/
def flagD (w : Word) : Bool := w.getLsbD 10

/-- The field RP, CMD[11]. -/
def flagRp (w : Word) : Bool := w.getLsbD 11

/-- The command a row stands for, with its flag operands taken from the word. -/
def commandOf (m : Mnemonic) (w : Word) : Instr :=
  match m with
  | .transfer => .transfer (flagC w) (flagS w) (flagD w)
  | .acquire => .acquire
  | .release => .release
  | .standby => .standby
  | .enableWrite => .enableWrite (flagC w)
  | .writeStatus => .writeStatus (flagC w)
  | .readStatus => .readStatus (flagC w)
  | .writePage => .writePage (flagC w)
  | .readPage => .readPage (flagC w)
  | .pollReady => .pollReady (flagC w)
  | .clearBp => .clearBp (flagC w)
  | .dump => .dump (flagC w)
  | .program => .program (flagC w)
  | .erase => .erase (flagC w)
  | .unlock => .unlock (flagC w)
  | .checksum => .checksum (flagC w) (flagRp w)

/-- The reason a word that selects no row is illegal (30_encoding.md R55). DESIGN CHOICE: for a word with several reasons the
order is the model's (log 32). -/
def rejectReason (w : Word) : Reject :=
  if commandRows.all (fun r => codeField r.pattern != codeField w) then .unknownCode
  else if w.extractLsb' 12 20 != 0#20 then .reservedBits
  else .flagNotAllowed

/-- Decode at acceptance (30_encoding.md R52): the row the word selects, or the reason there is none. -/
def decode (w : Word) : Except Reject Instr :=
  match commandRows.find? (·.selects w) with
  | some r => .ok (commandOf r.op w)
  | none => .error (rejectReason w)

/-- The CODE of a command (30_encoding.md R50). -/
def Mnemonic.code : Mnemonic → Byte
  | .transfer => 0x01#8
  | .acquire => 0x02#8
  | .release => 0x03#8
  | .standby => 0x04#8
  | .enableWrite => 0x10#8
  | .writeStatus => 0x11#8
  | .readStatus => 0x12#8
  | .writePage => 0x13#8
  | .readPage => 0x14#8
  | .pollReady => 0x15#8
  | .clearBp => 0x16#8
  | .dump => 0x20#8
  | .program => 0x21#8
  | .erase => 0x22#8
  | .unlock => 0x23#8
  | .checksum => 0x24#8

/-- A command word from its fields: CODE | C<<8 | S<<9 | D<<10 | RP<<11 (30_encoding.md R60). -/
def commandWord (code : Byte) (f : CmdFlags) : Word :=
  code.setWidth 32 ||| ((BitVec.ofBool f.c).setWidth 32 <<< 8) ||| ((BitVec.ofBool f.s).setWidth 32 <<< 9) |||
    ((BitVec.ofBool f.d).setWidth 32 <<< 10) ||| ((BitVec.ofBool f.rp).setWidth 32 <<< 11)

/-- The word of a command. -/
def encode (i : Instr) : Word := commandWord i.mnemonic.code i.flags

/-- The host's question: the instruction the decoder reads from a table word. A command is one 32-bit word (30_encoding.md
R62), so the bits above `nbits` are zero and a wider word is no command. -/
def decodeTableWord (nbits w : Nat) : Option Instr :=
  if nbits ≤ 32 then
    match decode (BitVec.ofNat 32 (w % 2 ^ nbits)) with
    | .ok i => some i
    | .error _ => none
  else none

end Sys2Proof
end

