-- ==== Sys2Proof/Machine/Seq.lean ====
section
/-! DEFINITION. The sequencer position SEQ (10_state.md R16): IDLE, or the point reached in the pseudocode of the running
command, with the nested sub-operations it calls, their arguments and their local variables. Each inductive here lists
the points of one procedure of the spec; a point is the primitive step that comes next. -/

namespace Sys2Proof.Machine

/-- The buffer spaces of 00_scope.md R6 and 10_state.md R27. -/
inductive Space where
  | buf
  | scr
  | opb
deriving DecidableEq, Repr

/-- A buffer reference (space, address) (00_scope.md R6). -/
structure Ref where
  space : Space
  addr : Word
deriving DecidableEq, Repr

/-- `r + k` of 00_scope.md R6: k is added to the address in the same space, modulo 2^32. -/
def Ref.add (r : Ref) (k : Nat) : Ref := ⟨r.space, r.addr + BitVec.ofNat 32 k⟩

/-- The outcomes of a sub-operation (00_scope.md R9). -/
inductive SubOutcome where
  | ok
  | cancelled
  | arbitrationTimeout
  | protectedRegion
deriving DecidableEq, Repr

/-- The outcomes of ReadStatus and PollReady: Ok with a status byte, or Cancelled (00_scope.md R9). -/
inductive StatusOutcome where
  | ok (st : Byte)
  | cancelled
deriving DecidableEq, Repr

/-- The result codes of 60_exceptions.md R85. Codes 8 to 15 are never produced, so they are no values here. -/
inductive RCode where
  | ok
  | valid
  | invalid
  | repaired
  | arbTimeout
  | cancelled
  | protectedRegion
  | illegal
deriving DecidableEq, Repr

/-- `RegWrite(LS); Flush(); Delay(DU)`: the flushed write of 20_memory.md R42. -/
inductive DrivePt where
  | write
  | flush
  | delay
deriving DecidableEq, Repr

/-- RAISE and LOWER (40_bitclock_transfer.md R63, R64): change SK in LS, then drive LS. -/
inductive ClockPt where
  | change
  | drive (p : DrivePt)
deriving DecidableEq, Repr

/-- The arguments of Xfer(n, src, dst, c) (40_bitclock_transfer.md R65). -/
structure XferArgs where
  n : Nat
  src : Option Ref
  dst : Option Ref
  c : Bool
deriving DecidableEq, Repr

/-- The points of Xfer (40_bitclock_transfer.md R65). `i` is the bit index; a reference names the buffer byte touched. -/
inductive XferPt where
  | seed
  | check (i : Nat)
  | markCancelled
  | fetch (i : Nat) (r : Ref)
  | present (i : Nat) (b : Bool)
  | setup (i : Nat) (p : DrivePt)
  | rise (i : Nat) (p : ClockPt)
  | sample (i : Nat)
  | load (i : Nat) (r : Ref)
  | store (i : Nat) (r : Ref) (v : Byte)
  | fall (i : Nat) (p : ClockPt)
  | loadTail (r : Ref)
  | storeTail (r : Ref) (v : Byte)
deriving DecidableEq, Repr

/-- The points of Acquire (41_arbiter.md R67). `a` counts the poll rounds begun. -/
inductive AcquirePt where
  | seed
  | setReq
  | writeReq
  | poll (a : Nat)
  | pollDelay (a : Nat)
  | clearReq
  | writeTimeout
  | baseline
  | writeBaseline
  | delayBaseline
deriving DecidableEq, Repr

/-- The points of Release (41_arbiter.md R68). -/
inductive ReleasePt where
  | seed
  | deselect
  | writeDeselect
  | delayDeselect
  | clearReq
  | writeReq
deriving DecidableEq, Repr

/-- The points of Standby (41_arbiter.md R69). -/
inductive StandbyPt where
  | seed
  | setCen
  | driveHigh (p : DrivePt)
  | clearCen
  | driveLow (p : DrivePt)
deriving DecidableEq, Repr

/-- The points of EnableWrite (42_flash_commands.md R71). -/
inductive EnableWritePt where
  | standby (p : StandbyPt)
  | opcode
  | xfer (p : XferPt)
deriving DecidableEq, Repr

/-- The points of WriteStatus, and of ClearBP, which is one WriteStatus (42_flash_commands.md R72, R77). -/
inductive WriteStatusPt where
  | enable (p : EnableWritePt)
  | standby (p : StandbyPt)
  | opcode
  | status
  | xfer (p : XferPt)
deriving DecidableEq, Repr

/-- The points of ReadStatus, and of PollReady, which repeats it (42_flash_commands.md R73, R76). -/
inductive ReadStatusPt where
  | standby (p : StandbyPt)
  | opcode
  | zero
  | xfer (p : XferPt)
deriving DecidableEq, Repr

/-- A buffer reference, a FLASH offset and a byte count: the operands of a page command, and the loop variables of DUMP
and PROGRAM (42_flash_commands.md R74, R75; 43_flash_ops.md R79, R80). -/
structure Span where
  buf : Ref
  off : Half
  len : Nat
deriving DecidableEq, Repr

/-- The points of WritePage and ReadPage (42_flash_commands.md R74, R75): Standby, the header bytes OPB[0..3], the
header transfer and the payload transfer. -/
inductive PagePt where
  | standby (p : StandbyPt)
  | opcode
  | addrHigh
  | addrMid
  | addrLow
  | header (p : XferPt)
  | payload (p : XferPt)
deriving DecidableEq, Repr

/-- The points of Dump (43_flash_ops.md R79); `v` holds the loop variables. -/
inductive DumpPt where
  | poll (v : Span) (p : ReadStatusPt)
  | page (v : Span) (p : PagePt)
deriving DecidableEq, Repr

/-- The points of Program (43_flash_ops.md R80); `v` holds the loop variables. -/
inductive ProgramPt where
  | clearBp (v : Span) (p : WriteStatusPt)
  | release (p : ReleasePt)
  | poll (v : Span) (p : ReadStatusPt)
  | enable (v : Span) (p : EnableWritePt)
  | write (v : Span) (p : PagePt)
  | finalPoll (p : ReadStatusPt)
deriving DecidableEq, Repr

/-- The points of Erase (43_flash_ops.md R81). `release r` is the Release on the path that ends with outcome r. -/
inductive ErasePt where
  | acquire (p : AcquirePt)
  | standby (p : StandbyPt)
  | clearBp (p : WriteStatusPt)
  | enable (p : EnableWritePt)
  | standby2 (p : StandbyPt)
  | opcode
  | xfer (p : XferPt)
  | release (r : SubOutcome) (p : ReleasePt)
deriving DecidableEq, Repr

/-- The points of Unlock (43_flash_ops.md R82). -/
inductive UnlockPt where
  | acquire (p : AcquirePt)
  | standby (p : StandbyPt)
  | clearBp (p : WriteStatusPt)
  | release (r : SubOutcome) (p : ReleasePt)
deriving DecidableEq, Repr

/-- The points of CHECKSUM (43_flash_ops.md R84). `evalFirst j total` and `evalSecond j total v` read the two bytes of word
j of SCR, one byte a step (20_memory.md R38), with `total` the sum of the words before it (R83); `result` writes RDATA.
`release r` is the Release before `finish(r)`; `computed` and `stored` are the local variables of those names. -/
inductive ChecksumPt where
  | acquire (p : AcquirePt)
  | dump (p : DumpPt)
  | evalFirst (j : Nat) (total : Half)
  | evalSecond (j : Nat) (total : Half) (first : Byte)
  | result (computed stored : Half)
  | scrLow (computed : Half)
  | scrHigh (computed : Half)
  | program (p : ProgramPt)
  | release (r : RCode) (p : ReleasePt)
deriving DecidableEq, Repr

/-- SEQ (10_state.md R16). `statusResult st` is the step `R[RDATA] <- zext_32(st)` of READ_STATUS and POLL_READY;
`finish code` is the step `finish(code)` (60_exceptions.md R93). -/
inductive Seq where
  | idle
  | transfer (a : XferArgs) (p : XferPt)
  | acquire (p : AcquirePt)
  | release (p : ReleasePt)
  | standby (p : StandbyPt)
  | enableWrite (c : Bool) (p : EnableWritePt)
  | writeStatus (st : Byte) (c : Bool) (p : WriteStatusPt)
  | readStatus (c : Bool) (p : ReadStatusPt)
  | writePage (v : Span) (c : Bool) (p : PagePt)
  | readPage (v : Span) (c : Bool) (p : PagePt)
  | pollReady (c : Bool) (p : ReadStatusPt)
  | clearBp (c : Bool) (p : WriteStatusPt)
  | dump (c : Bool) (p : DumpPt)
  | program (c : Bool) (p : ProgramPt)
  | erase (c : Bool) (p : ErasePt)
  | unlock (c : Bool) (p : UnlockPt)
  | checksum (c rp : Bool) (p : ChecksumPt)
  | statusResult (st : Byte)
  | finish (code : RCode)
deriving DecidableEq, Repr

end Sys2Proof.Machine
end

