-- ==== Sys2Proof/Machine/State.lean ====
section
/-! DEFINITION. The state of the machine as plain data (10_state.md R13 to R30), what a step can stop with, and the state
right after reset. -/

namespace Sys2Proof.Machine

/-- BUF, as (address, byte) pairs: in the canonical form `Memory.wf` (log 12). -/
abbrev Memory := List Host.Cell

/-- One event of the port trace (00_scope.md R5). -/
inductive Event where
  | rd (v : Word)
  | wr (v : Word)
  | fl
  | dl (us : Nat)
  | cp (b : Bool)
deriving DecidableEq, Repr

/-- The fields of STATUS (10_state.md R17). -/
structure Status where
  busy : Bool
  rcode : RCode
  cancelSeen : Bool
  overrun : Bool
deriving DecidableEq, Repr

/-- The fields of DEVCFG (10_state.md R21). -/
structure DevCfg where
  present : Bool
  pageLog2 : BitVec 4
  delayUs : Half
deriving DecidableEq, Repr

/-- The command latch (10_state.md R26). -/
structure Latch where
  code : Byte
  c : Bool
  s : Bool
  d : Bool
  rp : Bool
  off : Half
  len : Word
  srca : Word
  dsta : Word
  dat : Half
  present : Bool
  ps : BitVec 17
  du : Half
deriving DecidableEq, Repr

/-- The opcode buffer OPB: four bytes (10_state.md R27). -/
structure Opb where
  b0 : Byte
  b1 : Byte
  b2 : Byte
  b3 : Byte
deriving DecidableEq, Repr

/-- Everything of the state but SEQ and the host's side: the parameters, the host-window registers (10_state.md R14), the
internal registers and memories (R25 to R28), BUF, CTRL and the port. -/
structure Hw where
  /-- 00_scope.md R3, R4: fixed for the block's lifetime; no step writes it. -/
  params : Params
  cmd : Word
  status : Status
  rdata : Word
  offset : Half
  length : Word
  src : Word
  dst : Word
  data : Half
  devcfg : DevCfg
  devsize : Half
  /-- The cached line state (10_state.md R25). -/
  ls : Word
  latch : Latch
  opb : Opb
  /-- The checksum scratch RAM, index 0 first (20_memory.md R36). -/
  scr : List Byte
  /-- BUF (00_scope.md R6). -/
  mem : Memory
  /-- CTRL, as the port last moved it: the value of the last RegRead or RegWrite (10_state.md R24). No step of the block
  reads this field: a RegRead's answer is the environment's (00_scope.md R7); log 11. -/
  ctrl : Word
  /-- The model's own: the answers the environment will give to the next RegReads (log 3). -/
  reads : List Word
  /-- The model's own: the answers the environment will give to the next CancelPendings (log 4). -/
  cancels : List Bool
  /-- The model's own: the counter that the free values are applied to (log 5). -/
  draws : Nat
  /-- The port trace, oldest event first (00_scope.md R5). -/
  trace : List Event
deriving DecidableEq, Repr

/-- One access of the host meant for the register window: a byte address in the host's address space, in which the window
starts at WINDOW_BASE (20_memory.md R40), and a width in bytes (R37). -/
structure Access where
  addr : Nat
  bytes : Nat
deriving DecidableEq, Repr

/-- What a host program does next (60_exceptions.md R97; 30_encoding.md R60, R61; log 15). -/
inductive HostOp where
  /-- A store to the register window. -/
  | store (a : Access) (v : Word)
  /-- A load from the register window. -/
  | load (a : Access)
  /-- A store of one BUF byte. -/
  | bufStore (a : Word) (v : Byte)
  /-- A load of one BUF byte. -/
  | bufLoad (a : Word)
  /-- `WAIT`: load STATUS, and stay here while BUSY = 1. -/
  | wait
  /-- Load STATUS, and skip the next n operations unless RCODE is the given one. -/
  | skipUnless (code : RCode) (n : Nat)
  /-- Load STATUS, and skip the next n operations if RCODE is the given one. -/
  | skipIf (code : RCode) (n : Nat)
deriving DecidableEq, Repr

/-- What the host has loaded: a window register, or a BUF byte. -/
inductive Seen where
  | window (off : Nat) (v : Word)
  | buf (a : Word) (v : Byte)
deriving DecidableEq, Repr

/-- A store that the host has issued and that has not reached the window yet (20_memory.md R45; log 17). -/
structure Posted where
  off : Nat
  v : Word
deriving DecidableEq, Repr

/-- Who takes the next step (60_exceptions.md R97; 70_reset_and_hazards.md R100; log 14). -/
inductive Turn where
  | block
  | host
  | reset
  /-- The host bus: the posted store number k, counted from the oldest, reaches the window (20_memory.md R45). -/
  | bus (k : Nat)
deriving DecidableEq, Repr

/-- The host's side of the machine, the model's own (log 14, 15, 17): the number of the host agent, the operations still to
do, the stores issued that have not reached the window (oldest first), who moves next, and the values loaded so far (oldest
first). -/
structure HostSide where
  agent : Nat
  ops : List HostOp
  posted : List Posted
  turns : List Turn
  seen : List Seen
deriving DecidableEq, Repr

/-- The machine's state. -/
structure State where
  seq : Seq
  hw : Hw
  host : HostSide
deriving DecidableEq, Repr

/-- Why a step can fault. Safe: the machine stops. -/
inductive Fault where
  /-- A memory primitive names a byte of SCR or OPB that does not exist (10_state.md R27, R28; 20_memory.md R36). Raised by
  the steps that use `Hw.memRead` and `Hw.memWrite`. Safe: no rule of the spec forms such a reference, and the invariant
  `State.Inv` rules it out (log 19). -/
  | noSuchByte (r : Ref)
deriving DecidableEq, Repr

/-- Why a step can be refused. Safe: the machine stops. -/
inductive Refusal where
  /-- An instruction that has no meaning in this model. No arm of `exec` raises it. Safe. -/
  | notModelled (mnemonic : String)
  /-- A host access to the window that is not 32 bits wide (20_memory.md R37; 93_implementation_defined.md U10). Raised by
  `hostLoad` and `hostStore`. Safe: the spec says a model refuses it. -/
  | hostAccessWidth
  /-- A host access to the window that is not word-aligned (20_memory.md R37; U10). Raised by `hostLoad` and
  `hostStore`. Safe. -/
  | hostAccessMisaligned
  /-- A host access outside the window, offsets 0x00 to 0x3F from WINDOW_BASE (20_memory.md R40; U11). Raised by `hostLoad`
  and `hostStore`. Safe. -/
  | hostAccessOutsideWindow
  /-- A host access that the platform keeps from the window (WINDOW_ACCESS, 60_exceptions.md R96; U21): the spec says nothing
  of what it does. Raised by the host's accesses to the window. Safe. -/
  | hostAccessNotAdmitted
deriving DecidableEq, Repr

/-- The latch's value in the reset states: DESIGN CHOICE (10_state.md R30: unspecified, never observable), log 7. The
page size is 2^0. -/
def Latch.initial : Latch where
  code := 0#8
  c := false
  s := false
  d := false
  rp := false
  off := 0#16
  len := 0#32
  srca := 0#32
  dsta := 0#32
  dat := 0#16
  present := false
  ps := 1#17
  du := 0#16

/-- The state after power-on reset of a block built with the parameters `p` (10_state.md R30; 70_reset_and_hazards.md
R100). LS, the latch, OPB, SCR and CTRL, which the spec leaves unspecified, have the values of logs 6 to 11. -/
def State.resetWith (p : Params) : State where
  seq := .idle
  hw :=
    { params := p
      cmd := 0#32
      status := ⟨false, .ok, false, false⟩
      rdata := 0#32
      offset := 0#16
      length := 0#32
      src := 0#32
      dst := 0#32
      data := 0#16
      devcfg := ⟨false, 0#4, 0#16⟩
      devsize := 0#16
      ls := 0#32
      latch := Latch.initial
      opb := ⟨0#8, 0#8, 0#8, 0#8⟩
      scr := List.replicate (2 * (p.checksumIndex + 1)) 0#8
      mem := []
      ctrl := 0#32
      reads := []
      cancels := []
      draws := 0
      trace := [] }
  host := ⟨0, [], [], [], []⟩

/-- The machine right after reset, built with the reference parameters (log 2). -/
def State.reset : State := State.resetWith Config.reference

end Sys2Proof.Machine
end

