-- ==== Sys2Proof/Machine/Operands.lean ====
section
/-! DEFINITION. Operand assembly: bit addressing in buffers (00_scope.md R11), the operands of the command word and the
latch (30_encoding.md R53), the header bytes of a page frame (20_memory.md R33), the page split (43_flash_ops.md R79),
and the 16-bit words of the checksum engine (R83). -/

namespace Sys2Proof.Machine

/-- The mask `1 << b` of a bit of CTRL (00_scope.md R3). -/
def bitMask (b : Fin 32) : Word := 1#32 <<< b.val

/-- The byte `r + (i div 8)` that holds bit i of a byte sequence (00_scope.md R11). -/
def bitByte (r : Ref) (i : Nat) : Ref := r.add (i / 8)

/-- The bit position `7 - (i mod 8)` of bit i in its byte (00_scope.md R11). -/
def bitPos (i : Nat) : Nat := 7 - i % 8

/-- Read bit i's position in a byte. -/
def getBit (v : Byte) (i : Nat) : Bool := v.getLsbD (bitPos i)

/-- `v[7 - (i mod 8)] <- b` (40_bitclock_transfer.md R65). -/
def setBit (v : Byte) (i : Nat) (b : Bool) : Byte :=
  if b then v ||| (1#8 <<< bitPos i) else v &&& ~~~(1#8 <<< bitPos i)

/-- `v & ~((1 << (8 - (n mod 8))) - 1)`: keep the top (n mod 8) bits, zero the rest (40_bitclock_transfer.md R65). -/
def keepTop (v : Byte) (n : Nat) : Byte := v &&& ~~~((1#8 <<< (8 - n % 8)) - 1#8)

/-- `(BUF, a)` (30_encoding.md R53). -/
def bufRef (a : Word) : Ref := ⟨.buf, a⟩

/-- `(SCR, a)` (20_memory.md R36). -/
def scrRef (a : Nat) : Ref := ⟨.scr, BitVec.ofNat 32 a⟩

/-- `(OPB, 0)` (10_state.md R27). -/
def opbRef : Ref := ⟨.opb, 0#32⟩

/-- The arguments of TRANSFER's Xfer (40_bitclock_transfer.md R66): n = LEN, src if S, dst if D, c = C. -/
def transferArgs (l : Latch) (c s d : Bool) : XferArgs where
  n := l.len.toNat
  src := if s then some (bufRef l.srca) else none
  dst := if d then some (bufRef l.dsta) else none
  c := c

/-- A transfer of n bits out of OPB with no capture: the single-byte and two-byte frames and the page header
(30_encoding.md R57, R58). -/
def opcodeArgs (n : Nat) (c : Bool) : XferArgs := ⟨n, some opbRef, none, c⟩

/-- The read-status transfer: 16 bits, source and destination the same buffer (42_flash_commands.md R73). -/
def statusArgs (c : Bool) : XferArgs := ⟨16, some opbRef, some opbRef, c⟩

/-- The payload of a page write: 8·len bits out, no capture (42_flash_commands.md R74). -/
def payloadOut (v : Span) (c : Bool) : XferArgs := ⟨8 * v.len, some v.buf, none, c⟩

/-- The payload of a page read: 8·len bits in, SI held 0 (42_flash_commands.md R75). -/
def payloadIn (v : Span) (c : Bool) : XferArgs := ⟨8 * v.len, none, some v.buf, c⟩

/-- The byte count LEN[15:0] (30_encoding.md R53). -/
def byteCount (l : Latch) : Nat := (l.len.extractLsb' 0 16).toNat

/-- LENGTH[31:16] = 0, which the page and loop commands require (30_encoding.md R54). -/
def lengthFits (l : Latch) : Bool := l.len.extractLsb' 16 16 == 0#16

/-- The operands OFF, LEN[15:0] and SRCA of WRITE_PAGE and PROGRAM (30_encoding.md R50). -/
def sourceSpan (l : Latch) : Span := ⟨bufRef l.srca, l.off, byteCount l⟩

/-- The operands OFF, LEN[15:0] and DSTA of READ_PAGE and DUMP (30_encoding.md R50). -/
def destSpan (l : Latch) : Span := ⟨bufRef l.dsta, l.off, byteCount l⟩

/-- The status byte DAT[7:0] of WRITE_STATUS (30_encoding.md R53). -/
def statusOperand (l : Latch) : Byte := l.dat.extractLsb' 0 8

/-- The 24-bit wire address, the zero-extended offset (20_memory.md R33, R47). -/
def wireAddress (off : Half) : BitVec 24 := off.setWidth 24

/-- `(off >> 16) & 0xFF`, always 0 (20_memory.md R33). -/
def addrHighByte (off : Half) : Byte := (wireAddress off).extractLsb' 16 8

/-- `off[15:8]` (20_memory.md R33). -/
def addrMidByte (off : Half) : Byte := (wireAddress off).extractLsb' 8 8

/-- `off[7:0]` (20_memory.md R33). -/
def addrLowByte (off : Half) : Byte := (wireAddress off).extractLsb' 0 8

/-- The page size 2^PAGE_LOG2 as the latch holds it (10_state.md R21, R26). -/
def pageSize (k : BitVec 4) : BitVec 17 := 1#17 <<< k.toNat

/-- `min(PS - (off mod PS), len)`: the bytes left in this page, capped at len (43_flash_ops.md R79). -/
def pageChunk (ps : Nat) (v : Span) : Nat := min (ps - v.off.toNat % ps) v.len

/-- The page read that DUMP's loop makes next (43_flash_ops.md R79). -/
def dumpPage (ps : Nat) (v : Span) : Span := ⟨v.buf, v.off, pageChunk ps v⟩

/-- Advance buffer, offset and length by k bytes: the buffer address wraps modulo 2^32, the offset modulo 2^16
(43_flash_ops.md R79, R80; 20_memory.md R47). -/
def Span.advance (v : Span) (k : Nat) : Span := ⟨v.buf.add k, v.off + BitVec.ofNat 16 k, v.len - k⟩

/-- The one byte that PROGRAM's loop writes next (43_flash_ops.md R80). -/
def programByte (v : Span) : Span := ⟨v.buf, v.off, 1⟩

/-- The byte that ClearBP writes: the complement of PROTECT_MASK (42_flash_commands.md R77). -/
def clearBpByte (p : Params) : Byte := ~~~p.protectMask

/-- CHECKSUM's dump: 2·(k+1) bytes from FLASH offset 0 into SCR (43_flash_ops.md R84). -/
def checksumSpan (p : Params) : Span := ⟨scrRef 0, 0#16, 2 * (p.checksumIndex + 1)⟩

/-- CHECKSUM's repair: the word k back to its offset (43_flash_ops.md R84). -/
def repairSpan (p : Params) : Span :=
  ⟨scrRef (2 * p.checksumIndex), BitVec.ofNat 16 (2 * p.checksumIndex), 2⟩

/-- A 16-bit word from the two bytes at 2j and 2j+1 (20_memory.md R34). -/
def joinWord (o : WordOrder) (first second : Byte) : Half :=
  match o with
  | .little => second ++ first
  | .big => first ++ second

/-- The byte of a word that stands at 2j (20_memory.md R34). -/
def firstByte (o : WordOrder) (w : Half) : Byte :=
  match o with
  | .little => w.extractLsb' 0 8
  | .big => w.extractLsb' 8 8

/-- The byte of a word that stands at 2j+1 (20_memory.md R34). -/
def secondByte (o : WordOrder) (w : Half) : Byte :=
  match o with
  | .little => w.extractLsb' 8 8
  | .big => w.extractLsb' 0 8

/-- W(j) of 43_flash_ops.md R83; none where the buffer is too short to hold it. -/
def bufferWord (o : WordOrder) (b : List Byte) (j : Nat) : Option Half :=
  match b[2 * j]?, b[2 * j + 1]? with
  | some x, some y => some (joinWord o x y)
  | _, _ => none

/-- `(W(0) + … + W(k-1)) mod 2^16` (43_flash_ops.md R83). -/
def wordSum (o : WordOrder) (b : List Byte) : Nat → Option Half
  | 0 => some 0#16
  | k + 1 =>
    match wordSum o b k, bufferWord o b k with
    | some x, some w => some (x + w)
    | _, _ => none

/-- What ChecksumEval answers (43_flash_ops.md R83). -/
structure ChecksumResult where
  computed : Half
  stored : Half
deriving DecidableEq, Repr

/-- `match` of 43_flash_ops.md R83. -/
def ChecksumResult.agrees (r : ChecksumResult) : Bool := r.computed == r.stored

/-- ChecksumEval(b, k, E) (43_flash_ops.md R83); none where b is shorter than 2·(k+1) bytes. -/
def checksumEval (o : WordOrder) (b : List Byte) (k : Nat) (expected : Half) : Option ChecksumResult :=
  match wordSum o b k, bufferWord o b k with
  | some total, some stored => some ⟨expected - total, stored⟩
  | _, _ => none

/-- RDATA of CHECKSUM: computed in [15:0], stored in [31:16] (10_state.md R18). -/
def checksumData (r : ChecksumResult) : Word := r.stored ++ r.computed

end Sys2Proof.Machine
end

