-- ==== Sys2Proof/Machine/Flags.lean ====
section
/-! DEFINITION. The status flags (10_state.md R17, R23) and the packed words the host reads: STATUS, DEVCFG and the
zero-extended 16-bit registers (R19, R21), with the numeric result codes of 60_exceptions.md R85. -/

namespace Sys2Proof.Machine

/-- The numeric result codes (60_exceptions.md R85). -/
def RCode.bits : RCode → BitVec 4
  | .ok => 0#4
  | .valid => 1#4
  | .invalid => 2#4
  | .repaired => 3#4
  | .arbTimeout => 4#4
  | .cancelled => 5#4
  | .protectedRegion => 6#4
  | .illegal => 7#4

/-- A flag at a bit position of a 32-bit register. -/
def flagAt (b : Bool) (i : Nat) : Word := (BitVec.ofBool b).setWidth 32 <<< i

/-- STATUS as a 32-bit register: BUSY bit 0, RCODE [11:8], CANCEL_SEEN bit 16, OVERRUN bit 17, the rest zero
(10_state.md R17). -/
def Status.word (t : Status) : Word :=
  flagAt t.busy 0 ||| (t.rcode.bits.setWidth 32 <<< 8) ||| flagAt t.cancelSeen 16 ||| flagAt t.overrun 17

/-- DEVCFG as a 32-bit register: PRESENT bit 0, PAGE_LOG2 [7:4], DELAY_US [31:16], the rest zero (10_state.md R21). -/
def DevCfg.word (d : DevCfg) : Word :=
  flagAt d.present 0 ||| (d.pageLog2.setWidth 32 <<< 4) ||| (d.delayUs.setWidth 32 <<< 16)

/-- The fields of a word written to DEVCFG (10_state.md R21). -/
def DevCfg.ofWord (w : Word) : DevCfg := ⟨w.getLsbD 0, w.extractLsb' 4 4, w.extractLsb' 16 16⟩

/-- STATUS at acceptance: BUSY set, CANCEL_SEEN and OVERRUN cleared, RCODE kept (10_state.md R17). -/
def Status.accepted (t : Status) : Status := ⟨true, t.rcode, false, false⟩

/-- STATUS at `finish(code)` (60_exceptions.md R93). -/
def Status.finished (t : Status) (code : RCode) : Status := ⟨false, code, t.cancelSeen, t.overrun⟩

/-- The result code of a sub-operation's outcome (60_exceptions.md R85). -/
def SubOutcome.rcode : SubOutcome → RCode
  | .ok => .ok
  | .cancelled => .cancelled
  | .arbitrationTimeout => .arbTimeout
  | .protectedRegion => .protectedRegion

/-- `if r = Ok: finish(OK) else: finish(CANCELLED)`, the ending of TRANSFER, DUMP and the FlashCommands
(40_bitclock_transfer.md R66, 42_flash_commands.md R71). -/
def SubOutcome.okOrCancelled : SubOutcome → RCode
  | .ok => .ok
  | .cancelled => .cancelled
  | .arbitrationTimeout => .cancelled
  | .protectedRegion => .cancelled

/-- `if r = Ok: finish(OK) else: finish(ARB_TIMEOUT)`, the ending of ACQUIRE (41_arbiter.md R67). -/
def SubOutcome.okOrTimeout : SubOutcome → RCode
  | .ok => .ok
  | .cancelled => .arbTimeout
  | .arbitrationTimeout => .arbTimeout
  | .protectedRegion => .arbTimeout

/-- The busy test of PollReady: any masked status bit is 1 (42_flash_commands.md R76). -/
def statusBusy (p : Params) (st : Byte) : Bool := st &&& p.statusBusyMask != 0#8

end Sys2Proof.Machine
end

