-- ==== Sys2Proof/Machine/Ops.lean ====
section
/-! DEFINITION. The shared operations: BUF, the port and memory primitives (00_scope.md R5, R6), LS (R10), acceptance
(10_state.md R15, R26), `finish` (60_exceptions.md R93), block reset (70_reset_and_hazards.md R100), the host window
(10_state.md R14), and the combinators of resumable procedures (R16). -/

namespace Sys2Proof.Machine

/-- What a BUF byte that nothing has written reads as. DESIGN CHOICE (the spec gives BUF no contents), log 12. -/
def Memory.blank : Byte := 0x00#8

/-- The canonical form of a BUF memory, from an address upwards. -/
def Memory.wfFrom : Nat → Memory → Bool
  | _, [] => true
  | lo, (a, v) :: m => decide (lo ≤ a) && decide (a < 2 ^ 32) && decide (v ≠ Memory.blank) && Memory.wfFrom (a + 1) m

/-- The canonical form: addresses strictly rising and below 2^32 (20_memory.md R31), no blank byte listed. -/
def Memory.wf (m : Memory) : Bool := Memory.wfFrom 0 m

/-- Read one byte of BUF. -/
def Memory.read : Memory → Nat → Byte
  | [], _ => Memory.blank
  | (a, v) :: m, x => if x = a then v else Memory.read m x

/-- Write one byte of BUF, keeping the canonical form. -/
def Memory.write : Memory → Nat → Byte → Memory
  | [], x, v => if v = Memory.blank then [] else [(x, v)]
  | (a, b) :: m, x, v =>
    if x < a then (if v = Memory.blank then (a, b) :: m else (x, v) :: (a, b) :: m)
    else if x = a then (if v = Memory.blank then m else (x, v) :: m)
    else (a, b) :: Memory.write m x v

/-- Read OPB[i] (10_state.md R27). -/
def Opb.get (o : Opb) : Nat → Option Byte
  | 0 => some o.b0
  | 1 => some o.b1
  | 2 => some o.b2
  | 3 => some o.b3
  | _ => none

/-- Write OPB[i] (10_state.md R27). -/
def Opb.set (o : Opb) (v : Byte) : Nat → Option Opb
  | 0 => some { o with b0 := v }
  | 1 => some { o with b1 := v }
  | 2 => some { o with b2 := v }
  | 3 => some { o with b3 := v }
  | _ => none

/-- What a procedure does after one primitive step: go on at a point, return an outcome, or fault. -/
inductive Res (π ρ : Type) where
  | goto (p : π)
  | ret (r : ρ)
  | fault (f : Fault)
deriving DecidableEq, Repr

/-- Embed a called procedure in its caller: its points are wrapped, its outcome goes to the caller's next part. -/
def Res.chain {π ρ π' ρ' : Type} (x : Res π ρ) (wrap : π → π') (k : ρ → Res π' ρ') : Res π' ρ' :=
  match x with
  | .goto p => .goto (wrap p)
  | .ret r => k r
  | .fault f => .fault f

/-- `Res.chain` for a step of the called procedure: the caller's next part sees the state after the step. -/
def chainStep {π ρ π' ρ' : Type} (x : Hw × Res π ρ) (wrap : π → π') (k : Hw → ρ → Res π' ρ') : Hw × Res π' ρ' :=
  (x.1, x.2.chain wrap (k x.1))

namespace Hw

/-- The answer the next RegRead gets (00_scope.md R7): the environment's next answer, or a free value (log 3). -/
def readAnswer (s : Hw) : Word :=
  match s.reads with
  | v :: _ => v
  | [] => Config.freeRead s.draws

/-- The answer the next CancelPending gets (00_scope.md R7; log 4). -/
def cancelAnswer (s : Hw) : Bool :=
  match s.cancels with
  | b :: _ => b
  | [] => Config.freeCancel s.draws

/-- Append an event to the port trace (00_scope.md R5). -/
def emit (s : Hw) (e : Event) : Hw := { s with trace := s.trace ++ [e] }

/-- `LS <- RegRead()` (00_scope.md R5; 10_state.md R25). -/
def regRead (s : Hw) : Hw :=
  { s with
    ls := s.readAnswer
    ctrl := s.readAnswer
    reads := s.reads.tail
    draws := s.draws + 1
    trace := s.trace ++ [.rd s.readAnswer] }

/-- `RegWrite(LS)` (00_scope.md R5, R10; 10_state.md R25: every RegWrite writes LS). -/
def regWrite (s : Hw) : Hw := { s with ctrl := s.ls, trace := s.trace ++ [.wr s.ls] }

/-- `Flush()` (00_scope.md R5; 20_memory.md R42). -/
def flush (s : Hw) : Hw := s.emit .fl

/-- `Delay(us)` (00_scope.md R5; 20_memory.md R43). -/
def delay (s : Hw) (us : Nat) : Hw := s.emit (.dl us)

/-- `Delay(DU)` (00_scope.md R8). -/
def delayUnit (s : Hw) : Hw := s.delay s.latch.du.toNat

/-- `CancelPending()` (00_scope.md R5), but for its answer, which is `cancelAnswer`. -/
def cancelPending (s : Hw) : Hw :=
  { s with cancels := s.cancels.tail, draws := s.draws + 1, trace := s.trace ++ [.cp s.cancelAnswer] }

/-- `R[STATUS].CANCEL_SEEN <- 1` (40_bitclock_transfer.md R65). -/
def markCancelled (s : Hw) : Hw := { s with status := { s.status with cancelSeen := true } }

/-- Set bits of LS (00_scope.md R10). -/
def setLs (s : Hw) (m : Word) : Hw := { s with ls := s.ls ||| m }

/-- Clear bits of LS (00_scope.md R10). -/
def clearLs (s : Hw) (m : Word) : Hw := { s with ls := s.ls &&& ~~~m }

/-- LS[BIT_GNT] (41_arbiter.md R67). -/
def granted (s : Hw) : Bool := s.ls.getLsbD s.params.bitGnt.val

/-- LS[BIT_SO] (40_bitclock_transfer.md R65). -/
def sampledBit (s : Hw) : Bool := s.ls.getLsbD s.params.bitSo.val

/-- `MemRead(r, 1)` (00_scope.md R6). -/
def memRead (s : Hw) (r : Ref) : Option Byte :=
  match r.space with
  | .buf => some (s.mem.read r.addr.toNat)
  | .scr => s.scr[r.addr.toNat]?
  | .opb => s.opb.get r.addr.toNat

/-- `MemWrite(r, 1, v)` (00_scope.md R6). -/
def memWrite (s : Hw) (r : Ref) (v : Byte) : Option Hw :=
  match r.space with
  | .buf => some { s with mem := s.mem.write r.addr.toNat v }
  | .scr => if r.addr.toNat < s.scr.length then some { s with scr := s.scr.set r.addr.toNat v } else none
  | .opb =>
    match s.opb.set v r.addr.toNat with
    | some o => some { s with opb := o }
    | none => none

/-- `OPB[0] <- v` (42_flash_commands.md R71). -/
def setOpb0 (s : Hw) (v : Byte) : Hw := { s with opb := { s.opb with b0 := v } }

/-- `OPB[1] <- v` (42_flash_commands.md R72). -/
def setOpb1 (s : Hw) (v : Byte) : Hw := { s with opb := { s.opb with b1 := v } }

/-- `OPB[2] <- v` (42_flash_commands.md R74). -/
def setOpb2 (s : Hw) (v : Byte) : Hw := { s with opb := { s.opb with b2 := v } }

/-- `OPB[3] <- v` (42_flash_commands.md R74). -/
def setOpb3 (s : Hw) (v : Byte) : Hw := { s with opb := { s.opb with b3 := v } }

/-- `R[RDATA] <- v` (10_state.md R18). -/
def setRdata (s : Hw) (v : Word) : Hw := { s with rdata := v }

/-- The latch that acceptance of the word w loads (10_state.md R26). -/
def latchFor (s : Hw) (w : Word) : Latch where
  code := codeField w
  c := flagC w
  s := flagS w
  d := flagD w
  rp := flagRp w
  off := s.offset
  len := s.length
  srca := s.src
  dsta := s.dst
  dat := s.data
  present := s.devcfg.present
  ps := pageSize s.devcfg.pageLog2
  du := s.devcfg.delayUs

/-- Acceptance of the word w: CMD and the latch are loaded, BUSY is set, CANCEL_SEEN, OVERRUN and RDATA are cleared
(10_state.md R15, R17, R18, R26). -/
def accept (s : Hw) (w : Word) : Hw :=
  { s with cmd := w, latch := s.latchFor w, status := s.status.accepted, rdata := 0#32 }

/-- A host load at a word-aligned offset of the window (10_state.md R14 to R22). -/
def windowLoad (s : Hw) : Nat → Word
  | 0x00 => s.cmd
  | 0x04 => s.status.word
  | 0x08 => s.rdata
  | 0x0C => s.offset.setWidth 32
  | 0x10 => s.length
  | 0x14 => s.src
  | 0x18 => s.dst
  | 0x1C => s.data.setWidth 32
  | 0x20 => s.devcfg.word
  | 0x24 => s.devsize.setWidth 32
  | _ => 0#32

/-- A host store at a word-aligned offset of the window other than CMD (10_state.md R17 to R22): STATUS, RDATA and the
reserved offsets ignore it. A store to CMD is the host step's (R15). -/
def windowStore (s : Hw) (off : Nat) (v : Word) : Hw :=
  match off with
  | 0x0C => { s with offset := v.extractLsb' 0 16 }
  | 0x10 => { s with length := v }
  | 0x14 => { s with src := v }
  | 0x18 => { s with dst := v }
  | 0x1C => { s with data := v.extractLsb' 0 16 }
  | 0x20 => { s with devcfg := DevCfg.ofWord v }
  | 0x24 => { s with devsize := v.extractLsb' 0 16 }
  | _ => s

/-- OVERRUN: a store to CMD while busy (60_exceptions.md R95). -/
def markOverrun (s : Hw) : Hw := { s with status := { s.status with overrun := true } }

/-- The free latch after a block reset step (70_reset_and_hazards.md R100; log 10). -/
def freeLatch (n : Nat) : Latch where
  code := (Config.freeAtReset .latchCode n).setWidth 8
  c := (Config.freeAtReset .latchFlags n).getLsbD 0
  s := (Config.freeAtReset .latchFlags n).getLsbD 1
  d := (Config.freeAtReset .latchFlags n).getLsbD 2
  rp := (Config.freeAtReset .latchFlags n).getLsbD 3
  off := (Config.freeAtReset .latchOff n).setWidth 16
  len := Config.freeAtReset .latchLen n
  srca := Config.freeAtReset .latchSrca n
  dsta := Config.freeAtReset .latchDsta n
  dat := (Config.freeAtReset .latchDat n).setWidth 16
  present := (Config.freeAtReset .latchPresent n).getLsbD 0
  ps := (Config.freeAtReset .latchPs n).setWidth 17
  du := (Config.freeAtReset .latchDu n).setWidth 16

/-- One free byte after a block reset step (log 10). -/
def freeByte (u : Unspecified) (n : Nat) : Byte := (Config.freeAtReset u n).setWidth 8

/-- Block reset of everything but SEQ (70_reset_and_hazards.md R100, R101): the host-visible registers take the values of
10_state.md R30, LS, the latch, OPB and SCR become unspecified, and CTRL, BUF and the trace are left alone. -/
def blockReset (s : Hw) : Hw :=
  { s with
    cmd := 0#32
    status := ⟨false, .ok, false, false⟩
    rdata := 0#32
    offset := 0#16
    length := 0#32
    src := 0#32
    dst := 0#32
    data := 0#16
    devcfg := ⟨false, 0#4, 0#16⟩
    devsize := 0#16
    ls := Config.freeAtReset .ls s.draws
    latch := freeLatch s.draws
    opb := ⟨freeByte (.opb 0) s.draws, freeByte (.opb 1) s.draws, freeByte (.opb 2) s.draws, freeByte (.opb 3) s.draws⟩
    scr := (List.range (2 * (s.params.checksumIndex + 1))).map fun a => freeByte (.scr a) s.draws
    draws := s.draws + 1 }

end Hw

/-- `finish(code)` (60_exceptions.md R93): RCODE, BUSY and SEQ, in one step. DESIGN CHOICE: LS, the latch and OPB keep
the last command's contents between commands, where the spec leaves them unspecified and never observable (10_state.md R25
to R27; 93_implementation_defined.md U5; log 31). -/
def State.finish (s : State) (code : RCode) : State :=
  { s with seq := .idle, hw := { s.hw with status := s.hw.status.finished code } }

/-- Put SEQ at a point. -/
def State.at (s : State) (q : Seq) : State := { s with seq := q }

/-- Block reset: one step, taken at any time (70_reset_and_hazards.md R100). -/
def State.blockReset (s : State) : State := { s with seq := .idle, hw := s.hw.blockReset }

/-- One step of the procedure that a command's point stands in: the procedure goes on, or its outcome goes to the
command's ending. -/
def State.advance {π ρ : Type} (s : State) (x : Hw × Res π ρ) (wrap : π → Seq) (k : ρ → Seq) :
    Host.Outcome State Fault Refusal :=
  match x.2 with
  | .goto p => .next { s with hw := x.1, seq := wrap p }
  | .ret r => .next { s with hw := x.1, seq := k r }
  | .fault f => .fault f

/-- Enter a command at its procedure's first point; a procedure that has no step of its own returns at once. -/
def State.enter {π ρ : Type} (s : State) (x : Res π ρ) (wrap : π → Seq) (k : ρ → Seq) :
    Host.Outcome State Fault Refusal :=
  match x with
  | .goto p => .next (s.at (wrap p))
  | .ret r => .next (s.at (k r))
  | .fault f => .fault f

end Sys2Proof.Machine
end

