-- ==== Sys2Proof/Machine/Transfer.lean ====
section
/-! DEFINITION. BitClock and the shift engine (40_bitclock_transfer.md): the micro-operations RAISE and LOWER (R63, R64),
the shift procedure Xfer (R65) and the command TRANSFER (R66). -/

namespace Sys2Proof.Machine

/-- `RegWrite(LS); Flush(); Delay(DU)`, one primitive a step (20_memory.md R42). -/
def stepDrive : DrivePt → Hw → Hw × Res DrivePt SubOutcome
  | .write, s => (s.regWrite, .goto .flush)
  | .flush, s => (s.flush, .goto .delay)
  | .delay, s => (s.delayUnit, .ret .ok)

/-- RAISE (40_bitclock_transfer.md R63). -/
def stepRaise : ClockPt → Hw → Hw × Res ClockPt SubOutcome
  | .change, s => (s.setLs (bitMask s.params.bitSk), .goto (.drive .write))
  | .drive p, s => chainStep (stepDrive p s) .drive fun _ r => .ret r

/-- LOWER (40_bitclock_transfer.md R64). -/
def stepLower : ClockPt → Hw → Hw × Res ClockPt SubOutcome
  | .change, s => (s.clearLs (bitMask s.params.bitSk), .goto (.drive .write))
  | .drive p, s => chainStep (stepDrive p s) .drive fun _ r => .ret r

/-- After the last bit: the trailing-bit clear, where there is a destination and n mod 8 ≠ 0
(40_bitclock_transfer.md R65). -/
def XferArgs.tail (a : XferArgs) : Res XferPt SubOutcome :=
  match a.dst with
  | some r => if a.n % 8 ≠ 0 then .goto (.loadTail (r.add (a.n / 8))) else .ret .ok
  | none => .ret .ok

/-- Step 2 of bit i: fetch the source bit, or shift out 0 (40_bitclock_transfer.md R65). -/
def XferArgs.bitSource (a : XferArgs) (i : Nat) : XferPt :=
  match a.src with
  | some r => .fetch i (bitByte r i)
  | none => .present i false

/-- The head of the bit loop, at bit i: step 1 samples cancellation where c = 1 (40_bitclock_transfer.md R65). -/
def XferArgs.startBit (a : XferArgs) (i : Nat) : Res XferPt SubOutcome :=
  if i < a.n then .goto (if a.c then .check i else a.bitSource i) else a.tail

/-- After the sample of bit i: capture it, or discard it (40_bitclock_transfer.md R65). -/
def XferArgs.capture (a : XferArgs) (i : Nat) : XferPt :=
  match a.dst with
  | some r => .load i (bitByte r i)
  | none => .fall i .change

/-- Xfer(n, src, dst, c) (40_bitclock_transfer.md R65), one primitive a step. -/
def stepXfer (a : XferArgs) : XferPt → Hw → Hw × Res XferPt SubOutcome
  | .seed, s => (s.regRead, a.startBit 0)
  | .check i, s => (s.cancelPending, .goto (if s.cancelAnswer then .markCancelled else a.bitSource i))
  | .markCancelled, s => (s.markCancelled, .ret .cancelled)
  | .fetch i r, s =>
    match s.memRead r with
    | some v => (s, .goto (.present i (getBit v i)))
    | none => (s, .fault (.noSuchByte r))
  | .present i b, s =>
    (if b then s.setLs (bitMask s.params.bitSi) else s.clearLs (bitMask s.params.bitSi), .goto (.setup i .write))
  | .setup i p, s => chainStep (stepDrive p s) (.setup i) fun _ _ => .goto (.rise i .change)
  | .rise i p, s => chainStep (stepRaise p s) (.rise i) fun _ _ => .goto (.sample i)
  | .sample i, s => (s.regRead, .goto (a.capture i))
  | .load i r, s =>
    match s.memRead r with
    | some v => (s, .goto (.store i r v))
    | none => (s, .fault (.noSuchByte r))
  | .store i r v, s =>
    match s.memWrite r (setBit v i s.sampledBit) with
    | some s' => (s', .goto (.fall i .change))
    | none => (s, .fault (.noSuchByte r))
  | .fall i p, s => chainStep (stepLower p s) (.fall i) fun _ _ => a.startBit (i + 1)
  | .loadTail r, s =>
    match s.memRead r with
    | some v => (s, .goto (.storeTail r v))
    | none => (s, .fault (.noSuchByte r))
  | .storeTail r v, s =>
    match s.memWrite r (keepTop v a.n) with
    | some s' => (s', .ret .ok)
    | none => (s, .fault (.noSuchByte r))

/-- The ending of TRANSFER (40_bitclock_transfer.md R66). -/
def endTransfer (r : SubOutcome) : Seq := .finish r.okOrCancelled

/-- TRANSFER (40_bitclock_transfer.md R66): enter Xfer(LEN, src, dst, C). -/
def execTransfer (c sf df : Bool) (s : State) : Host.Outcome State Fault Refusal :=
  .next (s.at (.transfer (transferArgs s.hw.latch c sf df) .seed))

/-- One step of a running TRANSFER. -/
def contTransfer (a : XferArgs) (p : XferPt) (s : State) : Host.Outcome State Fault Refusal :=
  s.advance (stepXfer a p s.hw) (.transfer a) endTransfer

end Sys2Proof.Machine
end

