-- ==== Sys2Proof/Machine/Arbiter.lean ====
section
/-! DEFINITION. The bus arbiter handshake controller (41_arbiter.md): Acquire, Release and Standby (R67 to R70), and the
commands ACQUIRE, RELEASE and STANDBY. Only these three test PRESENT (R70). -/

namespace Sys2Proof.Machine

/-- Enter Acquire: "no-op success if no FLASH is attached" (41_arbiter.md R67). -/
def enterAcquire (s : Hw) : Res AcquirePt SubOutcome := if s.latch.present then .goto .seed else .ret .ok

/-- The bounded poll, after a poll round's read: go on while GNT = 0 and a < GRANT_ATTEMPTS; else the timeout or the idle
baseline (41_arbiter.md R67). -/
def afterPoll (s : Hw) (a : Nat) : AcquirePt :=
  if s.granted then .baseline
  else if a < s.params.grantAttempts then .pollDelay (a + 1)
  else .clearReq

/-- Acquire() (41_arbiter.md R67), one primitive a step. -/
def stepAcquire : AcquirePt → Hw → Hw × Res AcquirePt SubOutcome
  | .seed, s => (s.regRead, .goto .setReq)
  | .setReq, s => (s.setLs (bitMask s.params.bitReq), .goto .writeReq)
  | .writeReq, s => (s.regWrite, .goto (.poll 0))
  | .poll a, s => (s.regRead, .goto (afterPoll s.regRead a))
  | .pollDelay a, s => (s.delay s.params.grantPollUs, .goto (.poll a))
  | .clearReq, s => (s.clearLs (bitMask s.params.bitReq), .goto .writeTimeout)
  | .writeTimeout, s => (s.regWrite, .ret .arbitrationTimeout)
  | .baseline, s =>
    (s.clearLs (bitMask s.params.bitSi ||| bitMask s.params.bitCen ||| bitMask s.params.bitSk), .goto .writeBaseline)
  | .writeBaseline, s => (s.regWrite, .goto .delayBaseline)
  | .delayBaseline, s => (s.delayUnit, .ret .ok)

/-- Enter Release: "no-op if no FLASH attached" (41_arbiter.md R68). -/
def enterRelease (s : Hw) : Res ReleasePt SubOutcome := if s.latch.present then .goto .seed else .ret .ok

/-- `LS <- (LS | M_CEN) & ~M_SK` (41_arbiter.md R68). -/
def deselectLs (s : Hw) : Hw := (s.setLs (bitMask s.params.bitCen)).clearLs (bitMask s.params.bitSk)

/-- Release() (41_arbiter.md R68), one primitive a step. -/
def stepRelease : ReleasePt → Hw → Hw × Res ReleasePt SubOutcome
  | .seed, s => (s.regRead, .goto .deselect)
  | .deselect, s => (deselectLs s, .goto .writeDeselect)
  | .writeDeselect, s => (s.regWrite, .goto .delayDeselect)
  | .delayDeselect, s => (s.delayUnit, .goto .clearReq)
  | .clearReq, s => (s.clearLs (bitMask s.params.bitReq), .goto .writeReq)
  | .writeReq, s => (s.regWrite, .ret .ok)

/-- Enter Standby: "if FLASH attached" (41_arbiter.md R69). -/
def enterStandby (s : Hw) : Res StandbyPt SubOutcome := if s.latch.present then .goto .seed else .ret .ok

/-- Standby() (41_arbiter.md R69), one primitive a step. -/
def stepStandby : StandbyPt → Hw → Hw × Res StandbyPt SubOutcome
  | .seed, s => (s.regRead, .goto .setCen)
  | .setCen, s => (s.setLs (bitMask s.params.bitCen), .goto (.driveHigh .write))
  | .driveHigh p, s => chainStep (stepDrive p s) .driveHigh fun _ _ => .goto .clearCen
  | .clearCen, s => (s.clearLs (bitMask s.params.bitCen), .goto (.driveLow .write))
  | .driveLow p, s => chainStep (stepDrive p s) .driveLow fun _ r => .ret r

/-- The ending of ACQUIRE (41_arbiter.md R67). -/
def endAcquire (r : SubOutcome) : Seq := .finish r.okOrTimeout

/-- ACQUIRE (41_arbiter.md R67). -/
def execAcquire (s : State) : Host.Outcome State Fault Refusal := s.enter (enterAcquire s.hw) .acquire endAcquire

/-- One step of a running ACQUIRE. -/
def contAcquire (p : AcquirePt) (s : State) : Host.Outcome State Fault Refusal :=
  s.advance (stepAcquire p s.hw) .acquire endAcquire

/-- The ending of RELEASE (41_arbiter.md R68): `finish(OK)`. -/
def endRelease (_ : SubOutcome) : Seq := .finish .ok

/-- RELEASE (41_arbiter.md R68). -/
def execRelease (s : State) : Host.Outcome State Fault Refusal := s.enter (enterRelease s.hw) .release endRelease

/-- One step of a running RELEASE. -/
def contRelease (p : ReleasePt) (s : State) : Host.Outcome State Fault Refusal :=
  s.advance (stepRelease p s.hw) .release endRelease

/-- The ending of STANDBY (41_arbiter.md R69): `finish(OK)`. -/
def endStandby (_ : SubOutcome) : Seq := .finish .ok

/-- STANDBY (41_arbiter.md R69). -/
def execStandby (s : State) : Host.Outcome State Fault Refusal := s.enter (enterStandby s.hw) .standby endStandby

/-- One step of a running STANDBY. -/
def contStandby (p : StandbyPt) (s : State) : Host.Outcome State Fault Refusal :=
  s.advance (stepStandby p s.hw) .standby endStandby

end Sys2Proof.Machine
end

