-- ==== Sys2Proof/Machine/FlashCommands.lean ====
section
/-! DEFINITION. The FLASH command sequencer (42_flash_commands.md): EnableWrite, WriteStatus, ReadStatus, WritePage,
ReadPage, PollReady and ClearBP (R71 to R78), and their commands. None of them acquires or releases the bus (R78). -/

namespace Sys2Proof.Machine

/-- Enter EnableWrite (42_flash_commands.md R71): its Standby, or its first opcode byte. -/
def enterEnableWrite (s : Hw) : Res EnableWritePt SubOutcome :=
  (enterStandby s).chain .standby fun _ => .goto .opcode

/-- EnableWrite(c) (42_flash_commands.md R71). -/
def stepEnableWrite (c : Bool) : EnableWritePt → Hw → Hw × Res EnableWritePt SubOutcome
  | .standby p, s => chainStep (stepStandby p s) .standby fun _ _ => .goto .opcode
  | .opcode, s => (s.setOpb0 s.params.opWren, .goto (.xfer .seed))
  | .xfer p, s => chainStep (stepXfer (opcodeArgs 8 c) p s) .xfer fun _ r => .ret r

/-- WriteStatus after its EnableWrite: `if r != Ok: raise Cancelled()`, then Standby (42_flash_commands.md R72). -/
def writeStatusFrame (s : Hw) : SubOutcome → Res WriteStatusPt SubOutcome
  | .ok => (enterStandby s).chain .standby fun _ => .goto .opcode
  | _ => .ret .cancelled

/-- Enter WriteStatus (42_flash_commands.md R72). -/
def enterWriteStatus (s : Hw) : Res WriteStatusPt SubOutcome :=
  (enterEnableWrite s).chain .enable (writeStatusFrame s)

/-- WriteStatus(st, c) (42_flash_commands.md R72). -/
def stepWriteStatus (st : Byte) (c : Bool) : WriteStatusPt → Hw → Hw × Res WriteStatusPt SubOutcome
  | .enable p, s => chainStep (stepEnableWrite c p s) .enable writeStatusFrame
  | .standby p, s => chainStep (stepStandby p s) .standby fun _ _ => .goto .opcode
  | .opcode, s => (s.setOpb0 s.params.opWrsr, .goto .status)
  | .status, s => (s.setOpb1 st, .goto (.xfer .seed))
  | .xfer p, s => chainStep (stepXfer (opcodeArgs 16 c) p s) .xfer fun _ r => .ret r

/-- Enter ReadStatus (42_flash_commands.md R73). -/
def enterReadStatus (s : Hw) : Res ReadStatusPt StatusOutcome :=
  (enterStandby s).chain .standby fun _ => .goto .opcode

/-- "returns the second captured byte": OPB[1] (42_flash_commands.md R73). -/
def statusResult (s : Hw) : SubOutcome → StatusOutcome
  | .ok => .ok s.opb.b1
  | _ => .cancelled

/-- ReadStatus(c) (42_flash_commands.md R73). -/
def stepReadStatus (c : Bool) : ReadStatusPt → Hw → Hw × Res ReadStatusPt StatusOutcome
  | .standby p, s => chainStep (stepStandby p s) .standby fun _ _ => .goto .opcode
  | .opcode, s => (s.setOpb0 s.params.opRdsr, .goto .zero)
  | .zero, s => (s.setOpb1 0x00#8, .goto (.xfer .seed))
  | .xfer p, s => chainStep (stepXfer (statusArgs c) p s) .xfer fun s' r => .ret (statusResult s' r)

/-- Enter WritePage or ReadPage (42_flash_commands.md R74, R75). -/
def enterPage (s : Hw) : Res PagePt SubOutcome :=
  (enterStandby s).chain .standby fun _ => .goto .opcode

/-- After the header transfer: `if r != Ok: raise Cancelled()`, then the payload (42_flash_commands.md R74, R75). -/
def afterHeader : SubOutcome → Res PagePt SubOutcome
  | .ok => .goto (.payload .seed)
  | _ => .ret .cancelled

/-- A page command's frame (30_encoding.md R57): Standby, the four header bytes, the header transfer, the payload
transfer. -/
def stepPage (op : Byte) (off : Half) (payload : XferArgs) (c : Bool) : PagePt → Hw → Hw × Res PagePt SubOutcome
  | .standby p, s => chainStep (stepStandby p s) .standby fun _ _ => .goto .opcode
  | .opcode, s => (s.setOpb0 op, .goto .addrHigh)
  | .addrHigh, s => (s.setOpb1 (addrHighByte off), .goto .addrMid)
  | .addrMid, s => (s.setOpb2 (addrMidByte off), .goto .addrLow)
  | .addrLow, s => (s.setOpb3 (addrLowByte off), .goto (.header .seed))
  | .header p, s =>
    chainStep (stepXfer (opcodeArgs 32 c) p s) .header fun _ r => afterHeader r
  | .payload p, s => chainStep (stepXfer payload p s) .payload fun _ r => .ret r

/-- WritePage(data, off, len, c) (42_flash_commands.md R74). -/
def stepWritePage (v : Span) (c : Bool) (p : PagePt) (s : Hw) : Hw × Res PagePt SubOutcome :=
  stepPage s.params.opWrite v.off (payloadOut v c) c p s

/-- ReadPage(buf, off, len, c) (42_flash_commands.md R75). -/
def stepReadPage (v : Span) (c : Bool) (p : PagePt) (s : Hw) : Hw × Res PagePt SubOutcome :=
  stepPage s.params.opRead v.off (payloadIn v c) c p s

/-- PollReady's loop after one ReadStatus: again while the status is busy (42_flash_commands.md R76). The loop has no
bound (60_exceptions.md R99). -/
def afterStatus (s : Hw) : StatusOutcome → Res ReadStatusPt StatusOutcome
  | .ok st => if statusBusy s.params st then enterReadStatus s else .ret (.ok st)
  | .cancelled => .ret .cancelled

/-- PollReady(c) (42_flash_commands.md R76). -/
def stepPollReady (c : Bool) (p : ReadStatusPt) (s : Hw) : Hw × Res ReadStatusPt StatusOutcome :=
  chainStep (stepReadStatus c p s) id afterStatus

/-- ClearBP(c) (42_flash_commands.md R77): WriteStatus of the complement of PROTECT_MASK. -/
def stepClearBp (c : Bool) (p : WriteStatusPt) (s : Hw) : Hw × Res WriteStatusPt SubOutcome :=
  stepWriteStatus (clearBpByte s.params) c p s

/-- The ending of ENABLE_WRITE, WRITE_STATUS, WRITE_PAGE, READ_PAGE and CLEAR_BP (42_flash_commands.md R71 to R77). -/
def endFlashCommand (r : SubOutcome) : Seq := .finish r.okOrCancelled

/-- The ending of READ_STATUS and POLL_READY (42_flash_commands.md R73, R76). -/
def endStatusCommand : StatusOutcome → Seq
  | .ok st => .statusResult st
  | .cancelled => .finish .cancelled

/-- ENABLE_WRITE (42_flash_commands.md R71). -/
def execEnableWrite (c : Bool) (s : State) : Host.Outcome State Fault Refusal :=
  s.enter (enterEnableWrite s.hw) (.enableWrite c) endFlashCommand

/-- One step of a running ENABLE_WRITE. -/
def contEnableWrite (c : Bool) (p : EnableWritePt) (s : State) : Host.Outcome State Fault Refusal :=
  s.advance (stepEnableWrite c p s.hw) (.enableWrite c) endFlashCommand

/-- WRITE_STATUS (42_flash_commands.md R72). -/
def execWriteStatus (c : Bool) (s : State) : Host.Outcome State Fault Refusal :=
  s.enter (enterWriteStatus s.hw) (.writeStatus (statusOperand s.hw.latch) c) endFlashCommand

/-- One step of a running WRITE_STATUS. -/
def contWriteStatus (st : Byte) (c : Bool) (p : WriteStatusPt) (s : State) : Host.Outcome State Fault Refusal :=
  s.advance (stepWriteStatus st c p s.hw) (.writeStatus st c) endFlashCommand

/-- READ_STATUS (42_flash_commands.md R73). -/
def execReadStatus (c : Bool) (s : State) : Host.Outcome State Fault Refusal :=
  s.enter (enterReadStatus s.hw) (.readStatus c) endStatusCommand

/-- One step of a running READ_STATUS. -/
def contReadStatus (c : Bool) (p : ReadStatusPt) (s : State) : Host.Outcome State Fault Refusal :=
  s.advance (stepReadStatus c p s.hw) (.readStatus c) endStatusCommand

/-- WRITE_PAGE (42_flash_commands.md R74); LENGTH[31:16] ≠ 0 is illegal (30_encoding.md R52, R54). -/
def execWritePage (c : Bool) (s : State) : Host.Outcome State Fault Refusal :=
  if lengthFits s.hw.latch then s.enter (enterPage s.hw) (.writePage (sourceSpan s.hw.latch) c) endFlashCommand
  else .next (s.at (.finish .illegal))

/-- One step of a running WRITE_PAGE. -/
def contWritePage (v : Span) (c : Bool) (p : PagePt) (s : State) : Host.Outcome State Fault Refusal :=
  s.advance (stepWritePage v c p s.hw) (.writePage v c) endFlashCommand

/-- READ_PAGE (42_flash_commands.md R75); LENGTH[31:16] ≠ 0 is illegal (30_encoding.md R52, R54). -/
def execReadPage (c : Bool) (s : State) : Host.Outcome State Fault Refusal :=
  if lengthFits s.hw.latch then s.enter (enterPage s.hw) (.readPage (destSpan s.hw.latch) c) endFlashCommand
  else .next (s.at (.finish .illegal))

/-- One step of a running READ_PAGE. -/
def contReadPage (v : Span) (c : Bool) (p : PagePt) (s : State) : Host.Outcome State Fault Refusal :=
  s.advance (stepReadPage v c p s.hw) (.readPage v c) endFlashCommand

/-- POLL_READY (42_flash_commands.md R76). -/
def execPollReady (c : Bool) (s : State) : Host.Outcome State Fault Refusal :=
  s.enter (enterReadStatus s.hw) (.pollReady c) endStatusCommand

/-- One step of a running POLL_READY. -/
def contPollReady (c : Bool) (p : ReadStatusPt) (s : State) : Host.Outcome State Fault Refusal :=
  s.advance (stepPollReady c p s.hw) (.pollReady c) endStatusCommand

/-- CLEAR_BP (42_flash_commands.md R77). -/
def execClearBp (c : Bool) (s : State) : Host.Outcome State Fault Refusal :=
  s.enter (enterWriteStatus s.hw) (.clearBp c) endFlashCommand

/-- One step of a running CLEAR_BP. -/
def contClearBp (c : Bool) (p : WriteStatusPt) (s : State) : Host.Outcome State Fault Refusal :=
  s.advance (stepClearBp c p s.hw) (.clearBp c) endFlashCommand

/-- `R[RDATA] <- zext_32(st)`, and then `finish(OK)` (42_flash_commands.md R73, R76). -/
def contStatusResult (st : Byte) (s : State) : Host.Outcome State Fault Refusal :=
  .next { s with hw := s.hw.setRdata (st.setWidth 32), seq := .finish .ok }

end Sys2Proof.Machine
end

