-- ==== Sys2Proof/Machine/FlashOps.lean ====
section
/-! DEFINITION. The FLASH operations and the checksum engine (43_flash_ops.md): Dump, Program, Erase, Unlock and CHECKSUM
(R79 to R84). DUMP and PROGRAM run inside the host's session; ERASE, UNLOCK and CHECKSUM open and close their own. -/

namespace Sys2Proof.Machine

/-- The head of Dump's page loop (43_flash_ops.md R79). -/
def dumpNext (s : Hw) (v : Span) : Res DumpPt SubOutcome :=
  if v.len = 0 then .ret .ok else (enterPage s).chain (.page v) .ret

/-- Dump after its PollReady (43_flash_ops.md R79). -/
def dumpPolled (v : Span) (s : Hw) : StatusOutcome → Res DumpPt SubOutcome
  | .ok _ => dumpNext s v
  | .cancelled => .ret .cancelled

/-- Dump after one page read (43_flash_ops.md R79). -/
def dumpRead (v : Span) (s : Hw) : SubOutcome → Res DumpPt SubOutcome
  | .ok => dumpNext s (v.advance (pageChunk s.latch.ps.toNat v))
  | _ => .ret .cancelled

/-- Enter Dump(buf, off, len, c) (43_flash_ops.md R79). -/
def enterDump (s : Hw) (v : Span) : Res DumpPt SubOutcome := (enterReadStatus s).chain (.poll v) (dumpPolled v s)

/-- Dump(buf, off, len, c) (43_flash_ops.md R79). -/
def stepDump (c : Bool) : DumpPt → Hw → Hw × Res DumpPt SubOutcome
  | .poll v p, s => chainStep (stepPollReady c p s) (.poll v) (dumpPolled v)
  | .page v p, s => chainStep (stepReadPage (dumpPage s.latch.ps.toNat v) c p s) (.page v) (dumpRead v)

/-- Program's last part, a final PollReady, once it has answered (43_flash_ops.md R80). -/
def programEnd : StatusOutcome → SubOutcome
  | .ok _ => .ok
  | .cancelled => .cancelled

/-- Program's loop body after its PollReady: EnableWrite (43_flash_ops.md R80). -/
def programPolled (v : Span) (s : Hw) : StatusOutcome → Res ProgramPt SubOutcome
  | .ok _ => (enterEnableWrite s).chain (.enable v) .ret
  | .cancelled => .ret .cancelled

/-- Program's loop body after its EnableWrite: WritePage of one byte (43_flash_ops.md R80). -/
def programEnabled (v : Span) (s : Hw) : SubOutcome → Res ProgramPt SubOutcome
  | .ok => (enterPage s).chain (.write v) .ret
  | _ => .ret .cancelled

/-- The head of Program's byte loop: the next byte's PollReady, or the final one (43_flash_ops.md R80). -/
def programNext (s : Hw) (v : Span) : Res ProgramPt SubOutcome :=
  if v.len = 0 then (enterReadStatus s).chain .finalPoll fun r => .ret (programEnd r)
  else (enterReadStatus s).chain (.poll v) (programPolled v s)

/-- Program's loop after one byte (43_flash_ops.md R80). -/
def programWritten (v : Span) (s : Hw) : SubOutcome → Res ProgramPt SubOutcome
  | .ok => programNext s (v.advance 1)
  | _ => .ret .cancelled

/-- Program after its ClearBP: on failure Release, then ProtectedRegion (43_flash_ops.md R80). -/
def programCleared (v : Span) (s : Hw) : SubOutcome → Res ProgramPt SubOutcome
  | .ok => programNext s v
  | _ => (enterRelease s).chain .release fun _ => .ret .protectedRegion

/-- Enter Program(data, off, len, c) (43_flash_ops.md R80). -/
def enterProgram (s : Hw) (v : Span) : Res ProgramPt SubOutcome :=
  (enterWriteStatus s).chain (.clearBp v) (programCleared v s)

/-- Program(data, off, len, c) (43_flash_ops.md R80). -/
def stepProgram (c : Bool) : ProgramPt → Hw → Hw × Res ProgramPt SubOutcome
  | .clearBp v p, s => chainStep (stepClearBp c p s) (.clearBp v) (programCleared v)
  | .release p, s => chainStep (stepRelease p s) .release fun _ _ => .ret .protectedRegion
  | .poll v p, s => chainStep (stepPollReady c p s) (.poll v) (programPolled v)
  | .enable v p, s => chainStep (stepEnableWrite c p s) (.enable v) (programEnabled v)
  | .write v p, s => chainStep (stepWritePage (programByte v) c p s) (.write v) (programWritten v)
  | .finalPoll p, s => chainStep (stepPollReady c p s) .finalPoll fun _ r => .ret (programEnd r)

/-- Erase's Release, before it ends with r (43_flash_ops.md R81). -/
def eraseRelease (s : Hw) (r : SubOutcome) : Res ErasePt SubOutcome :=
  (enterRelease s).chain (.release r) fun _ => .ret r

/-- Erase after its last EnableWrite: Standby, then the chip-erase opcode (43_flash_ops.md R81). -/
def eraseEnabled (s : Hw) : SubOutcome → Res ErasePt SubOutcome
  | .ok => (enterStandby s).chain .standby2 fun _ => .goto .opcode
  | _ => eraseRelease s .cancelled

/-- Erase after its ClearBP (43_flash_ops.md R81). -/
def eraseCleared (s : Hw) : SubOutcome → Res ErasePt SubOutcome
  | .ok => (enterEnableWrite s).chain .enable (eraseEnabled s)
  | _ => eraseRelease s .protectedRegion

/-- Erase after its first Standby: ClearBP (43_flash_ops.md R81). -/
def eraseClear (s : Hw) : Res ErasePt SubOutcome := (enterWriteStatus s).chain .clearBp (eraseCleared s)

/-- Erase after its Acquire (43_flash_ops.md R81). -/
def eraseAcquired (s : Hw) : SubOutcome → Res ErasePt SubOutcome
  | .ok => (enterStandby s).chain .standby fun _ => eraseClear s
  | _ => .ret .arbitrationTimeout

/-- Erase after the chip-erase byte (43_flash_ops.md R81). -/
def eraseSent (s : Hw) : SubOutcome → Res ErasePt SubOutcome
  | .ok => eraseRelease s .ok
  | _ => eraseRelease s .cancelled

/-- Enter Erase(c) (43_flash_ops.md R81). -/
def enterErase (s : Hw) : Res ErasePt SubOutcome := (enterAcquire s).chain .acquire (eraseAcquired s)

/-- Erase(c) (43_flash_ops.md R81). -/
def stepErase (c : Bool) : ErasePt → Hw → Hw × Res ErasePt SubOutcome
  | .acquire p, s => chainStep (stepAcquire p s) .acquire eraseAcquired
  | .standby p, s => chainStep (stepStandby p s) .standby fun s' _ => eraseClear s'
  | .clearBp p, s => chainStep (stepClearBp c p s) .clearBp eraseCleared
  | .enable p, s => chainStep (stepEnableWrite c p s) .enable eraseEnabled
  | .standby2 p, s => chainStep (stepStandby p s) .standby2 fun _ _ => .goto .opcode
  | .opcode, s => (s.setOpb0 s.params.opChipErase, .goto (.xfer .seed))
  | .xfer p, s => chainStep (stepXfer (opcodeArgs 8 c) p s) .xfer eraseSent
  | .release r p, s => chainStep (stepRelease p s) (.release r) fun _ _ => .ret r

/-- Unlock's Release, before it ends with r (43_flash_ops.md R82). -/
def unlockRelease (s : Hw) (r : SubOutcome) : Res UnlockPt SubOutcome :=
  (enterRelease s).chain (.release r) fun _ => .ret r

/-- Unlock after its ClearBP (43_flash_ops.md R82). -/
def unlockCleared (s : Hw) : SubOutcome → Res UnlockPt SubOutcome
  | .ok => unlockRelease s .ok
  | _ => unlockRelease s .protectedRegion

/-- Unlock after its Standby: ClearBP (43_flash_ops.md R82). -/
def unlockClear (s : Hw) : Res UnlockPt SubOutcome := (enterWriteStatus s).chain .clearBp (unlockCleared s)

/-- Unlock after its Acquire (43_flash_ops.md R82). -/
def unlockAcquired (s : Hw) : SubOutcome → Res UnlockPt SubOutcome
  | .ok => (enterStandby s).chain .standby fun _ => unlockClear s
  | _ => .ret .arbitrationTimeout

/-- Enter Unlock(c) (43_flash_ops.md R82). -/
def enterUnlock (s : Hw) : Res UnlockPt SubOutcome := (enterAcquire s).chain .acquire (unlockAcquired s)

/-- Unlock(c) (43_flash_ops.md R82). -/
def stepUnlock (c : Bool) : UnlockPt → Hw → Hw × Res UnlockPt SubOutcome
  | .acquire p, s => chainStep (stepAcquire p s) .acquire unlockAcquired
  | .standby p, s => chainStep (stepStandby p s) .standby fun s' _ => unlockClear s'
  | .clearBp p, s => chainStep (stepClearBp c p s) .clearBp unlockCleared
  | .release r p, s => chainStep (stepRelease p s) (.release r) fun _ _ => .ret r

/-- CHECKSUM's own Release, before `finish(r)` (43_flash_ops.md R84). -/
def checksumRelease (s : Hw) (r : RCode) : Res ChecksumPt RCode :=
  (enterRelease s).chain (.release r) fun _ => .ret r

/-- CHECKSUM after its Dump (43_flash_ops.md R84). -/
def checksumDumped (s : Hw) : SubOutcome → Res ChecksumPt RCode
  | .ok => .goto (.evalFirst 0 0#16)
  | _ => checksumRelease s .cancelled

/-- CHECKSUM after its Acquire: the Dump into SCR (43_flash_ops.md R84). -/
def checksumAcquired (s : Hw) : SubOutcome → Res ChecksumPt RCode
  | .ok => (enterDump s (checksumSpan s.params)).chain .dump (checksumDumped s)
  | _ => .ret .arbTimeout

/-- CHECKSUM after the comparison: VALID, INVALID, or the repair (43_flash_ops.md R84). -/
def checksumCompared (rp : Bool) (s : Hw) (x : ChecksumResult) : Res ChecksumPt RCode :=
  if x.agrees then checksumRelease s .valid
  else if rp then .goto (.scrLow x.computed)
  else checksumRelease s .invalid

/-- CHECKSUM after the repair's Program: no Release where Program has released already (43_flash_ops.md R84). -/
def checksumRepaired (s : Hw) : SubOutcome → Res ChecksumPt RCode
  | .ok => checksumRelease s .repaired
  | .protectedRegion => .ret .protectedRegion
  | _ => checksumRelease s .cancelled

/-- Enter CHECKSUM (43_flash_ops.md R84). -/
def enterChecksum (s : Hw) : Res ChecksumPt RCode := (enterAcquire s).chain .acquire (checksumAcquired s)

/-- ChecksumEval after its word W(j) = w, the words before it summing to `total`: on to the next word, or for j = k the
result, whose `computed` is E - total and whose `stored` is w (43_flash_ops.md R83). -/
def checksumWord (s : Hw) (j : Nat) (total w : Half) : ChecksumPt :=
  if j < s.params.checksumIndex then .evalFirst (j + 1) (total + w) else .result (s.latch.dat - total) w

/-- Read SCR[a], one byte, and go on (20_memory.md R38; 43_flash_ops.md R83). -/
def loadScr (s : Hw) (a : Nat) (next : Byte → ChecksumPt) : Hw × Res ChecksumPt RCode :=
  match s.memRead (scrRef a) with
  | some v => (s, .goto (next v))
  | none => (s, .fault (.noSuchByte (scrRef a)))

/-- `SCR[a] <- v` and on to the next part (43_flash_ops.md R84). -/
def storeScr (s : Hw) (a : Nat) (v : Byte) (next : Hw → Res ChecksumPt RCode) : Hw × Res ChecksumPt RCode :=
  match s.memWrite (scrRef a) v with
  | some s' => (s', next s')
  | none => (s, .fault (.noSuchByte (scrRef a)))

/-- CHECKSUM's repair: program the one word back to its offset (43_flash_ops.md R84). -/
def checksumRepair (s : Hw) : Res ChecksumPt RCode :=
  (enterProgram s (repairSpan s.params)).chain .program (checksumRepaired s)

/-- CHECKSUM (43_flash_ops.md R84). -/
def stepChecksum (c rp : Bool) : ChecksumPt → Hw → Hw × Res ChecksumPt RCode
  | .acquire p, s => chainStep (stepAcquire p s) .acquire checksumAcquired
  | .dump p, s => chainStep (stepDump c p s) .dump checksumDumped
  | .evalFirst j total, s => loadScr s (2 * j) (.evalSecond j total)
  | .evalSecond j total v, s =>
    loadScr s (2 * j + 1) fun w => checksumWord s j total (joinWord s.params.wordOrder v w)
  | .result computed stored, s =>
    (s.setRdata (checksumData ⟨computed, stored⟩),
     checksumCompared rp (s.setRdata (checksumData ⟨computed, stored⟩)) ⟨computed, stored⟩)
  | .scrLow x, s =>
    storeScr s (2 * s.params.checksumIndex) (firstByte s.params.wordOrder x) fun _ => .goto (.scrHigh x)
  | .scrHigh x, s =>
    storeScr s (2 * s.params.checksumIndex + 1) (secondByte s.params.wordOrder x) checksumRepair
  | .program p, s => chainStep (stepProgram c p s) .program checksumRepaired
  | .release r p, s => chainStep (stepRelease p s) (.release r) fun _ _ => .ret r

/-- The ending of DUMP (43_flash_ops.md R79). -/
def endDump (r : SubOutcome) : Seq := .finish r.okOrCancelled

/-- DUMP (43_flash_ops.md R79); LENGTH[31:16] ≠ 0 is illegal (30_encoding.md R52, R54). -/
def execDump (c : Bool) (s : State) : Host.Outcome State Fault Refusal :=
  if lengthFits s.hw.latch then s.enter (enterDump s.hw (destSpan s.hw.latch)) (.dump c) endDump
  else .next (s.at (.finish .illegal))

/-- One step of a running DUMP. -/
def contDump (c : Bool) (p : DumpPt) (s : State) : Host.Outcome State Fault Refusal :=
  s.advance (stepDump c p s.hw) (.dump c) endDump

/-- The ending of PROGRAM, ERASE and UNLOCK: the code of the outcome (43_flash_ops.md R80 to R82). -/
def endByOutcome (r : SubOutcome) : Seq := .finish r.rcode

/-- PROGRAM (43_flash_ops.md R80); LENGTH[31:16] ≠ 0 is illegal (30_encoding.md R52, R54). -/
def execProgram (c : Bool) (s : State) : Host.Outcome State Fault Refusal :=
  if lengthFits s.hw.latch then s.enter (enterProgram s.hw (sourceSpan s.hw.latch)) (.program c) endByOutcome
  else .next (s.at (.finish .illegal))

/-- One step of a running PROGRAM. -/
def contProgram (c : Bool) (p : ProgramPt) (s : State) : Host.Outcome State Fault Refusal :=
  s.advance (stepProgram c p s.hw) (.program c) endByOutcome

/-- ERASE (43_flash_ops.md R81). -/
def execErase (c : Bool) (s : State) : Host.Outcome State Fault Refusal :=
  s.enter (enterErase s.hw) (.erase c) endByOutcome

/-- One step of a running ERASE. -/
def contErase (c : Bool) (p : ErasePt) (s : State) : Host.Outcome State Fault Refusal :=
  s.advance (stepErase c p s.hw) (.erase c) endByOutcome

/-- UNLOCK (43_flash_ops.md R82). -/
def execUnlock (c : Bool) (s : State) : Host.Outcome State Fault Refusal :=
  s.enter (enterUnlock s.hw) (.unlock c) endByOutcome

/-- One step of a running UNLOCK. -/
def contUnlock (c : Bool) (p : UnlockPt) (s : State) : Host.Outcome State Fault Refusal :=
  s.advance (stepUnlock c p s.hw) (.unlock c) endByOutcome

/-- CHECKSUM (43_flash_ops.md R84). -/
def execChecksum (c rp : Bool) (s : State) : Host.Outcome State Fault Refusal :=
  s.enter (enterChecksum s.hw) (.checksum c rp) .finish

/-- One step of a running CHECKSUM. -/
def contChecksum (c rp : Bool) (p : ChecksumPt) (s : State) : Host.Outcome State Fault Refusal :=
  s.advance (stepChecksum c rp p s.hw) (.checksum c rp) .finish

end Sys2Proof.Machine
end

