-- ==== Sys2Proof/Machine/Dispatch.lean ====
section
/-! DEFINITION. The dispatch: one arm per command. `exec i s` is what the decoded command does at acceptance
(30_encoding.md R52): SEQ leaves IDLE for the first point of the command's rule. -/

namespace Sys2Proof.Machine

def exec (i : Instr) (s : State) : Host.Outcome State Fault Refusal :=
  match i with
  | .transfer c sf df => Sys2Proof.Machine.execTransfer c sf df s
  | .acquire => Sys2Proof.Machine.execAcquire s
  | .release => Sys2Proof.Machine.execRelease s
  | .standby => Sys2Proof.Machine.execStandby s
  | .enableWrite c => Sys2Proof.Machine.execEnableWrite c s
  | .writeStatus c => Sys2Proof.Machine.execWriteStatus c s
  | .readStatus c => Sys2Proof.Machine.execReadStatus c s
  | .writePage c => Sys2Proof.Machine.execWritePage c s
  | .readPage c => Sys2Proof.Machine.execReadPage c s
  | .pollReady c => Sys2Proof.Machine.execPollReady c s
  | .clearBp c => Sys2Proof.Machine.execClearBp c s
  | .dump c => Sys2Proof.Machine.execDump c s
  | .program c => Sys2Proof.Machine.execProgram c s
  | .erase c => Sys2Proof.Machine.execErase c s
  | .unlock c => Sys2Proof.Machine.execUnlock c s
  | .checksum c rp => Sys2Proof.Machine.execChecksum c rp s

end Sys2Proof.Machine
end

