-- ==== Sys2Proof/Machine/HostPort.lean ====
section
/-! DEFINITION. The host's step (60_exceptions.md R97): window loads and stores (10_state.md R14), acceptance of a command
(R15; 30_encoding.md R52), BUF accesses (20_memory.md R46), the host program operations of 30_encoding.md R61, and the
host bus, which brings posted stores to the window (20_memory.md R45). -/

namespace Sys2Proof.Machine

/-- The host address of a window offset (20_memory.md R40). -/
def windowAddress (p : Params) (off : Nat) : Nat := p.windowBase + off

/-- A 32-bit access at an offset of the window. -/
def wordAccess (p : Params) (off : Nat) : Access := ⟨windowAddress p off, 4⟩

/-- The host's accesses reach the window (60_exceptions.md R96). -/
def State.admitted (s : State) : Bool := s.hw.params.windowAccess.admits s.host.agent

/-- Why the model refuses a window access, if it does (20_memory.md R37, R40; 60_exceptions.md R96;
93_implementation_defined.md U10, U11, U21; log 16). -/
def State.refusal (s : State) (a : Access) : Option Refusal :=
  if a.bytes ≠ 4 then some .hostAccessWidth
  else if a.addr < s.hw.params.windowBase ∨ s.hw.params.windowBase + 0x40 ≤ a.addr then some .hostAccessOutsideWindow
  else if (a.addr - s.hw.params.windowBase) % 4 ≠ 0 then some .hostAccessMisaligned
  else if s.admitted then none
  else some .hostAccessNotAdmitted

/-- The window offset of an access that is not refused (20_memory.md R40). -/
def State.offsetOf (s : State) (a : Access) : Nat := a.addr - s.hw.params.windowBase

/-- Take the next operation off the host's list. -/
def State.popOp (s : State) : State := { s with host := { s.host with ops := s.host.ops.tail } }

/-- Drop n operations of the host's list. -/
def State.dropOps (s : State) (n : Nat) : State := { s with host := { s.host with ops := s.host.ops.drop n } }

/-- Record what the host has loaded. -/
def State.see (s : State) (x : Seen) : State := { s with host := { s.host with seen := s.host.seen ++ [x] } }

/-- The host's load of STATUS. -/
def State.loadStatus (s : State) : State := s.see (.window 0x04 s.hw.status.word)

/-- The state in which an accepted word's command starts (10_state.md R15, R26). -/
def State.accept (s : State) (w : Word) : State := { s with hw := s.hw.accept w }

/-- A host store to CMD: accepted while BUSY = 0 (10_state.md R15), and then decoded and run (30_encoding.md R52); OVERRUN
while BUSY = 1 (60_exceptions.md R95). -/
def storeCmd (w : Word) (s : State) : Host.Outcome State Fault Refusal :=
  if s.hw.status.busy then .next { s with hw := s.hw.markOverrun }
  else
    match decode w with
    | .ok i => exec i (s.accept w)
    | .error _ => .next ((s.accept w).at (.finish .illegal))

/-- A store reaches the window at a word-aligned offset. -/
def arriveStore (off : Nat) (v : Word) (s : State) : Host.Outcome State Fault Refusal :=
  if off = 0 then storeCmd v s else .next { s with hw := s.hw.windowStore off v }

/-- Put a store behind those that have not reached the window yet. -/
def State.post (s : State) (off : Nat) (v : Word) : State :=
  { s with host := { s.host with posted := s.host.posted ++ [⟨off, v⟩] } }

/-- A host store to the window: it reaches the window at once where stores arrive in program order, and later, by a turn of
the bus, where they may arrive in any order (20_memory.md R45). -/
def hostStore (a : Access) (v : Word) (s : State) : Host.Outcome State Fault Refusal :=
  match s.refusal a with
  | some e => .refused e
  | none =>
    match s.hw.params.storeOrder with
    | .program => arriveStore (s.offsetOf a) v s
    | .any => .next (s.post (s.offsetOf a) v)

/-- A host load from the window. -/
def hostLoad (a : Access) (s : State) : Host.Outcome State Fault Refusal :=
  match s.refusal a with
  | some e => .refused e
  | none => .next (s.see (.window (s.offsetOf a) (s.hw.windowLoad (s.offsetOf a))))

/-- The host's load of STATUS, and where the host goes on after it. -/
def hostStatus (s after : State) : Host.Outcome State Fault Refusal :=
  if s.admitted then .next after.loadStatus else .refused .hostAccessNotAdmitted

/-- Take the posted store number k off the list. -/
def State.unpost (s : State) (k : Nat) : State :=
  { s with host := { s.host with posted := s.host.posted.eraseIdx k } }

/-- One step of the host bus: the posted store number k reaches the window, or there is none (20_memory.md R45). -/
def busStep (k : Nat) (s : State) : Host.Outcome State Fault Refusal :=
  match s.host.posted[k]? with
  | some x => arriveStore x.off x.v (s.unpost k)
  | none => .next s

/-- One operation of the host. -/
def hostOp (o : HostOp) (s : State) : Host.Outcome State Fault Refusal :=
  match o with
  | .store a v => hostStore a v s.popOp
  | .load a => hostLoad a s.popOp
  | .bufStore a v => .next { s.popOp with hw := { s.hw with mem := s.hw.mem.write a.toNat v } }
  | .bufLoad a => .next (s.popOp.see (.buf a (s.hw.mem.read a.toNat)))
  | .wait => hostStatus s (if s.hw.status.busy then s else s.popOp)
  | .skipUnless code n => hostStatus s (if s.hw.status.rcode = code then s.popOp else s.popOp.dropOps n)
  | .skipIf code n => hostStatus s (if s.hw.status.rcode = code then s.popOp.dropOps n else s.popOp)

/-- One step of the host: its next operation, or nothing. -/
def hostStep (s : State) : Host.Outcome State Fault Refusal :=
  match s.host.ops with
  | [] => .next s
  | o :: _ => hostOp o s

/-- Take the next entry off the schedule. -/
def State.popTurn (s : State) : State := { s with host := { s.host with turns := s.host.turns.tail } }

/-- Who moves next: the schedule's next entry; with none left, the block while a command runs, else the host, and the bus
once the host has nothing left to do. -/
def State.mover (s : State) : Turn :=
  match s.host.turns with
  | t :: _ => t
  | [] =>
    if s.seq ≠ .idle then .block
    else if s.host.ops = [] ∧ s.host.posted ≠ [] then .bus 0
    else .host

/-- The command word that a table word of `nbits` bits stands for. -/
def tableWord (nbits w : Nat) : Word := BitVec.ofNat 32 (w % 2 ^ nbits)

end Sys2Proof.Machine
end

