-- ==== Sys2Proof/Machine/Sequencer.lean ====
section
/-! DEFINITION. The block's own step (10_state.md R16): exactly one primitive step of the running command, or nothing
while SEQ is IDLE. -/

namespace Sys2Proof.Machine

/-- One step of the block. In IDLE it waits (20_memory.md R40). -/
def blockStep (s : State) : Host.Outcome State Fault Refusal :=
  match s.seq with
  | .idle => .next s
  | .transfer a p => contTransfer a p s
  | .acquire p => contAcquire p s
  | .release p => contRelease p s
  | .standby p => contStandby p s
  | .enableWrite c p => contEnableWrite c p s
  | .writeStatus st c p => contWriteStatus st c p s
  | .readStatus c p => contReadStatus c p s
  | .writePage v c p => contWritePage v c p s
  | .readPage v c p => contReadPage v c p s
  | .pollReady c p => contPollReady c p s
  | .clearBp c p => contClearBp c p s
  | .dump c p => contDump c p s
  | .program c p => contProgram c p s
  | .erase c p => contErase c p s
  | .unlock c p => contUnlock c p s
  | .checksum c rp p => contChecksum c rp p s
  | .statusResult st => contStatusResult st s
  | .finish code => .next (s.finish code)

end Sys2Proof.Machine
end

