-- ==== Sys2Proof/Machine/Step.lean ====
section
/-! DEFINITION. One step of the machine: the schedule says whether the block, the host, the host bus or the reset input moves
(log 14).
After it, the state in which a given command word is the next thing to run. -/

namespace Sys2Proof.Machine

/-- One step of the machine. -/
def step (s : State) : Host.Outcome State Fault Refusal :=
  match s.mover with
  | .block => blockStep s.popTurn
  | .host => hostStep s.popTurn
  | .bus k => busStep k s.popTurn
  | .reset => .next s.popTurn.blockReset

/-- The state in which the very next step brings a store of the word to CMD, accepted by an idle block: the machine fetches
nothing, a command comes to run by that store (10_state.md R15; log 18). The store stands at the head of the posted ones, so
that it arrives whatever the platform's parameters. -/
def State.withFetchWord (s : State) (nbits w : Nat) : State :=
  { s with
    seq := .idle
    hw := { s.hw with status := { s.hw.status with busy := false } }
    host :=
      { s.host with
        posted := ⟨0x00, tableWord nbits w⟩ :: s.host.posted
        turns := .bus 0 :: s.host.turns } }

end Sys2Proof.Machine
end

