-- ==== Sys2Proof/Machine/Assembler.lean ====
section
/-! DEFINITION. The assembler (30_encoding.md R59, R60) and the pseudo-instructions (R61): what a statement makes the host
do. -/

namespace Sys2Proof.Machine

/-- The command of a statement: the suffixes give C and RP, the operands of TRANSFER give S and D (30_encoding.md R59). -/
def stmtCommand (t : Stmt) : Instr :=
  match t.op with
  | .transfer =>
    match t.args with
    | .bits _ src dst => .transfer t.dotC src.isSome dst.isSome
    | _ => .transfer t.dotC false false
  | .acquire => .acquire
  | .release => .release
  | .standby => .standby
  | .enableWrite => .enableWrite t.dotC
  | .writeStatus => .writeStatus t.dotC
  | .readStatus => .readStatus t.dotC
  | .writePage => .writePage t.dotC
  | .readPage => .readPage t.dotC
  | .pollReady => .pollReady t.dotC
  | .clearBp => .clearBp t.dotC
  | .dump => .dump t.dotC
  | .program => .program t.dotC
  | .erase => .erase t.dotC
  | .unlock => .unlock t.dotC
  | .checksum => .checksum t.dotC t.dotR

/-- A store of a whole word to the window, whose base is a parameter (20_memory.md R40). -/
def storeReg (p : Params) (off : Nat) (v : Word) : HostOp := .store (wordAccess p off) v

/-- A store that an absent operand leaves out. -/
def storeOpt (p : Params) (off : Nat) : Option Word → List HostOp
  | some v => [storeReg p off v]
  | none => []

/-- Does the page or loop command read SRC (30_encoding.md R50)? -/
def readsSource (m : Mnemonic) : Bool := m == .writePage || m == .program

/-- The operand stores of a statement, in the order OFFSET, LENGTH, SRC, DST, DATA; a register the command does not read
is not written (30_encoding.md R60). -/
def operandStores (p : Params) (t : Stmt) : List HostOp :=
  match t.args with
  | .none => []
  | .bits n src dst => storeReg p 0x10 n :: (storeOpt p 0x14 src ++ storeOpt p 0x18 dst)
  | .statusByte s => [storeReg p 0x1C (s.setWidth 32)]
  | .page off len buf =>
    [storeReg p 0x0C (off.setWidth 32), storeReg p 0x10 len, storeReg p (if readsSource t.op then 0x14 else 0x18) buf]
  | .expected e => [storeReg p 0x1C (e.setWidth 32)]

/-- The expansion of a statement: operand stores, the store of the command word to CMD, and WAIT; none is an assembly error
(30_encoding.md R59, R60). -/
def assemble (p : Params) (t : Stmt) : Option (List HostOp) :=
  if t.wellFormed then some (operandStores p t ++ [storeReg p 0x00 (encode (stmtCommand t)), .wait]) else none

/-- A statement with operands of the right shape, as the pseudo-instructions write them. -/
def assembled (p : Params) (t : Stmt) : List HostOp := operandStores p t ++ [storeReg p 0x00 (encode (stmtCommand t)), .wait]

/-- `RELEASE`. -/
def releaseOps (p : Params) : List HostOp := assembled p ⟨.release, false, false, .none⟩

/-- `ACQUIRE`, and the rest only if it ended OK: without a session there is nothing to release (30_encoding.md R61;
70_reset_and_hazards.md R103; log 22). -/
def inSession (p : Params) (rest : List HostOp) : List HostOp :=
  assembled p ⟨.acquire, false, false, .none⟩ ++ .skipUnless .ok rest.length :: rest

/-- The expansions of 30_encoding.md R61. -/
def expandPseudo (p : Params) : Pseudo → List HostOp
  | .wait => [.wait]
  | .config present pageLog2 delayUs wordSize =>
    [storeReg p 0x20 (DevCfg.mk present pageLog2 delayUs).word, storeReg p 0x24 (wordSize.setWidth 32)]
  | .showFlash off len dst => inSession p (assembled p ⟨.dump, true, false, .page off len dst⟩ ++ releaseOps p)
  | .programS src off len =>
    inSession p
      (assembled p ⟨.program, true, false, .page off len src⟩ ++ .skipIf .protectedRegion (releaseOps p).length :: releaseOps p)
  | .checksumS update => assembled p ⟨.checksum, true, update, .expected p.checksumSum⟩
  | .eraseS => assembled p ⟨.erase, true, false, .none⟩
  | .unlockS => assembled p ⟨.unlock, true, false, .none⟩

end Sys2Proof.Machine
end

