-- ==== Sys2Proof/Machine/Pseudocode.lean ====
section
/-! DEFINITION. The pseudocode of the rules, run straight through: each procedure of spec/40 to 43 as one function of the
hardware state, in the spec's own order of statements. The machine runs the same procedures one primitive at a time
(10_state.md R16); that the two agree is an obligation. A result is `none` where a buffer reference names no byte, or where
PollReady is still busy after `fuel` status reads: the bound is this file's, the machine has none (60_exceptions.md R99). -/

namespace Sys2Proof.Machine

/-- `RegWrite(LS); Flush(); Delay(DU)`. -/
def runDrive (s : Hw) : Hw := s.regWrite.flush.delayUnit

/-- RAISE (40_bitclock_transfer.md R63). -/
def runRaise (s : Hw) : Hw := runDrive (s.setLs (bitMask s.params.bitSk))

/-- LOWER (40_bitclock_transfer.md R64). -/
def runLower (s : Hw) : Hw := runDrive (s.clearLs (bitMask s.params.bitSk))

/-- Step 2 of Xfer: the bit to shift out (40_bitclock_transfer.md R65). -/
def sourceBit (a : XferArgs) (i : Nat) (s : Hw) : Option Bool :=
  match a.src with
  | some r => (s.memRead (bitByte r i)).map fun v => getBit v i
  | none => some false

/-- `if b = 1: LS <- LS | M_SI else: LS <- LS & ~M_SI` (40_bitclock_transfer.md R65). -/
def putSi (b : Bool) (s : Hw) : Hw :=
  if b then s.setLs (bitMask s.params.bitSi) else s.clearLs (bitMask s.params.bitSi)

/-- The capture of the sampled bit (40_bitclock_transfer.md R65). -/
def captureBit (a : XferArgs) (i : Nat) (s : Hw) : Option Hw :=
  match a.dst with
  | some r => (s.memRead (bitByte r i)).bind fun v => s.memWrite (bitByte r i) (setBit v i s.sampledBit)
  | none => some s

/-- Steps 2 to 5 of Xfer for bit i (40_bitclock_transfer.md R65). -/
def runBit (a : XferArgs) (i : Nat) (s : Hw) : Option Hw :=
  (sourceBit a i s).bind fun b =>
    (captureBit a i (runRaise (runDrive (putSi b s))).regRead).map runLower

/-- The trailing-bit clear (40_bitclock_transfer.md R65). -/
def runTail (a : XferArgs) (s : Hw) : Option Hw :=
  match a.dst with
  | some r =>
    if a.n % 8 ≠ 0 then
      (s.memRead (r.add (a.n / 8))).bind fun v => s.memWrite (r.add (a.n / 8)) (keepTop v a.n)
    else some s
  | none => some s

/-- The bit loop of Xfer with `left` bits still to shift, after bit n - left - 1 (40_bitclock_transfer.md R65). -/
def runBits (a : XferArgs) : Nat → Hw → Option (Hw × SubOutcome)
  | 0, s => (runTail a s).map fun s' => (s', .ok)
  | left + 1, s =>
    if a.c then
      if s.cancelAnswer then some (s.cancelPending.markCancelled, .cancelled)
      else (runBit a (a.n - (left + 1)) s.cancelPending).bind (runBits a left)
    else (runBit a (a.n - (left + 1)) s).bind (runBits a left)

/-- Xfer(n, src, dst, c) (40_bitclock_transfer.md R65). -/
def runXfer (a : XferArgs) (s : Hw) : Option (Hw × SubOutcome) := runBits a a.n s.regRead

/-- The bounded poll of Acquire, with `left` attempts left (41_arbiter.md R67). -/
def runPoll : Nat → Hw → Hw
  | 0, s => s
  | left + 1, s => if s.granted then s else runPoll left (s.delay s.params.grantPollUs).regRead

/-- Acquire after the bounded poll (41_arbiter.md R67). -/
def runGrant (s : Hw) : Hw × SubOutcome :=
  if s.granted then
    ((s.clearLs (bitMask s.params.bitSi ||| bitMask s.params.bitCen ||| bitMask s.params.bitSk)).regWrite.delayUnit, .ok)
  else ((s.clearLs (bitMask s.params.bitReq)).regWrite, .arbitrationTimeout)

/-- Acquire() (41_arbiter.md R67). -/
def runAcquire (s : Hw) : Hw × SubOutcome :=
  if s.latch.present then
    runGrant (runPoll s.params.grantAttempts (s.regRead.setLs (bitMask s.params.bitReq)).regWrite.regRead)
  else (s, .ok)

/-- Release() (41_arbiter.md R68). -/
def runRelease (s : Hw) : Hw :=
  if s.latch.present then ((deselectLs s.regRead).regWrite.delayUnit.clearLs (bitMask s.params.bitReq)).regWrite else s

/-- Standby() (41_arbiter.md R69). -/
def runStandby (s : Hw) : Hw :=
  if s.latch.present then
    runDrive ((runDrive (s.regRead.setLs (bitMask s.params.bitCen))).clearLs (bitMask s.params.bitCen))
  else s

/-- EnableWrite(c) (42_flash_commands.md R71). -/
def runEnableWrite (c : Bool) (s : Hw) : Option (Hw × SubOutcome) :=
  runXfer (opcodeArgs 8 c) ((runStandby s).setOpb0 s.params.opWren)

/-- The WRSR frame of WriteStatus (42_flash_commands.md R72). -/
def runStatusFrame (st : Byte) (c : Bool) (s : Hw) : Option (Hw × SubOutcome) :=
  runXfer (opcodeArgs 16 c) (((runStandby s).setOpb0 s.params.opWrsr).setOpb1 st)

/-- WriteStatus(st, c) (42_flash_commands.md R72). -/
def runWriteStatus (st : Byte) (c : Bool) (s : Hw) : Option (Hw × SubOutcome) :=
  (runEnableWrite c s).bind fun x =>
    match x.2 with
    | .ok => runStatusFrame st c x.1
    | _ => some (x.1, .cancelled)

/-- ReadStatus(c) (42_flash_commands.md R73). -/
def runReadStatus (c : Bool) (s : Hw) : Option (Hw × StatusOutcome) :=
  (runXfer (statusArgs c) (((runStandby s).setOpb0 s.params.opRdsr).setOpb1 0x00#8)).map fun x =>
    (x.1, statusResult x.1 x.2)

/-- The header bytes of a page frame in OPB (42_flash_commands.md R74). -/
def putHeader (op : Byte) (off : Half) (s : Hw) : Hw :=
  (((s.setOpb0 op).setOpb1 (addrHighByte off)).setOpb2 (addrMidByte off)).setOpb3 (addrLowByte off)

/-- A page frame (42_flash_commands.md R74, R75). -/
def runPage (op : Byte) (off : Half) (payload : XferArgs) (c : Bool) (s : Hw) : Option (Hw × SubOutcome) :=
  (runXfer (opcodeArgs 32 c) (putHeader op off (runStandby s))).bind fun x =>
    match x.2 with
    | .ok => runXfer payload x.1
    | _ => some (x.1, .cancelled)

/-- WritePage(data, off, len, c) (42_flash_commands.md R74). -/
def runWritePage (v : Span) (c : Bool) (s : Hw) : Option (Hw × SubOutcome) :=
  runPage s.params.opWrite v.off (payloadOut v c) c s

/-- ReadPage(buf, off, len, c) (42_flash_commands.md R75). -/
def runReadPage (v : Span) (c : Bool) (s : Hw) : Option (Hw × SubOutcome) :=
  runPage s.params.opRead v.off (payloadIn v c) c s

/-- PollReady(c) (42_flash_commands.md R76), for at most `fuel` status reads. -/
def runPollReady : Nat → Bool → Hw → Option (Hw × StatusOutcome)
  | 0, _, _ => none
  | fuel + 1, c, s =>
    (runReadStatus c s).bind fun x =>
      match x.2 with
      | .ok st => if statusBusy x.1.params st then runPollReady fuel c x.1 else some (x.1, .ok st)
      | .cancelled => some (x.1, .cancelled)

/-- ClearBP(c) (42_flash_commands.md R77). -/
def runClearBp (c : Bool) (s : Hw) : Option (Hw × SubOutcome) := runWriteStatus (clearBpByte s.params) c s

/-- Dump's page loop, for at most `rounds` pages (43_flash_ops.md R79). -/
def runDumpLoop (c : Bool) : Nat → Span → Hw → Option (Hw × SubOutcome)
  | rounds, v, s =>
    if v.len = 0 then some (s, .ok)
    else
      match rounds with
      | 0 => none
      | more + 1 =>
        (runReadPage (dumpPage s.latch.ps.toNat v) c s).bind fun x =>
          match x.2 with
          | .ok => runDumpLoop c more (v.advance (pageChunk x.1.latch.ps.toNat v)) x.1
          | _ => some (x.1, .cancelled)

/-- Dump(buf, off, len, c) (43_flash_ops.md R79): a page read takes at least one byte, so len rounds are enough. -/
def runDump (fuel : Nat) (c : Bool) (v : Span) (s : Hw) : Option (Hw × SubOutcome) :=
  (runPollReady fuel c s).bind fun x =>
    match x.2 with
    | .ok _ => runDumpLoop c v.len v x.1
    | .cancelled => some (x.1, .cancelled)

/-- One byte of Program's loop (43_flash_ops.md R80). -/
def runProgramByte (fuel : Nat) (c : Bool) (v : Span) (s : Hw) : Option (Hw × SubOutcome) :=
  (runPollReady fuel c s).bind fun x =>
    match x.2 with
    | .ok _ =>
      (runEnableWrite c x.1).bind fun y =>
        match y.2 with
        | .ok => runWritePage (programByte v) c y.1
        | _ => some (y.1, .cancelled)
    | .cancelled => some (x.1, .cancelled)

/-- Program's byte loop over `left` bytes, and the final PollReady (43_flash_ops.md R80). -/
def runProgramLoop (fuel : Nat) (c : Bool) : Nat → Span → Hw → Option (Hw × SubOutcome)
  | 0, _, s => (runPollReady fuel c s).map fun x => (x.1, programEnd x.2)
  | left + 1, v, s =>
    (runProgramByte fuel c v s).bind fun x =>
      match x.2 with
      | .ok => runProgramLoop fuel c left (v.advance 1) x.1
      | _ => some (x.1, .cancelled)

/-- Program(data, off, len, c) (43_flash_ops.md R80). -/
def runProgram (fuel : Nat) (c : Bool) (v : Span) (s : Hw) : Option (Hw × SubOutcome) :=
  (runClearBp c s).bind fun x =>
    match x.2 with
    | .ok => runProgramLoop fuel c v.len v x.1
    | _ => some (runRelease x.1, .protectedRegion)

/-- Erase's last part: Standby, the chip-erase byte, Release (43_flash_ops.md R81). -/
def runEraseFrame (c : Bool) (s : Hw) : Option (Hw × SubOutcome) :=
  (runXfer (opcodeArgs 8 c) ((runStandby s).setOpb0 s.params.opChipErase)).map fun x =>
    match x.2 with
    | .ok => (runRelease x.1, .ok)
    | _ => (runRelease x.1, .cancelled)

/-- Erase after its Acquire and first Standby (43_flash_ops.md R81). -/
def runEraseBody (c : Bool) (s : Hw) : Option (Hw × SubOutcome) :=
  (runClearBp c s).bind fun x =>
    match x.2 with
    | .ok =>
      (runEnableWrite c x.1).bind fun y =>
        match y.2 with
        | .ok => runEraseFrame c y.1
        | _ => some (runRelease y.1, .cancelled)
    | _ => some (runRelease x.1, .protectedRegion)

/-- Erase(c) (43_flash_ops.md R81). -/
def runErase (c : Bool) (s : Hw) : Option (Hw × SubOutcome) :=
  match (runAcquire s).2 with
  | .ok => runEraseBody c (runStandby (runAcquire s).1)
  | _ => some ((runAcquire s).1, .arbitrationTimeout)

/-- Unlock(c) (43_flash_ops.md R82). -/
def runUnlock (c : Bool) (s : Hw) : Option (Hw × SubOutcome) :=
  match (runAcquire s).2 with
  | .ok =>
    (runClearBp c (runStandby (runAcquire s).1)).map fun x =>
      match x.2 with
      | .ok => (runRelease x.1, .ok)
      | _ => (runRelease x.1, .protectedRegion)
  | _ => some ((runAcquire s).1, .arbitrationTimeout)

/-- CHECKSUM's repair (43_flash_ops.md R84). -/
def runRepair (fuel : Nat) (c : Bool) (x : ChecksumResult) (s : Hw) : Option (Hw × RCode) :=
  (s.memWrite (scrRef (2 * s.params.checksumIndex)) (firstByte s.params.wordOrder x.computed)).bind fun s1 =>
    (s1.memWrite (scrRef (2 * s1.params.checksumIndex + 1)) (secondByte s1.params.wordOrder x.computed)).bind fun s2 =>
      (runProgram fuel c (repairSpan s2.params) s2).map fun y =>
        match y.2 with
        | .ok => (runRelease y.1, .repaired)
        | .protectedRegion => (y.1, .protectedRegion)
        | _ => (runRelease y.1, .cancelled)

/-- ChecksumEval(SCR, k, DAT) (43_flash_ops.md R83, R84). -/
def scrChecksum (s : Hw) : Option ChecksumResult :=
  checksumEval s.params.wordOrder s.scr s.params.checksumIndex s.latch.dat

/-- CHECKSUM after its Dump: the comparison and what follows from it (43_flash_ops.md R84). -/
def runCompare (fuel : Nat) (c rp : Bool) (s : Hw) : Option (Hw × RCode) :=
  (scrChecksum s).bind fun x =>
    if x.agrees then some (runRelease (s.setRdata (checksumData x)), .valid)
    else if rp then runRepair fuel c x (s.setRdata (checksumData x))
    else some (runRelease (s.setRdata (checksumData x)), .invalid)

/-- CHECKSUM (43_flash_ops.md R84). -/
def runChecksum (fuel : Nat) (c rp : Bool) (s : Hw) : Option (Hw × RCode) :=
  match (runAcquire s).2 with
  | .ok =>
    (runDump fuel c (checksumSpan s.params) (runAcquire s).1).bind fun x =>
      match x.2 with
      | .ok => runCompare fuel c rp x.1
      | _ => some (runRelease x.1, .cancelled)
  | _ => some ((runAcquire s).1, .arbTimeout)

/-- READ_STATUS and POLL_READY after their procedure: RDATA on Ok (42_flash_commands.md R73, R76). -/
def statusEnding (x : Hw × StatusOutcome) : Hw × RCode :=
  match x.2 with
  | .ok st => (x.1.setRdata (st.setWidth 32), .ok)
  | .cancelled => (x.1, .cancelled)

/-- A page or loop command's operand check (30_encoding.md R52). -/
def checked (s : Hw) (run : Option (Hw × RCode)) : Option (Hw × RCode) :=
  if lengthFits s.latch then run else some (s, .illegal)

/-- A whole command, from the state that acceptance leaves to the result code it finishes with (30_encoding.md R52). -/
def runCommand (fuel : Nat) (i : Instr) (s : Hw) : Option (Hw × RCode) :=
  match i with
  | .transfer c sf df => (runXfer (transferArgs s.latch c sf df) s).map fun x => (x.1, x.2.okOrCancelled)
  | .acquire => some ((runAcquire s).1, (runAcquire s).2.okOrTimeout)
  | .release => some (runRelease s, .ok)
  | .standby => some (runStandby s, .ok)
  | .enableWrite c => (runEnableWrite c s).map fun x => (x.1, x.2.okOrCancelled)
  | .writeStatus c => (runWriteStatus (statusOperand s.latch) c s).map fun x => (x.1, x.2.okOrCancelled)
  | .readStatus c => (runReadStatus c s).map statusEnding
  | .writePage c => checked s ((runWritePage (sourceSpan s.latch) c s).map fun x => (x.1, x.2.okOrCancelled))
  | .readPage c => checked s ((runReadPage (destSpan s.latch) c s).map fun x => (x.1, x.2.okOrCancelled))
  | .pollReady c => (runPollReady fuel c s).map statusEnding
  | .clearBp c => (runClearBp c s).map fun x => (x.1, x.2.okOrCancelled)
  | .dump c => checked s ((runDump fuel c (destSpan s.latch) s).map fun x => (x.1, x.2.okOrCancelled))
  | .program c => checked s ((runProgram fuel c (sourceSpan s.latch) s).map fun x => (x.1, x.2.rcode))
  | .erase c => (runErase c s).map fun x => (x.1, x.2.rcode)
  | .unlock c => (runUnlock c s).map fun x => (x.1, x.2.rcode)
  | .checksum c rp => runChecksum fuel c rp s

end Sys2Proof.Machine
end

