-- ==== Sys2Proof/Safety.lean ====
section
/-! DEFINITION. What counts as a safe run, and the terms the claims use: legal states (no step from one faults), the state
in which a command starts and the end of its run, the invariant behind "all other register bits are preserved"
(00_scope.md R2), what is observed (R12), and the event lists and measures that the claims name. -/

namespace Sys2Proof.Machine

/-! ### Legal states -/

/-- The k bytes from r on exist, SCR having m bytes (10_state.md R27, R28; 20_memory.md R31, R36). -/
def Ref.inRange (m : Nat) (r : Ref) (k : Nat) : Bool :=
  match r.space with
  | .buf => true
  | .scr => decide (r.addr.toNat + k ≤ m)
  | .opb => decide (r.addr.toNat + k ≤ 4)

/-- The bytes of a transfer's buffers exist. -/
def XferArgs.legal (m : Nat) (a : XferArgs) : Bool :=
  a.src.all (fun r => r.inRange m ((a.n + 7) / 8)) && a.dst.all (fun r => r.inRange m ((a.n + 7) / 8))

/-- A point of Xfer over n bits: the bit index is below n, and the byte it touches exists. -/
def XferPt.legal (m n : Nat) : XferPt → Bool
  | .seed => true
  | .check i => decide (i < n)
  | .markCancelled => true
  | .fetch i r => decide (i < n) && r.inRange m 1
  | .present i _ => decide (i < n)
  | .setup i _ => decide (i < n)
  | .rise i _ => decide (i < n)
  | .sample i => decide (i < n)
  | .load i r => decide (i < n) && r.inRange m 1
  | .store i r _ => decide (i < n) && r.inRange m 1
  | .fall i _ => decide (i < n)
  | .loadTail r => r.inRange m 1
  | .storeTail r _ => r.inRange m 1

/-- A point of EnableWrite. -/
def EnableWritePt.legal (m : Nat) : EnableWritePt → Bool
  | .standby _ => true
  | .opcode => true
  | .xfer p => p.legal m 8

/-- A point of WriteStatus. -/
def WriteStatusPt.legal (m : Nat) : WriteStatusPt → Bool
  | .enable p => p.legal m
  | .standby _ => true
  | .opcode => true
  | .status => true
  | .xfer p => p.legal m 16

/-- A point of ReadStatus. -/
def ReadStatusPt.legal (m : Nat) : ReadStatusPt → Bool
  | .standby _ => true
  | .opcode => true
  | .zero => true
  | .xfer p => p.legal m 16

/-- The bytes of a span exist. -/
def Span.legal (m : Nat) (v : Span) : Bool := v.buf.inRange m v.len

/-- A point of a page frame whose payload is len bytes. -/
def PagePt.legal (m len : Nat) : PagePt → Bool
  | .standby _ => true
  | .opcode => true
  | .addrHigh => true
  | .addrMid => true
  | .addrLow => true
  | .header p => p.legal m 32
  | .payload p => p.legal m (8 * len)

/-- A point of Dump, with page size ps. -/
def DumpPt.legal (m ps : Nat) : DumpPt → Bool
  | .poll v p => v.legal m && p.legal m
  | .page v p => v.legal m && p.legal m (pageChunk ps v)

/-- A point of Program. -/
def ProgramPt.legal (m : Nat) : ProgramPt → Bool
  | .clearBp v p => v.legal m && p.legal m
  | .release _ => true
  | .poll v p => v.legal m && decide (v.len ≠ 0) && p.legal m
  | .enable v p => v.legal m && decide (v.len ≠ 0) && p.legal m
  | .write v p => v.legal m && decide (v.len ≠ 0) && p.legal m 1
  | .finalPoll p => p.legal m

/-- A point of Erase. -/
def ErasePt.legal (m : Nat) : ErasePt → Bool
  | .acquire _ => true
  | .standby _ => true
  | .clearBp p => p.legal m
  | .enable p => p.legal m
  | .standby2 _ => true
  | .opcode => true
  | .xfer p => p.legal m 8
  | .release _ _ => true

/-- A point of Unlock. -/
def UnlockPt.legal (m : Nat) : UnlockPt → Bool
  | .acquire _ => true
  | .standby _ => true
  | .clearBp p => p.legal m
  | .release _ _ => true

/-- A point of CHECKSUM. -/
def ChecksumPt.legal (m ps : Nat) : ChecksumPt → Bool
  | .acquire _ => true
  | .dump p => p.legal m ps
  | .evalFirst j _ => decide (2 * j + 1 < m)
  | .evalSecond j _ _ => decide (2 * j + 1 < m)
  | .result _ _ => true
  | .scrLow _ => true
  | .scrHigh _ => true
  | .program p => p.legal m
  | .release _ _ => true

/-- A position of the sequencer, for SCR of m bytes and page size ps. -/
def Seq.legal (m ps : Nat) : Seq → Bool
  | .idle => true
  | .transfer a p => a.legal m && p.legal m a.n
  | .acquire _ => true
  | .release _ => true
  | .standby _ => true
  | .enableWrite _ p => p.legal m
  | .writeStatus _ _ p => p.legal m
  | .readStatus _ p => p.legal m
  | .writePage v _ p => v.legal m && p.legal m v.len
  | .readPage v _ p => v.legal m && p.legal m v.len
  | .pollReady _ p => p.legal m
  | .clearBp _ p => p.legal m
  | .dump _ p => p.legal m ps
  | .program _ p => p.legal m
  | .erase _ p => p.legal m
  | .unlock _ p => p.legal m
  | .checksum _ _ p => p.legal m ps
  | .statusResult _ => true
  | .finish _ => true

/-- The page sizes a latch can hold: 2^PAGE_LOG2 (10_state.md R21, R26). -/
def legalPageSize (ps : BitVec 17) : Bool := (List.range 16).any fun k => ps == pageSize (BitVec.ofNat 4 k)

/-- The invariant of the machine. -/
structure State.Inv (s : State) : Prop where
  /-- 00_scope.md R3, R4. -/
  params : s.hw.params.wellFormed = true
  /-- BUF is in its canonical form. -/
  mem : s.hw.mem.wf = true
  /-- 10_state.md R28: SCR has 2·(CHECKSUM_REG_INDEX + 1) bytes. -/
  scr : s.hw.scr.length = 2 * (s.hw.params.checksumIndex + 1)
  /-- 10_state.md R16, R17: SEQ is IDLE exactly while BUSY = 0. -/
  busy : s.hw.status.busy = true ↔ s.seq ≠ .idle
  /-- 10_state.md R26: while a command runs, PS is a page size. -/
  pageSize : s.seq ≠ .idle → legalPageSize s.hw.latch.ps = true
  /-- 10_state.md R27, 20_memory.md R36: every buffer reference of SEQ names a byte that exists. -/
  seq : s.seq.legal s.hw.scr.length s.hw.latch.ps.toNat = true

/-! ### A command's run -/

/-- No host operation or store is pending and no turn is scheduled: only the block moves until its command has finished. -/
structure State.Quiet (s : State) : Prop where
  ops : s.host.ops = []
  posted : s.host.posted = []
  turns : s.host.turns = []

/-- A command word has just been accepted and no point of its rule has been reached (10_state.md R15). -/
structure State.Accepted (s : State) : Prop where
  seq : s.seq = .idle
  busy : s.hw.status.busy = true
  quiet : s.Quiet

/-- Some number of steps leads from s to u. -/
def Reaches (s u : State) : Prop := ∃ n, Host.Core.run Sys2Proof.core n s = .next u

/-- The command's whole run: `exec` enters it, and the machine's steps lead to `finish(code)` (60_exceptions.md R93) with
the hardware state h. -/
def CommandEnds (i : Instr) (s : State) (h : Hw) (code : RCode) : Prop :=
  ∃ t, exec i s = .next t ∧ Reaches t (State.finish { s with hw := h } code)

/-- The next step brings a store of the word w to CMD, and u is the state without that store and its turn: the store is the
next operation of an admitted host whose stores arrive in program order, or one that the bus delivers (10_state.md R15;
20_memory.md R45; 60_exceptions.md R96). -/
inductive State.Delivers (s : State) (w : Word) : State → Prop where
  | host {rest : List HostOp} (mover : s.mover = .host) (ops : s.host.ops = .store (wordAccess s.hw.params 0x00) w :: rest)
      (order : s.hw.params.storeOrder = .program) (admitted : s.admitted = true) :
      State.Delivers s w { s with host := { s.host with ops := rest, turns := s.host.turns.tail } }
  | bus {k : Nat} (mover : s.mover = .bus k) (posted : s.host.posted[k]? = some ⟨0x00, w⟩) :
      State.Delivers s w
        { s with host := { s.host with posted := s.host.posted.eraseIdx k, turns := s.host.turns.tail } }

/-! ### A procedure's run -/

/-- From the point p and the state s, the steps of f come to the outcome r with the state s'. -/
inductive Ends {π ρ : Type} (f : π → Hw → Hw × Res π ρ) : π → Hw → ρ → Hw → Prop where
  | last {p : π} {s s' : Hw} {r : ρ} (h : f p s = (s', .ret r)) : Ends f p s r s'
  | more {p q : π} {s s1 s' : Hw} {r : ρ} (h : f p s = (s1, .goto q)) (rest : Ends f q s1 r s') : Ends f p s r s'

/-- The same from what a procedure's entry, or a caller's next part, answers. -/
def ResEnds {π ρ : Type} (f : π → Hw → Hw × Res π ρ) (x : Res π ρ) (s : Hw) (r : ρ) (s' : Hw) : Prop :=
  match x with
  | .goto p => Ends f p s r s'
  | .ret r0 => r0 = r ∧ s = s'
  | .fault _ => False

/-! ### The line state and the other bits of CTRL -/

/-- The innermost procedure a position stands in; outside one, the assignment `OPB[i] <- …` that comes next
(42_flash_commands.md R71 to R75), that of CHECKSUM to the byte i of its last word in SCR (43_flash_ops.md R84), or none of
these. -/
inductive Leaf where
  | xfer (p : XferPt)
  | acquire (p : AcquirePt)
  | release (p : ReleasePt)
  | standby (p : StandbyPt)
  | opb (i : Nat)
  | scr (i : Nat)
  | other
deriving DecidableEq, Repr

/-- The innermost point of EnableWrite. -/
def EnableWritePt.leaf : EnableWritePt → Leaf
  | .standby p => .standby p
  | .opcode => .opb 0
  | .xfer p => .xfer p

/-- The innermost point of WriteStatus. -/
def WriteStatusPt.leaf : WriteStatusPt → Leaf
  | .enable p => p.leaf
  | .standby p => .standby p
  | .opcode => .opb 0
  | .status => .opb 1
  | .xfer p => .xfer p

/-- The innermost point of ReadStatus. -/
def ReadStatusPt.leaf : ReadStatusPt → Leaf
  | .standby p => .standby p
  | .opcode => .opb 0
  | .zero => .opb 1
  | .xfer p => .xfer p

/-- The innermost point of a page frame. -/
def PagePt.leaf : PagePt → Leaf
  | .standby p => .standby p
  | .opcode => .opb 0
  | .addrHigh => .opb 1
  | .addrMid => .opb 2
  | .addrLow => .opb 3
  | .header p => .xfer p
  | .payload p => .xfer p

/-- The innermost point of Dump. -/
def DumpPt.leaf : DumpPt → Leaf
  | .poll _ p => p.leaf
  | .page _ p => p.leaf

/-- The innermost point of Program. -/
def ProgramPt.leaf : ProgramPt → Leaf
  | .clearBp _ p => p.leaf
  | .release p => .release p
  | .poll _ p => p.leaf
  | .enable _ p => p.leaf
  | .write _ p => p.leaf
  | .finalPoll p => p.leaf

/-- The innermost point of Erase. -/
def ErasePt.leaf : ErasePt → Leaf
  | .acquire p => .acquire p
  | .standby p => .standby p
  | .clearBp p => p.leaf
  | .enable p => p.leaf
  | .standby2 p => .standby p
  | .opcode => .opb 0
  | .xfer p => .xfer p
  | .release _ p => .release p

/-- The innermost point of Unlock. -/
def UnlockPt.leaf : UnlockPt → Leaf
  | .acquire p => .acquire p
  | .standby p => .standby p
  | .clearBp p => p.leaf
  | .release _ p => .release p

/-- The innermost point of CHECKSUM. -/
def ChecksumPt.leaf : ChecksumPt → Leaf
  | .acquire p => .acquire p
  | .dump p => p.leaf
  | .evalFirst _ _ => .other
  | .evalSecond _ _ _ => .other
  | .result _ _ => .other
  | .scrLow _ => .scr 0
  | .scrHigh _ => .scr 1
  | .program p => p.leaf
  | .release _ p => .release p

/-- The innermost point of a position. -/
def Seq.leaf : Seq → Leaf
  | .idle => .other
  | .transfer _ p => .xfer p
  | .acquire p => .acquire p
  | .release p => .release p
  | .standby p => .standby p
  | .enableWrite _ p => p.leaf
  | .writeStatus _ _ p => p.leaf
  | .readStatus _ p => p.leaf
  | .writePage _ _ p => p.leaf
  | .readPage _ _ p => p.leaf
  | .pollReady _ p => p.leaf
  | .clearBp _ p => p.leaf
  | .dump _ p => p.leaf
  | .program _ p => p.leaf
  | .erase _ p => p.leaf
  | .unlock _ p => p.leaf
  | .checksum _ _ p => p.leaf
  | .statusResult _ => .other
  | .finish _ => .other

/-- LS has been loaded from a RegRead of the running sub-operation (10_state.md R25). -/
def Leaf.lsLive : Leaf → Bool
  | .xfer p => p != .seed
  | .acquire p => p != .seed
  | .release p => p != .seed
  | .standby p => p != .seed
  | .opb _ => false
  | .scr _ => false
  | .other => false

/-- The one byte of BUF, SCR or OPB that the next step stores to, with checksum index k: a MemWrite of Xfer
(40_bitclock_transfer.md R65), an assignment to OPB[i], or CHECKSUM's to SCR[2k] or SCR[2k+1]; none for every other step. -/
def Leaf.storesTo (k : Nat) : Leaf → Option Ref
  | .xfer (.store _ r _) => some r
  | .xfer (.storeTail r _) => some r
  | .opb i => some (opbRef.add i)
  | .scr i => some (scrRef (2 * k + i))
  | _ => none

/-- The value of the last RegRead of a trace. -/
def lastRead (t : List Event) : Option Word :=
  t.foldl (fun acc e => match e with | .rd v => some v | _ => acc) none

/-- The value of the last RegWrite of a trace. -/
def lastWrite (t : List Event) : Option Word :=
  t.foldl (fun acc e => match e with | .wr v => some v | _ => acc) none

/-- The bits of CTRL that the block never changes: all but SK, SI, CEN and REQ (00_scope.md R2, R10; SO and GNT are
written back as last read, 10_state.md R24). -/
def keptMask (p : Params) : Word := ~~~(bitMask p.bitSk ||| bitMask p.bitSi ||| bitMask p.bitCen ||| bitMask p.bitReq)

/-- A CTRL value holds the kept bits as the last RegRead of the trace gave them. -/
def KeepsOthers (p : Params) (t : List Event) (w : Word) : Prop :=
  ∃ v, lastRead t = some v ∧ w &&& keptMask p = v &&& keptMask p

/-- While LS is live it holds the kept bits as last read. -/
def State.LsFollowsReads (s : State) : Prop :=
  s.seq.leaf.lsLive = true → KeepsOthers s.hw.params s.hw.trace s.hw.ls

/-! ### What is observed -/

/-- The observation of 00_scope.md R12 and 70_reset_and_hazards.md R114: the port trace, the host-visible registers, the
bytes of BUF and SCR; the outcome is STATUS. -/
structure Observation where
  trace : List Event
  window : List Word
  mem : Memory
  scr : List Byte
deriving DecidableEq, Repr

/-- The word-aligned offsets of the host window (10_state.md R14). -/
def windowOffsets : List Nat := (List.range 16).map (4 * ·)

/-- What is observed of a hardware state. -/
def Hw.observe (s : Hw) : Observation := ⟨s.trace, windowOffsets.map s.windowLoad, s.mem, s.scr⟩

/-- Two hardware states differ at most in LS and OPB. -/
def Hw.SameButScratch (s t : Hw) : Prop := t = { s with ls := t.ls, opb := t.opb }

/-! ### Event lists and measures -/

/-- The sum of the requested delays of a trace, in microseconds (70_reset_and_hazards.md R111). -/
def delayTotal (t : List Event) : Nat := (t.map fun e => match e with | .dl us => us | _ => 0).sum

/-- The events of Standby after a RegRead that answers v (41_arbiter.md R69). -/
def standbyEvents (p : Params) (du : Nat) (v : Word) : List Event :=
  [.rd v, .wr (v ||| bitMask p.bitCen), .fl, .dl du,
   .wr ((v ||| bitMask p.bitCen) &&& ~~~bitMask p.bitCen), .fl, .dl du]

/-- The value of Release's first write after a RegRead that answers v (41_arbiter.md R68). -/
def deselected (p : Params) (v : Word) : Word := (v ||| bitMask p.bitCen) &&& ~~~bitMask p.bitSk

/-- The events of Release after a RegRead that answers v (41_arbiter.md R68). -/
def releaseEvents (p : Params) (du : Nat) (v : Word) : List Event :=
  [.rd v, .wr (deselected p v), .dl du, .wr (deselected p v &&& ~~~bitMask p.bitReq)]

/-- A line state with SI set to the bit b (40_bitclock_transfer.md R65). -/
def withSi (p : Params) (b : Bool) (v : Word) : Word :=
  if b then v ||| bitMask p.bitSi else v &&& ~~~bitMask p.bitSi

/-- The events of one transfer bit: data setup, rising edge, sample, falling edge. The line state before it is `prev`, the
sample answers `ans` (40_bitclock_transfer.md R65). -/
def bitEvents (p : Params) (du : Nat) (b : Bool) (prev ans : Word) : List Event :=
  [.wr (withSi p b prev), .fl, .dl du, .wr (withSi p b prev ||| bitMask p.bitSk), .fl, .dl du, .rd ans,
   .wr (ans &&& ~~~bitMask p.bitSk), .fl, .dl du]

/-- The events of the bits of a transfer that is not cancelled, given the bits shifted out and the sampled answers
(40_bitclock_transfer.md R65). -/
def shiftEvents (p : Params) (du : Nat) (c : Bool) : Word → List Bool → List Word → List Event
  | prev, b :: bs, ans :: rest =>
    (if c then [.cp false] else []) ++ bitEvents p du b prev ans ++
      shiftEvents p du c (ans &&& ~~~bitMask p.bitSk) bs rest
  | _, _, _ => []

/-- The events of a whole transfer that is not cancelled: the seeding read and the bits. -/
def xferEvents (p : Params) (du : Nat) (c : Bool) (seed : Word) (bits : List Bool) (answers : List Word) : List Event :=
  .rd seed :: shiftEvents p du c seed bits answers

/-- The bits of a byte as a transfer sends them: most significant first (20_memory.md R32). -/
def byteBits (v : Byte) : List Bool := (List.range 8).map (getBit v)

/-- The first n bits of BUF from address a, as a transfer sends them (20_memory.md R32). -/
def bufBits (m : Memory) (a : Word) (n : Nat) : List Bool :=
  (List.range n).map fun i => getBit (m.read (bitByte (bufRef a) i).addr.toNat) i

/-- The SO bit of a CTRL value. -/
def soBit (p : Params) (v : Word) : Bool := v.getLsbD p.bitSo.val

/-- The bits that a transfer shifts out, from bit i on: each is read from BUF as it stands when it is shifted, and each
sampled bit is captured before the next is read (40_bitclock_transfer.md R65: also where source and destination overlap). -/
def exchangeBits (p : Params) (src dst : Option Word) : Nat → Memory → List Word → List Bool
  | _, _, [] => []
  | i, m, ans :: rest =>
    (match src with
      | some a => getBit (m.read (bitByte (bufRef a) i).addr.toNat) i
      | none => false) ::
      exchangeBits p src dst (i + 1)
        (match dst with
          | some a =>
            m.write (bitByte (bufRef a) i).addr.toNat
              (setBit (m.read (bitByte (bufRef a) i).addr.toNat) i (soBit p ans))
          | none => m)
        rest

/-- The byte whose bits, most significant first, are the SO bits of the answers (42_flash_commands.md R73). -/
def sampledByte (p : Params) (answers : List Word) : Byte :=
  (List.range 8).foldl (fun acc i => setBit acc i ((answers[i]?.map (soBit p)).getD false)) 0#8

/-- Cancellation is not seen in the next n samples of a command with flag c: with c = 0 it is never sampled
(60_exceptions.md R87). -/
def Hw.Uncancelled (s : Hw) (c : Bool) (n : Nat) : Prop := c = true → ∃ rest, s.cancels = List.replicate n false ++ rest

/-- How often a trace samples the cancellation input. -/
def cancelSamples (t : List Event) : Nat := (t.filter fun e => match e with | .cp _ => true | _ => false).length

/-- The next RegReads get these answers. -/
def Hw.Answers (s : Hw) (ws : List Word) : Prop := ∃ rest, s.reads = ws ++ rest

/-- The pages that DUMP reads for a span, with page size ps: the page split of 43_flash_ops.md R79, for at most `rounds`
pages. -/
def dumpPages (ps : Nat) : Nat → Span → List Span
  | 0, _ => []
  | rounds + 1, v => if v.len = 0 then [] else dumpPage ps v :: dumpPages ps rounds (v.advance (pageChunk ps v))

/-! ### The answers a command gets, frame by frame -/

/-- The answers in one frame (30_encoding.md R56): Standby's RegRead, the transfer's seeding RegRead, one sample per bit. -/
structure FrameAnswers where
  standby : Word
  seed : Word
  bits : List Word
deriving DecidableEq, Repr

/-- The answers of a page frame (30_encoding.md R57): the header's frame, then the payload transfer. -/
structure PageAnswers where
  header : FrameAnswers
  seed : Word
  payload : List Word
deriving DecidableEq, Repr

/-- The answers of PollReady (42_flash_commands.md R76): the status frames that read busy, then the one that does not. -/
structure PollAnswers where
  busy : List FrameAnswers
  ready : FrameAnswers
deriving DecidableEq, Repr

/-- The answers of WriteStatus (42_flash_commands.md R72): the WREN frame, then the WRSR frame. -/
structure ClearAnswers where
  wren : FrameAnswers
  wrsr : FrameAnswers
deriving DecidableEq, Repr

/-- The answers for one byte of PROGRAM's loop (43_flash_ops.md R80). -/
structure ByteAnswers where
  poll : PollAnswers
  wren : FrameAnswers
  page : PageAnswers
deriving DecidableEq, Repr

/-- The answers of Acquire (41_arbiter.md R67): the first RegRead, the polls before the last one, the last poll. -/
structure AcquireAnswers where
  seed : Word
  polls : List Word
  last : Word
deriving DecidableEq, Repr

/-- The answers of PROGRAM (43_flash_ops.md R80). -/
structure ProgramAnswers where
  clear : ClearAnswers
  bytes : List ByteAnswers
  final : PollAnswers
deriving DecidableEq, Repr

/-- In the order of the RegReads; with no FLASH attached Standby makes none (41_arbiter.md R69). -/
def FrameAnswers.words (present : Bool) (f : FrameAnswers) : List Word :=
  (if present then [f.standby] else []) ++ f.seed :: f.bits

/-- In the order of the RegReads. -/
def PageAnswers.words (present : Bool) (a : PageAnswers) : List Word := a.header.words present ++ a.seed :: a.payload

/-- In the order of the RegReads. -/
def PollAnswers.words (present : Bool) (a : PollAnswers) : List Word :=
  (a.busy ++ [a.ready]).flatMap (FrameAnswers.words present)

/-- In the order of the RegReads. -/
def ClearAnswers.words (present : Bool) (a : ClearAnswers) : List Word := a.wren.words present ++ a.wrsr.words present

/-- In the order of the RegReads. -/
def ByteAnswers.words (present : Bool) (a : ByteAnswers) : List Word :=
  a.poll.words present ++ a.wren.words present ++ a.page.words present

/-- In the order of the RegReads; with no FLASH attached there are none (41_arbiter.md R67). -/
def AcquireAnswers.words (present : Bool) (a : AcquireAnswers) : List Word :=
  if present then a.seed :: (a.polls ++ [a.last]) else []

/-- In the order of the RegReads. -/
def ProgramAnswers.words (present : Bool) (a : ProgramAnswers) : List Word :=
  a.clear.words present ++ a.bytes.flatMap (ByteAnswers.words present) ++ a.final.words present

/-- The answer of Release's RegRead (41_arbiter.md R68). -/
def releaseWords (present : Bool) (v : Word) : List Word := if present then [v] else []

/-- The status byte of a read-status frame: the SO samples of bits 8 to 15 (42_flash_commands.md R73). -/
def FrameAnswers.status (p : Params) (f : FrameAnswers) : Byte := sampledByte p (f.bits.drop 8)

/-- A page frame's answers cover its header and len payload bytes. -/
def PageAnswers.fits (len : Nat) (a : PageAnswers) : Prop :=
  a.header.bits.length = 32 ∧ a.payload.length = 8 * len

/-- Every status frame but the last reads busy (42_flash_commands.md R76). -/
def PollAnswers.fits (p : Params) (a : PollAnswers) : Prop :=
  (∀ f ∈ a.busy, f.bits.length = 16 ∧ f.status p &&& p.statusBusyMask ≠ 0#8) ∧
    a.ready.bits.length = 16 ∧ a.ready.status p &&& p.statusBusyMask = 0#8

/-- The two frames of WriteStatus have their lengths. -/
def ClearAnswers.fits (a : ClearAnswers) : Prop := a.wren.bits.length = 8 ∧ a.wrsr.bits.length = 16

/-- The answers for one byte of PROGRAM. -/
def ByteAnswers.fits (p : Params) (a : ByteAnswers) : Prop :=
  a.poll.fits p ∧ a.wren.bits.length = 8 ∧ a.page.fits 1

/-- GNT is seen at the last poll, the first within the attempts (41_arbiter.md R67). -/
def AcquireAnswers.granted (p : Params) (a : AcquireAnswers) : Prop :=
  a.polls.length ≤ p.grantAttempts ∧ (∀ v ∈ a.polls, v.getLsbD p.bitGnt.val = false) ∧
    a.last.getLsbD p.bitGnt.val = true

/-- GNT is 0 in the first poll and in each of the GRANT_ATTEMPTS further polls (60_exceptions.md R89). -/
def AcquireAnswers.timedOut (p : Params) (a : AcquireAnswers) : Prop :=
  a.polls.length = p.grantAttempts ∧ (∀ v ∈ a.polls, v.getLsbD p.bitGnt.val = false) ∧
    a.last.getLsbD p.bitGnt.val = false

/-- The answers of PROGRAM for n bytes. -/
def ProgramAnswers.fits (p : Params) (n : Nat) (a : ProgramAnswers) : Prop :=
  a.clear.fits ∧ a.bytes.length = n ∧ (∀ b ∈ a.bytes, b.fits p) ∧ a.final.fits p

/-! ### The events of a command, frame by frame -/

/-- A frame: Standby's events where a FLASH is attached, then a transfer of the bits `out`. -/
def frameEvents (s : Hw) (c : Bool) (out : List Bool) (f : FrameAnswers) : List Event :=
  (if s.latch.present then standbyEvents s.params s.latch.du.toNat f.standby else []) ++
    xferEvents s.params s.latch.du.toNat c f.seed out f.bits

/-- The bits of a page header (30_encoding.md R57). -/
def headerBits (op : Byte) (off : Half) : List Bool :=
  byteBits op ++ byteBits 0x00#8 ++ byteBits (off.extractLsb' 8 8) ++ byteBits (off.extractLsb' 0 8)

/-- A page frame: the header frame, then the payload transfer with no Standby in between (30_encoding.md R57). -/
def pageEvents (s : Hw) (c : Bool) (op : Byte) (off : Half) (out : List Bool) (a : PageAnswers) : List Event :=
  frameEvents s c (headerBits op off) a.header ++ xferEvents s.params s.latch.du.toNat c a.seed out a.payload

/-- A read-status frame (30_encoding.md R58). -/
def statusEvents (s : Hw) (c : Bool) (f : FrameAnswers) : List Event :=
  frameEvents s c (byteBits s.params.opRdsr ++ byteBits 0x00#8) f

/-- PollReady: one read-status frame per iteration, with nothing between them (42_flash_commands.md R76). -/
def pollEvents (s : Hw) (c : Bool) (a : PollAnswers) : List Event := (a.busy ++ [a.ready]).flatMap (statusEvents s c)

/-- WriteStatus of the byte st: the WREN frame, then the WRSR frame (42_flash_commands.md R72). -/
def writeStatusEvents (s : Hw) (c : Bool) (st : Byte) (a : ClearAnswers) : List Event :=
  frameEvents s c (byteBits s.params.opWren) a.wren ++ frameEvents s c (byteBits s.params.opWrsr ++ byteBits st) a.wrsr

/-- One byte of PROGRAM's loop (43_flash_ops.md R80). -/
def programByteEvents (s : Hw) (c : Bool) (off : Half) (v : Byte) (a : ByteAnswers) : List Event :=
  pollEvents s c a.poll ++ frameEvents s c (byteBits s.params.opWren) a.wren ++
    pageEvents s c s.params.opWrite off (byteBits v) a.page

/-- The bytes of PROGRAM's loop, byte j at offset (off + j) mod 2^16 (43_flash_ops.md R80). -/
def programBytesEvents (s : Hw) (c : Bool) : Half → List Byte → List ByteAnswers → List Event
  | off, v :: vs, a :: rest => programByteEvents s c off v a ++ programBytesEvents s c (off + 1#16) vs rest
  | _, _, _ => []

/-- PROGRAM: ClearBP, the bytes, a final PollReady (43_flash_ops.md R80). -/
def programEvents (s : Hw) (c : Bool) (off : Half) (bytes : List Byte) (a : ProgramAnswers) : List Event :=
  writeStatusEvents s c (~~~s.params.protectMask) a.clear ++ programBytesEvents s c off bytes a.bytes ++
    pollEvents s c a.final

/-- DUMP's page reads (43_flash_ops.md R79). -/
def dumpPagesEvents (s : Hw) (c : Bool) : List Span → List PageAnswers → List Event
  | v :: vs, a :: rest =>
    pageEvents s c s.params.opRead v.off (List.replicate (8 * v.len) false) a ++ dumpPagesEvents s c vs rest
  | _, _ => []

/-- The page answers cover the pages, one each. -/
def pagesFit : List Span → List PageAnswers → Prop
  | [], [] => True
  | v :: vs, a :: rest => a.fits v.len ∧ pagesFit vs rest
  | _, _ => False

/-- The REQ write and the polls of Acquire (41_arbiter.md R67). -/
def handshakeEvents (s : Hw) (a : AcquireAnswers) : List Event :=
  [.rd a.seed, .wr (a.seed ||| bitMask s.params.bitReq)] ++
    (a.polls.flatMap fun v => [.rd v, .dl s.params.grantPollUs]) ++ [.rd a.last]

/-- The idle baseline: SI 0, CEN 0, SK 0 (41_arbiter.md R67). -/
def baseline (p : Params) (v : Word) : Word := v &&& ~~~(bitMask p.bitSi ||| bitMask p.bitCen ||| bitMask p.bitSk)

/-- Acquire, granted (41_arbiter.md R67); nothing with no FLASH attached. -/
def acquireEvents (s : Hw) (a : AcquireAnswers) : List Event :=
  if s.latch.present then handshakeEvents s a ++ [.wr (baseline s.params a.last), .dl s.latch.du.toNat] else []

/-- Acquire, timed out (41_arbiter.md R67). -/
def timeoutEvents (s : Hw) (a : AcquireAnswers) : List Event :=
  handshakeEvents s a ++ [.wr (a.last &&& ~~~bitMask s.params.bitReq)]

/-- Standby inside a command; nothing with no FLASH attached (41_arbiter.md R69). -/
def standbyPart (s : Hw) (v : Word) : List Event :=
  if s.latch.present then standbyEvents s.params s.latch.du.toNat v else []

/-- Release inside a command; nothing with no FLASH attached (41_arbiter.md R68). -/
def releasePart (s : Hw) (v : Word) : List Event :=
  if s.latch.present then releaseEvents s.params s.latch.du.toNat v else []

/-- The bytes that the SO samples of a transfer give, most significant bit first (40_bitclock_transfer.md R65). -/
def sampledBytes (p : Params) (n : Nat) (answers : List Word) : List Byte :=
  (List.range n).map fun j => sampledByte p (answers.drop (8 * j))

/-! ### What a command leaves unchanged -/

/-- All but LS, OPB, CTRL, the port trace and the answers still to come is unchanged. -/
def Hw.OnlyPort (s h : Hw) : Prop :=
  h = { s with ls := h.ls, ctrl := h.ctrl, opb := h.opb, reads := h.reads, cancels := h.cancels, draws := h.draws,
               trace := h.trace }

/-- The k bytes of BUF from a on hold the given bytes, and every other byte of BUF is as before (20_memory.md R47: the
addresses wrap modulo 2^32). -/
def BufHolds (before after : Memory) (a : Word) (bytes : List Byte) : Prop :=
  (∀ j, ∀ h : j < bytes.length, after.read (a + BitVec.ofNat 32 j).toNat = bytes[j]) ∧
    ∀ x : Word, (∀ j, j < bytes.length → x ≠ a + BitVec.ofNat 32 j) → after.read x.toNat = before.read x.toNat

/-- The hardware state that a command starts from: the parameters, BUF and SCR have their forms, and the latch holds a page
size (00_scope.md R3, R4; 10_state.md R26, R28). -/
structure Hw.Sound (s : Hw) : Prop where
  params : s.params.wellFormed = true
  mem : s.mem.wf = true
  scr : s.scr.length = 2 * (s.params.checksumIndex + 1)
  pageSize : legalPageSize s.latch.ps = true

/-! ### The host's registers and statements -/

/-- The bits of a window register that a host store writes; none where the store is ignored or starts a command
(10_state.md R14 to R22). -/
def writeMask : Nat → Option Word
  | 0x0C => some 0x0000FFFF#32
  | 0x10 => some 0xFFFFFFFF#32
  | 0x14 => some 0xFFFFFFFF#32
  | 0x18 => some 0xFFFFFFFF#32
  | 0x1C => some 0x0000FFFF#32
  | 0x20 => some 0xFFFF00F1#32
  | 0x24 => some 0x0000FFFF#32
  | _ => none

/-- The host address that a host operation stores to. -/
def HostOp.storeAddress : HostOp → Nat
  | .store a _ => a.addr
  | _ => 0

end Sys2Proof.Machine

namespace Sys2Proof

open Machine

/-! ### Kinds of commands -/

/-- The commands with no PollReady in them: their loops are bounded (60_exceptions.md R99). -/
def Instr.bounded : Instr → Bool
  | .pollReady _ => false
  | .dump _ => false
  | .program _ => false
  | .checksum _ _ => false
  | _ => true

/-- The page and loop commands, which require LENGTH[31:16] = 0 (30_encoding.md R54). -/
def Instr.hasByteCount : Instr → Bool
  | .writePage _ => true
  | .readPage _ => true
  | .dump _ => true
  | .program _ => true
  | _ => false

/-- The commands that open and close their own session (43_flash_ops.md R81, R82, R84). -/
def Instr.ownsSession : Instr → Bool
  | .erase _ => true
  | .unlock _ => true
  | .checksum _ _ => true
  | _ => false

/-- The result codes that a command can end with (the table of 60_exceptions.md R85). -/
def Instr.codes : Instr → List RCode
  | .transfer _ _ _ => [.ok, .cancelled]
  | .acquire => [.ok, .arbTimeout]
  | .release => [.ok]
  | .standby => [.ok]
  | .enableWrite _ => [.ok, .cancelled]
  | .writeStatus _ => [.ok, .cancelled]
  | .readStatus _ => [.ok, .cancelled]
  | .writePage _ => [.ok, .cancelled, .illegal]
  | .readPage _ => [.ok, .cancelled, .illegal]
  | .pollReady _ => [.ok, .cancelled]
  | .clearBp _ => [.ok, .cancelled]
  | .dump _ => [.ok, .cancelled, .illegal]
  | .program _ => [.ok, .cancelled, .protectedRegion, .illegal]
  | .erase _ => [.ok, .arbTimeout, .cancelled, .protectedRegion]
  | .unlock _ => [.ok, .arbTimeout, .protectedRegion]
  | .checksum _ _ => [.valid, .invalid, .repaired, .arbTimeout, .cancelled, .protectedRegion]

/-- The BUF bytes that a command may store to: TRANSFER's destination, and the destination range of READ_PAGE and DUMP
(20_memory.md R31, R46, R47). -/
def Instr.storesTo (i : Instr) (l : Latch) (x : Word) : Prop :=
  match i with
  | .transfer _ _ true => ∃ j, j < (l.len.toNat + 7) / 8 ∧ x = l.dsta + BitVec.ofNat 32 j
  | .readPage _ => ∃ j, j < byteCount l ∧ x = l.dsta + BitVec.ofNat 32 j
  | .dump _ => ∃ j, j < byteCount l ∧ x = l.dsta + BitVec.ofNat 32 j
  | _ => False

/-- The commands that write RDATA after acceptance (10_state.md R18). -/
def Instr.writesRdata : Instr → Bool
  | .readStatus _ => true
  | .pollReady _ => true
  | .checksum _ _ => true
  | _ => false

/-- The one command that uses SCR (10_state.md R28). -/
def Instr.usesScr : Instr → Bool
  | .checksum _ _ => true
  | _ => false

/-- The flag bits that a statement's suffixes and buffer operands ask for (30_encoding.md R59). -/
def Stmt.flags (t : Stmt) : CmdFlags :=
  match t.args with
  | .bits _ src dst => ⟨t.dotC, src.isSome, dst.isSome, t.dotR⟩
  | _ => ⟨t.dotC, false, false, t.dotR⟩

/-- The operand registers after a statement's stores (30_encoding.md R60): registers the command does not read are not
written. -/
def Stmt.operandsInto (t : Stmt) (h : Hw) : Hw :=
  match t.args with
  | .none => h
  | .bits n src dst => { h with length := n, src := src.getD h.src, dst := dst.getD h.dst }
  | .statusByte s => { h with data := s.setWidth 16 }
  | .page off len buf =>
    if t.op = .writePage ∨ t.op = .program then { h with offset := off, length := len, src := buf }
    else { h with offset := off, length := len, dst := buf }
  | .expected e => { h with data := e }

end Sys2Proof
end

