-- ==== Sys2Proof/Certificates/Slice0/Obligations.lean ====
section
/-! DEFINITION. The statements for the provers. Each docstring says which rule of spec/ it formalises. Every statement about
a command holds for every parameter record, every value of the registers and every sequence of the environment's answers
that its hypotheses allow (00_scope.md R7). -/

open Sys2Proof Sys2Proof.Machine

/-! ### Encoding, the assembler -/

/-- 30_encoding.md R49, R50, R60: the decoder reads back every encoded command with every flag, and a word that decodes to a
command is that command's word, so no bit of it is dropped. -/
def Obligations.DecodeAndEncodeAgree : Prop :=
  (∀ i : Instr, i.wellFormed = true → decode (encode i) = .ok i) ∧
    ∀ (w : Word) (i : Instr), decode w = .ok i → encode i = w

/-- 30_encoding.md R50, R52: at most one row matches a word, and a word decodes to a command exactly where a row matches
it, its flags taken from the word. -/
def Obligations.DecodeSelectsTheRow : Prop :=
  (∀ (w : Word) (r r' : Row), r ∈ commandRows → r' ∈ commandRows → w &&& r.mask = r.pattern →
      w &&& r'.mask = r'.pattern → r = r') ∧
    ∀ (w : Word) (i : Instr), decode w = .ok i ↔ ∃ r ∈ commandRows, w &&& r.mask = r.pattern ∧ commandOf r.op w = i

/-- 30_encoding.md R55: a word is illegal where its code is outside the sixteen listed, or a bit of [31:12] is set, or a flag
bit is set that the command does not allow; the decoder says which. Which name a word gets that is illegal for two reasons
is the model's choice: an unknown code first, then a reserved bit, then a flag (log 32; the spec gives no order). -/
def Obligations.IllegalWordsAreNamed : Prop :=
  ∀ w : Word,
    (decode w = .error .unknownCode ↔ ∀ m : Mnemonic, m.code ≠ w.extractLsb' 0 8) ∧
      (decode w = .error .reservedBits ↔
        (∃ m : Mnemonic, m.code = w.extractLsb' 0 8) ∧ w.extractLsb' 12 20 ≠ 0#20) ∧
      (decode w = .error .flagNotAllowed ↔
        w.extractLsb' 12 20 = 0#20 ∧
          ∃ m : Mnemonic, m.code = w.extractLsb' 0 8 ∧
            (CmdFlags.mk (w.getLsbD 8) (w.getLsbD 9) (w.getLsbD 10) (w.getLsbD 11)).within m.allowed = false)

/-- Words of the spec's examples and programs decode to the commands they stand for (40_bitclock_transfer.md R66,
95_test_vectors.md). -/
def Obligations.CommandWordsDecode : Prop :=
  decode 0x00000201#32 = .ok (.transfer false true false) ∧ decode 0x00000701#32 = .ok (.transfer true true true) ∧
    decode 0x00000002#32 = .ok .acquire ∧ decode 0x00000003#32 = .ok .release ∧ decode 0x00000004#32 = .ok .standby ∧
    decode 0x00000112#32 = .ok (.readStatus true) ∧ decode 0x00000120#32 = .ok (.dump true) ∧
    decode 0x00000121#32 = .ok (.program true) ∧ decode 0x00000123#32 = .ok (.unlock true) ∧
    decode 0x00000024#32 = .ok (.checksum false false) ∧ decode 0x00000924#32 = .ok (.checksum true true)

/-- 30_encoding.md R60: an assembled statement stores its operands in the order OFFSET, LENGTH, SRC, DST, DATA, writes no
other register, then stores the command word CODE | C<<8 | S<<9 | D<<10 | RP<<11 to CMD, then waits. How the stores travel is
the model's choice (log 17; 20_memory.md R45 leaves HOST_STORE_ORDER open): in program order each arrives in the host's own
step, and the last one starts the statement's command; in any order they are posted in the statement's order. -/
def Obligations.AssembledStatementStartsItsCommand : Prop :=
  ∀ (t : Stmt) (ops rest : List HostOp) (s : State), assemble s.hw.params t = some ops → s.seq = .idle →
    s.hw.status.busy = false → s.admitted = true → s.host.turns = [] → s.host.ops = ops ++ rest →
    ops =
        operandStores s.hw.params t ++ [.store (wordAccess s.hw.params 0x00) (encode (stmtCommand t)), .wait] ∧
      encode (stmtCommand t) = commandWord t.op.code t.flags ∧
      ((operandStores s.hw.params t).map HostOp.storeAddress).Pairwise (· < ·) ∧
      (s.hw.params.storeOrder = .program →
        ∃ u : State,
          u =
            { s with
              hw := t.operandsInto s.hw
              host := { s.host with ops := ops.drop (operandStores s.hw.params t).length ++ rest } } ∧
          Host.Core.run Sys2Proof.core (operandStores s.hw.params t).length s = .next u ∧
          step u = exec (stmtCommand t) (u.popOp.accept (encode (stmtCommand t)))) ∧
      (s.hw.params.storeOrder = .any →
        ∃ issued : List Posted,
          issued.map (fun x => HostOp.store (wordAccess s.hw.params x.off) x.v) ++ [.wait] = ops ∧
          Host.Core.run Sys2Proof.core issued.length s =
            .next { s with host := { s.host with ops := .wait :: rest, posted := s.host.posted ++ issued } })

/-- 30_encoding.md R61: the expansions of the pseudo-instructions, store by store, and what an admitted host does at `WAIT`
(load STATUS, and stay there while BUSY = 1) and at the two tests of RCODE that SHOW and PROGRAM_S need. The model's own are
the two tests, as operations that skip (log 15), and that in SHOW and PROGRAM_S the RELEASE, too, stands inside the test of
ACQUIRE's RCODE (log 22). -/
def Obligations.PseudoInstructionsExpand : Prop :=
  (∀ (s : State) (rest : List HostOp), s.admitted = true → s.host.ops = .wait :: rest →
    hostStep s =
      .next
        (({ s with host := { s.host with ops := if s.hw.status.busy then .wait :: rest else rest } } : State).see
          (.window 0x04 s.hw.status.word))) ∧
  (∀ (s : State) (code : RCode) (n : Nat) (rest : List HostOp), s.admitted = true →
    s.host.ops = .skipUnless code n :: rest →
    hostStep s =
      .next
        (({ s with host := { s.host with ops := if s.hw.status.rcode = code then rest else rest.drop n } } : State).see
          (.window 0x04 s.hw.status.word))) ∧
  (∀ (s : State) (code : RCode) (n : Nat) (rest : List HostOp), s.admitted = true →
    s.host.ops = .skipIf code n :: rest →
    hostStep s =
      .next
        (({ s with host := { s.host with ops := if s.hw.status.rcode = code then rest.drop n else rest } } : State).see
          (.window 0x04 s.hw.status.word))) ∧
  ∀ p : Params,
    expandPseudo p .wait = [.wait] ∧
    (∀ (b : Bool) (g : BitVec 4) (d w : Half),
      expandPseudo p (.config b g d w) =
        [.store (wordAccess p 0x20) ((BitVec.ofBool b).setWidth 32 ||| g.setWidth 32 <<< 4 ||| d.setWidth 32 <<< 16),
         .store (wordAccess p 0x24) (w.setWidth 32)]) ∧
    (∀ (off : Half) (len dst : Word),
      expandPseudo p (.showFlash off len dst) =
        [.store (wordAccess p 0x00) 0x00000002#32, .wait, .skipUnless .ok 7,
         .store (wordAccess p 0x0C) (off.setWidth 32), .store (wordAccess p 0x10) len, .store (wordAccess p 0x18) dst,
         .store (wordAccess p 0x00) 0x00000120#32, .wait, .store (wordAccess p 0x00) 0x00000003#32, .wait]) ∧
    (∀ (src : Word) (off : Half) (len : Word),
      expandPseudo p (.programS src off len) =
        [.store (wordAccess p 0x00) 0x00000002#32, .wait, .skipUnless .ok 8,
         .store (wordAccess p 0x0C) (off.setWidth 32), .store (wordAccess p 0x10) len, .store (wordAccess p 0x14) src,
         .store (wordAccess p 0x00) 0x00000121#32, .wait, .skipIf .protectedRegion 2,
         .store (wordAccess p 0x00) 0x00000003#32, .wait]) ∧
    (∀ u : Bool,
      expandPseudo p (.checksumS u) =
        [.store (wordAccess p 0x1C) (p.checksumSum.setWidth 32),
         .store (wordAccess p 0x00) (if u then 0x00000924#32 else 0x00000124#32), .wait]) ∧
    expandPseudo p .eraseS = [.store (wordAccess p 0x00) 0x00000122#32, .wait] ∧
    expandPseudo p .unlockS = [.store (wordAccess p 0x00) 0x00000123#32, .wait]

/-! ### The host window, acceptance, completion -/

/-- 10_state.md R15, 30_encoding.md R52: where the next step brings a store of a word to CMD while the block is not busy, and
the word decodes to i, the step is exec of i from the accepted state: the store and its turn are used up (`Delivers`), and
CMD, the latch, STATUS and RDATA are as acceptance leaves them. -/
def Obligations.StepRunsTheDecodedCommand : Prop :=
  ∀ (s u : State) (w : Word) (i : Instr), s.Delivers w u → s.hw.status.busy = false → decode w = .ok i →
    step s =
      exec i
        { u with
          hw := { s.hw with cmd := w, latch := s.hw.latchFor w, rdata := 0#32,
                            status := ⟨true, s.hw.status.rcode, false, false⟩ } }

/-- 10_state.md R26: what acceptance loads into each field of the latch; and while a command runs no step but a block reset
changes the latch, and no step of the host or of its bus changes SEQ. -/
def Obligations.LatchIsLoadedAndKept : Prop :=
  (∀ (s : Hw) (w : Word),
    (s.accept w).latch.code = w.extractLsb' 0 8 ∧ (s.accept w).latch.c = w.getLsbD 8 ∧
      (s.accept w).latch.s = w.getLsbD 9 ∧ (s.accept w).latch.d = w.getLsbD 10 ∧
      (s.accept w).latch.rp = w.getLsbD 11 ∧ (s.accept w).latch.off = s.offset ∧
      (s.accept w).latch.len = s.length ∧ (s.accept w).latch.srca = s.src ∧ (s.accept w).latch.dsta = s.dst ∧
      (s.accept w).latch.dat = s.data ∧ (s.accept w).latch.present = s.devcfg.present ∧
      (s.accept w).latch.ps.toNat = 2 ^ s.devcfg.pageLog2.toNat ∧ (s.accept w).latch.du = s.devcfg.delayUs) ∧
    (∀ s t : State, blockStep s = .next t → t.hw.latch = s.hw.latch) ∧
    ∀ s t : State, s.hw.status.busy = true → s.mover ≠ .reset → step s = .next t →
      t.hw.latch = s.hw.latch ∧ (s.mover ≠ .block → t.seq = s.seq)

/-- 60_exceptions.md R95: a store to CMD while BUSY = 1 sets OVERRUN and changes nothing else, and OVERRUN is cleared only by
an acceptance (or by block reset, 10_state.md R30). -/
def Obligations.BusyCommandStoreSetsOverrun : Prop :=
  (∀ (s u : State) (w : Word), s.Delivers w u → s.hw.status.busy = true →
    step s = .next { u with hw := { s.hw with status := { s.hw.status with overrun := true } } }) ∧
    ∀ s t : State, step s = .next t → s.hw.status.overrun = true → t.hw.status.overrun = false →
      s.mover = .reset ∨ (s.hw.status.busy = false ∧ ∃ w u, s.Delivers w u)

/-- 10_state.md R22, 20_memory.md R37, R40, 93_implementation_defined.md U10, U11: the reserved offsets read as zero and
ignore stores; an access that is not 32 bits wide, not word-aligned, or outside the 0x40 bytes from WINDOW_BASE is refused,
with no step. That every access of a host that WINDOW_ACCESS (60_exceptions.md R96, U21) keeps out is refused too is the
model's choice (log 17). -/
def Obligations.ReservedOffsetsAndRefusedAccesses : Prop :=
  (∀ (s : State) (off : Nat) (v : Word), off ∈ [0x28, 0x2C, 0x30, 0x34, 0x38, 0x3C] →
    arriveStore off v s = .next s ∧
      (s.admitted = true →
        hostLoad (wordAccess s.hw.params off) s = .next (s.see (.window off 0#32)) ∧
          (s.hw.params.storeOrder = .program → hostStore (wordAccess s.hw.params off) v s = .next s))) ∧
    (∀ (s : State) (a : Access) (v : Word),
      a.bytes ≠ 4 ∨ a.addr < s.hw.params.windowBase ∨ s.hw.params.windowBase + 0x40 ≤ a.addr ∨
        (a.addr - s.hw.params.windowBase) % 4 ≠ 0 →
      ∃ e, hostLoad a s = .refused e ∧ hostStore a v s = .refused e) ∧
    ∀ (s : State) (a : Access) (v : Word), s.admitted = false →
      (∃ e, hostLoad a s = .refused e ∧ hostStore a v s = .refused e) ∧
        ∀ (o : HostOp) (rest : List HostOp), s.host.ops = o :: rest →
          o = .wait ∨ (∃ code n, o = .skipUnless code n ∨ o = .skipIf code n) →
          hostStep s = .refused .hostAccessNotAdmitted

/-- 10_state.md R14 to R22: a load at an offset of the window sees the register that stands there. A store that reaches a
writable register is read back in its writable bits and reads as zero in the others, every other register keeps its value,
and nothing outside the operand registers changes; STATUS and RDATA ignore stores. How a store travels, the last two clauses,
is the model's choice (log 17; 20_memory.md R45 leaves HOST_STORE_ORDER open): an admitted host's store reaches the window at
once where stores arrive in program order; else it is posted, and reaches the window in a step of the bus. -/
def Obligations.WindowRegistersReadBack : Prop :=
  (∀ (s : State) (off : Nat), off ∈ windowOffsets → s.admitted = true →
    hostLoad (wordAccess s.hw.params off) s = .next (s.see (.window off (s.hw.windowLoad off)))) ∧
  (∀ s : Hw, windowOffsets.map s.windowLoad =
    [s.cmd, s.status.word, s.rdata, s.offset.setWidth 32, s.length, s.src, s.dst, s.data.setWidth 32, s.devcfg.word,
     s.devsize.setWidth 32, 0#32, 0#32, 0#32, 0#32, 0#32, 0#32]) ∧
  (∀ (s : State) (off : Nat) (v : Word), off ∈ windowOffsets → off ≠ 0x00 →
    ∃ h : Hw, arriveStore off v s = .next { s with hw := h } ∧
      (∀ off' ∈ windowOffsets, h.windowLoad off' =
        match writeMask off with
        | some m => if off' = off then v &&& m else s.hw.windowLoad off'
        | none => s.hw.windowLoad off') ∧
      h = { s.hw with offset := h.offset, length := h.length, src := h.src, dst := h.dst, data := h.data,
                      devcfg := h.devcfg, devsize := h.devsize }) ∧
  (∀ (s : State) (off : Nat) (v : Word), off ∈ windowOffsets → s.admitted = true →
    (s.hw.params.storeOrder = .program → hostStore (wordAccess s.hw.params off) v s = arriveStore off v s) ∧
      (s.hw.params.storeOrder = .any →
        hostStore (wordAccess s.hw.params off) v s =
          .next { s with host := { s.host with posted := s.host.posted ++ [⟨off, v⟩] } })) ∧
  ∀ (s : State) (k off : Nat) (v : Word), s.host.posted[k]? = some ⟨off, v⟩ →
    busStep k s = arriveStore off v { s with host := { s.host with posted := s.host.posted.eraseIdx k } }

/-- 10_state.md R17, R21, 60_exceptions.md R85: the places of the fields of STATUS and DEVCFG, bit by bit, and the numbers of
the result codes. -/
def Obligations.StatusAndDescriptorLayout : Prop :=
  (∀ (t : Status) (k : Nat), t.word.getLsbD k =
    if k = 0 then t.busy
    else if 8 ≤ k ∧ k < 12 then t.rcode.bits.getLsbD (k - 8)
    else if k = 16 then t.cancelSeen
    else if k = 17 then t.overrun
    else false) ∧
    (∀ (d : DevCfg) (k : Nat), d.word.getLsbD k =
      if k = 0 then d.present
      else if 4 ≤ k ∧ k < 8 then d.pageLog2.getLsbD (k - 4)
      else if 16 ≤ k ∧ k < 32 then d.delayUs.getLsbD (k - 16)
      else false) ∧
    [RCode.ok, .valid, .invalid, .repaired, .arbTimeout, .cancelled, .protectedRegion, .illegal].map RCode.bits =
      [0#4, 1#4, 2#4, 3#4, 4#4, 5#4, 6#4, 7#4]

/-- 60_exceptions.md R93: finish(code) is one step that writes RCODE, BUSY and SEQ and nothing else; and no other step of the
block changes RCODE or BUSY. That LS, the latch and OPB, too, keep their contents in it is the model's choice (log 31). -/
def Obligations.FinishRecordsTheResult : Prop :=
  (∀ (s : State) (code : RCode), s.seq = .finish code →
    blockStep s =
      .next { s with seq := .idle, hw := { s.hw with status := { s.hw.status with rcode := code, busy := false } } }) ∧
    ∀ s t : State, blockStep s = .next t → (∀ code, s.seq ≠ .finish code) →
      t.hw.status.rcode = s.hw.status.rcode ∧ t.hw.status.busy = s.hw.status.busy

/-- 60_exceptions.md R86: a store of an illegal word, or of a page or loop command with LENGTH[31:16] ≠ 0, ends with ILLEGAL
at once: after it only CMD, STATUS and RDATA differ, and the latch that acceptance loads (10_state.md R15, R26). That this
takes exactly two steps, the store and a `finish` step of its own (R93), is the model's reading of R16 (log 21). -/
def Obligations.IllegalCommandEndsAtOnce : Prop :=
  ∀ (s u : State) (w : Word), s.Delivers w u → s.seq = .idle → s.hw.status.busy = false → u.host.turns = [] →
    ((∀ i, decode w ≠ .ok i) ∨
      ∃ i, decode w = .ok i ∧ i.hasByteCount = true ∧ s.hw.length.extractLsb' 16 16 ≠ 0#16) →
    Host.Core.run Sys2Proof.core 2 s =
      .next
        { u with
          hw := { s.hw with cmd := w, latch := s.hw.latchFor w, rdata := 0#32, status := ⟨false, .illegal, false, false⟩ } }

/-- 30_encoding.md R54: the page and loop commands are illegal where LENGTH[31:16] ≠ 0, and take the lower half as a byte
count otherwise; TRANSFER takes all 32 bits as a bit count. -/
def Obligations.LengthWidths : Prop :=
  (∀ (i : Instr) (s : State), i.hasByteCount = true → s.hw.latch.len.extractLsb' 16 16 ≠ 0#16 →
    exec i s = .next (s.at (.finish .illegal))) ∧
    (∀ (l : Latch), l.len.extractLsb' 16 16 = 0#16 →
      (sourceSpan l).len = l.len.toNat ∧ (destSpan l).len = l.len.toNat) ∧
    ∀ (c sf df : Bool) (s : State), ∃ a : XferArgs, a.n = s.hw.latch.len.toNat ∧
      exec (.transfer c sf df) s = .next (s.at (.transfer a .seed))

/-- 10_state.md R16: at acceptance SEQ leaves IDLE, for every command; nothing else changes in that step. -/
def Obligations.EveryCommandLeavesIdle : Prop :=
  ∀ (i : Instr) (s : State), ∃ q : Seq, q ≠ .idle ∧ exec i s = .next (s.at q)

/-! ### Reset -/

/-- 70_reset_and_hazards.md R100, R101, 10_state.md R30: block reset, taken in any state, gives every host-visible register
its reset value, puts SEQ at IDLE, and leaves CTRL, BUF and the port trace alone. Nothing is said of LS, the latch, OPB and
the bytes of SCR. -/
def Obligations.BlockResetValues : Prop :=
  ∀ s : State, s.mover = .reset →
    ∃ t : State, step s = .next t ∧ t.seq = .idle ∧ (∀ off ∈ windowOffsets, t.hw.windowLoad off = 0#32) ∧
      t.hw.status = ⟨false, .ok, false, false⟩ ∧ t.hw.ctrl = s.hw.ctrl ∧ t.hw.mem = s.hw.mem ∧
      t.hw.trace = s.hw.trace ∧ t.hw.params = s.hw.params ∧ t.hw.scr.length = 2 * (s.hw.params.checksumIndex + 1) ∧
      t.hw.reads = s.hw.reads ∧ t.hw.cancels = s.hw.cancels

/-- 10_state.md R30: the state after power-on reset, for every parameter record: the values that the spec gives. That the
port trace is empty is the model's choice (log 23). -/
def Obligations.ResetStateValues : Prop :=
  ∀ p : Params,
    (State.resetWith p).seq = .idle ∧ (State.resetWith p).hw.params = p ∧
      (∀ off ∈ windowOffsets, (State.resetWith p).hw.windowLoad off = 0#32) ∧
      (State.resetWith p).hw.status = ⟨false, .ok, false, false⟩ ∧
      (State.resetWith p).hw.scr.length = 2 * (p.checksumIndex + 1) ∧ (State.resetWith p).hw.trace = []

/-! ### The clock micro-operations and the arbiter -/

/-- 40_bitclock_transfer.md R63, R64: RAISE and LOWER, from every line state: exactly one register write and one flush, and
one delay unit, with SK set or cleared in LS and every other bit kept; the outcome is Ok. -/
def Obligations.RaiseAndLower : Prop :=
  (∀ s : Hw,
    Ends stepRaise .change s .ok
      { s with
        ls := s.ls ||| 1#32 <<< s.params.bitSk.val
        ctrl := s.ls ||| 1#32 <<< s.params.bitSk.val
        trace := s.trace ++ [.wr (s.ls ||| 1#32 <<< s.params.bitSk.val), .fl, .dl s.latch.du.toNat] }) ∧
    ∀ s : Hw,
      Ends stepLower .change s .ok
        { s with
          ls := s.ls &&& ~~~(1#32 <<< s.params.bitSk.val)
          ctrl := s.ls &&& ~~~(1#32 <<< s.params.bitSk.val)
          trace := s.trace ++ [.wr (s.ls &&& ~~~(1#32 <<< s.params.bitSk.val)), .fl, .dl s.latch.du.toNat] }

/-- 41_arbiter.md R67: ACQUIRE with no FLASH attached, granted at any poll, and timed out, with the whole port trace: the
events that `acquireEvents` and `timeoutEvents` (Safety.lean) write out from the rule. -/
def Obligations.AcquireFollowsItsRule : Prop :=
  (∀ s : State, s.Accepted → s.hw.latch.present = false → CommandEnds .acquire s s.hw .ok) ∧
    (∀ (s : State) (a : AcquireAnswers), s.Accepted → s.hw.latch.present = true → a.granted s.hw.params →
      s.hw.Answers (a.words true) →
      ∃ h, CommandEnds .acquire s h .ok ∧ s.hw.OnlyPort h ∧ h.trace = s.hw.trace ++ acquireEvents s.hw a) ∧
    ∀ (s : State) (a : AcquireAnswers), s.Accepted → s.hw.latch.present = true → a.timedOut s.hw.params →
      s.hw.Answers (a.words true) →
      ∃ h, CommandEnds .acquire s h .arbTimeout ∧ s.hw.OnlyPort h ∧ h.trace = s.hw.trace ++ timeoutEvents s.hw a

/-- 41_arbiter.md R68: RELEASE with no FLASH attached and with one, whatever its RegRead answers, with the whole port trace;
it always ends OK. -/
def Obligations.ReleaseFollowsItsRule : Prop :=
  (∀ s : State, s.Accepted → s.hw.latch.present = false → CommandEnds .release s s.hw .ok) ∧
    ∀ s : State, s.Accepted → s.hw.latch.present = true →
      ∃ h, CommandEnds .release s h .ok ∧ s.hw.OnlyPort h ∧
        ∃ v d : Word, d = (v ||| bitMask s.hw.params.bitCen) &&& ~~~bitMask s.hw.params.bitSk ∧
          v = s.hw.readAnswer ∧
          h.trace =
            s.hw.trace ++ [.rd v, .wr d, .dl s.hw.latch.du.toNat, .wr (d &&& ~~~bitMask s.hw.params.bitReq)]

/-- 41_arbiter.md R69: STANDBY with no FLASH attached and with one, whatever its RegRead answers, with the whole port trace;
it always ends OK, and its last write has CEN = 0. -/
def Obligations.StandbyFollowsItsRule : Prop :=
  (∀ s : State, s.Accepted → s.hw.latch.present = false → CommandEnds .standby s s.hw .ok) ∧
    ∀ s : State, s.Accepted → s.hw.latch.present = true →
      ∃ h, CommandEnds .standby s h .ok ∧ s.hw.OnlyPort h ∧
        ∃ v d : Word, d = v ||| bitMask s.hw.params.bitCen ∧ v = s.hw.readAnswer ∧
          h.trace =
            s.hw.trace ++
              [.rd v, .wr d, .fl, .dl s.hw.latch.du.toNat,
               .wr (d &&& ~~~bitMask s.hw.params.bitCen), .fl, .dl s.hw.latch.du.toNat]

/-! ### TRANSFER -/

/-- 40_bitclock_transfer.md R65, R66: the whole port trace of a TRANSFER that is not cancelled, bit by bit, wherever its
source and destination lie; and where they do not partly overlap (no destination, no source, the same reference, or no byte
in common) the bits shifted out are those of the source buffer as it stood before, or zeros where there is none. -/
def Obligations.TransferShiftsOut : Prop :=
  ∀ (s : State) (c sf df : Bool) (seed : Word) (answers : List Word) (out : List Bool), s.Accepted → s.hw.Sound →
    s.hw.Answers (seed :: answers) → answers.length = s.hw.latch.len.toNat →
    s.hw.Uncancelled c s.hw.latch.len.toNat →
    out =
      exchangeBits s.hw.params (if sf then some s.hw.latch.srca else none) (if df then some s.hw.latch.dsta else none) 0
        s.hw.mem answers →
    (∃ h, CommandEnds (.transfer c sf df) s h .ok ∧
      h.trace = s.hw.trace ++ xferEvents s.hw.params s.hw.latch.du.toNat c seed out answers ∧
      Hw.OnlyPort { s.hw with mem := h.mem } h ∧ (df = false → h.mem = s.hw.mem)) ∧
    (df = false ∨ sf = false ∨ s.hw.latch.srca = s.hw.latch.dsta ∨
        (∀ j k, j < (s.hw.latch.len.toNat + 7) / 8 → k < (s.hw.latch.len.toNat + 7) / 8 →
          s.hw.latch.srca + BitVec.ofNat 32 j ≠ s.hw.latch.dsta + BitVec.ofNat 32 k) →
      out =
        if sf then bufBits s.hw.mem s.hw.latch.srca s.hw.latch.len.toNat
        else List.replicate s.hw.latch.len.toNat false)

/-- 40_bitclock_transfer.md R65: what a TRANSFER that is not cancelled leaves in its destination, wherever its source lies:
each of its n bits is the SO bit sampled for it, the bits of the last byte after the n-th are 0, and no other byte of BUF
changes. -/
def Obligations.TransferCaptures : Prop :=
  ∀ (s : State) (c sf : Bool) (seed : Word) (answers : List Word), s.Accepted → s.hw.Sound →
    s.hw.Answers (seed :: answers) → answers.length = s.hw.latch.len.toNat →
    s.hw.Uncancelled c s.hw.latch.len.toNat →
    ∃ h, CommandEnds (.transfer c sf true) s h .ok ∧
      (∀ j k, j < (s.hw.latch.len.toNat + 7) / 8 → k < 8 →
        (h.mem.read (s.hw.latch.dsta + BitVec.ofNat 32 j).toNat).getLsbD (7 - k) =
          (decide (8 * j + k < s.hw.latch.len.toNat) &&
            (answers.getD (8 * j + k) 0#32).getLsbD s.hw.params.bitSo.val)) ∧
      ∀ x : Word, (∀ j, j < (s.hw.latch.len.toNat + 7) / 8 → x ≠ s.hw.latch.dsta + BitVec.ofNat 32 j) →
        h.mem.read x.toNat = s.hw.mem.read x.toNat

/-- 40_bitclock_transfer.md R65, 60_exceptions.md R87: a TRANSFER with C = 1 whose cancellation is first seen before bit i
stops there: i bits have been shifted, the sample is its last port event, CANCEL_SEEN is set, the outcome is CANCELLED, and
the destination has the i captured bits and is otherwise as before (no trailing-bit clear). -/
def Obligations.CancelledTransferStops : Prop :=
  ∀ (s : State) (sf df : Bool) (seed : Word) (answers : List Word) (i : Nat) (later : List Bool), s.Accepted →
    s.hw.Sound → s.hw.Answers (seed :: answers) → answers.length = i → i < s.hw.latch.len.toNat →
    s.hw.cancels = List.replicate i false ++ true :: later →
    ∃ h, CommandEnds (.transfer true sf df) s h .cancelled ∧ h.status.cancelSeen = true ∧
      h.trace =
        s.hw.trace ++
          xferEvents s.hw.params s.hw.latch.du.toNat true seed
            (exchangeBits s.hw.params (if sf then some s.hw.latch.srca else none)
              (if df then some s.hw.latch.dsta else none) 0 s.hw.mem answers) answers ++
          [.cp true] ∧
      (df = false → h.mem = s.hw.mem) ∧
      (df = true →
        (∀ j k, j < (s.hw.latch.len.toNat + 7) / 8 → k < 8 →
          (h.mem.read (s.hw.latch.dsta + BitVec.ofNat 32 j).toNat).getLsbD (7 - k) =
            if 8 * j + k < i then (answers.getD (8 * j + k) 0#32).getLsbD s.hw.params.bitSo.val
            else (s.hw.mem.read (s.hw.latch.dsta + BitVec.ofNat 32 j).toNat).getLsbD (7 - k)) ∧
        ∀ x : Word, (∀ j, j < (s.hw.latch.len.toNat + 7) / 8 → x ≠ s.hw.latch.dsta + BitVec.ofNat 32 j) →
          h.mem.read x.toNat = s.hw.mem.read x.toNat)

/-! ### The FLASH commands -/

/-- 42_flash_commands.md R71: ENABLE_WRITE sends one frame, the byte OP_WREN, and changes nothing but the port's side. -/
def Obligations.EnableWriteSendsWren : Prop :=
  ∀ (s : State) (c : Bool) (f : FrameAnswers), s.Accepted → s.hw.Sound → s.hw.Answers (f.words s.hw.latch.present) →
    f.bits.length = 8 → s.hw.Uncancelled c 8 →
    ∃ h, CommandEnds (.enableWrite c) s h .ok ∧ s.hw.OnlyPort h ∧
      h.trace = s.hw.trace ++ frameEvents s.hw c (byteBits s.hw.params.opWren) f

/-- 42_flash_commands.md R72: WRITE_STATUS sends the WREN frame and then the frame OP_WRSR, DAT[7:0]. -/
def Obligations.WriteStatusSendsTwoFrames : Prop :=
  ∀ (s : State) (c : Bool) (a : ClearAnswers), s.Accepted → s.hw.Sound → s.hw.Answers (a.words s.hw.latch.present) →
    a.fits → s.hw.Uncancelled c 24 →
    ∃ h, CommandEnds (.writeStatus c) s h .ok ∧ s.hw.OnlyPort h ∧
      h.trace =
        s.hw.trace ++ frameEvents s.hw c (byteBits s.hw.params.opWren) a.wren ++
          frameEvents s.hw c (byteBits s.hw.params.opWrsr ++ byteBits (s.hw.latch.dat.extractLsb' 0 8)) a.wrsr

/-- 42_flash_commands.md R77: CLEAR_BP is WriteStatus of the complement of PROTECT_MASK. -/
def Obligations.ClearBpWritesTheComplement : Prop :=
  ∀ (s : State) (c : Bool) (a : ClearAnswers), s.Accepted → s.hw.Sound → s.hw.Answers (a.words s.hw.latch.present) →
    a.fits → s.hw.Uncancelled c 24 →
    ∃ h, CommandEnds (.clearBp c) s h .ok ∧ s.hw.OnlyPort h ∧
      h.trace =
        s.hw.trace ++ frameEvents s.hw c (byteBits s.hw.params.opWren) a.wren ++
          frameEvents s.hw c (byteBits s.hw.params.opWrsr ++ byteBits (~~~s.hw.params.protectMask)) a.wrsr

/-- 42_flash_commands.md R73: READ_STATUS sends the frame OP_RDSR, 0x00, and leaves in RDATA the byte of the SO samples of
bits 8 to 15, most significant bit first. -/
def Obligations.ReadStatusReturnsTheSecondByte : Prop :=
  ∀ (s : State) (c : Bool) (f : FrameAnswers), s.Accepted → s.hw.Sound → s.hw.Answers (f.words s.hw.latch.present) →
    f.bits.length = 16 → s.hw.Uncancelled c 16 →
    ∃ (h : Hw) (st : Byte), CommandEnds (.readStatus c) s h .ok ∧
      (∀ k, k < 8 → st.getLsbD (7 - k) = (f.bits.getD (8 + k) 0#32).getLsbD s.hw.params.bitSo.val) ∧
      Hw.OnlyPort { s.hw with rdata := st.setWidth 32 } h ∧
      h.trace = s.hw.trace ++ frameEvents s.hw c (byteBits s.hw.params.opRdsr ++ byteBits 0x00#8) f

/-- 42_flash_commands.md R74: WRITE_PAGE sends the header OP_WRITE, 0x00, off[15:8], off[7:0], and then, with no Standby in
between, the 8·len bits of the source buffer; len = 0 still makes the payload's seeding read. -/
def Obligations.WritePageSendsHeaderAndPayload : Prop :=
  ∀ (s : State) (c : Bool) (a : PageAnswers), s.Accepted → s.hw.Sound → s.hw.latch.len.extractLsb' 16 16 = 0#16 →
    s.hw.Answers (a.words s.hw.latch.present) → a.fits s.hw.latch.len.toNat →
    s.hw.Uncancelled c (32 + 8 * s.hw.latch.len.toNat) →
    ∃ h, CommandEnds (.writePage c) s h .ok ∧ s.hw.OnlyPort h ∧
      h.trace =
        s.hw.trace ++
          pageEvents s.hw c s.hw.params.opWrite s.hw.latch.off
            (bufBits s.hw.mem s.hw.latch.srca (8 * s.hw.latch.len.toNat)) a

/-- 42_flash_commands.md R75: READ_PAGE sends the header OP_READ, 0x00, off[15:8], off[7:0], then 8·len bits with SI = 0, and
leaves the len sampled bytes in the destination and no other byte changed. -/
def Obligations.ReadPageFillsTheBuffer : Prop :=
  ∀ (s : State) (c : Bool) (a : PageAnswers), s.Accepted → s.hw.Sound → s.hw.latch.len.extractLsb' 16 16 = 0#16 →
    s.hw.Answers (a.words s.hw.latch.present) → a.fits s.hw.latch.len.toNat →
    s.hw.Uncancelled c (32 + 8 * s.hw.latch.len.toNat) →
    ∃ h, CommandEnds (.readPage c) s h .ok ∧ Hw.OnlyPort { s.hw with mem := h.mem } h ∧
      BufHolds s.hw.mem h.mem s.hw.latch.dsta (sampledBytes s.hw.params s.hw.latch.len.toNat a.payload) ∧
      h.trace =
        s.hw.trace ++
          pageEvents s.hw c s.hw.params.opRead s.hw.latch.off (List.replicate (8 * s.hw.latch.len.toNat) false) a

/-- 42_flash_commands.md R76: POLL_READY repeats ReadStatus, with nothing between the iterations, until a status byte has no
masked bit set, however many read busy before; that byte is in RDATA. -/
def Obligations.PollReadyRepeatsUntilReady : Prop :=
  ∀ (s : State) (c : Bool) (a : PollAnswers), s.Accepted → s.hw.Sound → a.fits s.hw.params →
    s.hw.Answers (a.words s.hw.latch.present) → s.hw.Uncancelled c (16 * (a.busy.length + 1)) →
    ∃ h, CommandEnds (.pollReady c) s h .ok ∧
      Hw.OnlyPort { s.hw with rdata := (a.ready.status s.hw.params).setWidth 32 } h ∧
      h.trace = s.hw.trace ++ pollEvents s.hw c a

/-- 60_exceptions.md R99, 70_reset_and_hazards.md R113: the poll loop has no bound: where STATUS_BUSY_MASK has a bit set there
are for every n answers under which POLL_READY, DUMP, PROGRAM or CHECKSUM, with any flags, is still running after n steps. -/
def Obligations.PollingHasNoBound : Prop :=
  ∀ (i : Instr) (s : State) (n : Nat), s.Accepted → s.hw.Sound → s.hw.params.statusBusyMask ≠ 0#8 →
    ((∃ c, i = .pollReady c) ∨ (∃ c rp, i = .checksum c rp) ∨
      ((∃ c, i = .dump c ∨ i = .program c) ∧ s.hw.latch.len.extractLsb' 16 16 = 0#16)) →
    ∃ (reads : List Word) (cancels : List Bool) (t u : State),
      exec i { s with hw := { s.hw with reads := reads, cancels := cancels } } = .next t ∧
        Host.Core.run Sys2Proof.core n t = .next u ∧ u.seq ≠ .idle ∧ u.hw.status.busy = true

/-! ### The FLASH operations and the checksum engine -/

/-- 43_flash_ops.md R79: DUMP polls until ready, then reads page by page as the page split says, each page with one page
frame, and leaves the sampled bytes one after the other in the destination and no other byte changed. -/
def Obligations.DumpReadsPageByPage : Prop :=
  ∀ (s : State) (c : Bool) (a : PollAnswers) (pages : List PageAnswers) (split : List Span) (ev : List Event),
    s.Accepted → s.hw.Sound → s.hw.latch.len.extractLsb' 16 16 = 0#16 →
    split = dumpPages s.hw.latch.ps.toNat s.hw.latch.len.toNat
      ⟨bufRef s.hw.latch.dsta, s.hw.latch.off, s.hw.latch.len.toNat⟩ →
    a.fits s.hw.params → pagesFit split pages →
    s.hw.Answers (a.words s.hw.latch.present ++ pages.flatMap (PageAnswers.words s.hw.latch.present)) →
    ev = pollEvents s.hw c a ++ dumpPagesEvents s.hw c split pages → s.hw.Uncancelled c (cancelSamples ev) →
    ∃ h, CommandEnds (.dump c) s h .ok ∧ Hw.OnlyPort { s.hw with mem := h.mem } h ∧ h.trace = s.hw.trace ++ ev ∧
      BufHolds s.hw.mem h.mem s.hw.latch.dsta
        (sampledBytes s.hw.params s.hw.latch.len.toNat (pages.flatMap PageAnswers.payload))

/-- 43_flash_ops.md R79, 20_memory.md R47: the page split: every chunk has at least one byte and none crosses a page
boundary, chunk j starts where chunk j - 1 ended (the offset modulo 2^16, the buffer address in its space), and the chunk
lengths sum to len. -/
def Obligations.PageSplitStaysInPages : Prop :=
  ∀ (ps : BitVec 17) (v : Span) (split : List Span), legalPageSize ps = true →
    split = dumpPages ps.toNat v.len v →
    (∀ c ∈ split, 0 < c.len ∧ c.off.toNat % ps.toNat + c.len ≤ ps.toNat) ∧
      (split.map Span.len).sum = v.len ∧
      ∀ (before after : List Span) (c : Span), split = before ++ c :: after →
        c.off = v.off + BitVec.ofNat 16 (before.map Span.len).sum ∧ c.buf = v.buf.add (before.map Span.len).sum

/-- 43_flash_ops.md R80: PROGRAM sends ClearBP, then for each byte of the source in ascending order PollReady, WREN and a
one-byte page write at the next offset (modulo 2^16), then a final PollReady; it changes nothing but the port's side. -/
def Obligations.ProgramWritesByteByByte : Prop :=
  ∀ (s : State) (c : Bool) (a : ProgramAnswers) (bytes : List Byte) (ev : List Event), s.Accepted → s.hw.Sound →
    s.hw.latch.len.extractLsb' 16 16 = 0#16 →
    bytes = ((List.range s.hw.latch.len.toNat).map fun j =>
      s.hw.mem.read (s.hw.latch.srca + BitVec.ofNat 32 j).toNat) →
    a.fits s.hw.params s.hw.latch.len.toNat → s.hw.Answers (a.words s.hw.latch.present) →
    ev = programEvents s.hw c s.hw.latch.off bytes a → s.hw.Uncancelled c (cancelSamples ev) →
    ∃ h, CommandEnds (.program c) s h .ok ∧ s.hw.OnlyPort h ∧ h.trace = s.hw.trace ++ ev

/-- 43_flash_ops.md R81: ERASE, granted and not cancelled: Acquire, Standby, ClearBP, WREN, the OP_CHIP_ERASE frame,
Release; no poll for completion. -/
def Obligations.EraseSendsItsFrames : Prop :=
  ∀ (s : State) (c : Bool) (q : AcquireAnswers) (v0 : Word) (a : ClearAnswers) (wren erase : FrameAnswers) (v1 : Word)
    (ev : List Event), s.Accepted → s.hw.Sound → (s.hw.latch.present = true → q.granted s.hw.params) → a.fits →
    wren.bits.length = 8 → erase.bits.length = 8 →
    s.hw.Answers
      (q.words s.hw.latch.present ++ releaseWords s.hw.latch.present v0 ++ a.words s.hw.latch.present ++
        wren.words s.hw.latch.present ++ erase.words s.hw.latch.present ++ releaseWords s.hw.latch.present v1) →
    ev =
      acquireEvents s.hw q ++ standbyPart s.hw v0 ++ writeStatusEvents s.hw c (~~~s.hw.params.protectMask) a ++
        frameEvents s.hw c (byteBits s.hw.params.opWren) wren ++
        frameEvents s.hw c (byteBits s.hw.params.opChipErase) erase ++ releasePart s.hw v1 →
    s.hw.Uncancelled c 40 →
    ∃ h, CommandEnds (.erase c) s h .ok ∧ s.hw.OnlyPort h ∧ h.trace = s.hw.trace ++ ev

/-- 43_flash_ops.md R82: UNLOCK, granted and not cancelled: Acquire, Standby, ClearBP, Release. -/
def Obligations.UnlockSendsItsFrames : Prop :=
  ∀ (s : State) (c : Bool) (q : AcquireAnswers) (v0 : Word) (a : ClearAnswers) (v1 : Word) (ev : List Event),
    s.Accepted → s.hw.Sound → (s.hw.latch.present = true → q.granted s.hw.params) → a.fits →
    s.hw.Answers
      (q.words s.hw.latch.present ++ releaseWords s.hw.latch.present v0 ++ a.words s.hw.latch.present ++
        releaseWords s.hw.latch.present v1) →
    ev =
      acquireEvents s.hw q ++ standbyPart s.hw v0 ++ writeStatusEvents s.hw c (~~~s.hw.params.protectMask) a ++
        releasePart s.hw v1 →
    s.hw.Uncancelled c 24 →
    ∃ h, CommandEnds (.unlock c) s h .ok ∧ s.hw.OnlyPort h ∧ h.trace = s.hw.trace ++ ev

/-- 43_flash_ops.md R83: the checksum engine on a buffer of 2·(k+1) bytes with little-endian words: `computed` is the
expected sum less the sum of the first k words, modulo 2^16 (E itself where k = 0), `stored` is word k, and `match` holds
exactly where the k+1 words sum to the expected sum modulo 2^16. -/
def Obligations.ChecksumEngine : Prop :=
  ∀ (b : List Byte) (k : Nat) (e : Half), b.length = 2 * (k + 1) →
    ∃ x : ChecksumResult, checksumEval .little b k e = some x ∧
      (∀ w : Nat → Nat, (∀ j, w j = (b.getD (2 * j) 0#8).toNat + 256 * (b.getD (2 * j + 1) 0#8).toNat) →
        (x.computed.toNat + ((List.range k).map w).sum) % 2 ^ 16 = e.toNat ∧ x.stored.toNat = w k ∧
          (x.agrees = true ↔ ((List.range (k + 1)).map w).sum % 2 ^ 16 = e.toNat))

/-- 43_flash_ops.md R84: CHECKSUM, granted and not cancelled: Acquire, the dump of 2·(k+1) bytes from FLASH offset 0 into
SCR, the comparison with its two words in RDATA, for a mismatch with RP = 1 the word `computed` in SCR and PROGRAM of its
two bytes at offset 2k, and one Release; the result is VALID, INVALID or REPAIRED accordingly. That
with big-endian words the repaired bytes are stored and programmed in that order is the model's reading (log 20). -/
def Obligations.ChecksumComparesAndRepairs : Prop :=
  ∀ (s : State) (c rp : Bool) (q : AcquireAnswers) (a : PollAnswers) (pages : List PageAnswers) (fix : ProgramAnswers)
    (v : Word) (split : List Span) (bytes : List Byte) (x : ChecksumResult) (ev : List Event), s.Accepted →
    s.hw.Sound → (s.hw.latch.present = true → q.granted s.hw.params) →
    split = dumpPages s.hw.latch.ps.toNat (2 * (s.hw.params.checksumIndex + 1))
      ⟨scrRef 0, 0#16, 2 * (s.hw.params.checksumIndex + 1)⟩ →
    a.fits s.hw.params → pagesFit split pages → fix.fits s.hw.params 2 →
    bytes = sampledBytes s.hw.params (2 * (s.hw.params.checksumIndex + 1)) (pages.flatMap PageAnswers.payload) →
    checksumEval s.hw.params.wordOrder bytes s.hw.params.checksumIndex s.hw.latch.dat = some x →
    s.hw.Answers
      (q.words s.hw.latch.present ++ a.words s.hw.latch.present ++
        pages.flatMap (PageAnswers.words s.hw.latch.present) ++
        (if x.computed ≠ x.stored ∧ rp = true then fix.words s.hw.latch.present else []) ++
        releaseWords s.hw.latch.present v) →
    ev =
      acquireEvents s.hw q ++ pollEvents s.hw c a ++ dumpPagesEvents s.hw c split pages ++
        (if x.computed ≠ x.stored ∧ rp = true then
          programEvents s.hw c (BitVec.ofNat 16 (2 * s.hw.params.checksumIndex))
            [firstByte s.hw.params.wordOrder x.computed, secondByte s.hw.params.wordOrder x.computed] fix
          else []) ++
        releasePart s.hw v →
    s.hw.Uncancelled c (cancelSamples ev) →
    ∃ h, CommandEnds (.checksum c rp) s h
        (if x.computed = x.stored then .valid else if rp = true then .repaired else .invalid) ∧
      h.trace = s.hw.trace ++ ev ∧ Hw.OnlyPort { s.hw with rdata := h.rdata, scr := h.scr } h ∧
      h.rdata.extractLsb' 0 16 = x.computed ∧ h.rdata.extractLsb' 16 16 = x.stored ∧
      h.scr =
        bytes.take (2 * s.hw.params.checksumIndex) ++
          (if x.computed ≠ x.stored ∧ rp = true then
            [firstByte s.hw.params.wordOrder x.computed, secondByte s.hw.params.wordOrder x.computed]
            else bytes.drop (2 * s.hw.params.checksumIndex))

/-! ### Outcomes, cancellation, the session -/

/-- 60_exceptions.md R85: every command that ends does so with one of the codes that the table gives it. -/
def Obligations.EachCommandProducesItsCodes : Prop :=
  ∀ (i : Instr) (s : State) (h : Hw) (code : RCode), s.Accepted → s.hw.Sound → CommandEnds i s h code →
    code ∈ i.codes

/-- 60_exceptions.md R92. A command ends with one code. Decode first: an illegal word, or a page or loop command with
LENGTH[31:16] ≠ 0, ends ILLEGAL whatever the environment would answer, with no event and nothing changed. First failure wins:
a cancellation seen by a sample ends the command CANCELLED or PROTECTED_REGION, and nothing else does, with CANCEL_SEEN set
and no event after that sample but those of one Release; a timeout leaves only the events of its Acquire, none of which
samples cancellation. A cancellation within ClearBP, the first 24 samples of PROGRAM and ERASE and all of UNLOCK's, is
PROTECTED_REGION, and a later one is CANCELLED; in CHECKSUM it can only be the repair's. OVERRUN changes nothing that the
block does. That an illegal word goes to a `finish` step of its own after the accepting step is the model's reading (log
21). -/
def Obligations.FirstFailureDecidesTheOutcome : Prop :=
  (∀ (i : Instr) (s : State) (h h' : Hw) (code code' : RCode), s.Accepted → CommandEnds i s h code →
    CommandEnds i s h' code' → code = code') ∧
  (∀ (s u : State) (w : Word), s.Delivers w u → s.hw.status.busy = false → (∀ i, decode w ≠ .ok i) →
    step s = .next { u with seq := .finish .illegal, hw := s.hw.accept w }) ∧
  (∀ (i : Instr) (s : State) (h : Hw) (code : RCode), s.Accepted → CommandEnds i s h code →
    i.hasByteCount = true ∧ s.hw.latch.len.extractLsb' 16 16 ≠ 0#16 →
    code = .illegal ∧ State.finish { s with hw := h } code = State.finish s .illegal) ∧
  (∀ (i : Instr) (s : State) (h : Hw) (code : RCode), s.Accepted → s.hw.Sound → CommandEnds i s h code →
    ∃ ev : List Event, h.trace = s.hw.trace ++ ev ∧
      (Event.cp true ∈ ev ↔ code = .cancelled ∨ code = .protectedRegion) ∧
      (h.status.cancelSeen = true ↔ s.hw.status.cancelSeen = true ∨ Event.cp true ∈ ev) ∧
      (∀ before after, ev = before ++ .cp true :: after → after = [] ∨ ∃ v, after = releasePart s.hw v) ∧
      (code = .arbTimeout → ∃ a : AcquireAnswers, a.timedOut s.hw.params ∧ ev = timeoutEvents s.hw a) ∧
      match i with
      | .program _ =>
        (code = .protectedRegion → cancelSamples ev ≤ 24) ∧ (code = .cancelled → 24 < cancelSamples ev)
      | .erase _ => (code = .protectedRegion → cancelSamples ev ≤ 24) ∧ (code = .cancelled → 24 < cancelSamples ev)
      | .unlock _ => code ≠ .cancelled ∧ cancelSamples ev ≤ 24
      | .checksum _ rp =>
        code = .protectedRegion → rp = true ∧ h.rdata.extractLsb' 0 16 ≠ h.rdata.extractLsb' 16 16
      | _ => code ≠ .protectedRegion) ∧
  ∀ s t : State, blockStep s = .next t →
    blockStep { s with hw := s.hw.markOverrun } = .next { t with hw := t.hw.markOverrun }

/-- 60_exceptions.md R88, R90, R92: a command that ends CANCELLED or PROTECTED_REGION has CANCEL_SEEN set, and its last port
events are the sample that saw the cancellation and, for the commands that opened the session themselves and for
PROTECTED_REGION, one Release. -/
def Obligations.CancelledCommandStopsAtOnce : Prop :=
  ∀ (i : Instr) (s : State) (h : Hw) (code : RCode), s.Accepted → s.hw.Sound → CommandEnds i s h code →
    code = .cancelled ∨ code = .protectedRegion →
    h.status.cancelSeen = true ∧
      ∃ (ev : List Event) (v : Word), (∀ b, Event.cp b ∈ ev → b = false) ∧
        h.trace =
          s.hw.trace ++ ev ++ [.cp true] ++
            (if i.ownsSession = true ∨ code = .protectedRegion then releasePart s.hw v else [])

/-- 60_exceptions.md R87, R88: cancellation only cuts a run short. Up to the sample that saw it, the same command with the
input deasserted, and the same answers otherwise, does exactly the same at the port. -/
def Obligations.CancellationOnlyCutsTheRun : Prop :=
  ∀ (i : Instr) (s : State) (h : Hw) (code : RCode) (ev after : List Event) (later : List Bool), s.Accepted →
    s.hw.Sound → CommandEnds i s h code → code = .cancelled ∨ code = .protectedRegion →
    h.trace = s.hw.trace ++ ev ++ .cp true :: after →
    ∃ (n : Nat) (t u : State),
      exec i { s with hw := { s.hw with cancels := List.replicate (cancelSamples ev + 1) false ++ later } } = .next t ∧
        Host.Core.run Sys2Proof.core n t = .next u ∧ u.hw.trace = s.hw.trace ++ ev ++ [.cp false]

/-- 60_exceptions.md R87: a command with C = 0, and every part of ACQUIRE, RELEASE and STANDBY, never samples the
cancellation input: no CP event, and the cancellation answers are untouched. -/
def Obligations.CancellationIsSampledOnlyUnderC : Prop :=
  ∀ (i : Instr) (s : State) (h : Hw) (code : RCode), s.Accepted → s.hw.Sound → i.flags.c = false →
    CommandEnds i s h code →
    h.cancels = s.hw.cancels ∧ h.status.cancelSeen = s.hw.status.cancelSeen ∧
      ∃ ev : List Event, h.trace = s.hw.trace ++ ev ∧ ∀ b, Event.cp b ∉ ev

/-- 60_exceptions.md R89: a command ends ARB_TIMEOUT only after GNT was 0 in the first poll and in each of the
GRANT_ATTEMPTS further polls; its port events are exactly those of the timed-out Acquire, whose last write has REQ = 0, so
nothing is acquired and nothing released. And those answers do end each of the four commands so. -/
def Obligations.TimeoutHappensOnlyInAcquire : Prop :=
  (∀ (i : Instr) (s : State) (h : Hw), s.Accepted → s.hw.Sound → CommandEnds i s h .arbTimeout →
    (i = .acquire ∨ i.ownsSession = true) ∧ s.hw.latch.present = true ∧
      ∃ a : AcquireAnswers, a.timedOut s.hw.params ∧ h.trace = s.hw.trace ++ timeoutEvents s.hw a) ∧
    ∀ (i : Instr) (s : State) (a : AcquireAnswers), s.Accepted → s.hw.Sound →
      (i = .acquire ∨ i.ownsSession = true) → s.hw.latch.present = true → a.timedOut s.hw.params →
      s.hw.Answers (a.words true) →
      ∃ h, CommandEnds i s h .arbTimeout ∧ s.hw.OnlyPort h ∧ h.trace = s.hw.trace ++ timeoutEvents s.hw a

/-- 43_flash_ops.md R81, R82, R84, 41_arbiter.md R70: ERASE, UNLOCK and CHECKSUM with a FLASH attached, whatever the answers
and whatever the result: if the command ends, the last value it wrote to CTRL has REQ = 0. -/
def Obligations.OwnSessionEndsWithReqClear : Prop :=
  ∀ (i : Instr) (s : State) (h : Hw) (code : RCode), s.Accepted → s.hw.Sound → i.ownsSession = true →
    s.hw.latch.present = true → CommandEnds i s h code →
    ∃ w, lastWrite h.trace = some w ∧ w.getLsbD s.hw.params.bitReq.val = false

/-! ### The whole machine -/

/-- The invariant of the model holds after power-on reset with any legal parameters, and acceptance from an invariant state
gives the hardware state that the command statements start from. -/
def Obligations.ResetAndAcceptanceAreSound : Prop :=
  (∀ p : Params, p.wellFormed = true → (State.resetWith p).Inv) ∧
    ∀ (s : State) (w : Word), s.Inv → (s.accept w).hw.Sound

/-- Every step of the machine keeps the invariant: legal parameters, BUF's canonical form, the size of SCR (10_state.md R28),
BUSY = 1 exactly while SEQ is not IDLE (R16, R17), a legal page size in a running command's latch (R26), and buffer
references that name bytes that exist (R27, 20_memory.md R36). -/
def Obligations.StepKeepsInv : Prop :=
  ∀ s t : State, s.Inv → step s = .next t → t.Inv

/-- From an invariant state no step faults, and a step is refused only for a host access to the window that the spec puts
outside the interface (10_state.md R27, R28; 20_memory.md R36, R37, R40) or that WINDOW_ACCESS keeps out (60_exceptions.md
R96; log 17). -/
def Obligations.StepNeverFaults : Prop :=
  ∀ s : State, s.Inv →
    (∀ f, step s ≠ .fault f) ∧
      ∀ e, step s = .refused e →
        s.mover = .host ∧ ∃ (o : HostOp) (rest : List HostOp), s.host.ops = o :: rest ∧
          ((s.admitted = false ∧ (∀ a v, o ≠ .bufStore a v) ∧ ∀ a, o ≠ .bufLoad a) ∨
            ∃ a : Access, (o = .load a ∨ ∃ v, o = .store a v) ∧
              (a.bytes ≠ 4 ∨ a.addr < s.hw.params.windowBase ∨ s.hw.params.windowBase + 0x40 ≤ a.addr ∨
                (a.addr - s.hw.params.windowBase) % 4 ≠ 0))

/-- 10_state.md R16, 00_scope.md R5, R6, R10: a step of the block makes at most one event, one memory write or one register
update, and it leaves the host's side alone. Where its point is a store (`Leaf.storesTo`, the byte that the point names), it
writes that byte, and every other byte of BUF, SCR and OPB reads as before; at every other point it writes no byte. An
update of LS changes none of its bits but SK, SI, CEN and REQ. What a step may read is not limited here. What counts as one
update, and that some steps move SEQ alone, is the model's reading of R16 (logs 1, 27, 29). -/
def Obligations.BlockStepIsOnePrimitive : Prop :=
  ∀ s t : State, blockStep s = .next t →
    t.host = s.host ∧
      (∀ x : Ref, s.seq.leaf.storesTo s.hw.params.checksumIndex ≠ some x → t.hw.memRead x = s.hw.memRead x) ∧
      match s.seq.leaf.storesTo s.hw.params.checksumIndex with
      | some r => ∃ v, s.hw.memWrite r v = some t.hw
      | none =>
        t.hw.mem = s.hw.mem ∧ t.hw.scr = s.hw.scr ∧ t.hw.opb = s.hw.opb ∧
          (t.hw = s.hw ∨ t.hw = s.hw.regRead ∨ t.hw = s.hw.regWrite ∨ t.hw = s.hw.flush ∨ t.hw = s.hw.delayUnit ∨
            t.hw = s.hw.delay s.hw.params.grantPollUs ∨ t.hw = s.hw.cancelPending ∨ t.hw = s.hw.markCancelled ∨
            (∃ v, v &&& keptMask s.hw.params = s.hw.ls &&& keptMask s.hw.params ∧ t.hw = { s.hw with ls := v }) ∨
            (∃ st, s.seq = .statusResult st ∧ t.hw = { s.hw with rdata := st.setWidth 32 }) ∨
            (∃ c rp x y, s.seq = .checksum c rp (.result x y) ∧ t.hw = { s.hw with rdata := y ++ x }) ∨
            ∃ code, s.seq = .finish code ∧
              t.hw = { s.hw with status := { s.hw.status with rcode := code, busy := false } })

/-- 10_state.md R13, R18, R23: no step of the block changes CMD, an operand register, DEVCFG, DEVSIZE, the parameters or
OVERRUN; RDATA changes only at the result steps of READ_STATUS, POLL_READY and CHECKSUM; SEQ leaves IDLE
by no step of the block. -/
def Obligations.BlockStepKeepsHostRegisters : Prop :=
  ∀ s t : State, blockStep s = .next t →
    t.hw.cmd = s.hw.cmd ∧ t.hw.offset = s.hw.offset ∧ t.hw.length = s.hw.length ∧ t.hw.src = s.hw.src ∧
      t.hw.dst = s.hw.dst ∧ t.hw.data = s.hw.data ∧ t.hw.devcfg = s.hw.devcfg ∧ t.hw.devsize = s.hw.devsize ∧
      t.hw.params = s.hw.params ∧ t.hw.status.overrun = s.hw.status.overrun ∧
      (t.hw.rdata ≠ s.hw.rdata →
        (∃ st, s.seq = .statusResult st) ∨ ∃ c rp x y, s.seq = .checksum c rp (.result x y)) ∧
      (s.seq = .idle → t = s)

/-- The frame of every command that ends, whatever its outcome: CMD, the operand registers, DEVCFG, DEVSIZE, the latch,
OVERRUN and the parameters are unchanged; RDATA changes only for the commands of 10_state.md R18, SCR only for CHECKSUM
(R28), every byte of BUF outside the command's destination range reads as before (20_memory.md R46), and the port trace is
only extended. -/
def Obligations.CommandFrame : Prop :=
  ∀ (i : Instr) (s : State) (h : Hw) (code : RCode), s.Accepted → s.hw.Sound → CommandEnds i s h code →
    h.cmd = s.hw.cmd ∧ h.offset = s.hw.offset ∧ h.length = s.hw.length ∧ h.src = s.hw.src ∧ h.dst = s.hw.dst ∧
      h.data = s.hw.data ∧ h.devcfg = s.hw.devcfg ∧ h.devsize = s.hw.devsize ∧ h.latch = s.hw.latch ∧
      h.params = s.hw.params ∧ h.status.overrun = s.hw.status.overrun ∧
      (i.writesRdata = false → h.rdata = s.hw.rdata) ∧ (i.usesScr = false → h.scr = s.hw.scr) ∧
      (∀ x : Word, ¬i.storesTo s.hw.latch x → h.mem.read x.toNat = s.hw.mem.read x.toNat) ∧
      ∃ ev, h.trace = s.hw.trace ++ ev

/-- 00_scope.md R2, R10, 10_state.md R25: every value written to CTRL has, in all bits but SK, SI, CEN and REQ, the bits of
the last value read from CTRL; for every state in which a live LS does, a step keeps that and writes only such a value. -/
def Obligations.OtherBitsArePreserved : Prop :=
  ∀ s t : State, s.LsFollowsReads → step s = .next t →
    t.LsFollowsReads ∧
      ∀ w, t.hw.trace = s.hw.trace ++ [.wr w] →
        ∃ v, lastRead s.hw.trace = some v ∧
          ∀ b, b < 32 → b ≠ s.hw.params.bitSk.val → b ≠ s.hw.params.bitSi.val → b ≠ s.hw.params.bitCen.val →
            b ≠ s.hw.params.bitReq.val → w.getLsbD b = v.getLsbD b

/-- 10_state.md R25, R27: what LS and OPB hold when a command starts is never observable: with any other contents the
command ends with the same outcome and the same observation (00_scope.md R12). -/
def Obligations.ScratchIsNotObservable : Prop :=
  ∀ (i : Instr) (s : State) (h : Hw) (code : RCode) (ls : Word) (opb : Opb), s.Accepted → s.hw.Sound →
    CommandEnds i s h code →
    ∃ h', CommandEnds i { s with hw := { s.hw with ls := ls, opb := opb } } h' code ∧
      (State.finish { s with hw := h' } code).hw.observe = (State.finish { s with hw := h } code).hw.observe

/-- 10_state.md R26, 20_memory.md R45: a host store to an operand register, to DEVCFG or to DEVSIZE while a command runs has
no effect on the command: before or after the block's step, it gives the same state. -/
def Obligations.OperandStoreCommutesWithTheBlock : Prop :=
  ∀ (s t : State) (off : Nat) (v : Word), s.seq ≠ .idle → blockStep s = .next t →
    blockStep { s with hw := s.hw.windowStore off v } = .next { t with hw := t.hw.windowStore off v }

/-- 00_scope.md R6: BUF is a memory: a read gives the byte last written at its address, a write changes no other byte and
keeps the canonical form, and memories with equal bytes are equal data. 20_memory.md R46, 60_exceptions.md R97: the host's
stores and loads of BUF bytes are steps of the host, at any time, also while a command runs, and change nothing else. The
model's choices are that the host's operations are a list, with what it loads recorded as seen (log 15), and that the head of
`host.turns` says who moves, so that every order of the host's and the block's steps is some schedule (log 14). -/
def Obligations.BufReadAfterWrite : Prop :=
  (∀ (m : Memory) (x y : Nat) (v : Byte), m.wf = true → x < 2 ^ 32 →
    (m.write x v).wf = true ∧ (m.write x v).read y = if y = x then v else m.read y) ∧
  (∀ m n : Memory, m.wf = true → n.wf = true → (∀ x, m.read x = n.read x) → m = n) ∧
  (∀ (s : State) (a : Word) (v : Byte) (rest : List HostOp), s.mover = .host → s.hw.mem.wf = true →
    s.host.ops = .bufStore a v :: rest →
    ∃ m : Memory, (∀ x : Word, m.read x.toNat = if x = a then v else s.hw.mem.read x.toNat) ∧
      step s =
        .next
          { s with
            hw := { s.hw with mem := m }
            host := { s.host with ops := rest, turns := s.host.turns.tail } }) ∧
  (∀ (s : State) (a : Word) (rest : List HostOp), s.mover = .host → s.host.ops = .bufLoad a :: rest →
    step s =
      .next
        { s with
          host :=
            { s.host with
              ops := rest
              turns := s.host.turns.tail
              seen := s.host.seen ++ [.buf a (s.hw.mem.read a.toNat)] } }) ∧
  ∀ (s : State) (t : Turn) (rest : List Turn), s.host.turns = t :: rest → s.mover = t

/-- 10_state.md R16: the machine, one primitive at a time, runs exactly the pseudocode of the rules: a command ends with the
outcome `code` and the hardware state h where, and only where, its rule run straight through does, for some number of status
reads in each PollReady (60_exceptions.md R99: the machine has no such bound). -/
def Obligations.MachineRunsThePseudocode : Prop :=
  ∀ (i : Instr) (s : State) (u : State) (code : RCode), s.Accepted → s.hw.Sound →
    ((∃ h, CommandEnds i s h code ∧ u = State.finish { s with hw := h } code) ↔
      ∃ fuel h, runCommand fuel i s.hw = some (h, code) ∧ u = State.finish { s with hw := h } code)

/-- 60_exceptions.md R99: every command but those that contain a PollReady comes to an end under every sequence of answers,
and those do too where STATUS_BUSY_MASK = 0 (42_flash_commands.md R76). -/
def Obligations.BoundedCommandsComplete : Prop :=
  ∀ (i : Instr) (s : State), s.Accepted → s.hw.Sound → i.bounded = true ∨ s.hw.params.statusBusyMask = 0#8 →
    ∃ h code, CommandEnds i s h code

/-- 70_reset_and_hazards.md R111: the port event counts and the requested delays of the sub-operations, as commands of their
own that end OK (ACQUIRE also timed out), under every sequence of answers; p, the grant poll index, is the number of reads
after the first two; with no FLASH attached the arbiter's operations
count 0. -/
def Obligations.EventCounts : Prop :=
  ∀ (i : Instr) (s : State) (h : Hw) (code : RCode) (c n len st du gp ga : Nat), s.Accepted → s.hw.Sound →
    CommandEnds i s h code → code = .ok ∨ code = .arbTimeout →
    c = (if i.flags.c then 1 else 0) → n = s.hw.latch.len.toNat → len = s.hw.latch.len.toNat →
    st = (if s.hw.latch.present then 1 else 0) → du = s.hw.latch.du.toNat → gp = s.hw.params.grantPollUs →
    ga = s.hw.params.grantAttempts →
    ∃ ev, h.trace = s.hw.trace ++ ev ∧
      match i with
      | .transfer _ _ _ => ev.length = 1 + n * (10 + c) ∧ delayTotal ev = 3 * n * du
      | .standby => ev.length = 7 * st ∧ delayTotal ev = 2 * du * st
      | .release => ev.length = 4 * st ∧ delayTotal ev = du * st
      | .acquire =>
        if s.hw.latch.present = false then ev = []
        else if code = .arbTimeout then ev.length = 4 + 2 * ga ∧ delayTotal ev = ga * gp
        else
          ∃ p, p ≤ ga ∧ (ev.filter fun e => match e with | .rd _ => true | _ => false).length = p + 2 ∧
            ev.length = 5 + 2 * p ∧ delayTotal ev = p * gp + du
      | .enableWrite _ => ev.length = 7 * st + 81 + 8 * c ∧ delayTotal ev = (2 * st + 24) * du
      | .writeStatus _ => ev.length = 14 * st + 242 + 24 * c ∧ delayTotal ev = (4 * st + 72) * du
      | .clearBp _ => ev.length = 14 * st + 242 + 24 * c ∧ delayTotal ev = (4 * st + 72) * du
      | .readStatus _ => ev.length = 7 * st + 161 + 16 * c ∧ delayTotal ev = (2 * st + 48) * du
      | .writePage _ =>
        ev.length = 7 * st + 322 + 32 * c + len * (80 + 8 * c) ∧ delayTotal ev = (2 * st + 96 + 24 * len) * du
      | .readPage _ =>
        ev.length = 7 * st + 322 + 32 * c + len * (80 + 8 * c) ∧ delayTotal ev = (2 * st + 96 + 24 * len) * du
      | .pollReady _ => True
      | .dump _ => True
      | .program _ => True
      | .erase _ => True
      | .unlock _ => True
      | .checksum _ _ => True
end

