-- ==== Sys2Proof/Laws/State.lean ====
section
/-! SUPPORT. One lemma per field per update of the hardware state: what each shared operation leaves in each field, true by
rfl, so that no later proof unfolds a record update. -/

namespace Sys2Proof.Machine

/-! ### `Hw.emit` -/

@[simp] theorem Hw.emit_params (s : Hw) (e : Event) : (s.emit e).params = s.params := rfl
@[simp] theorem Hw.emit_cmd (s : Hw) (e : Event) : (s.emit e).cmd = s.cmd := rfl
@[simp] theorem Hw.emit_status (s : Hw) (e : Event) : (s.emit e).status = s.status := rfl
@[simp] theorem Hw.emit_rdata (s : Hw) (e : Event) : (s.emit e).rdata = s.rdata := rfl
@[simp] theorem Hw.emit_offset (s : Hw) (e : Event) : (s.emit e).offset = s.offset := rfl
@[simp] theorem Hw.emit_length (s : Hw) (e : Event) : (s.emit e).length = s.length := rfl
@[simp] theorem Hw.emit_src (s : Hw) (e : Event) : (s.emit e).src = s.src := rfl
@[simp] theorem Hw.emit_dst (s : Hw) (e : Event) : (s.emit e).dst = s.dst := rfl
@[simp] theorem Hw.emit_data (s : Hw) (e : Event) : (s.emit e).data = s.data := rfl
@[simp] theorem Hw.emit_devcfg (s : Hw) (e : Event) : (s.emit e).devcfg = s.devcfg := rfl
@[simp] theorem Hw.emit_devsize (s : Hw) (e : Event) : (s.emit e).devsize = s.devsize := rfl
@[simp] theorem Hw.emit_ls (s : Hw) (e : Event) : (s.emit e).ls = s.ls := rfl
@[simp] theorem Hw.emit_latch (s : Hw) (e : Event) : (s.emit e).latch = s.latch := rfl
@[simp] theorem Hw.emit_opb (s : Hw) (e : Event) : (s.emit e).opb = s.opb := rfl
@[simp] theorem Hw.emit_scr (s : Hw) (e : Event) : (s.emit e).scr = s.scr := rfl
@[simp] theorem Hw.emit_mem (s : Hw) (e : Event) : (s.emit e).mem = s.mem := rfl
@[simp] theorem Hw.emit_ctrl (s : Hw) (e : Event) : (s.emit e).ctrl = s.ctrl := rfl
@[simp] theorem Hw.emit_reads (s : Hw) (e : Event) : (s.emit e).reads = s.reads := rfl
@[simp] theorem Hw.emit_cancels (s : Hw) (e : Event) : (s.emit e).cancels = s.cancels := rfl
@[simp] theorem Hw.emit_draws (s : Hw) (e : Event) : (s.emit e).draws = s.draws := rfl
@[simp] theorem Hw.emit_trace (s : Hw) (e : Event) : (s.emit e).trace = s.trace ++ [e] := rfl

/-! ### `Hw.regRead` -/

@[simp] theorem Hw.regRead_params (s : Hw) : (s.regRead).params = s.params := rfl
@[simp] theorem Hw.regRead_cmd (s : Hw) : (s.regRead).cmd = s.cmd := rfl
@[simp] theorem Hw.regRead_status (s : Hw) : (s.regRead).status = s.status := rfl
@[simp] theorem Hw.regRead_rdata (s : Hw) : (s.regRead).rdata = s.rdata := rfl
@[simp] theorem Hw.regRead_offset (s : Hw) : (s.regRead).offset = s.offset := rfl
@[simp] theorem Hw.regRead_length (s : Hw) : (s.regRead).length = s.length := rfl
@[simp] theorem Hw.regRead_src (s : Hw) : (s.regRead).src = s.src := rfl
@[simp] theorem Hw.regRead_dst (s : Hw) : (s.regRead).dst = s.dst := rfl
@[simp] theorem Hw.regRead_data (s : Hw) : (s.regRead).data = s.data := rfl
@[simp] theorem Hw.regRead_devcfg (s : Hw) : (s.regRead).devcfg = s.devcfg := rfl
@[simp] theorem Hw.regRead_devsize (s : Hw) : (s.regRead).devsize = s.devsize := rfl
@[simp] theorem Hw.regRead_ls (s : Hw) : (s.regRead).ls = s.readAnswer := rfl
@[simp] theorem Hw.regRead_latch (s : Hw) : (s.regRead).latch = s.latch := rfl
@[simp] theorem Hw.regRead_opb (s : Hw) : (s.regRead).opb = s.opb := rfl
@[simp] theorem Hw.regRead_scr (s : Hw) : (s.regRead).scr = s.scr := rfl
@[simp] theorem Hw.regRead_mem (s : Hw) : (s.regRead).mem = s.mem := rfl
@[simp] theorem Hw.regRead_ctrl (s : Hw) : (s.regRead).ctrl = s.readAnswer := rfl
@[simp] theorem Hw.regRead_reads (s : Hw) : (s.regRead).reads = s.reads.tail := rfl
@[simp] theorem Hw.regRead_cancels (s : Hw) : (s.regRead).cancels = s.cancels := rfl
@[simp] theorem Hw.regRead_draws (s : Hw) : (s.regRead).draws = s.draws + 1 := rfl
@[simp] theorem Hw.regRead_trace (s : Hw) : (s.regRead).trace = s.trace ++ [.rd s.readAnswer] := rfl

/-! ### `Hw.regWrite` -/

@[simp] theorem Hw.regWrite_params (s : Hw) : (s.regWrite).params = s.params := rfl
@[simp] theorem Hw.regWrite_cmd (s : Hw) : (s.regWrite).cmd = s.cmd := rfl
@[simp] theorem Hw.regWrite_status (s : Hw) : (s.regWrite).status = s.status := rfl
@[simp] theorem Hw.regWrite_rdata (s : Hw) : (s.regWrite).rdata = s.rdata := rfl
@[simp] theorem Hw.regWrite_offset (s : Hw) : (s.regWrite).offset = s.offset := rfl
@[simp] theorem Hw.regWrite_length (s : Hw) : (s.regWrite).length = s.length := rfl
@[simp] theorem Hw.regWrite_src (s : Hw) : (s.regWrite).src = s.src := rfl
@[simp] theorem Hw.regWrite_dst (s : Hw) : (s.regWrite).dst = s.dst := rfl
@[simp] theorem Hw.regWrite_data (s : Hw) : (s.regWrite).data = s.data := rfl
@[simp] theorem Hw.regWrite_devcfg (s : Hw) : (s.regWrite).devcfg = s.devcfg := rfl
@[simp] theorem Hw.regWrite_devsize (s : Hw) : (s.regWrite).devsize = s.devsize := rfl
@[simp] theorem Hw.regWrite_ls (s : Hw) : (s.regWrite).ls = s.ls := rfl
@[simp] theorem Hw.regWrite_latch (s : Hw) : (s.regWrite).latch = s.latch := rfl
@[simp] theorem Hw.regWrite_opb (s : Hw) : (s.regWrite).opb = s.opb := rfl
@[simp] theorem Hw.regWrite_scr (s : Hw) : (s.regWrite).scr = s.scr := rfl
@[simp] theorem Hw.regWrite_mem (s : Hw) : (s.regWrite).mem = s.mem := rfl
@[simp] theorem Hw.regWrite_ctrl (s : Hw) : (s.regWrite).ctrl = s.ls := rfl
@[simp] theorem Hw.regWrite_reads (s : Hw) : (s.regWrite).reads = s.reads := rfl
@[simp] theorem Hw.regWrite_cancels (s : Hw) : (s.regWrite).cancels = s.cancels := rfl
@[simp] theorem Hw.regWrite_draws (s : Hw) : (s.regWrite).draws = s.draws := rfl
@[simp] theorem Hw.regWrite_trace (s : Hw) : (s.regWrite).trace = s.trace ++ [.wr s.ls] := rfl

/-! ### `Hw.flush` -/

@[simp] theorem Hw.flush_params (s : Hw) : (s.flush).params = s.params := rfl
@[simp] theorem Hw.flush_cmd (s : Hw) : (s.flush).cmd = s.cmd := rfl
@[simp] theorem Hw.flush_status (s : Hw) : (s.flush).status = s.status := rfl
@[simp] theorem Hw.flush_rdata (s : Hw) : (s.flush).rdata = s.rdata := rfl
@[simp] theorem Hw.flush_offset (s : Hw) : (s.flush).offset = s.offset := rfl
@[simp] theorem Hw.flush_length (s : Hw) : (s.flush).length = s.length := rfl
@[simp] theorem Hw.flush_src (s : Hw) : (s.flush).src = s.src := rfl
@[simp] theorem Hw.flush_dst (s : Hw) : (s.flush).dst = s.dst := rfl
@[simp] theorem Hw.flush_data (s : Hw) : (s.flush).data = s.data := rfl
@[simp] theorem Hw.flush_devcfg (s : Hw) : (s.flush).devcfg = s.devcfg := rfl
@[simp] theorem Hw.flush_devsize (s : Hw) : (s.flush).devsize = s.devsize := rfl
@[simp] theorem Hw.flush_ls (s : Hw) : (s.flush).ls = s.ls := rfl
@[simp] theorem Hw.flush_latch (s : Hw) : (s.flush).latch = s.latch := rfl
@[simp] theorem Hw.flush_opb (s : Hw) : (s.flush).opb = s.opb := rfl
@[simp] theorem Hw.flush_scr (s : Hw) : (s.flush).scr = s.scr := rfl
@[simp] theorem Hw.flush_mem (s : Hw) : (s.flush).mem = s.mem := rfl
@[simp] theorem Hw.flush_ctrl (s : Hw) : (s.flush).ctrl = s.ctrl := rfl
@[simp] theorem Hw.flush_reads (s : Hw) : (s.flush).reads = s.reads := rfl
@[simp] theorem Hw.flush_cancels (s : Hw) : (s.flush).cancels = s.cancels := rfl
@[simp] theorem Hw.flush_draws (s : Hw) : (s.flush).draws = s.draws := rfl
@[simp] theorem Hw.flush_trace (s : Hw) : (s.flush).trace = s.trace ++ [.fl] := rfl

/-! ### `Hw.delay` -/

@[simp] theorem Hw.delay_params (s : Hw) (us : Nat) : (s.delay us).params = s.params := rfl
@[simp] theorem Hw.delay_cmd (s : Hw) (us : Nat) : (s.delay us).cmd = s.cmd := rfl
@[simp] theorem Hw.delay_status (s : Hw) (us : Nat) : (s.delay us).status = s.status := rfl
@[simp] theorem Hw.delay_rdata (s : Hw) (us : Nat) : (s.delay us).rdata = s.rdata := rfl
@[simp] theorem Hw.delay_offset (s : Hw) (us : Nat) : (s.delay us).offset = s.offset := rfl
@[simp] theorem Hw.delay_length (s : Hw) (us : Nat) : (s.delay us).length = s.length := rfl
@[simp] theorem Hw.delay_src (s : Hw) (us : Nat) : (s.delay us).src = s.src := rfl
@[simp] theorem Hw.delay_dst (s : Hw) (us : Nat) : (s.delay us).dst = s.dst := rfl
@[simp] theorem Hw.delay_data (s : Hw) (us : Nat) : (s.delay us).data = s.data := rfl
@[simp] theorem Hw.delay_devcfg (s : Hw) (us : Nat) : (s.delay us).devcfg = s.devcfg := rfl
@[simp] theorem Hw.delay_devsize (s : Hw) (us : Nat) : (s.delay us).devsize = s.devsize := rfl
@[simp] theorem Hw.delay_ls (s : Hw) (us : Nat) : (s.delay us).ls = s.ls := rfl
@[simp] theorem Hw.delay_latch (s : Hw) (us : Nat) : (s.delay us).latch = s.latch := rfl
@[simp] theorem Hw.delay_opb (s : Hw) (us : Nat) : (s.delay us).opb = s.opb := rfl
@[simp] theorem Hw.delay_scr (s : Hw) (us : Nat) : (s.delay us).scr = s.scr := rfl
@[simp] theorem Hw.delay_mem (s : Hw) (us : Nat) : (s.delay us).mem = s.mem := rfl
@[simp] theorem Hw.delay_ctrl (s : Hw) (us : Nat) : (s.delay us).ctrl = s.ctrl := rfl
@[simp] theorem Hw.delay_reads (s : Hw) (us : Nat) : (s.delay us).reads = s.reads := rfl
@[simp] theorem Hw.delay_cancels (s : Hw) (us : Nat) : (s.delay us).cancels = s.cancels := rfl
@[simp] theorem Hw.delay_draws (s : Hw) (us : Nat) : (s.delay us).draws = s.draws := rfl
@[simp] theorem Hw.delay_trace (s : Hw) (us : Nat) : (s.delay us).trace = s.trace ++ [.dl us] := rfl

/-! ### `Hw.delayUnit` -/

@[simp] theorem Hw.delayUnit_params (s : Hw) : (s.delayUnit).params = s.params := rfl
@[simp] theorem Hw.delayUnit_cmd (s : Hw) : (s.delayUnit).cmd = s.cmd := rfl
@[simp] theorem Hw.delayUnit_status (s : Hw) : (s.delayUnit).status = s.status := rfl
@[simp] theorem Hw.delayUnit_rdata (s : Hw) : (s.delayUnit).rdata = s.rdata := rfl
@[simp] theorem Hw.delayUnit_offset (s : Hw) : (s.delayUnit).offset = s.offset := rfl
@[simp] theorem Hw.delayUnit_length (s : Hw) : (s.delayUnit).length = s.length := rfl
@[simp] theorem Hw.delayUnit_src (s : Hw) : (s.delayUnit).src = s.src := rfl
@[simp] theorem Hw.delayUnit_dst (s : Hw) : (s.delayUnit).dst = s.dst := rfl
@[simp] theorem Hw.delayUnit_data (s : Hw) : (s.delayUnit).data = s.data := rfl
@[simp] theorem Hw.delayUnit_devcfg (s : Hw) : (s.delayUnit).devcfg = s.devcfg := rfl
@[simp] theorem Hw.delayUnit_devsize (s : Hw) : (s.delayUnit).devsize = s.devsize := rfl
@[simp] theorem Hw.delayUnit_ls (s : Hw) : (s.delayUnit).ls = s.ls := rfl
@[simp] theorem Hw.delayUnit_latch (s : Hw) : (s.delayUnit).latch = s.latch := rfl
@[simp] theorem Hw.delayUnit_opb (s : Hw) : (s.delayUnit).opb = s.opb := rfl
@[simp] theorem Hw.delayUnit_scr (s : Hw) : (s.delayUnit).scr = s.scr := rfl
@[simp] theorem Hw.delayUnit_mem (s : Hw) : (s.delayUnit).mem = s.mem := rfl
@[simp] theorem Hw.delayUnit_ctrl (s : Hw) : (s.delayUnit).ctrl = s.ctrl := rfl
@[simp] theorem Hw.delayUnit_reads (s : Hw) : (s.delayUnit).reads = s.reads := rfl
@[simp] theorem Hw.delayUnit_cancels (s : Hw) : (s.delayUnit).cancels = s.cancels := rfl
@[simp] theorem Hw.delayUnit_draws (s : Hw) : (s.delayUnit).draws = s.draws := rfl
@[simp] theorem Hw.delayUnit_trace (s : Hw) : (s.delayUnit).trace = s.trace ++ [.dl s.latch.du.toNat] := rfl

/-! ### `Hw.cancelPending` -/

@[simp] theorem Hw.cancelPending_params (s : Hw) : (s.cancelPending).params = s.params := rfl
@[simp] theorem Hw.cancelPending_cmd (s : Hw) : (s.cancelPending).cmd = s.cmd := rfl
@[simp] theorem Hw.cancelPending_status (s : Hw) : (s.cancelPending).status = s.status := rfl
@[simp] theorem Hw.cancelPending_rdata (s : Hw) : (s.cancelPending).rdata = s.rdata := rfl
@[simp] theorem Hw.cancelPending_offset (s : Hw) : (s.cancelPending).offset = s.offset := rfl
@[simp] theorem Hw.cancelPending_length (s : Hw) : (s.cancelPending).length = s.length := rfl
@[simp] theorem Hw.cancelPending_src (s : Hw) : (s.cancelPending).src = s.src := rfl
@[simp] theorem Hw.cancelPending_dst (s : Hw) : (s.cancelPending).dst = s.dst := rfl
@[simp] theorem Hw.cancelPending_data (s : Hw) : (s.cancelPending).data = s.data := rfl
@[simp] theorem Hw.cancelPending_devcfg (s : Hw) : (s.cancelPending).devcfg = s.devcfg := rfl
@[simp] theorem Hw.cancelPending_devsize (s : Hw) : (s.cancelPending).devsize = s.devsize := rfl
@[simp] theorem Hw.cancelPending_ls (s : Hw) : (s.cancelPending).ls = s.ls := rfl
@[simp] theorem Hw.cancelPending_latch (s : Hw) : (s.cancelPending).latch = s.latch := rfl
@[simp] theorem Hw.cancelPending_opb (s : Hw) : (s.cancelPending).opb = s.opb := rfl
@[simp] theorem Hw.cancelPending_scr (s : Hw) : (s.cancelPending).scr = s.scr := rfl
@[simp] theorem Hw.cancelPending_mem (s : Hw) : (s.cancelPending).mem = s.mem := rfl
@[simp] theorem Hw.cancelPending_ctrl (s : Hw) : (s.cancelPending).ctrl = s.ctrl := rfl
@[simp] theorem Hw.cancelPending_reads (s : Hw) : (s.cancelPending).reads = s.reads := rfl
@[simp] theorem Hw.cancelPending_cancels (s : Hw) : (s.cancelPending).cancels = s.cancels.tail := rfl
@[simp] theorem Hw.cancelPending_draws (s : Hw) : (s.cancelPending).draws = s.draws + 1 := rfl
@[simp] theorem Hw.cancelPending_trace (s : Hw) : (s.cancelPending).trace = s.trace ++ [.cp s.cancelAnswer] := rfl

/-! ### `Hw.markCancelled` -/

@[simp] theorem Hw.markCancelled_params (s : Hw) : (s.markCancelled).params = s.params := rfl
@[simp] theorem Hw.markCancelled_cmd (s : Hw) : (s.markCancelled).cmd = s.cmd := rfl
@[simp] theorem Hw.markCancelled_status (s : Hw) : (s.markCancelled).status = { s.status with cancelSeen := true } := rfl
@[simp] theorem Hw.markCancelled_rdata (s : Hw) : (s.markCancelled).rdata = s.rdata := rfl
@[simp] theorem Hw.markCancelled_offset (s : Hw) : (s.markCancelled).offset = s.offset := rfl
@[simp] theorem Hw.markCancelled_length (s : Hw) : (s.markCancelled).length = s.length := rfl
@[simp] theorem Hw.markCancelled_src (s : Hw) : (s.markCancelled).src = s.src := rfl
@[simp] theorem Hw.markCancelled_dst (s : Hw) : (s.markCancelled).dst = s.dst := rfl
@[simp] theorem Hw.markCancelled_data (s : Hw) : (s.markCancelled).data = s.data := rfl
@[simp] theorem Hw.markCancelled_devcfg (s : Hw) : (s.markCancelled).devcfg = s.devcfg := rfl
@[simp] theorem Hw.markCancelled_devsize (s : Hw) : (s.markCancelled).devsize = s.devsize := rfl
@[simp] theorem Hw.markCancelled_ls (s : Hw) : (s.markCancelled).ls = s.ls := rfl
@[simp] theorem Hw.markCancelled_latch (s : Hw) : (s.markCancelled).latch = s.latch := rfl
@[simp] theorem Hw.markCancelled_opb (s : Hw) : (s.markCancelled).opb = s.opb := rfl
@[simp] theorem Hw.markCancelled_scr (s : Hw) : (s.markCancelled).scr = s.scr := rfl
@[simp] theorem Hw.markCancelled_mem (s : Hw) : (s.markCancelled).mem = s.mem := rfl
@[simp] theorem Hw.markCancelled_ctrl (s : Hw) : (s.markCancelled).ctrl = s.ctrl := rfl
@[simp] theorem Hw.markCancelled_reads (s : Hw) : (s.markCancelled).reads = s.reads := rfl
@[simp] theorem Hw.markCancelled_cancels (s : Hw) : (s.markCancelled).cancels = s.cancels := rfl
@[simp] theorem Hw.markCancelled_draws (s : Hw) : (s.markCancelled).draws = s.draws := rfl
@[simp] theorem Hw.markCancelled_trace (s : Hw) : (s.markCancelled).trace = s.trace := rfl

/-! ### `Hw.markOverrun` -/

@[simp] theorem Hw.markOverrun_params (s : Hw) : (s.markOverrun).params = s.params := rfl
@[simp] theorem Hw.markOverrun_cmd (s : Hw) : (s.markOverrun).cmd = s.cmd := rfl
@[simp] theorem Hw.markOverrun_status (s : Hw) : (s.markOverrun).status = { s.status with overrun := true } := rfl
@[simp] theorem Hw.markOverrun_rdata (s : Hw) : (s.markOverrun).rdata = s.rdata := rfl
@[simp] theorem Hw.markOverrun_offset (s : Hw) : (s.markOverrun).offset = s.offset := rfl
@[simp] theorem Hw.markOverrun_length (s : Hw) : (s.markOverrun).length = s.length := rfl
@[simp] theorem Hw.markOverrun_src (s : Hw) : (s.markOverrun).src = s.src := rfl
@[simp] theorem Hw.markOverrun_dst (s : Hw) : (s.markOverrun).dst = s.dst := rfl
@[simp] theorem Hw.markOverrun_data (s : Hw) : (s.markOverrun).data = s.data := rfl
@[simp] theorem Hw.markOverrun_devcfg (s : Hw) : (s.markOverrun).devcfg = s.devcfg := rfl
@[simp] theorem Hw.markOverrun_devsize (s : Hw) : (s.markOverrun).devsize = s.devsize := rfl
@[simp] theorem Hw.markOverrun_ls (s : Hw) : (s.markOverrun).ls = s.ls := rfl
@[simp] theorem Hw.markOverrun_latch (s : Hw) : (s.markOverrun).latch = s.latch := rfl
@[simp] theorem Hw.markOverrun_opb (s : Hw) : (s.markOverrun).opb = s.opb := rfl
@[simp] theorem Hw.markOverrun_scr (s : Hw) : (s.markOverrun).scr = s.scr := rfl
@[simp] theorem Hw.markOverrun_mem (s : Hw) : (s.markOverrun).mem = s.mem := rfl
@[simp] theorem Hw.markOverrun_ctrl (s : Hw) : (s.markOverrun).ctrl = s.ctrl := rfl
@[simp] theorem Hw.markOverrun_reads (s : Hw) : (s.markOverrun).reads = s.reads := rfl
@[simp] theorem Hw.markOverrun_cancels (s : Hw) : (s.markOverrun).cancels = s.cancels := rfl
@[simp] theorem Hw.markOverrun_draws (s : Hw) : (s.markOverrun).draws = s.draws := rfl
@[simp] theorem Hw.markOverrun_trace (s : Hw) : (s.markOverrun).trace = s.trace := rfl

/-! ### `Hw.setLs` -/

@[simp] theorem Hw.setLs_params (s : Hw) (m : Word) : (s.setLs m).params = s.params := rfl
@[simp] theorem Hw.setLs_cmd (s : Hw) (m : Word) : (s.setLs m).cmd = s.cmd := rfl
@[simp] theorem Hw.setLs_status (s : Hw) (m : Word) : (s.setLs m).status = s.status := rfl
@[simp] theorem Hw.setLs_rdata (s : Hw) (m : Word) : (s.setLs m).rdata = s.rdata := rfl
@[simp] theorem Hw.setLs_offset (s : Hw) (m : Word) : (s.setLs m).offset = s.offset := rfl
@[simp] theorem Hw.setLs_length (s : Hw) (m : Word) : (s.setLs m).length = s.length := rfl
@[simp] theorem Hw.setLs_src (s : Hw) (m : Word) : (s.setLs m).src = s.src := rfl
@[simp] theorem Hw.setLs_dst (s : Hw) (m : Word) : (s.setLs m).dst = s.dst := rfl
@[simp] theorem Hw.setLs_data (s : Hw) (m : Word) : (s.setLs m).data = s.data := rfl
@[simp] theorem Hw.setLs_devcfg (s : Hw) (m : Word) : (s.setLs m).devcfg = s.devcfg := rfl
@[simp] theorem Hw.setLs_devsize (s : Hw) (m : Word) : (s.setLs m).devsize = s.devsize := rfl
@[simp] theorem Hw.setLs_ls (s : Hw) (m : Word) : (s.setLs m).ls = s.ls ||| m := rfl
@[simp] theorem Hw.setLs_latch (s : Hw) (m : Word) : (s.setLs m).latch = s.latch := rfl
@[simp] theorem Hw.setLs_opb (s : Hw) (m : Word) : (s.setLs m).opb = s.opb := rfl
@[simp] theorem Hw.setLs_scr (s : Hw) (m : Word) : (s.setLs m).scr = s.scr := rfl
@[simp] theorem Hw.setLs_mem (s : Hw) (m : Word) : (s.setLs m).mem = s.mem := rfl
@[simp] theorem Hw.setLs_ctrl (s : Hw) (m : Word) : (s.setLs m).ctrl = s.ctrl := rfl
@[simp] theorem Hw.setLs_reads (s : Hw) (m : Word) : (s.setLs m).reads = s.reads := rfl
@[simp] theorem Hw.setLs_cancels (s : Hw) (m : Word) : (s.setLs m).cancels = s.cancels := rfl
@[simp] theorem Hw.setLs_draws (s : Hw) (m : Word) : (s.setLs m).draws = s.draws := rfl
@[simp] theorem Hw.setLs_trace (s : Hw) (m : Word) : (s.setLs m).trace = s.trace := rfl

/-! ### `Hw.clearLs` -/

@[simp] theorem Hw.clearLs_params (s : Hw) (m : Word) : (s.clearLs m).params = s.params := rfl
@[simp] theorem Hw.clearLs_cmd (s : Hw) (m : Word) : (s.clearLs m).cmd = s.cmd := rfl
@[simp] theorem Hw.clearLs_status (s : Hw) (m : Word) : (s.clearLs m).status = s.status := rfl
@[simp] theorem Hw.clearLs_rdata (s : Hw) (m : Word) : (s.clearLs m).rdata = s.rdata := rfl
@[simp] theorem Hw.clearLs_offset (s : Hw) (m : Word) : (s.clearLs m).offset = s.offset := rfl
@[simp] theorem Hw.clearLs_length (s : Hw) (m : Word) : (s.clearLs m).length = s.length := rfl
@[simp] theorem Hw.clearLs_src (s : Hw) (m : Word) : (s.clearLs m).src = s.src := rfl
@[simp] theorem Hw.clearLs_dst (s : Hw) (m : Word) : (s.clearLs m).dst = s.dst := rfl
@[simp] theorem Hw.clearLs_data (s : Hw) (m : Word) : (s.clearLs m).data = s.data := rfl
@[simp] theorem Hw.clearLs_devcfg (s : Hw) (m : Word) : (s.clearLs m).devcfg = s.devcfg := rfl
@[simp] theorem Hw.clearLs_devsize (s : Hw) (m : Word) : (s.clearLs m).devsize = s.devsize := rfl
@[simp] theorem Hw.clearLs_ls (s : Hw) (m : Word) : (s.clearLs m).ls = s.ls &&& ~~~m := rfl
@[simp] theorem Hw.clearLs_latch (s : Hw) (m : Word) : (s.clearLs m).latch = s.latch := rfl
@[simp] theorem Hw.clearLs_opb (s : Hw) (m : Word) : (s.clearLs m).opb = s.opb := rfl
@[simp] theorem Hw.clearLs_scr (s : Hw) (m : Word) : (s.clearLs m).scr = s.scr := rfl
@[simp] theorem Hw.clearLs_mem (s : Hw) (m : Word) : (s.clearLs m).mem = s.mem := rfl
@[simp] theorem Hw.clearLs_ctrl (s : Hw) (m : Word) : (s.clearLs m).ctrl = s.ctrl := rfl
@[simp] theorem Hw.clearLs_reads (s : Hw) (m : Word) : (s.clearLs m).reads = s.reads := rfl
@[simp] theorem Hw.clearLs_cancels (s : Hw) (m : Word) : (s.clearLs m).cancels = s.cancels := rfl
@[simp] theorem Hw.clearLs_draws (s : Hw) (m : Word) : (s.clearLs m).draws = s.draws := rfl
@[simp] theorem Hw.clearLs_trace (s : Hw) (m : Word) : (s.clearLs m).trace = s.trace := rfl

/-! ### `Hw.setOpb0` -/

@[simp] theorem Hw.setOpb0_params (s : Hw) (v : Byte) : (s.setOpb0 v).params = s.params := rfl
@[simp] theorem Hw.setOpb0_cmd (s : Hw) (v : Byte) : (s.setOpb0 v).cmd = s.cmd := rfl
@[simp] theorem Hw.setOpb0_status (s : Hw) (v : Byte) : (s.setOpb0 v).status = s.status := rfl
@[simp] theorem Hw.setOpb0_rdata (s : Hw) (v : Byte) : (s.setOpb0 v).rdata = s.rdata := rfl
@[simp] theorem Hw.setOpb0_offset (s : Hw) (v : Byte) : (s.setOpb0 v).offset = s.offset := rfl
@[simp] theorem Hw.setOpb0_length (s : Hw) (v : Byte) : (s.setOpb0 v).length = s.length := rfl
@[simp] theorem Hw.setOpb0_src (s : Hw) (v : Byte) : (s.setOpb0 v).src = s.src := rfl
@[simp] theorem Hw.setOpb0_dst (s : Hw) (v : Byte) : (s.setOpb0 v).dst = s.dst := rfl
@[simp] theorem Hw.setOpb0_data (s : Hw) (v : Byte) : (s.setOpb0 v).data = s.data := rfl
@[simp] theorem Hw.setOpb0_devcfg (s : Hw) (v : Byte) : (s.setOpb0 v).devcfg = s.devcfg := rfl
@[simp] theorem Hw.setOpb0_devsize (s : Hw) (v : Byte) : (s.setOpb0 v).devsize = s.devsize := rfl
@[simp] theorem Hw.setOpb0_ls (s : Hw) (v : Byte) : (s.setOpb0 v).ls = s.ls := rfl
@[simp] theorem Hw.setOpb0_latch (s : Hw) (v : Byte) : (s.setOpb0 v).latch = s.latch := rfl
@[simp] theorem Hw.setOpb0_opb (s : Hw) (v : Byte) : (s.setOpb0 v).opb = { s.opb with b0 := v } := rfl
@[simp] theorem Hw.setOpb0_scr (s : Hw) (v : Byte) : (s.setOpb0 v).scr = s.scr := rfl
@[simp] theorem Hw.setOpb0_mem (s : Hw) (v : Byte) : (s.setOpb0 v).mem = s.mem := rfl
@[simp] theorem Hw.setOpb0_ctrl (s : Hw) (v : Byte) : (s.setOpb0 v).ctrl = s.ctrl := rfl
@[simp] theorem Hw.setOpb0_reads (s : Hw) (v : Byte) : (s.setOpb0 v).reads = s.reads := rfl
@[simp] theorem Hw.setOpb0_cancels (s : Hw) (v : Byte) : (s.setOpb0 v).cancels = s.cancels := rfl
@[simp] theorem Hw.setOpb0_draws (s : Hw) (v : Byte) : (s.setOpb0 v).draws = s.draws := rfl
@[simp] theorem Hw.setOpb0_trace (s : Hw) (v : Byte) : (s.setOpb0 v).trace = s.trace := rfl

/-! ### `Hw.setOpb1` -/

@[simp] theorem Hw.setOpb1_params (s : Hw) (v : Byte) : (s.setOpb1 v).params = s.params := rfl
@[simp] theorem Hw.setOpb1_cmd (s : Hw) (v : Byte) : (s.setOpb1 v).cmd = s.cmd := rfl
@[simp] theorem Hw.setOpb1_status (s : Hw) (v : Byte) : (s.setOpb1 v).status = s.status := rfl
@[simp] theorem Hw.setOpb1_rdata (s : Hw) (v : Byte) : (s.setOpb1 v).rdata = s.rdata := rfl
@[simp] theorem Hw.setOpb1_offset (s : Hw) (v : Byte) : (s.setOpb1 v).offset = s.offset := rfl
@[simp] theorem Hw.setOpb1_length (s : Hw) (v : Byte) : (s.setOpb1 v).length = s.length := rfl
@[simp] theorem Hw.setOpb1_src (s : Hw) (v : Byte) : (s.setOpb1 v).src = s.src := rfl
@[simp] theorem Hw.setOpb1_dst (s : Hw) (v : Byte) : (s.setOpb1 v).dst = s.dst := rfl
@[simp] theorem Hw.setOpb1_data (s : Hw) (v : Byte) : (s.setOpb1 v).data = s.data := rfl
@[simp] theorem Hw.setOpb1_devcfg (s : Hw) (v : Byte) : (s.setOpb1 v).devcfg = s.devcfg := rfl
@[simp] theorem Hw.setOpb1_devsize (s : Hw) (v : Byte) : (s.setOpb1 v).devsize = s.devsize := rfl
@[simp] theorem Hw.setOpb1_ls (s : Hw) (v : Byte) : (s.setOpb1 v).ls = s.ls := rfl
@[simp] theorem Hw.setOpb1_latch (s : Hw) (v : Byte) : (s.setOpb1 v).latch = s.latch := rfl
@[simp] theorem Hw.setOpb1_opb (s : Hw) (v : Byte) : (s.setOpb1 v).opb = { s.opb with b1 := v } := rfl
@[simp] theorem Hw.setOpb1_scr (s : Hw) (v : Byte) : (s.setOpb1 v).scr = s.scr := rfl
@[simp] theorem Hw.setOpb1_mem (s : Hw) (v : Byte) : (s.setOpb1 v).mem = s.mem := rfl
@[simp] theorem Hw.setOpb1_ctrl (s : Hw) (v : Byte) : (s.setOpb1 v).ctrl = s.ctrl := rfl
@[simp] theorem Hw.setOpb1_reads (s : Hw) (v : Byte) : (s.setOpb1 v).reads = s.reads := rfl
@[simp] theorem Hw.setOpb1_cancels (s : Hw) (v : Byte) : (s.setOpb1 v).cancels = s.cancels := rfl
@[simp] theorem Hw.setOpb1_draws (s : Hw) (v : Byte) : (s.setOpb1 v).draws = s.draws := rfl
@[simp] theorem Hw.setOpb1_trace (s : Hw) (v : Byte) : (s.setOpb1 v).trace = s.trace := rfl

/-! ### `Hw.setOpb2` -/

@[simp] theorem Hw.setOpb2_params (s : Hw) (v : Byte) : (s.setOpb2 v).params = s.params := rfl
@[simp] theorem Hw.setOpb2_cmd (s : Hw) (v : Byte) : (s.setOpb2 v).cmd = s.cmd := rfl
@[simp] theorem Hw.setOpb2_status (s : Hw) (v : Byte) : (s.setOpb2 v).status = s.status := rfl
@[simp] theorem Hw.setOpb2_rdata (s : Hw) (v : Byte) : (s.setOpb2 v).rdata = s.rdata := rfl
@[simp] theorem Hw.setOpb2_offset (s : Hw) (v : Byte) : (s.setOpb2 v).offset = s.offset := rfl
@[simp] theorem Hw.setOpb2_length (s : Hw) (v : Byte) : (s.setOpb2 v).length = s.length := rfl
@[simp] theorem Hw.setOpb2_src (s : Hw) (v : Byte) : (s.setOpb2 v).src = s.src := rfl
@[simp] theorem Hw.setOpb2_dst (s : Hw) (v : Byte) : (s.setOpb2 v).dst = s.dst := rfl
@[simp] theorem Hw.setOpb2_data (s : Hw) (v : Byte) : (s.setOpb2 v).data = s.data := rfl
@[simp] theorem Hw.setOpb2_devcfg (s : Hw) (v : Byte) : (s.setOpb2 v).devcfg = s.devcfg := rfl
@[simp] theorem Hw.setOpb2_devsize (s : Hw) (v : Byte) : (s.setOpb2 v).devsize = s.devsize := rfl
@[simp] theorem Hw.setOpb2_ls (s : Hw) (v : Byte) : (s.setOpb2 v).ls = s.ls := rfl
@[simp] theorem Hw.setOpb2_latch (s : Hw) (v : Byte) : (s.setOpb2 v).latch = s.latch := rfl
@[simp] theorem Hw.setOpb2_opb (s : Hw) (v : Byte) : (s.setOpb2 v).opb = { s.opb with b2 := v } := rfl
@[simp] theorem Hw.setOpb2_scr (s : Hw) (v : Byte) : (s.setOpb2 v).scr = s.scr := rfl
@[simp] theorem Hw.setOpb2_mem (s : Hw) (v : Byte) : (s.setOpb2 v).mem = s.mem := rfl
@[simp] theorem Hw.setOpb2_ctrl (s : Hw) (v : Byte) : (s.setOpb2 v).ctrl = s.ctrl := rfl
@[simp] theorem Hw.setOpb2_reads (s : Hw) (v : Byte) : (s.setOpb2 v).reads = s.reads := rfl
@[simp] theorem Hw.setOpb2_cancels (s : Hw) (v : Byte) : (s.setOpb2 v).cancels = s.cancels := rfl
@[simp] theorem Hw.setOpb2_draws (s : Hw) (v : Byte) : (s.setOpb2 v).draws = s.draws := rfl
@[simp] theorem Hw.setOpb2_trace (s : Hw) (v : Byte) : (s.setOpb2 v).trace = s.trace := rfl

/-! ### `Hw.setOpb3` -/

@[simp] theorem Hw.setOpb3_params (s : Hw) (v : Byte) : (s.setOpb3 v).params = s.params := rfl
@[simp] theorem Hw.setOpb3_cmd (s : Hw) (v : Byte) : (s.setOpb3 v).cmd = s.cmd := rfl
@[simp] theorem Hw.setOpb3_status (s : Hw) (v : Byte) : (s.setOpb3 v).status = s.status := rfl
@[simp] theorem Hw.setOpb3_rdata (s : Hw) (v : Byte) : (s.setOpb3 v).rdata = s.rdata := rfl
@[simp] theorem Hw.setOpb3_offset (s : Hw) (v : Byte) : (s.setOpb3 v).offset = s.offset := rfl
@[simp] theorem Hw.setOpb3_length (s : Hw) (v : Byte) : (s.setOpb3 v).length = s.length := rfl
@[simp] theorem Hw.setOpb3_src (s : Hw) (v : Byte) : (s.setOpb3 v).src = s.src := rfl
@[simp] theorem Hw.setOpb3_dst (s : Hw) (v : Byte) : (s.setOpb3 v).dst = s.dst := rfl
@[simp] theorem Hw.setOpb3_data (s : Hw) (v : Byte) : (s.setOpb3 v).data = s.data := rfl
@[simp] theorem Hw.setOpb3_devcfg (s : Hw) (v : Byte) : (s.setOpb3 v).devcfg = s.devcfg := rfl
@[simp] theorem Hw.setOpb3_devsize (s : Hw) (v : Byte) : (s.setOpb3 v).devsize = s.devsize := rfl
@[simp] theorem Hw.setOpb3_ls (s : Hw) (v : Byte) : (s.setOpb3 v).ls = s.ls := rfl
@[simp] theorem Hw.setOpb3_latch (s : Hw) (v : Byte) : (s.setOpb3 v).latch = s.latch := rfl
@[simp] theorem Hw.setOpb3_opb (s : Hw) (v : Byte) : (s.setOpb3 v).opb = { s.opb with b3 := v } := rfl
@[simp] theorem Hw.setOpb3_scr (s : Hw) (v : Byte) : (s.setOpb3 v).scr = s.scr := rfl
@[simp] theorem Hw.setOpb3_mem (s : Hw) (v : Byte) : (s.setOpb3 v).mem = s.mem := rfl
@[simp] theorem Hw.setOpb3_ctrl (s : Hw) (v : Byte) : (s.setOpb3 v).ctrl = s.ctrl := rfl
@[simp] theorem Hw.setOpb3_reads (s : Hw) (v : Byte) : (s.setOpb3 v).reads = s.reads := rfl
@[simp] theorem Hw.setOpb3_cancels (s : Hw) (v : Byte) : (s.setOpb3 v).cancels = s.cancels := rfl
@[simp] theorem Hw.setOpb3_draws (s : Hw) (v : Byte) : (s.setOpb3 v).draws = s.draws := rfl
@[simp] theorem Hw.setOpb3_trace (s : Hw) (v : Byte) : (s.setOpb3 v).trace = s.trace := rfl

/-! ### `Hw.setRdata` -/

@[simp] theorem Hw.setRdata_params (s : Hw) (v : Word) : (s.setRdata v).params = s.params := rfl
@[simp] theorem Hw.setRdata_cmd (s : Hw) (v : Word) : (s.setRdata v).cmd = s.cmd := rfl
@[simp] theorem Hw.setRdata_status (s : Hw) (v : Word) : (s.setRdata v).status = s.status := rfl
@[simp] theorem Hw.setRdata_rdata (s : Hw) (v : Word) : (s.setRdata v).rdata = v := rfl
@[simp] theorem Hw.setRdata_offset (s : Hw) (v : Word) : (s.setRdata v).offset = s.offset := rfl
@[simp] theorem Hw.setRdata_length (s : Hw) (v : Word) : (s.setRdata v).length = s.length := rfl
@[simp] theorem Hw.setRdata_src (s : Hw) (v : Word) : (s.setRdata v).src = s.src := rfl
@[simp] theorem Hw.setRdata_dst (s : Hw) (v : Word) : (s.setRdata v).dst = s.dst := rfl
@[simp] theorem Hw.setRdata_data (s : Hw) (v : Word) : (s.setRdata v).data = s.data := rfl
@[simp] theorem Hw.setRdata_devcfg (s : Hw) (v : Word) : (s.setRdata v).devcfg = s.devcfg := rfl
@[simp] theorem Hw.setRdata_devsize (s : Hw) (v : Word) : (s.setRdata v).devsize = s.devsize := rfl
@[simp] theorem Hw.setRdata_ls (s : Hw) (v : Word) : (s.setRdata v).ls = s.ls := rfl
@[simp] theorem Hw.setRdata_latch (s : Hw) (v : Word) : (s.setRdata v).latch = s.latch := rfl
@[simp] theorem Hw.setRdata_opb (s : Hw) (v : Word) : (s.setRdata v).opb = s.opb := rfl
@[simp] theorem Hw.setRdata_scr (s : Hw) (v : Word) : (s.setRdata v).scr = s.scr := rfl
@[simp] theorem Hw.setRdata_mem (s : Hw) (v : Word) : (s.setRdata v).mem = s.mem := rfl
@[simp] theorem Hw.setRdata_ctrl (s : Hw) (v : Word) : (s.setRdata v).ctrl = s.ctrl := rfl
@[simp] theorem Hw.setRdata_reads (s : Hw) (v : Word) : (s.setRdata v).reads = s.reads := rfl
@[simp] theorem Hw.setRdata_cancels (s : Hw) (v : Word) : (s.setRdata v).cancels = s.cancels := rfl
@[simp] theorem Hw.setRdata_draws (s : Hw) (v : Word) : (s.setRdata v).draws = s.draws := rfl
@[simp] theorem Hw.setRdata_trace (s : Hw) (v : Word) : (s.setRdata v).trace = s.trace := rfl

/-! ### `Hw.accept` -/

@[simp] theorem Hw.accept_params (s : Hw) (w : Word) : (s.accept w).params = s.params := rfl
@[simp] theorem Hw.accept_cmd (s : Hw) (w : Word) : (s.accept w).cmd = w := rfl
@[simp] theorem Hw.accept_status (s : Hw) (w : Word) : (s.accept w).status = s.status.accepted := rfl
@[simp] theorem Hw.accept_rdata (s : Hw) (w : Word) : (s.accept w).rdata = 0#32 := rfl
@[simp] theorem Hw.accept_offset (s : Hw) (w : Word) : (s.accept w).offset = s.offset := rfl
@[simp] theorem Hw.accept_length (s : Hw) (w : Word) : (s.accept w).length = s.length := rfl
@[simp] theorem Hw.accept_src (s : Hw) (w : Word) : (s.accept w).src = s.src := rfl
@[simp] theorem Hw.accept_dst (s : Hw) (w : Word) : (s.accept w).dst = s.dst := rfl
@[simp] theorem Hw.accept_data (s : Hw) (w : Word) : (s.accept w).data = s.data := rfl
@[simp] theorem Hw.accept_devcfg (s : Hw) (w : Word) : (s.accept w).devcfg = s.devcfg := rfl
@[simp] theorem Hw.accept_devsize (s : Hw) (w : Word) : (s.accept w).devsize = s.devsize := rfl
@[simp] theorem Hw.accept_ls (s : Hw) (w : Word) : (s.accept w).ls = s.ls := rfl
@[simp] theorem Hw.accept_latch (s : Hw) (w : Word) : (s.accept w).latch = s.latchFor w := rfl
@[simp] theorem Hw.accept_opb (s : Hw) (w : Word) : (s.accept w).opb = s.opb := rfl
@[simp] theorem Hw.accept_scr (s : Hw) (w : Word) : (s.accept w).scr = s.scr := rfl
@[simp] theorem Hw.accept_mem (s : Hw) (w : Word) : (s.accept w).mem = s.mem := rfl
@[simp] theorem Hw.accept_ctrl (s : Hw) (w : Word) : (s.accept w).ctrl = s.ctrl := rfl
@[simp] theorem Hw.accept_reads (s : Hw) (w : Word) : (s.accept w).reads = s.reads := rfl
@[simp] theorem Hw.accept_cancels (s : Hw) (w : Word) : (s.accept w).cancels = s.cancels := rfl
@[simp] theorem Hw.accept_draws (s : Hw) (w : Word) : (s.accept w).draws = s.draws := rfl
@[simp] theorem Hw.accept_trace (s : Hw) (w : Word) : (s.accept w).trace = s.trace := rfl

/-! ### The machine's state -/

@[simp] theorem State.at_seq (s : State) (q : Seq) : (s.at q).seq = q := rfl
@[simp] theorem State.at_hw (s : State) (q : Seq) : (s.at q).hw = s.hw := rfl
@[simp] theorem State.at_host (s : State) (q : Seq) : (s.at q).host = s.host := rfl
@[simp] theorem State.finish_seq (s : State) (code : RCode) : (s.finish code).seq = .idle := rfl
@[simp] theorem State.finish_hw (s : State) (code : RCode) :
    (s.finish code).hw = { s.hw with status := s.hw.status.finished code } := rfl
@[simp] theorem State.finish_host (s : State) (code : RCode) : (s.finish code).host = s.host := rfl
@[simp] theorem State.accept_seq (s : State) (w : Word) : (s.accept w).seq = s.seq := rfl
@[simp] theorem State.accept_hw (s : State) (w : Word) : (s.accept w).hw = s.hw.accept w := rfl
@[simp] theorem State.accept_host (s : State) (w : Word) : (s.accept w).host = s.host := rfl
@[simp] theorem State.popTurn_seq (s : State) : s.popTurn.seq = s.seq := rfl
@[simp] theorem State.popTurn_hw (s : State) : s.popTurn.hw = s.hw := rfl
@[simp] theorem State.popTurn_agent (s : State) : s.popTurn.host.agent = s.host.agent := rfl
@[simp] theorem State.popTurn_ops (s : State) : s.popTurn.host.ops = s.host.ops := rfl
@[simp] theorem State.popTurn_posted (s : State) : s.popTurn.host.posted = s.host.posted := rfl
@[simp] theorem State.popTurn_turns (s : State) : s.popTurn.host.turns = s.host.turns.tail := rfl
@[simp] theorem State.popTurn_seen (s : State) : s.popTurn.host.seen = s.host.seen := rfl
@[simp] theorem State.popOp_seq (s : State) : s.popOp.seq = s.seq := rfl
@[simp] theorem State.popOp_hw (s : State) : s.popOp.hw = s.hw := rfl
@[simp] theorem State.popOp_agent (s : State) : s.popOp.host.agent = s.host.agent := rfl
@[simp] theorem State.popOp_ops (s : State) : s.popOp.host.ops = s.host.ops.tail := rfl
@[simp] theorem State.popOp_posted (s : State) : s.popOp.host.posted = s.host.posted := rfl
@[simp] theorem State.popOp_turns (s : State) : s.popOp.host.turns = s.host.turns := rfl
@[simp] theorem State.popOp_seen (s : State) : s.popOp.host.seen = s.host.seen := rfl
@[simp] theorem State.dropOps_seq (s : State) (n : Nat) : (s.dropOps n).seq = s.seq := rfl
@[simp] theorem State.dropOps_hw (s : State) (n : Nat) : (s.dropOps n).hw = s.hw := rfl
@[simp] theorem State.dropOps_agent (s : State) (n : Nat) : (s.dropOps n).host.agent = s.host.agent := rfl
@[simp] theorem State.dropOps_ops (s : State) (n : Nat) : (s.dropOps n).host.ops = s.host.ops.drop n := rfl
@[simp] theorem State.dropOps_posted (s : State) (n : Nat) : (s.dropOps n).host.posted = s.host.posted := rfl
@[simp] theorem State.dropOps_turns (s : State) (n : Nat) : (s.dropOps n).host.turns = s.host.turns := rfl
@[simp] theorem State.dropOps_seen (s : State) (n : Nat) : (s.dropOps n).host.seen = s.host.seen := rfl
@[simp] theorem State.see_seq (s : State) (x : Seen) : (s.see x).seq = s.seq := rfl
@[simp] theorem State.see_hw (s : State) (x : Seen) : (s.see x).hw = s.hw := rfl
@[simp] theorem State.see_agent (s : State) (x : Seen) : (s.see x).host.agent = s.host.agent := rfl
@[simp] theorem State.see_ops (s : State) (x : Seen) : (s.see x).host.ops = s.host.ops := rfl
@[simp] theorem State.see_posted (s : State) (x : Seen) : (s.see x).host.posted = s.host.posted := rfl
@[simp] theorem State.see_turns (s : State) (x : Seen) : (s.see x).host.turns = s.host.turns := rfl
@[simp] theorem State.see_seen (s : State) (x : Seen) : (s.see x).host.seen = s.host.seen ++ [x] := rfl
@[simp] theorem State.post_seq (s : State) (off : Nat) (v : Word) : (s.post off v).seq = s.seq := rfl
@[simp] theorem State.post_hw (s : State) (off : Nat) (v : Word) : (s.post off v).hw = s.hw := rfl
@[simp] theorem State.post_agent (s : State) (off : Nat) (v : Word) : (s.post off v).host.agent = s.host.agent := rfl
@[simp] theorem State.post_ops (s : State) (off : Nat) (v : Word) : (s.post off v).host.ops = s.host.ops := rfl
@[simp] theorem State.post_posted (s : State) (off : Nat) (v : Word) :
    (s.post off v).host.posted = s.host.posted ++ [⟨off, v⟩] := rfl
@[simp] theorem State.post_turns (s : State) (off : Nat) (v : Word) : (s.post off v).host.turns = s.host.turns := rfl
@[simp] theorem State.post_seen (s : State) (off : Nat) (v : Word) : (s.post off v).host.seen = s.host.seen := rfl
@[simp] theorem State.unpost_seq (s : State) (k : Nat) : (s.unpost k).seq = s.seq := rfl
@[simp] theorem State.unpost_hw (s : State) (k : Nat) : (s.unpost k).hw = s.hw := rfl
@[simp] theorem State.unpost_agent (s : State) (k : Nat) : (s.unpost k).host.agent = s.host.agent := rfl
@[simp] theorem State.unpost_ops (s : State) (k : Nat) : (s.unpost k).host.ops = s.host.ops := rfl
@[simp] theorem State.unpost_posted (s : State) (k : Nat) : (s.unpost k).host.posted = s.host.posted.eraseIdx k := rfl
@[simp] theorem State.unpost_turns (s : State) (k : Nat) : (s.unpost k).host.turns = s.host.turns := rfl
@[simp] theorem State.unpost_seen (s : State) (k : Nat) : (s.unpost k).host.seen = s.host.seen := rfl
@[simp] theorem State.loadStatus_seq (s : State) : s.loadStatus.seq = s.seq := rfl
@[simp] theorem State.loadStatus_hw (s : State) : s.loadStatus.hw = s.hw := rfl

/-! ### What the answers to a read or a sample are -/

theorem Hw.readAnswer_cons {s : Hw} {v : Word} {vs : List Word} (h : s.reads = v :: vs) : s.readAnswer = v := by
  simp [Hw.readAnswer, h]

theorem Hw.cancelAnswer_cons {s : Hw} {b : Bool} {bs : List Bool} (h : s.cancels = b :: bs) : s.cancelAnswer = b := by
  simp [Hw.cancelAnswer, h]

end Sys2Proof.Machine
end

