-- ==== Sys2Proof/Laws/Procedures.lean ====
section
/-! SUPPORT. Running a resumable procedure to its end (`Ends`): one lemma carries such a run through a caller, and one
carries it to the machine's own steps; and back. -/

namespace Sys2Proof.Machine

variable {π ρ π' ρ' : Type}

@[simp] theorem Res.chain_goto (p : π) (wrap : π → π') (k : ρ → Res π' ρ') :
    (Res.goto p : Res π ρ).chain wrap k = .goto (wrap p) := rfl

@[simp] theorem Res.chain_ret (r : ρ) (wrap : π → π') (k : ρ → Res π' ρ') :
    (Res.ret r : Res π ρ).chain wrap k = k r := rfl

@[simp] theorem Res.chain_fault (e : Fault) (wrap : π → π') (k : ρ → Res π' ρ') :
    (Res.fault e : Res π ρ).chain wrap k = .fault e := rfl

theorem chainStep_ret {x : Hw × Res π ρ} {wrap : π → π'} {k : Hw → ρ → Res π' ρ'} {s' : Hw} {r : ρ}
    (h : x = (s', .ret r)) : chainStep x wrap k = (s', k s' r) := by
  subst h; rfl

theorem chainStep_goto {x : Hw × Res π ρ} {wrap : π → π'} {k : Hw → ρ → Res π' ρ'} {s' : Hw} {p : π}
    (h : x = (s', .goto p)) : chainStep x wrap k = (s', .goto (wrap p)) := by
  subst h; rfl

/-- A step that answers `x` goes on as `x` does. -/
theorem Ends.step {f : π → Hw → Hw × Res π ρ} {p : π} {s s1 s' : Hw} {x : Res π ρ} {r : ρ}
    (h : f p s = (s1, x)) (hx : ResEnds f x s1 r s') : Ends f p s r s' := by
  cases x with
  | goto q => exact .more h hx
  | ret r0 =>
    obtain ⟨rfl, rfl⟩ := hx
    exact .last h
  | fault e => exact hx.elim

/-- A run of a called procedure, carried through its caller: after it the caller's next part runs. -/
theorem Ends.chain {f : π → Hw → Hw × Res π ρ} {g : π' → Hw → Hw × Res π' ρ'} {wrap : π → π'}
    {k : Hw → ρ → Res π' ρ'} (hg : ∀ p s, g (wrap p) s = chainStep (f p s) wrap k) {p : π} {s s' s'' : Hw} {r : ρ}
    {r' : ρ'} (h : Ends f p s r s') (hk : ResEnds g (k s' r) s' r' s'') : Ends g (wrap p) s r' s'' := by
  induction h with
  | last h => exact .step ((hg _ _).trans (chainStep_ret h)) hk
  | more h _ ih => exact .more ((hg _ _).trans (chainStep_goto h)) (ih hk)

/-- The same from the called procedure's entry. -/
theorem ResEnds.chain {f : π → Hw → Hw × Res π ρ} {g : π' → Hw → Hw × Res π' ρ'} {wrap : π → π'}
    {k : Hw → ρ → Res π' ρ'} (hg : ∀ p s, g (wrap p) s = chainStep (f p s) wrap k) {x : Res π ρ} {s s' s'' : Hw} {r : ρ}
    {r' : ρ'} (h : ResEnds f x s r s') (hk : ResEnds g (k s' r) s' r' s'') :
    ResEnds g (x.chain wrap (k s)) s r' s'' := by
  cases x with
  | goto p => exact Ends.chain hg h hk
  | ret r0 =>
    obtain ⟨rfl, rfl⟩ := h
    exact hk
  | fault e => exact h.elim

/-- The entry's caller may name its next part otherwise, where the called procedure has a first point. -/
theorem ResEnds.chain_goto {f : π → Hw → Hw × Res π ρ} {g : π' → Hw → Hw × Res π' ρ'} {wrap : π → π'}
    {k : Hw → ρ → Res π' ρ'} {k0 : ρ → Res π' ρ'} (hg : ∀ p s, g (wrap p) s = chainStep (f p s) wrap k) {x : Res π ρ}
    {p : π} (hp : x = .goto p) {s s' s'' : Hw} {r : ρ} {r' : ρ'} (h : ResEnds f x s r s')
    (hk : ResEnds g (k s' r) s' r' s'') : ResEnds g (x.chain wrap k0) s r' s'' := by
  subst hp
  exact Ends.chain hg h hk

/-! ### The machine's steps -/

theorem mover_block {s : State} (h : s.host.turns = []) (hq : s.seq ≠ .idle) : s.mover = .block := by
  simp [State.mover, h, hq]

theorem popTurn_quiet {s : State} (h : s.host.turns = []) : s.popTurn = s := by
  obtain ⟨q, hw, ⟨ops, turns, seen⟩⟩ := s
  simp only at h
  subst h
  rfl

/-- While only the block moves and a command runs, a step of the machine is a step of the block. -/
theorem step_eq_blockStep {s : State} (h : s.host.turns = []) (hq : s.seq ≠ .idle) : step s = blockStep s := by
  simp [step, mover_block h hq, popTurn_quiet h]

theorem Reaches.refl (s : State) : Reaches s s := ⟨0, rfl⟩

theorem run_succ {M : Host.Core} {s t : M.State} (h : M.step s = .next t) (n : Nat) : M.run (n + 1) s = M.run n t := by
  simp only [Host.Core.run, h]

theorem Reaches.head {s t u : State} (h : step s = .next t) (ht : Reaches t u) : Reaches s u := by
  obtain ⟨n, hn⟩ := ht
  exact ⟨n + 1, (run_succ (M := Sys2Proof.core) h n).trans hn⟩

/-- A run of the procedure that a command's point stands in, as steps of the machine. -/
theorem Ends.reaches {f : π → Hw → Hw × Res π ρ} {wrap : π → Seq} {k : ρ → Seq} (hidle : ∀ p, wrap p ≠ .idle)
    (hb : ∀ (p : π) (s : State), s.seq = wrap p → blockStep s = s.advance (f p s.hw) wrap k) {p : π} {h h' : Hw} {r : ρ}
    (hr : Ends f p h r h') (s : State) (ht : s.host.turns = []) {u : State}
    (hu : Reaches { s with hw := h', seq := k r } u) : Reaches { s with hw := h, seq := wrap p } u := by
  induction hr generalizing s with
  | last hf =>
    refine .head ?_ hu
    rw [step_eq_blockStep (by exact ht) (by exact hidle _), hb _ _ rfl]
    simp [State.advance, hf]
  | more hf _ ih =>
    refine .head ?_ (ih s ht hu)
    rw [step_eq_blockStep (by exact ht) (by exact hidle _), hb _ _ rfl]
    simp [State.advance, hf]

/-- The last step of a command is `finish(code)`. -/
theorem reaches_finish (s : State) (ht : s.host.turns = []) (h : Hw) (code : RCode) :
    Reaches { s with hw := h, seq := .finish code } (State.finish { s with hw := h } code) := by
  refine .head ?_ (.refl _)
  rw [step_eq_blockStep (by exact ht) (by exact Seq.noConfusion)]
  rfl

/-- The same from a command's entry. -/
theorem ResEnds.reaches {f : π → Hw → Hw × Res π ρ} {wrap : π → Seq} {k : ρ → Seq} (hidle : ∀ p, wrap p ≠ .idle)
    (hb : ∀ (p : π) (s : State), s.seq = wrap p → blockStep s = s.advance (f p s.hw) wrap k) {x : Res π ρ} {h' : Hw}
    {r : ρ} (s : State) (hr : ResEnds f x s.hw r h') (ht : s.host.turns = []) {u : State}
    (hu : Reaches { s with hw := h', seq := k r } u) : ∃ t, s.enter x wrap k = .next t ∧ Reaches t u := by
  cases x with
  | goto p => exact ⟨_, rfl, Ends.reaches hidle hb hr s ht hu⟩
  | ret r0 =>
    obtain ⟨rfl, rfl⟩ := hr
    exact ⟨_, rfl, hu⟩
  | fault e => exact hr.elim

/-! ### Back from runs -/

/-- A run has one end. -/
theorem Ends.det {f : π → Hw → Hw × Res π ρ} {p : π} {s s' s'' : Hw} {r r' : ρ} (h : Ends f p s r s')
    (k : Ends f p s r' s'') : r = r' ∧ s' = s'' := by
  induction h with
  | last h =>
    cases k with
    | last k =>
      have := h.symm.trans k
      simp only [Prod.mk.injEq, Res.ret.injEq] at this
      exact ⟨this.2, this.1⟩
    | more k _ => cases h.symm.trans k
  | more h _ ih =>
    cases k with
    | last k => cases h.symm.trans k
    | more k krest =>
      have := h.symm.trans k
      simp only [Prod.mk.injEq, Res.goto.injEq] at this
      obtain ⟨rfl, rfl⟩ := this
      exact ih krest

theorem ResEnds.det {f : π → Hw → Hw × Res π ρ} {x : Res π ρ} {s s' s'' : Hw} {r r' : ρ} (h : ResEnds f x s r s')
    (k : ResEnds f x s r' s'') : r = r' ∧ s' = s'' := by
  cases x with
  | goto p => exact Ends.det h k
  | ret r0 => exact ⟨h.1.symm.trans k.1, h.2.symm.trans k.2⟩
  | fault e => exact h.elim

/-- After one step a run goes on as that step's answer does. -/
theorem Ends.tail {f : π → Hw → Hw × Res π ρ} {p : π} {s s1 s' : Hw} {x : Res π ρ} {r : ρ} (h : Ends f p s r s')
    (hf : f p s = (s1, x)) : ResEnds f x s1 r s' := by
  cases h with
  | last h =>
    have := hf.symm.trans h
    simp only [Prod.mk.injEq] at this
    obtain ⟨rfl, rfl⟩ := this
    exact ⟨rfl, rfl⟩
  | more h rest =>
    have := hf.symm.trans h
    simp only [Prod.mk.injEq] at this
    obtain ⟨rfl, rfl⟩ := this
    exact rest

/-- A run through a called procedure comes to that procedure's end, and then runs the caller's next part. -/
theorem Ends.unchain {f : π → Hw → Hw × Res π ρ} {g : π' → Hw → Hw × Res π' ρ'} {wrap : π → π'}
    {k : Hw → ρ → Res π' ρ'} (hg : ∀ p s, g (wrap p) s = chainStep (f p s) wrap k) {p' : π'} {s s'' : Hw} {r' : ρ'}
    (h : Ends g p' s r' s'') (p : π) (hp : p' = wrap p) :
    ∃ r s', Ends f p s r s' ∧ ResEnds g (k s' r) s' r' s'' := by
  induction h generalizing p with
  | @last p0 s s'' r' h =>
    subst hp
    rw [hg] at h
    rcases hf : f p s with ⟨s1, q | r | e⟩
    · simp [hf, chainStep] at h
    · refine ⟨r, s1, .last hf, ?_⟩
      simp only [hf, chainStep, Res.chain_ret, Prod.mk.injEq] at h
      obtain ⟨rfl, hk⟩ := h
      rw [hk]
      exact ⟨rfl, rfl⟩
    · simp [hf, chainStep] at h
  | @more p0 q0 s s1 s'' r' h rest ih =>
    subst hp
    rw [hg] at h
    rcases hf : f p s with ⟨s2, q | r | e⟩
    · simp only [hf, chainStep, Res.chain_goto, Prod.mk.injEq, Res.goto.injEq] at h
      obtain ⟨rfl, rfl⟩ := h
      obtain ⟨r, s', he, hk⟩ := ih q rfl
      exact ⟨r, s', .more hf he, hk⟩
    · refine ⟨r, s2, .last hf, ?_⟩
      simp only [hf, chainStep, Res.chain_ret, Prod.mk.injEq] at h
      rw [h.2, h.1]
      exact rest
    · simp [hf, chainStep] at h

theorem ResEnds.unchain {f : π → Hw → Hw × Res π ρ} {g : π' → Hw → Hw × Res π' ρ'} {wrap : π → π'}
    {k : Hw → ρ → Res π' ρ'} {k0 : ρ → Res π' ρ'} (hg : ∀ p s, g (wrap p) s = chainStep (f p s) wrap k) {x : Res π ρ}
    {s s'' : Hw} (hx : ∀ r, x = .ret r → k0 r = k s r) {r' : ρ'} (h : ResEnds g (x.chain wrap k0) s r' s'') :
    ∃ r s', ResEnds f x s r s' ∧ ResEnds g (k s' r) s' r' s'' := by
  cases x with
  | goto p => exact Ends.unchain hg h p rfl
  | ret r =>
    refine ⟨r, s, ⟨rfl, rfl⟩, ?_⟩
    rw [← hx r rfl]
    exact h
  | fault e => exact h.elim

/-- A run of the machine that comes to an idle state from inside a command has come to the end of that command's
procedure, and then to its ending. -/
theorem run_unchain {f : π → Hw → Hw × Res π ρ} {wrap : π → Seq} {k : ρ → Seq} (hidle : ∀ p, wrap p ≠ .idle)
    (hb : ∀ (p : π) (s : State), s.seq = wrap p → blockStep s = s.advance (f p s.hw) wrap k) (n : Nat) (s : State)
    (ht : s.host.turns = []) (h : Hw) (p : π) {u : State} (hu : u.seq = .idle)
    (hr : Host.Core.run Sys2Proof.core n { s with hw := h, seq := wrap p } = .next u) :
    ∃ r h', Ends f p h r h' ∧ Reaches { s with hw := h', seq := k r } u := by
  induction n generalizing h p with
  | zero =>
    obtain rfl := Host.Outcome.next.inj hr
    exact (hidle p hu).elim
  | succ n ih =>
    have hstep : step { s with hw := h, seq := wrap p } = State.advance { s with hw := h, seq := wrap p } (f p h) wrap k := by
      rw [step_eq_blockStep (by exact ht) (by exact hidle _), hb _ _ rfl]
    rcases hf : f p h with ⟨h1, q | r | e⟩
    · rw [hf] at hstep
      rw [run_succ (M := Sys2Proof.core) (t := { s with hw := h1, seq := wrap q }) hstep] at hr
      obtain ⟨r, h', he, hk⟩ := ih h1 q hr
      exact ⟨r, h', .more hf he, hk⟩
    · rw [hf] at hstep
      rw [run_succ (M := Sys2Proof.core) (t := { s with hw := h1, seq := k r }) hstep] at hr
      exact ⟨r, h1, .last hf, n, hr⟩
    · rw [hf] at hstep
      rw [show Host.Core.run Sys2Proof.core (n + 1) { s with hw := h, seq := wrap p } = .fault e by
        simp only [Host.Core.run]
        rw [show Sys2Proof.core.step { s with hw := h, seq := wrap p } = .fault e from hstep]] at hr
      cases hr

end Sys2Proof.Machine
end

