-- ==== Sys2Proof/Laws/Equations.lean ====
section
/-! SUPPORT. How each caller embeds the procedures it calls: one equation per embedded procedure, true by rfl, which the
lemmas about runs cite to find the caller's next part. -/

namespace Sys2Proof.Machine

theorem stepRaise_drive (p : DrivePt) (s : Hw) :
    stepRaise (.drive p) s = chainStep (stepDrive p s) .drive (fun _ r => .ret r) := rfl

theorem stepLower_drive (p : DrivePt) (s : Hw) :
    stepLower (.drive p) s = chainStep (stepDrive p s) .drive (fun _ r => .ret r) := rfl

theorem stepXfer_setup {a : XferArgs} {i : Nat} (p : DrivePt) (s : Hw) :
    stepXfer a (.setup i p) s = chainStep (stepDrive p s) (.setup i) (fun _ _ => .goto (.rise i .change)) := rfl

theorem stepXfer_rise {a : XferArgs} {i : Nat} (p : ClockPt) (s : Hw) :
    stepXfer a (.rise i p) s = chainStep (stepRaise p s) (.rise i) (fun _ _ => .goto (.sample i)) := rfl

theorem stepXfer_fall {a : XferArgs} {i : Nat} (p : ClockPt) (s : Hw) :
    stepXfer a (.fall i p) s = chainStep (stepLower p s) (.fall i) (fun _ _ => a.startBit (i + 1)) := rfl

theorem stepStandby_driveHigh (p : DrivePt) (s : Hw) :
    stepStandby (.driveHigh p) s = chainStep (stepDrive p s) .driveHigh (fun _ _ => .goto .clearCen) := rfl

theorem stepStandby_driveLow (p : DrivePt) (s : Hw) :
    stepStandby (.driveLow p) s = chainStep (stepDrive p s) .driveLow (fun _ r => .ret r) := rfl

theorem stepEnableWrite_standby {c : Bool} (p : StandbyPt) (s : Hw) :
    stepEnableWrite c (.standby p) s = chainStep (stepStandby p s) .standby (fun _ _ => .goto .opcode) := rfl

theorem stepEnableWrite_xfer {c : Bool} (p : XferPt) (s : Hw) :
    stepEnableWrite c (.xfer p) s = chainStep (stepXfer (opcodeArgs 8 c) p s) .xfer (fun _ r => .ret r) := rfl

theorem stepWriteStatus_enable {st : Byte} {c : Bool} (p : EnableWritePt) (s : Hw) :
    stepWriteStatus st c (.enable p) s = chainStep (stepEnableWrite c p s) .enable writeStatusFrame := rfl

theorem stepWriteStatus_standby {st : Byte} {c : Bool} (p : StandbyPt) (s : Hw) :
    stepWriteStatus st c (.standby p) s = chainStep (stepStandby p s) .standby (fun _ _ => .goto .opcode) := rfl

theorem stepWriteStatus_xfer {st : Byte} {c : Bool} (p : XferPt) (s : Hw) :
    stepWriteStatus st c (.xfer p) s = chainStep (stepXfer (opcodeArgs 16 c) p s) .xfer (fun _ r => .ret r) := rfl

theorem stepReadStatus_standby {c : Bool} (p : StandbyPt) (s : Hw) :
    stepReadStatus c (.standby p) s = chainStep (stepStandby p s) .standby (fun _ _ => .goto .opcode) := rfl

theorem stepReadStatus_xfer {c : Bool} (p : XferPt) (s : Hw) :
    stepReadStatus c (.xfer p) s = chainStep (stepXfer (statusArgs c) p s) .xfer (fun s' r => .ret (statusResult s' r)) := rfl

theorem stepPage_standby {op : Byte} {off : Half} {pay : XferArgs} {c : Bool} (p : StandbyPt) (s : Hw) :
    stepPage op off pay c (.standby p) s = chainStep (stepStandby p s) .standby (fun _ _ => .goto .opcode) := rfl

theorem stepPage_header {op : Byte} {off : Half} {pay : XferArgs} {c : Bool} (p : XferPt) (s : Hw) :
    stepPage op off pay c (.header p) s = chainStep (stepXfer (opcodeArgs 32 c) p s) .header (fun _ r => afterHeader r) := rfl

theorem stepPage_payload {op : Byte} {off : Half} {pay : XferArgs} {c : Bool} (p : XferPt) (s : Hw) :
    stepPage op off pay c (.payload p) s = chainStep (stepXfer pay p s) .payload (fun _ r => .ret r) := rfl

theorem stepDump_poll {c : Bool} {v : Span} (p : ReadStatusPt) (s : Hw) :
    stepDump c (.poll v p) s = chainStep (stepPollReady c p s) (.poll v) (dumpPolled v) := rfl

theorem stepDump_page {c : Bool} {v : Span} (p : PagePt) (s : Hw) :
    stepDump c (.page v p) s = chainStep (stepReadPage (dumpPage s.latch.ps.toNat v) c p s) (.page v) (dumpRead v) := rfl

theorem stepProgram_clearBp {c : Bool} {v : Span} (p : WriteStatusPt) (s : Hw) :
    stepProgram c (.clearBp v p) s = chainStep (stepClearBp c p s) (.clearBp v) (programCleared v) := rfl

theorem stepProgram_release {c : Bool} (p : ReleasePt) (s : Hw) :
    stepProgram c (.release p) s = chainStep (stepRelease p s) .release (fun _ _ => .ret .protectedRegion) := rfl

theorem stepProgram_poll {c : Bool} {v : Span} (p : ReadStatusPt) (s : Hw) :
    stepProgram c (.poll v p) s = chainStep (stepPollReady c p s) (.poll v) (programPolled v) := rfl

theorem stepProgram_enable {c : Bool} {v : Span} (p : EnableWritePt) (s : Hw) :
    stepProgram c (.enable v p) s = chainStep (stepEnableWrite c p s) (.enable v) (programEnabled v) := rfl

theorem stepProgram_write {c : Bool} {v : Span} (p : PagePt) (s : Hw) :
    stepProgram c (.write v p) s = chainStep (stepWritePage (programByte v) c p s) (.write v) (programWritten v) := rfl

theorem stepProgram_finalPoll {c : Bool} (p : ReadStatusPt) (s : Hw) :
    stepProgram c (.finalPoll p) s = chainStep (stepPollReady c p s) .finalPoll (fun _ r => .ret (programEnd r)) := rfl

theorem stepErase_acquire {c : Bool} (p : AcquirePt) (s : Hw) :
    stepErase c (.acquire p) s = chainStep (stepAcquire p s) .acquire eraseAcquired := rfl

theorem stepErase_standby {c : Bool} (p : StandbyPt) (s : Hw) :
    stepErase c (.standby p) s = chainStep (stepStandby p s) .standby (fun s' _ => eraseClear s') := rfl

theorem stepErase_clearBp {c : Bool} (p : WriteStatusPt) (s : Hw) :
    stepErase c (.clearBp p) s = chainStep (stepClearBp c p s) .clearBp eraseCleared := rfl

theorem stepErase_enable {c : Bool} (p : EnableWritePt) (s : Hw) :
    stepErase c (.enable p) s = chainStep (stepEnableWrite c p s) .enable eraseEnabled := rfl

theorem stepErase_standby2 {c : Bool} (p : StandbyPt) (s : Hw) :
    stepErase c (.standby2 p) s = chainStep (stepStandby p s) .standby2 (fun _ _ => .goto .opcode) := rfl

theorem stepErase_xfer {c : Bool} (p : XferPt) (s : Hw) :
    stepErase c (.xfer p) s = chainStep (stepXfer (opcodeArgs 8 c) p s) .xfer eraseSent := rfl

theorem stepErase_release {c : Bool} {r : SubOutcome} (p : ReleasePt) (s : Hw) :
    stepErase c (.release r p) s = chainStep (stepRelease p s) (.release r) (fun _ _ => .ret r) := rfl

theorem stepUnlock_acquire {c : Bool} (p : AcquirePt) (s : Hw) :
    stepUnlock c (.acquire p) s = chainStep (stepAcquire p s) .acquire unlockAcquired := rfl

theorem stepUnlock_standby {c : Bool} (p : StandbyPt) (s : Hw) :
    stepUnlock c (.standby p) s = chainStep (stepStandby p s) .standby (fun s' _ => unlockClear s') := rfl

theorem stepUnlock_clearBp {c : Bool} (p : WriteStatusPt) (s : Hw) :
    stepUnlock c (.clearBp p) s = chainStep (stepClearBp c p s) .clearBp unlockCleared := rfl

theorem stepUnlock_release {c : Bool} {r : SubOutcome} (p : ReleasePt) (s : Hw) :
    stepUnlock c (.release r p) s = chainStep (stepRelease p s) (.release r) (fun _ _ => .ret r) := rfl

theorem stepChecksum_acquire {c rp : Bool} (p : AcquirePt) (s : Hw) :
    stepChecksum c rp (.acquire p) s = chainStep (stepAcquire p s) .acquire checksumAcquired := rfl

theorem stepChecksum_dump {c rp : Bool} (p : DumpPt) (s : Hw) :
    stepChecksum c rp (.dump p) s = chainStep (stepDump c p s) .dump checksumDumped := rfl

theorem stepChecksum_program {c rp : Bool} (p : ProgramPt) (s : Hw) :
    stepChecksum c rp (.program p) s = chainStep (stepProgram c p s) .program checksumRepaired := rfl

theorem stepChecksum_release {c rp : Bool} {r : RCode} (p : ReleasePt) (s : Hw) :
    stepChecksum c rp (.release r p) s = chainStep (stepRelease p s) (.release r) (fun _ _ => .ret r) := rfl


end Sys2Proof.Machine
end

