-- ==== Sys2Proof/Laws/Frames.lean ====
section
/-! SUPPORT. What a step of any procedure leaves unchanged: the parameters, the host-written registers, CMD, BUSY, RCODE,
OVERRUN, the latch, and the size of SCR (`Hw.SameRegs`); and RDATA, but for CHECKSUM's own step. -/

namespace Sys2Proof.Machine

/-- Two hardware states agree on everything a procedure's step never changes. -/
structure Hw.SameRegs (s t : Hw) : Prop where
  params : t.params = s.params
  cmd : t.cmd = s.cmd
  busy : t.status.busy = s.status.busy
  rcode : t.status.rcode = s.status.rcode
  overrun : t.status.overrun = s.status.overrun
  offset : t.offset = s.offset
  length : t.length = s.length
  src : t.src = s.src
  dst : t.dst = s.dst
  data : t.data = s.data
  devcfg : t.devcfg = s.devcfg
  devsize : t.devsize = s.devsize
  latch : t.latch = s.latch
  scrLength : t.scr.length = s.scr.length

namespace Hw.SameRegs

theorem refl (s : Hw) : s.SameRegs s := ⟨rfl, rfl, rfl, rfl, rfl, rfl, rfl, rfl, rfl, rfl, rfl, rfl, rfl, rfl⟩

theorem trans {s t u : Hw} (h : s.SameRegs t) (k : t.SameRegs u) : s.SameRegs u :=
  ⟨k.params.trans h.params, k.cmd.trans h.cmd, k.busy.trans h.busy, k.rcode.trans h.rcode, k.overrun.trans h.overrun,
    k.offset.trans h.offset, k.length.trans h.length, k.src.trans h.src, k.dst.trans h.dst, k.data.trans h.data,
    k.devcfg.trans h.devcfg, k.devsize.trans h.devsize, k.latch.trans h.latch, k.scrLength.trans h.scrLength⟩

/-- An update of the fields a procedure may change, SCR apart. -/
theorem of_update (s : Hw) (ls ctrl : Word) (rdata : Word) (opb : Opb) (mem : Memory) (reads : List Word) (cancels : List Bool)
    (draws : Nat) (trace : List Event) (seen : Bool) :
    s.SameRegs
      { s with
        ls := ls
        ctrl := ctrl
        rdata := rdata
        opb := opb
        mem := mem
        reads := reads
        cancels := cancels
        draws := draws
        trace := trace
        status := { s.status with cancelSeen := seen } } :=
  ⟨rfl, rfl, rfl, rfl, rfl, rfl, rfl, rfl, rfl, rfl, rfl, rfl, rfl, rfl⟩

theorem regRead (s : Hw) : s.SameRegs s.regRead := of_update s ..
theorem regWrite (s : Hw) : s.SameRegs s.regWrite := of_update s ..
theorem flush (s : Hw) : s.SameRegs s.flush := of_update s ..
theorem delay (s : Hw) (us : Nat) : s.SameRegs (s.delay us) := of_update s ..
theorem delayUnit (s : Hw) : s.SameRegs s.delayUnit := of_update s ..
theorem cancelPending (s : Hw) : s.SameRegs s.cancelPending := of_update s ..
theorem markCancelled (s : Hw) : s.SameRegs s.markCancelled := of_update s ..
theorem setLs (s : Hw) (m : Word) : s.SameRegs (s.setLs m) := of_update s ..
theorem clearLs (s : Hw) (m : Word) : s.SameRegs (s.clearLs m) := of_update s ..
theorem setOpb0 (s : Hw) (v : Byte) : s.SameRegs (s.setOpb0 v) := of_update s ..
theorem setOpb1 (s : Hw) (v : Byte) : s.SameRegs (s.setOpb1 v) := of_update s ..
theorem setOpb2 (s : Hw) (v : Byte) : s.SameRegs (s.setOpb2 v) := of_update s ..
theorem setOpb3 (s : Hw) (v : Byte) : s.SameRegs (s.setOpb3 v) := of_update s ..
theorem setRdata (s : Hw) (v : Word) : s.SameRegs (s.setRdata v) := of_update s ..

end Hw.SameRegs

/-- All that a MemWrite can do (00_scope.md R6): one byte of the named space. -/
theorem memWrite_cases {s s' : Hw} {r : Ref} {v : Byte} (h : s.memWrite r v = some s') :
    (r.space = .buf ∧ s' = { s with mem := s.mem.write r.addr.toNat v }) ∨
      (r.space = .scr ∧ r.addr.toNat < s.scr.length ∧ s' = { s with scr := s.scr.set r.addr.toNat v }) ∨
        (r.space = .opb ∧ ∃ o, s.opb.set v r.addr.toNat = some o ∧ s' = { s with opb := o }) := by
  obtain ⟨space, addr⟩ := r
  cases space with
  | buf => exact .inl ⟨rfl, (Option.some.inj h).symm⟩
  | scr =>
    simp only [Hw.memWrite] at h
    split at h
    · exact .inr (.inl ⟨rfl, ‹_›, (Option.some.inj h).symm⟩)
    · cases h
  | opb =>
    simp only [Hw.memWrite] at h
    split at h
    · exact .inr (.inr ⟨rfl, _, ‹_›, (Option.some.inj h).symm⟩)
    · cases h

theorem Hw.SameRegs.memWrite {s s' : Hw} {r : Ref} {v : Byte} (h : s.memWrite r v = some s') : s.SameRegs s' := by
  obtain ⟨-, rfl⟩ | ⟨-, -, rfl⟩ | ⟨-, o, -, rfl⟩ := memWrite_cases h
  · exact .of_update s ..
  · exact { Hw.SameRegs.refl s with scrLength := by simp }
  · exact .of_update s ..

theorem memWrite_rdata {s s' : Hw} {r : Ref} {v : Byte} (h : s.memWrite r v = some s') : s'.rdata = s.rdata := by
  obtain ⟨-, rfl⟩ | ⟨-, -, rfl⟩ | ⟨-, o, -, rfl⟩ := memWrite_cases h <;> rfl

/-! ### One lemma per step function -/

@[simp] theorem chainStep_fst {π ρ π' ρ' : Type} (x : Hw × Res π ρ) (wrap : π → π') (k : Hw → ρ → Res π' ρ') :
    (chainStep x wrap k).1 = x.1 := rfl

theorem stepDrive_same (p : DrivePt) (s : Hw) : s.SameRegs (stepDrive p s).1 ∧ (stepDrive p s).1.rdata = s.rdata := by
  cases p <;> exact ⟨.of_update s .., rfl⟩

theorem stepRaise_same (p : ClockPt) (s : Hw) : s.SameRegs (stepRaise p s).1 ∧ (stepRaise p s).1.rdata = s.rdata := by
  cases p with
  | change => exact ⟨.setLs .., rfl⟩
  | drive p => exact stepDrive_same p s

theorem stepLower_same (p : ClockPt) (s : Hw) : s.SameRegs (stepLower p s).1 ∧ (stepLower p s).1.rdata = s.rdata := by
  cases p with
  | change => exact ⟨.clearLs .., rfl⟩
  | drive p => exact stepDrive_same p s

theorem stepXfer_same (a : XferArgs) (p : XferPt) (s : Hw) :
    s.SameRegs (stepXfer a p s).1 ∧ (stepXfer a p s).1.rdata = s.rdata := by
  cases p with
  | seed => exact ⟨.regRead s, rfl⟩
  | check i => exact ⟨.cancelPending s, rfl⟩
  | markCancelled => exact ⟨.markCancelled s, rfl⟩
  | fetch i r => simp only [stepXfer]; split <;> exact ⟨.refl s, rfl⟩
  | present i b => simp only [stepXfer]; split <;> [exact ⟨.setLs .., rfl⟩; exact ⟨.clearLs .., rfl⟩]
  | setup i p => exact stepDrive_same p s
  | rise i p => exact stepRaise_same p s
  | sample i => exact ⟨.regRead s, rfl⟩
  | load i r => simp only [stepXfer]; split <;> exact ⟨.refl s, rfl⟩
  | store i r v =>
    simp only [stepXfer]
    split
    · exact ⟨.memWrite ‹_›, memWrite_rdata ‹_›⟩
    · exact ⟨.refl s, rfl⟩
  | fall i p => exact stepLower_same p s
  | loadTail r => simp only [stepXfer]; split <;> exact ⟨.refl s, rfl⟩
  | storeTail r v =>
    simp only [stepXfer]
    split
    · exact ⟨.memWrite ‹_›, memWrite_rdata ‹_›⟩
    · exact ⟨.refl s, rfl⟩

theorem stepAcquire_same (p : AcquirePt) (s : Hw) :
    s.SameRegs (stepAcquire p s).1 ∧ (stepAcquire p s).1.rdata = s.rdata := by
  cases p <;> exact ⟨.of_update s .., rfl⟩

theorem stepRelease_same (p : ReleasePt) (s : Hw) :
    s.SameRegs (stepRelease p s).1 ∧ (stepRelease p s).1.rdata = s.rdata := by
  cases p <;> exact ⟨.of_update s .., rfl⟩

theorem stepStandby_same (p : StandbyPt) (s : Hw) :
    s.SameRegs (stepStandby p s).1 ∧ (stepStandby p s).1.rdata = s.rdata := by
  cases p with
  | seed => exact ⟨.regRead s, rfl⟩
  | setCen => exact ⟨.setLs .., rfl⟩
  | driveHigh p => exact stepDrive_same p s
  | clearCen => exact ⟨.clearLs .., rfl⟩
  | driveLow p => exact stepDrive_same p s

theorem stepEnableWrite_same (c : Bool) (p : EnableWritePt) (s : Hw) :
    s.SameRegs (stepEnableWrite c p s).1 ∧ (stepEnableWrite c p s).1.rdata = s.rdata := by
  cases p with
  | standby p => exact stepStandby_same p s
  | opcode => exact ⟨.setOpb0 .., rfl⟩
  | xfer p => exact stepXfer_same _ p s

theorem stepWriteStatus_same (st : Byte) (c : Bool) (p : WriteStatusPt) (s : Hw) :
    s.SameRegs (stepWriteStatus st c p s).1 ∧ (stepWriteStatus st c p s).1.rdata = s.rdata := by
  cases p with
  | enable p => exact stepEnableWrite_same c p s
  | standby p => exact stepStandby_same p s
  | opcode => exact ⟨.setOpb0 .., rfl⟩
  | status => exact ⟨.setOpb1 .., rfl⟩
  | xfer p => exact stepXfer_same _ p s

theorem stepReadStatus_same (c : Bool) (p : ReadStatusPt) (s : Hw) :
    s.SameRegs (stepReadStatus c p s).1 ∧ (stepReadStatus c p s).1.rdata = s.rdata := by
  cases p with
  | standby p => exact stepStandby_same p s
  | opcode => exact ⟨.setOpb0 .., rfl⟩
  | zero => exact ⟨.setOpb1 .., rfl⟩
  | xfer p => exact stepXfer_same _ p s

theorem stepPage_same (op : Byte) (off : Half) (pay : XferArgs) (c : Bool) (p : PagePt) (s : Hw) :
    s.SameRegs (stepPage op off pay c p s).1 ∧ (stepPage op off pay c p s).1.rdata = s.rdata := by
  cases p with
  | standby p => exact stepStandby_same p s
  | opcode => exact ⟨.setOpb0 .., rfl⟩
  | addrHigh => exact ⟨.setOpb1 .., rfl⟩
  | addrMid => exact ⟨.setOpb2 .., rfl⟩
  | addrLow => exact ⟨.setOpb3 .., rfl⟩
  | header p => exact stepXfer_same _ p s
  | payload p => exact stepXfer_same _ p s

theorem stepPollReady_same (c : Bool) (p : ReadStatusPt) (s : Hw) :
    s.SameRegs (stepPollReady c p s).1 ∧ (stepPollReady c p s).1.rdata = s.rdata := stepReadStatus_same c p s

theorem stepDump_same (c : Bool) (p : DumpPt) (s : Hw) :
    s.SameRegs (stepDump c p s).1 ∧ (stepDump c p s).1.rdata = s.rdata := by
  cases p with
  | poll v p => exact stepPollReady_same c p s
  | page v p => exact stepPage_same _ _ _ c p s

theorem stepProgram_same (c : Bool) (p : ProgramPt) (s : Hw) :
    s.SameRegs (stepProgram c p s).1 ∧ (stepProgram c p s).1.rdata = s.rdata := by
  cases p with
  | clearBp v p => exact stepWriteStatus_same _ c p s
  | release p => exact stepRelease_same p s
  | poll v p => exact stepPollReady_same c p s
  | enable v p => exact stepEnableWrite_same c p s
  | write v p => exact stepPage_same _ _ _ c p s
  | finalPoll p => exact stepPollReady_same c p s

theorem stepErase_same (c : Bool) (p : ErasePt) (s : Hw) :
    s.SameRegs (stepErase c p s).1 ∧ (stepErase c p s).1.rdata = s.rdata := by
  cases p with
  | acquire p => exact stepAcquire_same p s
  | standby p => exact stepStandby_same p s
  | clearBp p => exact stepWriteStatus_same _ c p s
  | enable p => exact stepEnableWrite_same c p s
  | standby2 p => exact stepStandby_same p s
  | opcode => exact ⟨.setOpb0 .., rfl⟩
  | xfer p => exact stepXfer_same _ p s
  | release r p => exact stepRelease_same p s

theorem stepUnlock_same (c : Bool) (p : UnlockPt) (s : Hw) :
    s.SameRegs (stepUnlock c p s).1 ∧ (stepUnlock c p s).1.rdata = s.rdata := by
  cases p with
  | acquire p => exact stepAcquire_same p s
  | standby p => exact stepStandby_same p s
  | clearBp p => exact stepWriteStatus_same _ c p s
  | release r p => exact stepRelease_same p s

theorem storeScr_same (s : Hw) (a : Nat) (v : Byte) (next : Hw → Res ChecksumPt RCode) :
    s.SameRegs (storeScr s a v next).1 ∧ (storeScr s a v next).1.rdata = s.rdata := by
  simp only [storeScr]
  split
  · exact ⟨.memWrite ‹_›, memWrite_rdata ‹_›⟩
  · exact ⟨.refl s, rfl⟩

theorem loadScr_hw (s : Hw) (a : Nat) (next : Byte → ChecksumPt) : (loadScr s a next).1 = s := by
  simp only [loadScr]
  split <;> rfl

/-- CHECKSUM's own step writes RDATA, so RDATA is left out here. -/
theorem stepChecksum_same (c rp : Bool) (p : ChecksumPt) (s : Hw) : s.SameRegs (stepChecksum c rp p s).1 := by
  cases p with
  | acquire p => exact (stepAcquire_same p s).1
  | dump p => exact (stepDump_same c p s).1
  | evalFirst j t => simp only [stepChecksum, loadScr_hw]; exact .refl s
  | evalSecond j t v => simp only [stepChecksum, loadScr_hw]; exact .refl s
  | result x y => exact .setRdata ..
  | scrLow x => exact (storeScr_same ..).1
  | scrHigh x => exact (storeScr_same ..).1
  | program p => exact (stepProgram_same c p s).1
  | release r p => exact (stepRelease_same p s).1

/-! ### Whole runs -/

/-- A property that every step keeps holds at the end of a run. -/
theorem Ends.keeps {π ρ : Type} {f : π → Hw → Hw × Res π ρ} {I : Hw → Prop} (hI : ∀ p s, I s → I (f p s).1) {p : π}
    {s s' : Hw} {r : ρ} (h : Ends f p s r s') (h0 : I s) : I s' := by
  induction h with
  | @last p s s' r h =>
    have hs := hI p s h0
    rwa [h] at hs
  | @more p q s s1 s' r h _ ih =>
    have hs := hI p s h0
    rw [h] at hs
    exact ih hs

/-- A run keeps what each of its steps keeps. -/
theorem Ends.same {π ρ : Type} {f : π → Hw → Hw × Res π ρ} (hf : ∀ (p : π) (s : Hw), s.SameRegs (f p s).1) {p : π}
    {s s' : Hw} {r : ρ} (h : Ends f p s r s') : s.SameRegs s' :=
  h.keeps (I := s.SameRegs) (fun p t ht => ht.trans (hf p t)) (.refl s)

/-- The same from a procedure's entry. -/
theorem ResEnds.same {π ρ : Type} {f : π → Hw → Hw × Res π ρ} (hf : ∀ (p : π) (s : Hw), s.SameRegs (f p s).1)
    {x : Res π ρ} {s s' : Hw} {r : ρ} (h : ResEnds f x s r s') : s.SameRegs s' := by
  cases x with
  | goto p => exact Ends.same hf h
  | ret r0 => exact h.2 ▸ .refl s
  | fault e => exact h.elim

/-- Two step functions that agree where I holds, which every step keeps, have the same runs. -/
theorem Ends.congr {π ρ : Type} {f g : π → Hw → Hw × Res π ρ} {I : Hw → Prop} (hI : ∀ p s, I s → I (f p s).1)
    (hfg : ∀ p s, I s → g p s = f p s) {p : π} {s s' : Hw} {r : ρ} (h : Ends f p s r s') (h0 : I s) : Ends g p s r s' := by
  induction h with
  | @last p s s' r h => exact .last ((hfg p s h0).trans h)
  | @more p q s s1 s' r h _ ih =>
    have hs := hI p s h0
    rw [h] at hs
    exact .more ((hfg p s h0).trans h) (ih hs)

/-- The same from a procedure's entry. -/
theorem ResEnds.congr {π ρ : Type} {f g : π → Hw → Hw × Res π ρ} {I : Hw → Prop} (hI : ∀ p s, I s → I (f p s).1)
    (hfg : ∀ p s, I s → g p s = f p s) {x : Res π ρ} {s s' : Hw} {r : ρ} (h : ResEnds f x s r s') (h0 : I s) :
    ResEnds g x s r s' := by
  cases x with
  | goto p => exact Ends.congr hI hfg h h0
  | ret r0 => exact h
  | fault e => exact h.elim

end Sys2Proof.Machine
end

