-- ==== Sys2Proof/Laws/Refinement.lean ====
section
/-! SUPPORT. Each procedure of the sequencer comes to the end that its pseudocode, run straight through, comes to. One lemma
per procedure, over the lemmas of the procedures it calls. -/

namespace Sys2Proof.Machine

/-! ### BitClock and Xfer -/

theorem stepDrive_ends (s : Hw) : Ends stepDrive .write s .ok (runDrive s) :=
  .more rfl (.more rfl (.last rfl))

theorem stepRaise_ends (s : Hw) : Ends stepRaise .change s .ok (runRaise s) :=
  .more rfl (Ends.chain stepRaise_drive (stepDrive_ends _) ⟨rfl, rfl⟩)

theorem stepLower_ends (s : Hw) : Ends stepLower .change s .ok (runLower s) :=
  .more rfl (Ends.chain stepLower_drive (stepDrive_ends _) ⟨rfl, rfl⟩)

theorem memWrite_isSome_of_memRead {s : Hw} {r : Ref} {v w : Byte} (h : s.memRead r = some v) :
    ∃ s', s.memWrite r w = some s' := by
  obtain ⟨space, addr⟩ := r
  cases space with
  | buf => exact ⟨_, rfl⟩
  | scr =>
    have hlt : addr.toNat < s.scr.length := by
      simp only [Hw.memRead] at h
      exact (List.getElem?_eq_some_iff.1 h).1
    exact ⟨_, if_pos hlt⟩
  | opb =>
    simp only [Hw.memRead] at h
    simp only [Hw.memWrite]
    generalize addr.toNat = k at h ⊢
    match k, h with
    | 0, _ => exact ⟨_, rfl⟩
    | 1, _ => exact ⟨_, rfl⟩
    | 2, _ => exact ⟨_, rfl⟩
    | 3, _ => exact ⟨_, rfl⟩

/-- From the falling edge of bit i on. -/
theorem stepXfer_fall_ends {a : XferArgs} {i : Nat} {s s' : Hw} {r : SubOutcome}
    (h : ResEnds (stepXfer a) (a.startBit (i + 1)) (runLower s) r s') : Ends (stepXfer a) (.fall i .change) s r s' :=
  Ends.chain stepXfer_fall (stepLower_ends s) h

/-- From the sample of bit i on. -/
theorem stepXfer_sample_ends {a : XferArgs} {i : Nat} {s s1 s' : Hw} {r : SubOutcome}
    (hc : captureBit a i s.regRead = some s1)
    (h : ResEnds (stepXfer a) (a.startBit (i + 1)) (runLower s1) r s') : Ends (stepXfer a) (.sample i) s r s' := by
  refine .more (s1 := s.regRead) (q := a.capture i) rfl ?_
  cases hd : a.dst with
  | none =>
    simp only [captureBit, hd, Option.some.injEq] at hc
    subst hc
    simp only [XferArgs.capture, hd]
    exact stepXfer_fall_ends h
  | some ref =>
    simp only [captureBit, hd, Option.bind_eq_some_iff] at hc
    obtain ⟨v, hv, hw⟩ := hc
    simp only [XferArgs.capture, hd]
    refine .more (s1 := s.regRead) (q := .store i (bitByte ref i) v) (by simp only [stepXfer, hv]) ?_
    exact .more (s1 := s1) (q := .fall i .change) (by simp only [stepXfer, hw]) (stepXfer_fall_ends h)

/-- From the data setup of bit i on. -/
theorem stepXfer_present_ends {a : XferArgs} {i : Nat} {b : Bool} {s s1 s' : Hw} {r : SubOutcome}
    (hc : captureBit a i (runRaise (runDrive (putSi b s))).regRead = some s1)
    (h : ResEnds (stepXfer a) (a.startBit (i + 1)) (runLower s1) r s') : Ends (stepXfer a) (.present i b) s r s' := by
  refine .more (s1 := putSi b s) (q := .setup i .write) rfl ?_
  refine Ends.chain stepXfer_setup (stepDrive_ends _) ?_
  refine Ends.chain stepXfer_rise (stepRaise_ends _) ?_
  exact stepXfer_sample_ends hc h

/-- Steps 2 to 5 of bit i. -/
theorem stepXfer_bit_ends {a : XferArgs} {i : Nat} {s s1 s' : Hw} {r : SubOutcome} (hb : runBit a i s = some s1)
    (h : ResEnds (stepXfer a) (a.startBit (i + 1)) s1 r s') : Ends (stepXfer a) (a.bitSource i) s r s' := by
  simp only [runBit, Option.bind_eq_some_iff, Option.map_eq_some_iff] at hb
  obtain ⟨b, hs, s2, hc, rfl⟩ := hb
  cases hsrc : a.src with
  | none =>
    simp only [sourceBit, hsrc, Option.some.injEq] at hs
    subst hs
    simp only [XferArgs.bitSource, hsrc]
    exact stepXfer_present_ends hc h
  | some ref =>
    simp only [sourceBit, hsrc, Option.map_eq_some_iff] at hs
    obtain ⟨v, hv, rfl⟩ := hs
    simp only [XferArgs.bitSource, hsrc]
    exact .more (s1 := s) (q := .present i (getBit v i)) (by simp only [stepXfer, hv]) (stepXfer_present_ends hc h)

theorem stepXfer_tail_ends {a : XferArgs} {s s' : Hw} (h : runTail a s = some s') :
    ResEnds (stepXfer a) a.tail s .ok s' := by
  cases hd : a.dst with
  | none =>
    simp only [runTail, hd, Option.some.injEq] at h
    subst h
    simp only [XferArgs.tail, hd]
    exact ⟨rfl, rfl⟩
  | some ref =>
    simp only [runTail, hd] at h
    simp only [XferArgs.tail, hd]
    split at h
    · rename_i hn
      rw [if_pos hn]
      simp only [Option.bind_eq_some_iff] at h
      obtain ⟨v, hv, hw⟩ := h
      refine .more (s1 := s) (q := .storeTail (ref.add (a.n / 8)) v) (by simp only [stepXfer, hv]) ?_
      exact .last (by simp only [stepXfer, hw])
    · rename_i hn
      rw [if_neg hn]
      cases h
      exact ⟨rfl, rfl⟩

/-- The bit loop, from bit n - left on. -/
theorem stepXfer_loop_ends {a : XferArgs} {s' : Hw} {r : SubOutcome} (left : Nat) (hl : left ≤ a.n) (s : Hw)
    (h : runBits a left s = some (s', r)) : ResEnds (stepXfer a) (a.startBit (a.n - left)) s r s' := by
  induction left generalizing s with
  | zero =>
    simp only [runBits, Option.map_eq_some_iff, Prod.mk.injEq] at h
    obtain ⟨s1, h1, rfl, rfl⟩ := h
    simp only [XferArgs.startBit, Nat.sub_zero, Nat.lt_irrefl, if_false]
    exact stepXfer_tail_ends h1
  | succ left ih =>
    have hi : a.n - (left + 1) < a.n := by omega
    have hnext : a.n - (left + 1) + 1 = a.n - left := by omega
    simp only [XferArgs.startBit, hi, if_true]
    simp only [runBits] at h
    have body : ∀ s0, (runBit a (a.n - (left + 1)) s0).bind (runBits a left) = some (s', r) →
        Ends (stepXfer a) (a.bitSource (a.n - (left + 1))) s0 r s' := by
      intro s0 hb
      simp only [Option.bind_eq_some_iff] at hb
      obtain ⟨s1, h1, h2⟩ := hb
      exact stepXfer_bit_ends h1 (hnext ▸ ih (by omega) s1 h2)
    cases hc : a.c with
    | false =>
      simp only [hc, Bool.false_eq_true, if_false] at h ⊢
      exact body s h
    | true =>
      simp only [hc, if_true] at h ⊢
      cases hp : s.cancelAnswer with
      | false =>
        simp only [hp, Bool.false_eq_true, if_false] at h
        refine .more (s1 := s.cancelPending) (q := a.bitSource (a.n - (left + 1))) ?_ (body _ h)
        simp only [stepXfer, hp, Bool.false_eq_true, if_false]
      | true =>
        simp only [hp, if_true, Option.some.injEq, Prod.mk.injEq] at h
        obtain ⟨rfl, rfl⟩ := h
        refine .more (s1 := s.cancelPending) (q := .markCancelled) ?_ (.last rfl)
        simp only [stepXfer, hp, if_true]

/-- Xfer (40_bitclock_transfer.md R65). -/
theorem stepXfer_ends {a : XferArgs} {s s' : Hw} {r : SubOutcome} (h : runXfer a s = some (s', r)) :
    Ends (stepXfer a) .seed s r s' :=
  .step rfl (by simpa using stepXfer_loop_ends a.n (Nat.le_refl _) s.regRead h)

/-! ### The arbiter -/

theorem stepAcquire_delay_ends {s : Hw} {s' : Hw} {r : SubOutcome} (left a : Nat)
    (hl : a + left = s.params.grantAttempts) (h : runGrant (runPoll left s) = (s', r)) :
    Ends stepAcquire (afterPoll s a) s r s' := by
  have granted : ∀ u : Hw, u.granted = true → runGrant u = (s', r) → Ends stepAcquire .baseline u r s' := by
    intro u hu hg
    simp only [runGrant, hu, if_true, Prod.mk.injEq] at hg
    obtain ⟨rfl, rfl⟩ := hg
    exact .more rfl (.more rfl (.last rfl))
  induction left generalizing s a with
  | zero =>
    cases hg : s.granted with
    | true =>
      simp only [afterPoll, hg, if_true]
      exact granted s hg h
    | false =>
      have hlt : ¬a < s.params.grantAttempts := by omega
      simp only [afterPoll, hg, Bool.false_eq_true, if_false, hlt]
      simp only [runPoll, runGrant, hg, Bool.false_eq_true, if_false, Prod.mk.injEq] at h
      obtain ⟨rfl, rfl⟩ := h
      exact .more rfl (.last rfl)
  | succ left ih =>
    cases hg : s.granted with
    | true =>
      simp only [afterPoll, hg, if_true]
      exact granted s hg (by simpa only [runPoll, hg, if_true] using h)
    | false =>
      have hlt : a < s.params.grantAttempts := by omega
      simp only [afterPoll, hg, Bool.false_eq_true, if_false, hlt, if_true]
      refine .more (s1 := s.delay s.params.grantPollUs) (q := .poll (a + 1)) rfl ?_
      refine .more (s1 := (s.delay s.params.grantPollUs).regRead)
        (q := afterPoll (s.delay s.params.grantPollUs).regRead (a + 1)) rfl ?_
      refine ih (a + 1) ?_ ?_
      · show a + 1 + left = s.params.grantAttempts
        omega
      · simpa only [runPoll, hg, Bool.false_eq_true, if_false] using h

/-- Acquire (41_arbiter.md R67). -/
theorem stepAcquire_ends (s : Hw) : ResEnds stepAcquire (enterAcquire s) s (runAcquire s).2 (runAcquire s).1 := by
  cases hp : s.latch.present with
  | false =>
    simp only [enterAcquire, runAcquire, hp, Bool.false_eq_true, if_false]
    exact ⟨rfl, rfl⟩
  | true =>
    simp only [enterAcquire, runAcquire, hp, if_true]
    refine .more (q := .setReq) rfl (.more (q := .writeReq) rfl (.more (q := .poll 0) rfl (.more rfl ?_)))
    exact stepAcquire_delay_ends s.params.grantAttempts 0 (by simp) rfl

/-- Release (41_arbiter.md R68). -/
theorem stepRelease_ends (s : Hw) : ResEnds stepRelease (enterRelease s) s .ok (runRelease s) := by
  cases hp : s.latch.present with
  | false =>
    simp only [enterRelease, runRelease, hp, Bool.false_eq_true, if_false]
    exact ⟨rfl, rfl⟩
  | true =>
    simp only [enterRelease, runRelease, hp, if_true]
    exact .more rfl (.more rfl (.more rfl (.more rfl (.more rfl (.last rfl)))))

/-- Standby (41_arbiter.md R69). -/
theorem stepStandby_ends (s : Hw) : ResEnds stepStandby (enterStandby s) s .ok (runStandby s) := by
  cases hp : s.latch.present with
  | false =>
    simp only [enterStandby, runStandby, hp, Bool.false_eq_true, if_false]
    exact ⟨rfl, rfl⟩
  | true =>
    simp only [enterStandby, runStandby, hp, if_true]
    refine .more rfl (.more rfl ?_)
    refine Ends.chain stepStandby_driveHigh (stepDrive_ends _) (.more rfl ?_)
    exact Ends.chain stepStandby_driveLow (stepDrive_ends _) ⟨rfl, rfl⟩

end Sys2Proof.Machine
end

