-- ==== Sys2Proof/Laws/RefinementCommands.lean ====
section
/-! SUPPORT. The same for the procedures of 42_flash_commands.md and 43_flash_ops.md: each comes to the end that its
pseudocode, run straight through, comes to. -/

namespace Sys2Proof.Machine

/-! ### What a whole run leaves unchanged -/

theorem runStandby_same (s : Hw) : s.SameRegs (runStandby s) :=
  (stepStandby_ends s).same fun p t => (stepStandby_same p t).1

theorem runRelease_same (s : Hw) : s.SameRegs (runRelease s) :=
  (stepRelease_ends s).same fun p t => (stepRelease_same p t).1

theorem runAcquire_same (s : Hw) : s.SameRegs (runAcquire s).1 :=
  (stepAcquire_ends s).same fun p t => (stepAcquire_same p t).1

theorem runXfer_same {a : XferArgs} {s s' : Hw} {r : SubOutcome} (h : runXfer a s = some (s', r)) : s.SameRegs s' :=
  (stepXfer_ends h).same fun p t => (stepXfer_same a p t).1

/-! ### The FLASH commands -/

/-- EnableWrite (42_flash_commands.md R71). -/
theorem stepEnableWrite_ends {c : Bool} {s s' : Hw} {r : SubOutcome} (h : runEnableWrite c s = some (s', r)) :
    ResEnds (stepEnableWrite c) (enterEnableWrite s) s r s' := by
  refine ResEnds.chain stepEnableWrite_standby (stepStandby_ends s) (.more (q := .xfer .seed) rfl ?_)
  rw [(runStandby_same s).params]
  exact Ends.chain stepEnableWrite_xfer (stepXfer_ends h) ⟨rfl, rfl⟩

theorem runEnableWrite_same {c : Bool} {s s' : Hw} {r : SubOutcome} (h : runEnableWrite c s = some (s', r)) :
    s.SameRegs s' :=
  (stepEnableWrite_ends h).same fun p t => (stepEnableWrite_same c p t).1

/-- The WRSR frame (42_flash_commands.md R72). -/
theorem stepWriteStatus_frame_ends {st : Byte} {c : Bool} {s s' : Hw} {r : SubOutcome}
    (h : runStatusFrame st c s = some (s', r)) :
    ResEnds (stepWriteStatus st c) (writeStatusFrame s .ok) s r s' := by
  refine ResEnds.chain stepWriteStatus_standby (stepStandby_ends s)
    (.more (q := .status) rfl (.more (q := .xfer .seed) rfl ?_))
  rw [(runStandby_same s).params]
  exact Ends.chain stepWriteStatus_xfer (stepXfer_ends h) ⟨rfl, rfl⟩

/-- WriteStatus (42_flash_commands.md R72). -/
theorem stepWriteStatus_ends {st : Byte} {c : Bool} {s s' : Hw} {r : SubOutcome}
    (h : runWriteStatus st c s = some (s', r)) :
    ResEnds (stepWriteStatus st c) (enterWriteStatus s) s r s' := by
  simp only [runWriteStatus, Option.bind_eq_some_iff, Prod.exists] at h
  obtain ⟨s1, r1, h1, h2⟩ := h
  refine ResEnds.chain stepWriteStatus_enable (stepEnableWrite_ends h1) ?_
  cases r1 with
  | ok => exact stepWriteStatus_frame_ends h2
  | cancelled => cases h2; exact ⟨rfl, rfl⟩
  | arbitrationTimeout => cases h2; exact ⟨rfl, rfl⟩
  | protectedRegion => cases h2; exact ⟨rfl, rfl⟩

/-- ReadStatus (42_flash_commands.md R73). -/
theorem stepReadStatus_ends {c : Bool} {s s' : Hw} {r : StatusOutcome} (h : runReadStatus c s = some (s', r)) :
    ResEnds (stepReadStatus c) (enterReadStatus s) s r s' := by
  simp only [runReadStatus, Option.map_eq_some_iff, Prod.exists, Prod.mk.injEq] at h
  obtain ⟨s1, r1, h1, rfl, rfl⟩ := h
  refine ResEnds.chain stepReadStatus_standby (stepStandby_ends s)
    (.more (q := .zero) rfl (.more (q := .xfer .seed) rfl ?_))
  rw [(runStandby_same s).params]
  exact Ends.chain stepReadStatus_xfer (stepXfer_ends h1) ⟨rfl, rfl⟩

theorem runReadStatus_same {c : Bool} {s s' : Hw} {r : StatusOutcome} (h : runReadStatus c s = some (s', r)) :
    s.SameRegs s' :=
  (stepReadStatus_ends h).same fun p t => (stepReadStatus_same c p t).1

/-- A page frame (42_flash_commands.md R74, R75). -/
theorem stepPage_ends {op : Byte} {off : Half} {pay : XferArgs} {c : Bool} {s s' : Hw} {r : SubOutcome}
    (h : runPage op off pay c s = some (s', r)) : ResEnds (stepPage op off pay c) (enterPage s) s r s' := by
  simp only [runPage, Option.bind_eq_some_iff, Prod.exists] at h
  obtain ⟨s1, r1, h1, h2⟩ := h
  refine ResEnds.chain stepPage_standby (stepStandby_ends s) (.more (q := .addrHigh) rfl (.more (q := .addrMid) rfl
    (.more (q := .addrLow) rfl (.more (q := .header .seed) rfl ?_))))
  refine Ends.chain stepPage_header (stepXfer_ends h1) ?_
  cases r1 with
  | ok => exact Ends.chain stepPage_payload (stepXfer_ends h2) ⟨rfl, rfl⟩
  | cancelled => cases h2; exact ⟨rfl, rfl⟩
  | arbitrationTimeout => cases h2; exact ⟨rfl, rfl⟩
  | protectedRegion => cases h2; exact ⟨rfl, rfl⟩

/-- WritePage (42_flash_commands.md R74). -/
theorem stepWritePage_ends {v : Span} {c : Bool} {s s' : Hw} {r : SubOutcome} (h : runWritePage v c s = some (s', r)) :
    ResEnds (stepWritePage v c) (enterPage s) s r s' := by
  refine ResEnds.congr (I := fun t => t.params = s.params) (fun p t ht => ?_) (fun p t ht => ?_) (stepPage_ends h) rfl
  · exact (stepPage_same _ _ _ c p t).1.params.trans ht
  · simp only [stepWritePage, ht]

theorem runWritePage_same {v : Span} {c : Bool} {s s' : Hw} {r : SubOutcome} (h : runWritePage v c s = some (s', r)) :
    s.SameRegs s' :=
  (stepPage_ends h).same fun p t => (stepPage_same _ _ _ c p t).1

/-- ReadPage (42_flash_commands.md R75). -/
theorem stepReadPage_ends {v : Span} {c : Bool} {s s' : Hw} {r : SubOutcome} (h : runReadPage v c s = some (s', r)) :
    ResEnds (stepReadPage v c) (enterPage s) s r s' := by
  refine ResEnds.congr (I := fun t => t.params = s.params) (fun p t ht => ?_) (fun p t ht => ?_) (stepPage_ends h) rfl
  · exact (stepPage_same _ _ _ c p t).1.params.trans ht
  · simp only [stepReadPage, ht]

theorem runReadPage_same {v : Span} {c : Bool} {s s' : Hw} {r : SubOutcome} (h : runReadPage v c s = some (s', r)) :
    s.SameRegs s' :=
  (stepPage_ends h).same fun p t => (stepPage_same _ _ _ c p t).1

theorem stepPollReady_eq {c : Bool} (p : ReadStatusPt) (s : Hw) :
    stepPollReady c (id p) s = chainStep (stepReadStatus c p s) id afterStatus := rfl

theorem chain_id_enterReadStatus (s : Hw) (k : StatusOutcome → Res ReadStatusPt StatusOutcome) :
    (enterReadStatus s).chain id k = enterReadStatus s := by
  simp only [enterReadStatus, enterStandby]
  split <;> rfl

/-- PollReady (42_flash_commands.md R76), where it ends within `fuel` status reads. -/
theorem stepPollReady_ends {fuel : Nat} {c : Bool} {s s' : Hw} {r : StatusOutcome}
    (h : runPollReady fuel c s = some (s', r)) : ResEnds (stepPollReady c) (enterReadStatus s) s r s' := by
  induction fuel generalizing s with
  | zero => cases h
  | succ fuel ih =>
    simp only [runPollReady, Option.bind_eq_some_iff, Prod.exists] at h
    obtain ⟨s1, r1, h1, h2⟩ := h
    rw [← chain_id_enterReadStatus s (afterStatus s)]
    refine ResEnds.chain stepPollReady_eq (stepReadStatus_ends h1) ?_
    cases r1 with
    | cancelled => cases h2; exact ⟨rfl, rfl⟩
    | ok st =>
      simp only [afterStatus]
      simp only at h2
      split at h2
      · rw [if_pos ‹_›]
        exact ih h2
      · rw [if_neg ‹_›]
        cases h2
        exact ⟨rfl, rfl⟩

theorem runPollReady_same {fuel : Nat} {c : Bool} {s s' : Hw} {r : StatusOutcome}
    (h : runPollReady fuel c s = some (s', r)) : s.SameRegs s' :=
  (stepPollReady_ends h).same fun p t => (stepPollReady_same c p t).1

/-- ClearBP (42_flash_commands.md R77). -/
theorem stepClearBp_ends {c : Bool} {s s' : Hw} {r : SubOutcome} (h : runClearBp c s = some (s', r)) :
    ResEnds (stepClearBp c) (enterWriteStatus s) s r s' := by
  refine ResEnds.congr (I := fun t => t.params = s.params) (fun p t ht => ?_) (fun p t ht => ?_) (stepWriteStatus_ends h)
    rfl
  · exact (stepWriteStatus_same _ c p t).1.params.trans ht
  · simp only [stepClearBp, ht]

theorem runClearBp_same {c : Bool} {s s' : Hw} {r : SubOutcome} (h : runClearBp c s = some (s', r)) : s.SameRegs s' :=
  (stepWriteStatus_ends h).same fun p t => (stepWriteStatus_same _ c p t).1

/-! ### The FLASH operations -/

/-- A page read, as Dump runs it: the page split reads the latch at each step, which no step changes. -/
theorem stepDump_readPage_ends {c : Bool} {v : Span} {s s' : Hw} {r : SubOutcome}
    (h : runReadPage (dumpPage s.latch.ps.toNat v) c s = some (s', r)) :
    ResEnds (fun p t => stepReadPage (dumpPage t.latch.ps.toNat v) c p t) (enterPage s) s r s' := by
  refine ResEnds.congr (I := fun t => t.latch = s.latch) (fun p t ht => ?_) (fun p t ht => ?_) (stepReadPage_ends h) rfl
  · exact (stepPage_same _ _ _ c p t).1.latch.trans ht
  · simp only [ht]

theorem enterPage_goto (s : Hw) : ∃ p, enterPage s = .goto p := by
  simp only [enterPage, enterStandby]
  split <;> exact ⟨_, rfl⟩

theorem enterReadStatus_goto (s : Hw) : ∃ p, enterReadStatus s = .goto p := by
  simp only [enterReadStatus, enterStandby]
  split <;> exact ⟨_, rfl⟩

theorem enterEnableWrite_goto (s : Hw) : ∃ p, enterEnableWrite s = .goto p := by
  simp only [enterEnableWrite, enterStandby]
  split <;> exact ⟨_, rfl⟩

/-- Dump's page loop (43_flash_ops.md R79). -/
theorem stepDump_loop_ends {rounds : Nat} {c : Bool} {v : Span} {s s' : Hw} {r : SubOutcome}
    (h : runDumpLoop c rounds v s = some (s', r)) : ResEnds (stepDump c) (dumpNext s v) s r s' := by
  induction rounds generalizing v s with
  | zero =>
    simp only [runDumpLoop] at h
    split at h
    · rw [dumpNext, if_pos ‹_›]
      cases h
      exact ⟨rfl, rfl⟩
    · cases h
  | succ rounds ih =>
    simp only [runDumpLoop] at h
    split at h
    · rw [dumpNext, if_pos ‹_›]
      cases h
      exact ⟨rfl, rfl⟩
    · rw [dumpNext, if_neg ‹_›]
      simp only [Option.bind_eq_some_iff, Prod.exists] at h
      obtain ⟨s1, r1, h1, h2⟩ := h
      obtain ⟨p, hp⟩ := enterPage_goto s
      refine ResEnds.chain_goto stepDump_page hp (stepDump_readPage_ends h1) ?_
      cases r1 with
      | ok => exact ih h2
      | cancelled => cases h2; exact ⟨rfl, rfl⟩
      | arbitrationTimeout => cases h2; exact ⟨rfl, rfl⟩
      | protectedRegion => cases h2; exact ⟨rfl, rfl⟩

/-- Dump (43_flash_ops.md R79). -/
theorem stepDump_ends {fuel : Nat} {c : Bool} {v : Span} {s s' : Hw} {r : SubOutcome}
    (h : runDump fuel c v s = some (s', r)) : ResEnds (stepDump c) (enterDump s v) s r s' := by
  simp only [runDump, Option.bind_eq_some_iff, Prod.exists] at h
  obtain ⟨s1, r1, h1, h2⟩ := h
  refine ResEnds.chain stepDump_poll (stepPollReady_ends h1) ?_
  cases r1 with
  | ok st => exact stepDump_loop_ends h2
  | cancelled => cases h2; exact ⟨rfl, rfl⟩

theorem runDump_same {fuel : Nat} {c : Bool} {v : Span} {s s' : Hw} {r : SubOutcome}
    (h : runDump fuel c v s = some (s', r)) : s.SameRegs s' :=
  (stepDump_ends h).same fun p t => (stepDump_same c p t).1

/-- One byte of Program's loop, from its PollReady on (43_flash_ops.md R80). -/
theorem stepProgram_byte_ends {fuel : Nat} {c : Bool} {v : Span} {s s1 s' : Hw} {r1 r : SubOutcome}
    {k : StatusOutcome → Res ProgramPt SubOutcome} (h : runProgramByte fuel c v s = some (s1, r1))
    (hk : ResEnds (stepProgram c) (programWritten v s1 r1) s1 r s') :
    ResEnds (stepProgram c) ((enterReadStatus s).chain (.poll v) k) s r s' := by
  simp only [runProgramByte, Option.bind_eq_some_iff, Prod.exists] at h
  obtain ⟨s2, r2, h2, h3⟩ := h
  obtain ⟨p, hp⟩ := enterReadStatus_goto s
  refine ResEnds.chain_goto stepProgram_poll hp (stepPollReady_ends h2) ?_
  cases r2 with
  | cancelled =>
    cases h3
    exact hk
  | ok st =>
    simp only [Option.bind_eq_some_iff, Prod.exists] at h3
    obtain ⟨s3, r3, h3, h4⟩ := h3
    obtain ⟨p, hp⟩ := enterEnableWrite_goto s2
    refine ResEnds.chain_goto stepProgram_enable hp (stepEnableWrite_ends h3) ?_
    have stop : some (s3, SubOutcome.cancelled) = some (s1, r1) →
        ResEnds (stepProgram c) (.ret .cancelled) s3 r s' := by
      intro h
      cases h
      exact hk
    cases r3 with
    | ok =>
      obtain ⟨p, hp⟩ := enterPage_goto s3
      exact ResEnds.chain_goto stepProgram_write hp (stepWritePage_ends h4) hk
    | cancelled => exact stop h4
    | arbitrationTimeout => exact stop h4
    | protectedRegion => exact stop h4

/-- Program's byte loop and its final PollReady (43_flash_ops.md R80). -/
theorem stepProgram_loop_ends {fuel : Nat} {c : Bool} (left : Nat) {v : Span} (hv : v.len = left) {s s' : Hw}
    {r : SubOutcome} (h : runProgramLoop fuel c left v s = some (s', r)) :
    ResEnds (stepProgram c) (programNext s v) s r s' := by
  induction left generalizing v s with
  | zero =>
    rw [programNext, if_pos hv]
    simp only [runProgramLoop, Option.map_eq_some_iff, Prod.exists, Prod.mk.injEq] at h
    obtain ⟨s1, r1, h1, rfl, rfl⟩ := h
    exact ResEnds.chain stepProgram_finalPoll (stepPollReady_ends h1) ⟨rfl, rfl⟩
  | succ left ih =>
    rw [programNext, if_neg (by omega)]
    simp only [runProgramLoop, Option.bind_eq_some_iff, Prod.exists] at h
    obtain ⟨s1, r1, h1, h2⟩ := h
    refine stepProgram_byte_ends h1 ?_
    cases r1 with
    | ok => exact ih (by simp [Span.advance, hv]) h2
    | cancelled => cases h2; exact ⟨rfl, rfl⟩
    | arbitrationTimeout => cases h2; exact ⟨rfl, rfl⟩
    | protectedRegion => cases h2; exact ⟨rfl, rfl⟩

/-- Program (43_flash_ops.md R80). -/
theorem stepProgram_ends {fuel : Nat} {c : Bool} {v : Span} {s s' : Hw} {r : SubOutcome}
    (h : runProgram fuel c v s = some (s', r)) : ResEnds (stepProgram c) (enterProgram s v) s r s' := by
  simp only [runProgram, Option.bind_eq_some_iff, Prod.exists] at h
  obtain ⟨s1, r1, h1, h2⟩ := h
  refine ResEnds.chain stepProgram_clearBp (stepClearBp_ends h1) ?_
  have stop : some (runRelease s1, SubOutcome.protectedRegion) = some (s', r) →
      ResEnds (stepProgram c) ((enterRelease s1).chain .release fun _ => .ret .protectedRegion) s1 r s' := by
    intro h
    cases h
    exact ResEnds.chain stepProgram_release (stepRelease_ends s1) ⟨rfl, rfl⟩
  cases r1 with
  | ok => exact stepProgram_loop_ends v.len rfl h2
  | cancelled => exact stop h2
  | arbitrationTimeout => exact stop h2
  | protectedRegion => exact stop h2

theorem runProgram_same {fuel : Nat} {c : Bool} {v : Span} {s s' : Hw} {r : SubOutcome}
    (h : runProgram fuel c v s = some (s', r)) : s.SameRegs s' :=
  (stepProgram_ends h).same fun p t => (stepProgram_same c p t).1

theorem eraseRelease_ends {c : Bool} (r : SubOutcome) (s : Hw) :
    ResEnds (stepErase c) (eraseRelease s r) s r (runRelease s) :=
  ResEnds.chain stepErase_release (stepRelease_ends s) ⟨rfl, rfl⟩

/-- Erase's chip-erase frame (43_flash_ops.md R81). -/
theorem stepErase_frame_ends {c : Bool} {s s' : Hw} {r : SubOutcome} (h : runEraseFrame c s = some (s', r)) :
    ResEnds (stepErase c) (eraseEnabled s .ok) s r s' := by
  simp only [runEraseFrame, Option.map_eq_some_iff, Prod.exists] at h
  obtain ⟨s1, r1, h1, h2⟩ := h
  refine ResEnds.chain stepErase_standby2 (stepStandby_ends s) (.more (q := .xfer .seed) rfl ?_)
  rw [(runStandby_same s).params]
  refine Ends.chain stepErase_xfer (stepXfer_ends h1) ?_
  cases r1 with
  | ok => cases h2; exact eraseRelease_ends _ _
  | cancelled => cases h2; exact eraseRelease_ends _ _
  | arbitrationTimeout => cases h2; exact eraseRelease_ends _ _
  | protectedRegion => cases h2; exact eraseRelease_ends _ _

/-- Erase from its ClearBP on (43_flash_ops.md R81). -/
theorem stepErase_body_ends {c : Bool} {s s' : Hw} {r : SubOutcome} (h : runEraseBody c s = some (s', r)) :
    ResEnds (stepErase c) (eraseClear s) s r s' := by
  simp only [runEraseBody, Option.bind_eq_some_iff, Prod.exists] at h
  obtain ⟨s1, r1, h1, h2⟩ := h
  refine ResEnds.chain stepErase_clearBp (stepClearBp_ends h1) ?_
  cases r1 with
  | ok =>
    simp only [Option.bind_eq_some_iff, Prod.exists] at h2
    obtain ⟨s2, r2, h2, h3⟩ := h2
    refine ResEnds.chain stepErase_enable (stepEnableWrite_ends h2) ?_
    cases r2 with
    | ok => exact stepErase_frame_ends h3
    | cancelled => cases h3; exact eraseRelease_ends _ _
    | arbitrationTimeout => cases h3; exact eraseRelease_ends _ _
    | protectedRegion => cases h3; exact eraseRelease_ends _ _
  | cancelled => cases h2; exact eraseRelease_ends _ _
  | arbitrationTimeout => cases h2; exact eraseRelease_ends _ _
  | protectedRegion => cases h2; exact eraseRelease_ends _ _

theorem runAcquire_outcome (s : Hw) : (runAcquire s).2 = .ok ∨ (runAcquire s).2 = .arbitrationTimeout := by
  simp only [runAcquire, runGrant]
  repeat' split
  all_goals simp

/-- Erase (43_flash_ops.md R81). -/
theorem stepErase_ends {c : Bool} {s s' : Hw} {r : SubOutcome} (h : runErase c s = some (s', r)) :
    ResEnds (stepErase c) (enterErase s) s r s' := by
  refine ResEnds.chain stepErase_acquire (stepAcquire_ends s) ?_
  simp only [runErase] at h
  obtain ho | ho := runAcquire_outcome s <;> simp only [ho] at h ⊢
  · exact ResEnds.chain stepErase_standby (stepStandby_ends _) (stepErase_body_ends h)
  · cases h
    exact ⟨rfl, rfl⟩

theorem unlockRelease_ends {c : Bool} (r : SubOutcome) (s : Hw) :
    ResEnds (stepUnlock c) (unlockRelease s r) s r (runRelease s) :=
  ResEnds.chain stepUnlock_release (stepRelease_ends s) ⟨rfl, rfl⟩

/-- Unlock (43_flash_ops.md R82). -/
theorem stepUnlock_ends {c : Bool} {s s' : Hw} {r : SubOutcome} (h : runUnlock c s = some (s', r)) :
    ResEnds (stepUnlock c) (enterUnlock s) s r s' := by
  refine ResEnds.chain stepUnlock_acquire (stepAcquire_ends s) ?_
  simp only [runUnlock] at h
  obtain ho | ho := runAcquire_outcome s <;> simp only [ho] at h ⊢
  · simp only [Option.map_eq_some_iff, Prod.exists] at h
    obtain ⟨s1, r1, h1, h2⟩ := h
    refine ResEnds.chain stepUnlock_standby (stepStandby_ends _) ?_
    refine ResEnds.chain stepUnlock_clearBp (stepClearBp_ends h1) ?_
    cases r1 with
    | ok => cases h2; exact unlockRelease_ends _ _
    | cancelled => cases h2; exact unlockRelease_ends _ _
    | arbitrationTimeout => cases h2; exact unlockRelease_ends _ _
    | protectedRegion => cases h2; exact unlockRelease_ends _ _
  · cases h
    exact ⟨rfl, rfl⟩

theorem checksumRelease_ends {c rp : Bool} (r : RCode) (s : Hw) :
    ResEnds (stepChecksum c rp) (checksumRelease s r) s r (runRelease s) :=
  ResEnds.chain stepChecksum_release (stepRelease_ends s) ⟨rfl, rfl⟩

/-- CHECKSUM's repair (43_flash_ops.md R84). -/
theorem stepChecksum_repair_ends {fuel : Nat} {c rp : Bool} {x : ChecksumResult} {s s' : Hw} {r : RCode}
    (h : runRepair fuel c x s = some (s', r)) : Ends (stepChecksum c rp) (.scrLow x.computed) s r s' := by
  simp only [runRepair, Option.bind_eq_some_iff, Option.map_eq_some_iff, Prod.exists] at h
  obtain ⟨s1, h1, s2, h2, s3, r3, h3, h4⟩ := h
  refine .more (s1 := s1) (q := .scrHigh x.computed) (by simp only [stepChecksum, storeScr, h1]) ?_
  refine .step (s1 := s2) (x := checksumRepair s2) (by simp only [stepChecksum, storeScr, h2]) ?_
  refine ResEnds.chain stepChecksum_program (stepProgram_ends h3) ?_
  cases r3 with
  | ok => cases h4; exact checksumRelease_ends _ _
  | cancelled => cases h4; exact checksumRelease_ends _ _
  | arbitrationTimeout => cases h4; exact checksumRelease_ends _ _
  | protectedRegion => cases h4; exact ⟨rfl, rfl⟩

/-- A read of SCR at an index below 2^32 (20_memory.md R36). -/
theorem memRead_scr (s : Hw) {a : Nat} (ha : a < 2 ^ 32) : s.memRead (scrRef a) = s.scr[a]? := by
  simp only [Hw.memRead, scrRef, BitVec.toNat_ofNat, Nat.mod_eq_of_lt ha]

/-- The sum of the first k words is some only where that of fewer words is. -/
theorem wordSum_prefix {o : WordOrder} {b : List Byte} {k : Nat} {x : Half} (h : wordSum o b k = some x) {j : Nat}
    (hj : j < k) : ∃ t w, wordSum o b j = some t ∧ bufferWord o b j = some w ∧ wordSum o b (j + 1) = some (t + w) := by
  induction k generalizing x with
  | zero => omega
  | succ k ih =>
    have hk := h
    simp only [wordSum] at h
    split at h
    case h_2 => cases h
    case h_1 t w ht hw =>
      obtain rfl | hlt : j = k ∨ j < k := by omega
      · exact ⟨t, w, ht, hw, by simp only [wordSum, ht, hw]⟩
      · exact ih ht hlt

/-- Reading one word of SCR takes two steps and changes nothing (20_memory.md R38; 43_flash_ops.md R83). -/
theorem stepChecksum_word_iff {c rp : Bool} {s s' : Hw} {r : RCode} {j : Nat} {t w : Half} (hj : 2 * j + 1 < 2 ^ 32)
    (hw : bufferWord s.params.wordOrder s.scr j = some w) :
    Ends (stepChecksum c rp) (.evalFirst j t) s r s' ↔ Ends (stepChecksum c rp) (checksumWord s j t w) s r s' := by
  simp only [bufferWord] at hw
  split at hw
  case h_2 => cases hw
  case h_1 x y hx hy =>
    cases hw
    have h1 : stepChecksum c rp (.evalFirst j t) s = (s, .goto (.evalSecond j t x)) := by
      simp only [stepChecksum, loadScr, memRead_scr s (show 2 * j < 2 ^ 32 by omega), hx]
    have h2 : stepChecksum c rp (.evalSecond j t x) s =
        (s, .goto (checksumWord s j t (joinWord s.params.wordOrder x y))) := by
      simp only [stepChecksum, loadScr, memRead_scr s hj, hy]
    exact ⟨fun h => (h.tail h1).tail h2, fun h => .more h1 (.more h2 h)⟩

/-- ChecksumEval, one byte of SCR a step, comes to its two words (43_flash_ops.md R83). -/
theorem stepChecksum_eval_iff {c rp : Bool} {s s' : Hw} {r : RCode} (hk : s.params.checksumIndex ≤ 32766)
    {x : ChecksumResult} (hx : scrChecksum s = some x) :
    Ends (stepChecksum c rp) (.evalFirst 0 0#16) s r s' ↔
      Ends (stepChecksum c rp) (.result x.computed x.stored) s r s' := by
  simp only [scrChecksum, checksumEval] at hx
  split at hx
  case h_2 => cases hx
  case h_1 total last ht hl =>
    cases hx
    have go : ∀ j t, j ≤ s.params.checksumIndex → wordSum s.params.wordOrder s.scr j = some t →
        (Ends (stepChecksum c rp) (.evalFirst 0 0#16) s r s' ↔ Ends (stepChecksum c rp) (.evalFirst j t) s r s') := by
      intro j
      induction j with
      | zero =>
        intro t _ h0
        cases h0
        exact Iff.rfl
      | succ j ih =>
        intro t hj hs
        obtain ⟨t0, w, h0, hw, h1⟩ := wordSum_prefix ht (show j < s.params.checksumIndex by omega)
        obtain rfl : t0 + w = t := Option.some.inj (h1.symm.trans hs)
        rw [ih t0 (by omega) h0, stepChecksum_word_iff (by omega) hw]
        simp only [checksumWord, if_pos (show j < s.params.checksumIndex by omega)]
    rw [go _ _ le_rfl ht, stepChecksum_word_iff (by omega) hl]
    simp only [checksumWord, if_neg (Nat.lt_irrefl _)]

/-- CHECKSUM's comparison and what follows from it (43_flash_ops.md R84). -/
theorem stepChecksum_compare_ends {fuel : Nat} {c rp : Bool} {s s' : Hw} {r : RCode}
    (hk : s.params.checksumIndex ≤ 32766) (h : runCompare fuel c rp s = some (s', r)) :
    Ends (stepChecksum c rp) (.evalFirst 0 0#16) s r s' := by
  simp only [runCompare, Option.bind_eq_some_iff] at h
  obtain ⟨x, hx, h1⟩ := h
  refine (stepChecksum_eval_iff hk hx).mpr ?_
  refine .step (s1 := s.setRdata (checksumData x)) (x := checksumCompared rp (s.setRdata (checksumData x)) x)
    rfl ?_
  simp only [checksumCompared]
  split at h1
  · rw [if_pos ‹_›]
    cases h1
    exact checksumRelease_ends _ _
  · rw [if_neg ‹_›]
    split at h1
    · rw [if_pos ‹_›]
      exact stepChecksum_repair_ends h1
    · rw [if_neg ‹_›]
      cases h1
      exact checksumRelease_ends _ _

/-- CHECKSUM (43_flash_ops.md R84). -/
theorem stepChecksum_ends {fuel : Nat} {c rp : Bool} {s s' : Hw} {r : RCode} (hk : s.params.checksumIndex ≤ 32766)
    (h : runChecksum fuel c rp s = some (s', r)) : ResEnds (stepChecksum c rp) (enterChecksum s) s r s' := by
  refine ResEnds.chain stepChecksum_acquire (stepAcquire_ends s) ?_
  simp only [runChecksum] at h
  obtain ho | ho := runAcquire_outcome s <;> simp only [ho] at h ⊢
  · simp only [Option.bind_eq_some_iff, Prod.exists] at h
    obtain ⟨s1, r1, h1, h2⟩ := h
    rw [← (runAcquire_same s).params] at h1
    refine ResEnds.chain stepChecksum_dump (stepDump_ends h1) ?_
    have hk1 : s1.params.checksumIndex ≤ 32766 := by
      rw [(runDump_same h1).params, (runAcquire_same s).params]
      exact hk
    cases r1 with
    | ok => exact stepChecksum_compare_ends hk1 h2
    | cancelled => cases h2; exact checksumRelease_ends _ _
    | arbitrationTimeout => cases h2; exact checksumRelease_ends _ _
    | protectedRegion => cases h2; exact checksumRelease_ends _ _
  · cases h
    exact ⟨rfl, rfl⟩

end Sys2Proof.Machine
end

