-- ==== Sys2Proof/Laws/Totality.lean ====
section
/-! SUPPORT. Where the bytes of its buffers exist a procedure's pseudocode comes to an end, but for PollReady, which may have
none (60_exceptions.md R99). -/

namespace Sys2Proof.Machine

/-! ### Buffer references -/

theorem add_toNat_le (a : Word) (k : Nat) : (a + BitVec.ofNat 32 k).toNat ≤ a.toNat + k := by
  simp only [BitVec.toNat_add, BitVec.toNat_ofNat]
  exact (Nat.mod_le _ _).trans (Nat.add_le_add_left (Nat.mod_le _ _) _)

/-- A reference into a range of k bytes names a byte of it. -/
theorem Ref.inRange_add {m : Nat} {r : Ref} {k j l : Nat} (h : r.inRange m k = true) (hj : j + l ≤ k) :
    (r.add j).inRange m l = true := by
  obtain ⟨space, a⟩ := r
  have := add_toNat_le a j
  cases space with
  | buf => rfl
  | scr =>
    simp [Ref.inRange, Ref.add] at h ⊢
    omega
  | opb =>
    simp [Ref.inRange, Ref.add] at h ⊢
    omega

theorem memRead_total {s : Hw} {r : Ref} (h : r.inRange s.scr.length 1 = true) : ∃ v, s.memRead r = some v := by
  obtain ⟨space, a⟩ := r
  cases space with
  | buf => exact ⟨_, rfl⟩
  | scr =>
    simp only [Ref.inRange, decide_eq_true_eq] at h
    exact ⟨s.scr[a.toNat], by simp only [Hw.memRead]; exact List.getElem?_eq_getElem (by omega)⟩
  | opb =>
    simp only [Ref.inRange, decide_eq_true_eq] at h
    simp only [Hw.memRead]
    generalize a.toNat = n at h
    match n, h with
    | 0, _ => exact ⟨_, rfl⟩
    | 1, _ => exact ⟨_, rfl⟩
    | 2, _ => exact ⟨_, rfl⟩
    | 3, _ => exact ⟨_, rfl⟩

theorem memWrite_total {s : Hw} {r : Ref} (h : r.inRange s.scr.length 1 = true) (v : Byte) :
    ∃ s', s.memWrite r v = some s' := by
  obtain ⟨w, hw⟩ := memRead_total h
  exact memWrite_isSome_of_memRead hw

theorem opcodeArgs_legal (m n : Nat) (c : Bool) (h : n ≤ 32) : (opcodeArgs n c).legal m = true := by
  have : (n + 7) / 8 ≤ 4 := by omega
  simpa [XferArgs.legal, opcodeArgs, opbRef, Ref.inRange] using this

theorem statusArgs_legal (m : Nat) (c : Bool) : (statusArgs c).legal m = true := by
  simp [XferArgs.legal, statusArgs, opbRef, Ref.inRange]

theorem payloadOut_legal {m : Nat} {v : Span} (c : Bool) (h : v.legal m = true) : (payloadOut v c).legal m = true := by
  have : (8 * v.len + 7) / 8 = v.len := by omega
  simpa [XferArgs.legal, payloadOut, this, Span.legal] using h

theorem payloadIn_legal {m : Nat} {v : Span} (c : Bool) (h : v.legal m = true) : (payloadIn v c).legal m = true := by
  have : (8 * v.len + 7) / 8 = v.len := by omega
  simpa [XferArgs.legal, payloadIn, this, Span.legal] using h

theorem transferArgs_legal (m : Nat) (l : Latch) (c sf df : Bool) : (transferArgs l c sf df).legal m = true := by
  cases sf <;> cases df <;> rfl

/-! ### Xfer -/

theorem runDrive_same (s : Hw) : s.SameRegs (runDrive s) := .of_update s ..
theorem runRaise_same (s : Hw) : s.SameRegs (runRaise s) := .of_update s ..
theorem runLower_same (s : Hw) : s.SameRegs (runLower s) := .of_update s ..

theorem putSi_same (b : Bool) (s : Hw) : s.SameRegs (putSi b s) := by
  cases b <;> exact .of_update s ..

theorem captureBit_same {a : XferArgs} {i : Nat} {s s' : Hw} (h : captureBit a i s = some s') : s.SameRegs s' := by
  simp only [captureBit] at h
  split at h
  · simp only [Option.bind_eq_some_iff] at h
    obtain ⟨v, -, h⟩ := h
    exact .memWrite h
  · cases h
    exact .refl s

theorem runBit_same {a : XferArgs} {i : Nat} {s s' : Hw} (h : runBit a i s = some s') : s.SameRegs s' := by
  simp only [runBit, Option.bind_eq_some_iff, Option.map_eq_some_iff] at h
  obtain ⟨b, -, s1, hc, rfl⟩ := h
  exact ((((putSi_same b s).trans (runDrive_same _)).trans (runRaise_same _)).trans (.regRead _)).trans
    ((captureBit_same hc).trans (runLower_same _))

theorem bitByte_inRange {m : Nat} {r : Ref} {n i : Nat} (h : r.inRange m ((n + 7) / 8) = true) (hi : i < n) :
    (bitByte r i).inRange m 1 = true :=
  Ref.inRange_add h (by omega)

theorem runBit_total {a : XferArgs} {i : Nat} (hi : i < a.n) {s : Hw} (h : a.legal s.scr.length = true) :
    ∃ s', runBit a i s = some s' := by
  simp only [XferArgs.legal, Bool.and_eq_true, Option.all_eq_true] at h
  have hs : ∃ b, sourceBit a i s = some b := by
    simp only [sourceBit]
    split
    · rename_i r hr
      obtain ⟨v, hv⟩ := memRead_total (s := s) (bitByte_inRange (h.1 r hr) hi)
      exact ⟨getBit v i, by rw [hv]; rfl⟩
    · exact ⟨_, rfl⟩
  obtain ⟨b, hb⟩ := hs
  have hc : ∃ s1, captureBit a i (runRaise (runDrive (putSi b s))).regRead = some s1 := by
    have hlen : (runRaise (runDrive (putSi b s))).regRead.scr.length = s.scr.length :=
      ((((putSi_same b s).trans (runDrive_same _)).trans (runRaise_same _)).trans (.regRead _)).scrLength
    simp only [captureBit]
    split
    · rename_i r hr
      have hr' := bitByte_inRange (h.2 r hr) hi
      rw [← hlen] at hr'
      obtain ⟨v, hv⟩ := memRead_total hr'
      obtain ⟨s1, h1⟩ := memWrite_total hr'
        (setBit v i (runRaise (runDrive (putSi b s))).regRead.sampledBit)
      exact ⟨s1, by rw [hv]; exact h1⟩
    · exact ⟨_, rfl⟩
  obtain ⟨s1, h1⟩ := hc
  exact ⟨runLower s1, by rw [runBit, hb, Option.bind_some, h1]; rfl⟩

theorem runTail_total {a : XferArgs} {s : Hw} (h : a.legal s.scr.length = true) : ∃ s', runTail a s = some s' := by
  simp only [XferArgs.legal, Bool.and_eq_true, Option.all_eq_true] at h
  simp only [runTail]
  split
  · rename_i r hr
    split
    · have hr' := Ref.inRange_add (j := a.n / 8) (l := 1) (h.2 r hr) (by omega)
      obtain ⟨v, hv⟩ := memRead_total (s := s) hr'
      obtain ⟨s1, h1⟩ := memWrite_total (s := s) hr' (keepTop v a.n)
      exact ⟨s1, by rw [hv]; exact h1⟩
    · exact ⟨_, rfl⟩
  · exact ⟨_, rfl⟩

theorem runBits_total {a : XferArgs} (left : Nat) (hl : left ≤ a.n) {s : Hw} (h : a.legal s.scr.length = true) :
    ∃ x, runBits a left s = some x := by
  induction left generalizing s with
  | zero =>
    obtain ⟨s', h'⟩ := runTail_total h
    exact ⟨(s', .ok), by simp only [runBits, h', Option.map_some]⟩
  | succ left ih =>
    have body : ∀ t : Hw, t.scr.length = s.scr.length →
        ∃ x, (runBit a (a.n - (left + 1)) t).bind (runBits a left) = some x := by
      intro t ht
      obtain ⟨t1, h1⟩ := runBit_total (a := a) (i := a.n - (left + 1)) (by omega) (s := t) (ht ▸ h)
      obtain ⟨x, hx⟩ := ih (by omega) (s := t1) (by rw [(runBit_same h1).scrLength, ht]; exact h)
      exact ⟨x, by rw [h1]; exact hx⟩
    simp only [runBits]
    split
    · split
      · exact ⟨_, rfl⟩
      · exact body _ rfl
    · exact body s rfl

theorem runXfer_total {a : XferArgs} {s : Hw} (h : a.legal s.scr.length = true) : ∃ x, runXfer a s = some x :=
  runBits_total a.n (Nat.le_refl _) h

/-! ### The FLASH commands -/

theorem runEnableWrite_total (c : Bool) (s : Hw) : ∃ x, runEnableWrite c s = some x :=
  runXfer_total (opcodeArgs_legal _ _ _ (by omega))

theorem runWriteStatus_total (st : Byte) (c : Bool) (s : Hw) : ∃ x, runWriteStatus st c s = some x := by
  obtain ⟨⟨s1, r1⟩, h1⟩ := runEnableWrite_total c s
  simp only [runWriteStatus, h1, Option.bind_some]
  split
  · exact runXfer_total (opcodeArgs_legal _ _ _ (by omega))
  · exact ⟨_, rfl⟩

theorem runClearBp_total (c : Bool) (s : Hw) : ∃ x, runClearBp c s = some x := runWriteStatus_total _ c s

theorem runReadStatus_total (c : Bool) (s : Hw) : ∃ x, runReadStatus c s = some x := by
  obtain ⟨x, hx⟩ := runXfer_total (a := statusArgs c)
    (s := ((runStandby s).setOpb0 s.params.opRdsr).setOpb1 0x00#8) (statusArgs_legal _ _)
  exact ⟨_, by simp only [runReadStatus, hx]; rfl⟩

theorem putHeader_same (op : Byte) (off : Half) (s : Hw) : s.SameRegs (putHeader op off s) := by
  refine (Hw.SameRegs.setOpb0 s op).trans ?_
  refine (Hw.SameRegs.setOpb1 _ (addrHighByte off)).trans ?_
  exact (Hw.SameRegs.setOpb2 _ (addrMidByte off)).trans (Hw.SameRegs.setOpb3 _ (addrLowByte off))

theorem runPage_total {op : Byte} {off : Half} {pay : XferArgs} {c : Bool} {s : Hw} (h : pay.legal s.scr.length = true) :
    ∃ x, runPage op off pay c s = some x := by
  obtain ⟨⟨s1, r1⟩, h1⟩ := runXfer_total (a := opcodeArgs 32 c) (s := putHeader op off (runStandby s))
    (opcodeArgs_legal _ _ _ (by omega))
  have hlen : s1.scr.length = s.scr.length :=
    ((runStandby_same s).trans ((putHeader_same op off _).trans (runXfer_same h1))).scrLength
  simp only [runPage, h1, Option.bind_some]
  split
  · exact runXfer_total (hlen ▸ h)
  · exact ⟨_, rfl⟩

theorem runWritePage_total {v : Span} (c : Bool) {s : Hw} (h : v.legal s.scr.length = true) :
    ∃ x, runWritePage v c s = some x := runPage_total (payloadOut_legal c h)

theorem runReadPage_total {v : Span} (c : Bool) {s : Hw} (h : v.legal s.scr.length = true) :
    ∃ x, runReadPage v c s = some x := runPage_total (payloadIn_legal c h)

/-! ### The FLASH operations -/

theorem pageChunk_le (ps : Nat) (v : Span) : pageChunk ps v ≤ v.len := Nat.min_le_right _ _

/-- A page read takes at least one byte. -/
theorem pageChunk_pos {ps : Nat} {v : Span} (hps : 0 < ps) (hv : v.len ≠ 0) : 0 < pageChunk ps v := by
  have := Nat.mod_lt v.off.toNat hps
  simp only [pageChunk]
  omega

/-- A shorter span in the same place is legal too. -/
theorem Ref.inRange_le {m : Nat} {r : Ref} {k l : Nat} (h : r.inRange m k = true) (hl : l ≤ k) :
    r.inRange m l = true := by
  obtain ⟨space, a⟩ := r
  cases space with
  | buf => rfl
  | scr => exact decide_eq_true ((Nat.add_le_add_left hl _).trans (of_decide_eq_true h))
  | opb => exact decide_eq_true ((Nat.add_le_add_left hl _).trans (of_decide_eq_true h))

theorem dumpPage_legal {m ps : Nat} {v : Span} (h : v.legal m = true) : (dumpPage ps v).legal m = true :=
  Ref.inRange_le h (pageChunk_le ps v)

theorem Span.advance_legal {m k : Nat} {v : Span} (h : v.legal m = true) (hk : k ≤ v.len) :
    (v.advance k).legal m = true :=
  Ref.inRange_add h (by simp only [Span.advance]; omega)

theorem programByte_legal {m : Nat} {v : Span} (h : v.legal m = true) (hv : v.len ≠ 0) :
    (programByte v).legal m = true :=
  Ref.inRange_le h (Nat.one_le_iff_ne_zero.2 hv)

/-- Dump's page loop comes to an end within as many rounds as there are bytes. -/
theorem runDumpLoop_total {c : Bool} (rounds : Nat) {v : Span} (hr : v.len ≤ rounds) {s : Hw}
    (h : v.legal s.scr.length = true) (hps : 0 < s.latch.ps.toNat) : ∃ x, runDumpLoop c rounds v s = some x := by
  induction rounds generalizing v s with
  | zero => exact ⟨_, by rw [runDumpLoop, if_pos (by omega)]⟩
  | succ rounds ih =>
    rw [runDumpLoop]
    by_cases hv : v.len = 0
    · exact ⟨_, if_pos hv⟩
    · rw [if_neg hv]
      obtain ⟨⟨s1, r1⟩, h1⟩ := runReadPage_total c (dumpPage_legal (ps := s.latch.ps.toNat) h)
      have hsame := runReadPage_same h1
      simp only [h1, Option.bind_some]
      split
      · have hpos := pageChunk_pos hps hv
        refine ih ?_ ?_ ?_
        · rw [hsame.latch]
          simp only [Span.advance]
          omega
        · rw [hsame.scrLength, hsame.latch]
          exact Span.advance_legal h (pageChunk_le _ _)
        · rw [hsame.latch]
          exact hps
      · exact ⟨_, rfl⟩

/-- 00_scope.md R4. -/
theorem Params.index_le {p : Params} (hp : p.wellFormed = true) : p.checksumIndex ≤ 32766 := by
  simp only [Params.wellFormed, Bool.and_eq_true, decide_eq_true_eq] at hp
  exact hp.2

theorem repairSpan_legal (p : Params) (hp : p.wellFormed = true) (m : Nat) (hm : m = 2 * (p.checksumIndex + 1)) :
    (repairSpan p).legal m = true := by
  simp only [Params.wellFormed, Bool.and_eq_true, decide_eq_true_eq] at hp
  simp only [repairSpan, scrRef, Span.legal, Ref.inRange, BitVec.toNat_ofNat, decide_eq_true_eq]
  omega

theorem checksumSpan_legal (p : Params) (m : Nat) (hm : m = 2 * (p.checksumIndex + 1)) :
    (checksumSpan p).legal m = true := by
  simp [checksumSpan, scrRef, Span.legal, Ref.inRange, hm]

theorem bufSpan_legal (m : Nat) (a : Word) (off : Half) (len : Nat) : (Span.mk (bufRef a) off len).legal m = true := rfl

theorem bufferWord_total (o : WordOrder) (b : List Byte) (j : Nat) (h : 2 * j + 1 < b.length) :
    ∃ w, bufferWord o b j = some w := by
  simp only [bufferWord, List.getElem?_eq_getElem (show 2 * j < b.length by omega), List.getElem?_eq_getElem h]
  exact ⟨_, rfl⟩

theorem wordSum_total (o : WordOrder) (b : List Byte) (k : Nat) (h : 2 * k ≤ b.length) :
    ∃ w, wordSum o b k = some w := by
  induction k with
  | zero => exact ⟨_, rfl⟩
  | succ k ih =>
    obtain ⟨x, hx⟩ := ih (by omega)
    obtain ⟨w, hw⟩ := bufferWord_total o b k (by omega)
    exact ⟨x + w, by simp only [wordSum, hx, hw]⟩

/-- ChecksumEval answers where its buffer holds the k + 1 words (43_flash_ops.md R83). -/
theorem checksumEval_total (o : WordOrder) (b : List Byte) (k : Nat) (e : Half) (h : 2 * (k + 1) ≤ b.length) :
    ∃ x, checksumEval o b k e = some x := by
  obtain ⟨t, ht⟩ := wordSum_total o b k (by omega)
  obtain ⟨w, hw⟩ := bufferWord_total o b k (by omega)
  exact ⟨⟨e - t, w⟩, by simp only [checksumEval, ht, hw]⟩

theorem runEraseFrame_total (c : Bool) (s : Hw) : ∃ x, runEraseFrame c s = some x := by
  obtain ⟨x, hx⟩ := runXfer_total (a := opcodeArgs 8 c) (s := (runStandby s).setOpb0 s.params.opChipErase)
    (opcodeArgs_legal _ _ _ (by omega))
  exact ⟨_, by simp only [runEraseFrame, hx]; rfl⟩

theorem runEraseBody_total (c : Bool) (s : Hw) : ∃ x, runEraseBody c s = some x := by
  obtain ⟨⟨s1, r1⟩, h1⟩ := runClearBp_total c s
  simp only [runEraseBody, h1, Option.bind_some]
  split
  · obtain ⟨⟨s2, r2⟩, h2⟩ := runEnableWrite_total c s1
    simp only [h2, Option.bind_some]
    split
    · exact runEraseFrame_total c s2
    · exact ⟨_, rfl⟩
  · exact ⟨_, rfl⟩

theorem runErase_total (c : Bool) (s : Hw) : ∃ x, runErase c s = some x := by
  simp only [runErase]
  split
  · exact runEraseBody_total c _
  · exact ⟨_, rfl⟩

theorem runUnlock_total (c : Bool) (s : Hw) : ∃ x, runUnlock c s = some x := by
  simp only [runUnlock]
  split
  · obtain ⟨x, hx⟩ := runClearBp_total c (runStandby (runAcquire s).1)
    exact ⟨_, by rw [hx]; rfl⟩
  · exact ⟨_, rfl⟩

end Sys2Proof.Machine
end

