-- ==== Sys2Proof/Laws/Completeness.lean ====
section
/-! SUPPORT. Back from a procedure's run to its pseudocode: a run that comes to an end comes to the end that the pseudocode,
run straight through with some bound on PollReady's status reads, comes to. -/

namespace Sys2Proof.Machine

/-- Where the pseudocode comes to an end, a run can come to no other. -/
theorem run_of_ends {π ρ : Type} {f : π → Hw → Hw × Res π ρ} {x : Res π ρ} {s s' : Hw} {r : ρ}
    {run : Option (Hw × ρ)} (htotal : ∃ y, run = some y) (hends : ∀ s1 r1, run = some (s1, r1) → ResEnds f x s r1 s1)
    (h : ResEnds f x s r s') : run = some (s', r) := by
  obtain ⟨⟨s1, r1⟩, hy⟩ := htotal
  obtain ⟨rfl, rfl⟩ := ResEnds.det (hends s1 r1 hy) h
  exact hy

theorem runReadStatus_of_ends {c : Bool} {s s' : Hw} {r : StatusOutcome}
    (h : ResEnds (stepReadStatus c) (enterReadStatus s) s r s') : runReadStatus c s = some (s', r) :=
  run_of_ends (runReadStatus_total c s) (fun _ _ => stepReadStatus_ends) h

/-! ### PollReady -/

/-- PollReady after one status read, with `fuel` more allowed. -/
def pollRest (fuel : Nat) (c : Bool) (s : Hw) (r : StatusOutcome) : Option (Hw × StatusOutcome) :=
  match r with
  | .ok st => if statusBusy s.params st then runPollReady fuel c s else some (s, .ok st)
  | .cancelled => some (s, .cancelled)

theorem runPollReady_succ {fuel : Nat} {c : Bool} {s s1 : Hw} {r1 : StatusOutcome}
    (h : runReadStatus c s = some (s1, r1)) : runPollReady (fuel + 1) c s = pollRest fuel c s1 r1 := by
  rw [runPollReady, h, Option.bind_some]
  cases r1 <;> rfl

theorem stepPollReady_back {c : Bool} {p : ReadStatusPt} {s s' : Hw} {r : StatusOutcome}
    (h : Ends (stepPollReady c) p s r s') :
    ∃ s1 r1, Ends (stepReadStatus c) p s r1 s1 ∧ ∃ fuel, pollRest fuel c s1 r1 = some (s', r) := by
  induction h with
  | @last p s s' r h =>
    rcases hf : stepReadStatus c p s with ⟨s1, q | r1 | e⟩
    · simp [stepPollReady, hf, chainStep] at h
    · refine ⟨s1, r1, .last hf, 0, ?_⟩
      simp only [stepPollReady, hf, chainStep, Res.chain_ret, Prod.mk.injEq] at h
      obtain ⟨rfl, h⟩ := h
      cases r1 with
      | cancelled => simp only [afterStatus, Res.ret.injEq] at h; rw [← h]; rfl
      | ok st =>
        simp only [afterStatus] at h
        split at h
        · obtain ⟨q, hq⟩ := enterReadStatus_goto s1
          rw [hq] at h
          cases h
        · cases h
          simp only [pollRest, if_neg ‹_›]
    · simp [stepPollReady, hf, chainStep] at h
  | @more p q s s2 s' r h rest ih =>
    obtain ⟨s3, r3, he, fuel, hrest⟩ := ih
    rcases hf : stepReadStatus c p s with ⟨s1, q1 | r1 | e⟩
    · simp only [stepPollReady, hf, chainStep, Res.chain_goto, id, Prod.mk.injEq, Res.goto.injEq] at h
      obtain ⟨rfl, rfl⟩ := h
      exact ⟨s3, r3, .more hf he, fuel, hrest⟩
    · refine ⟨s1, r1, .last hf, fuel + 1, ?_⟩
      simp only [stepPollReady, hf, chainStep, Res.chain_ret, Prod.mk.injEq] at h
      obtain ⟨rfl, h⟩ := h
      cases r1 with
      | cancelled => simp [afterStatus] at h
      | ok st =>
        simp only [afterStatus] at h
        split at h
        · have hr : runReadStatus c s1 = some (s3, r3) := runReadStatus_of_ends (by rw [h]; exact he)
          simp only [pollRest]
          rw [if_pos ‹_›, runPollReady_succ hr]
          exact hrest
        · cases h
    · simp [stepPollReady, hf, chainStep] at h

theorem runPollReady_of_ends {c : Bool} {s s' : Hw} {r : StatusOutcome}
    (h : ResEnds (stepPollReady c) (enterReadStatus s) s r s') : ∃ fuel, runPollReady fuel c s = some (s', r) := by
  obtain ⟨p, hp⟩ := enterReadStatus_goto s
  rw [hp] at h
  obtain ⟨s1, r1, he, fuel, hrest⟩ := stepPollReady_back h
  have hr : runReadStatus c s = some (s1, r1) := runReadStatus_of_ends (by rw [hp]; exact he)
  exact ⟨fuel + 1, (runPollReady_succ hr).trans hrest⟩

theorem runPollReady_mono {c : Bool} {fuel more : Nat} (hle : fuel ≤ more) {s : Hw} {x : Hw × StatusOutcome}
    (h : runPollReady fuel c s = some x) : runPollReady more c s = some x := by
  induction fuel generalizing more s with
  | zero => cases h
  | succ fuel ih =>
    obtain ⟨more, rfl⟩ : ∃ m, more = m + 1 := ⟨more - 1, by omega⟩
    obtain ⟨⟨s1, r1⟩, h1⟩ := runReadStatus_total c s
    rw [runPollReady_succ h1] at h ⊢
    cases r1 with
    | cancelled => exact h
    | ok st =>
      simp only [pollRest] at h ⊢
      split at h
      · rw [if_pos ‹_›]
        exact ih (by omega) h
      · rw [if_neg ‹_›]
        exact h

/-! ### Dump -/

theorem runDump_of_ends {c : Bool} {v : Span} {s s' : Hw} {r : SubOutcome} (hv : v.legal s.scr.length = true)
    (hps : 0 < s.latch.ps.toNat) (h : ResEnds (stepDump c) (enterDump s v) s r s') :
    ∃ fuel, runDump fuel c v s = some (s', r) := by
  obtain ⟨r1, s1, h1, h2⟩ := ResEnds.unchain stepDump_poll (fun _ _ => rfl) h
  obtain ⟨fuel, hf⟩ := runPollReady_of_ends h1
  refine ⟨fuel, ?_⟩
  have hsame := runPollReady_same hf
  simp only [runDump, hf, Option.bind_some]
  cases r1 with
  | ok st =>
    exact run_of_ends (runDumpLoop_total v.len (Nat.le_refl _) (hsame.scrLength ▸ hv) (hsame.latch ▸ hps))
      (fun _ _ => stepDump_loop_ends) h2
  | cancelled => obtain ⟨rfl, rfl⟩ := h2; rfl

theorem runDump_mono {c : Bool} {fuel more : Nat} (hle : fuel ≤ more) {v : Span} {s : Hw} {x : Hw × SubOutcome}
    (h : runDump fuel c v s = some x) : runDump more c v s = some x := by
  simp only [runDump, Option.bind_eq_some_iff] at h ⊢
  obtain ⟨y, hy, h⟩ := h
  exact ⟨y, runPollReady_mono hle hy, h⟩

/-! ### Program -/

theorem runProgramByte_mono {c : Bool} {fuel more : Nat} (hle : fuel ≤ more) {v : Span} {s : Hw} {x : Hw × SubOutcome}
    (h : runProgramByte fuel c v s = some x) : runProgramByte more c v s = some x := by
  simp only [runProgramByte, Option.bind_eq_some_iff] at h ⊢
  obtain ⟨y, hy, h⟩ := h
  exact ⟨y, runPollReady_mono hle hy, h⟩

theorem runProgramLoop_mono {c : Bool} {fuel more : Nat} (hle : fuel ≤ more) (left : Nat) {v : Span} {s : Hw}
    {x : Hw × SubOutcome} (h : runProgramLoop fuel c left v s = some x) : runProgramLoop more c left v s = some x := by
  induction left generalizing v s with
  | zero =>
    simp only [runProgramLoop, Option.map_eq_some_iff] at h ⊢
    obtain ⟨y, hy, h⟩ := h
    exact ⟨y, runPollReady_mono hle hy, h⟩
  | succ left ih =>
    simp only [runProgramLoop, Option.bind_eq_some_iff] at h ⊢
    obtain ⟨⟨s1, r1⟩, hy, h⟩ := h
    refine ⟨(s1, r1), runProgramByte_mono hle hy, ?_⟩
    cases r1 with
    | ok => exact ih h
    | cancelled => exact h
    | arbitrationTimeout => exact h
    | protectedRegion => exact h

theorem runEnableWrite_of_ends {c : Bool} {s s' : Hw} {r : SubOutcome}
    (h : ResEnds (stepEnableWrite c) (enterEnableWrite s) s r s') : runEnableWrite c s = some (s', r) :=
  run_of_ends (runEnableWrite_total c s) (fun _ _ => stepEnableWrite_ends) h

theorem runClearBp_of_ends {c : Bool} {s s' : Hw} {r : SubOutcome}
    (h : ResEnds (stepClearBp c) (enterWriteStatus s) s r s') : runClearBp c s = some (s', r) :=
  run_of_ends (runClearBp_total c s) (fun _ _ => stepClearBp_ends) h

theorem runRelease_of_ends {s s' : Hw} {r : SubOutcome} (h : ResEnds stepRelease (enterRelease s) s r s') :
    runRelease s = s' := (ResEnds.det (stepRelease_ends s) h).2

/-- One byte of Program's loop, back from its run. -/
theorem runProgramByte_of_ends {c : Bool} {v : Span} (hne : v.len ≠ 0) {s s' : Hw} {r : SubOutcome}
    (hv : v.legal s.scr.length = true)
    (h : ResEnds (stepProgram c) ((enterReadStatus s).chain (.poll v) (programPolled v s)) s r s') :
    ∃ fuel s1 r1, runProgramByte fuel c v s = some (s1, r1) ∧
      ResEnds (stepProgram c) (programWritten v s1 r1) s1 r s' := by
  obtain ⟨r1, s1, h1, h2⟩ := ResEnds.unchain stepProgram_poll (fun _ _ => rfl) h
  obtain ⟨fuel, hf⟩ := runPollReady_of_ends h1
  have hsame := runPollReady_same hf
  cases r1 with
  | cancelled => exact ⟨fuel, s1, .cancelled, by simp only [runProgramByte, hf, Option.bind_some], h2⟩
  | ok st =>
    have hgoto : ∀ r, enterEnableWrite s1 = .ret r → (Res.ret r : Res ProgramPt SubOutcome) = programEnabled v s1 r := by
      intro r hr
      obtain ⟨p, hp⟩ := enterEnableWrite_goto s1
      rw [hp] at hr
      cases hr
    obtain ⟨r2, s2, h3, h4⟩ := ResEnds.unchain stepProgram_enable hgoto h2
    have hw := runEnableWrite_of_ends h3
    have hstop : r2 ≠ .ok → ∃ fuel s1 r1, runProgramByte fuel c v s = some (s1, r1) ∧
        ResEnds (stepProgram c) (programWritten v s1 r1) s1 r s' := by
      intro hr2
      refine ⟨fuel, s2, .cancelled, ?_, ?_⟩
      · simp only [runProgramByte, hf, hw, Option.bind_some]
      · cases r2 with
        | ok => exact (hr2 rfl).elim
        | cancelled => exact h4
        | arbitrationTimeout => exact h4
        | protectedRegion => exact h4
    cases r2 with
    | ok =>
      have hgoto : ∀ r, enterPage s2 = .ret r → (Res.ret r : Res ProgramPt SubOutcome) = programWritten v s2 r := by
        intro r hr
        obtain ⟨p, hp⟩ := enterPage_goto s2
        rw [hp] at hr
        cases hr
      obtain ⟨r3, s3, h5, h6⟩ := ResEnds.unchain stepProgram_write hgoto h4
      have hlen := ((runPollReady_same hf).trans (runEnableWrite_same hw)).scrLength
      have hp := run_of_ends (runWritePage_total c (hlen ▸ programByte_legal hv hne))
        (fun _ _ => stepWritePage_ends) h5
      exact ⟨fuel, s3, r3, by simp only [runProgramByte, hf, hw, hp, Option.bind_some], h6⟩
    | cancelled => exact hstop (by simp)
    | arbitrationTimeout => exact hstop (by simp)
    | protectedRegion => exact hstop (by simp)

theorem runProgramLoop_of_ends {c : Bool} (left : Nat) {v : Span} (hlen : v.len = left) {s s' : Hw} {r : SubOutcome}
    (hv : v.legal s.scr.length = true) (h : ResEnds (stepProgram c) (programNext s v) s r s') :
    ∃ fuel, runProgramLoop fuel c left v s = some (s', r) := by
  induction left generalizing v s with
  | zero =>
    rw [programNext, if_pos hlen] at h
    obtain ⟨r1, s1, h1, h2⟩ := ResEnds.unchain stepProgram_finalPoll (fun _ _ => rfl) h
    obtain ⟨fuel, hf⟩ := runPollReady_of_ends h1
    obtain ⟨rfl, rfl⟩ := h2
    exact ⟨fuel, by simp only [runProgramLoop, hf, Option.map_some]⟩
  | succ left ih =>
    rw [programNext, if_neg (by omega)] at h
    obtain ⟨fuel, s1, r1, hb, h2⟩ := runProgramByte_of_ends (by omega) hv h
    have hsame : s.SameRegs s1 := by
      simp only [runProgramByte, Option.bind_eq_some_iff, Prod.exists] at hb
      obtain ⟨s2, r2, h3, h4⟩ := hb
      refine (runPollReady_same h3).trans ?_
      cases r2 with
      | cancelled => cases h4; exact .refl _
      | ok st =>
        simp only [Option.bind_eq_some_iff, Prod.exists] at h4
        obtain ⟨s3, r3, h5, h6⟩ := h4
        refine (runEnableWrite_same h5).trans ?_
        cases r3 with
        | ok => exact runWritePage_same h6
        | cancelled => cases h6; exact .refl _
        | arbitrationTimeout => cases h6; exact .refl _
        | protectedRegion => cases h6; exact .refl _
    have hstop : r1 ≠ .ok → ∃ fuel, runProgramLoop fuel c (left + 1) v s = some (s', r) := by
      intro hr1
      have h2' : ResEnds (stepProgram c) (.ret .cancelled) s1 r s' := by
        cases r1 with
        | ok => exact (hr1 rfl).elim
        | cancelled => exact h2
        | arbitrationTimeout => exact h2
        | protectedRegion => exact h2
      obtain ⟨rfl, rfl⟩ := h2'
      refine ⟨fuel, ?_⟩
      simp only [runProgramLoop, hb, Option.bind_some]
    cases r1 with
    | ok =>
      obtain ⟨fuel', hf'⟩ := ih (v := v.advance 1) (by simp [Span.advance, hlen])
        (hsame.scrLength ▸ Span.advance_legal hv (by omega)) h2
      refine ⟨max fuel fuel', ?_⟩
      simp only [runProgramLoop, runProgramByte_mono (Nat.le_max_left fuel fuel') hb, Option.bind_some]
      exact runProgramLoop_mono (Nat.le_max_right fuel fuel') left hf'
    | cancelled => exact hstop (by simp)
    | arbitrationTimeout => exact hstop (by simp)
    | protectedRegion => exact hstop (by simp)

theorem runProgram_mono {c : Bool} {fuel more : Nat} (hle : fuel ≤ more) {v : Span} {s : Hw} {x : Hw × SubOutcome}
    (h : runProgram fuel c v s = some x) : runProgram more c v s = some x := by
  simp only [runProgram, Option.bind_eq_some_iff] at h ⊢
  obtain ⟨⟨s1, r1⟩, hy, h⟩ := h
  refine ⟨(s1, r1), hy, ?_⟩
  cases r1 with
  | ok => exact runProgramLoop_mono hle v.len h
  | cancelled => exact h
  | arbitrationTimeout => exact h
  | protectedRegion => exact h

theorem runProgram_of_ends {c : Bool} {v : Span} {s s' : Hw} {r : SubOutcome} (hv : v.legal s.scr.length = true)
    (h : ResEnds (stepProgram c) (enterProgram s v) s r s') : ∃ fuel, runProgram fuel c v s = some (s', r) := by
  obtain ⟨r1, s1, h1, h2⟩ := ResEnds.unchain stepProgram_clearBp (fun _ _ => rfl) h
  have hf := runClearBp_of_ends h1
  have hstop : r1 ≠ .ok → ∃ fuel, runProgram fuel c v s = some (s', r) := by
    intro hr1
    have h2' : ResEnds (stepProgram c) ((enterRelease s1).chain .release fun _ => .ret .protectedRegion) s1 r s' := by
      cases r1 with
      | ok => exact (hr1 rfl).elim
      | cancelled => exact h2
      | arbitrationTimeout => exact h2
      | protectedRegion => exact h2
    obtain ⟨r2, s2, h3, h4⟩ := ResEnds.unchain stepProgram_release (fun _ _ => rfl) h2'
    obtain ⟨rfl, rfl⟩ := h4
    refine ⟨0, ?_⟩
    simp only [runProgram, hf, Option.bind_some, runRelease_of_ends h3]
  cases r1 with
  | ok =>
    obtain ⟨fuel, hl⟩ := runProgramLoop_of_ends v.len rfl ((runClearBp_same hf).scrLength ▸ hv) h2
    exact ⟨fuel, by simp only [runProgram, hf, Option.bind_some]; exact hl⟩
  | cancelled => exact hstop (by simp)
  | arbitrationTimeout => exact hstop (by simp)
  | protectedRegion => exact hstop (by simp)

/-! ### CHECKSUM -/

theorem memWrite_scr_total {s : Hw} {a : Nat} (ha : a < s.scr.length) (v : Byte) :
    ∃ s', s.memWrite (scrRef a) v = some s' :=
  memWrite_total (by
    simp only [scrRef, Ref.inRange, BitVec.toNat_ofNat, decide_eq_true_eq]
    exact (Nat.add_le_add_right (Nat.mod_le _ _) 1).trans ha) v

theorem runRepair_of_ends {c rp : Bool} {x : ChecksumResult} {s s' : Hw} {r : RCode} (hp : s.params.wellFormed = true)
    (hm : s.scr.length = 2 * (s.params.checksumIndex + 1))
    (h : Ends (stepChecksum c rp) (.scrLow x.computed) s r s') : ∃ fuel, runRepair fuel c x s = some (s', r) := by
  obtain ⟨s1, h1⟩ := memWrite_scr_total (s := s) (a := 2 * s.params.checksumIndex) (by omega)
    (firstByte s.params.wordOrder x.computed)
  have hs1 := Hw.SameRegs.memWrite h1
  have t1 := h.tail (s1 := s1) (x := .goto (.scrHigh x.computed)) (by simp only [stepChecksum, storeScr, h1])
  obtain ⟨s2, h2⟩ := memWrite_scr_total (s := s1) (a := 2 * s1.params.checksumIndex + 1)
    (by rw [hs1.scrLength, hs1.params]; omega) (secondByte s1.params.wordOrder x.computed)
  have hs2 := hs1.trans (Hw.SameRegs.memWrite h2)
  have t2 := Ends.tail t1 (s1 := s2) (x := checksumRepair s2) (by simp only [stepChecksum, storeScr, h2])
  obtain ⟨r3, s3, h3, h4⟩ := ResEnds.unchain stepChecksum_program (fun _ _ => rfl) t2
  obtain ⟨fuel, hf⟩ := runProgram_of_ends
    (repairSpan_legal _ (hs2.params ▸ hp) _ (by rw [hs2.scrLength, hs2.params]; exact hm)) h3
  refine ⟨fuel, ?_⟩
  simp only [runRepair, h1, h2, Option.bind_some, hf, Option.map_some, Option.some.injEq]
  cases r3 with
  | protectedRegion => obtain ⟨rfl, rfl⟩ := h4; rfl
  | ok => obtain ⟨rfl, rfl⟩ := ResEnds.det (checksumRelease_ends _ _) h4; rfl
  | cancelled => obtain ⟨rfl, rfl⟩ := ResEnds.det (checksumRelease_ends _ _) h4; rfl
  | arbitrationTimeout => obtain ⟨rfl, rfl⟩ := ResEnds.det (checksumRelease_ends _ _) h4; rfl

theorem runCompare_of_ends {c rp : Bool} {s s' : Hw} {r : RCode} (hp : s.params.wellFormed = true)
    (hm : s.scr.length = 2 * (s.params.checksumIndex + 1)) (h : Ends (stepChecksum c rp) (.evalFirst 0 0#16) s r s') :
    ∃ fuel, runCompare fuel c rp s = some (s', r) := by
  obtain ⟨x, hx⟩ : ∃ x, scrChecksum s = some x := checksumEval_total _ _ _ _ (by omega)
  have hrest := ((stepChecksum_eval_iff (Params.index_le hp) hx).mp h).tail (s1 := s.setRdata (checksumData x))
    (x := checksumCompared rp (s.setRdata (checksumData x)) x) rfl
  simp only [runCompare, hx, Option.bind_some]
  simp only [checksumCompared] at hrest
  split at hrest
  · simp only [if_pos ‹x.agrees = true›]
    obtain ⟨rfl, rfl⟩ := ResEnds.det (checksumRelease_ends _ _) hrest
    exact ⟨0, rfl⟩
  · simp only [if_neg ‹¬x.agrees = true›]
    split at hrest
    · simp only [if_pos ‹rp = true›]
      exact runRepair_of_ends (s := s.setRdata (checksumData x)) hp hm hrest
    · simp only [if_neg ‹¬rp = true›]
      obtain ⟨rfl, rfl⟩ := ResEnds.det (checksumRelease_ends _ _) hrest
      exact ⟨0, rfl⟩

theorem runRepair_mono {c : Bool} {fuel more : Nat} (hle : fuel ≤ more) {x : ChecksumResult} {s : Hw} {y : Hw × RCode}
    (h : runRepair fuel c x s = some y) : runRepair more c x s = some y := by
  simp only [runRepair, Option.bind_eq_some_iff, Option.map_eq_some_iff] at h ⊢
  obtain ⟨s1, h1, s2, h2, z, h3, h4⟩ := h
  exact ⟨s1, h1, s2, h2, z, runProgram_mono hle h3, h4⟩

theorem runCompare_mono {c rp : Bool} {fuel more : Nat} (hle : fuel ≤ more) {s : Hw} {y : Hw × RCode}
    (h : runCompare fuel c rp s = some y) : runCompare more c rp s = some y := by
  simp only [runCompare, Option.bind_eq_some_iff] at h ⊢
  obtain ⟨x, hx, h⟩ := h
  refine ⟨x, hx, ?_⟩
  split at h
  · rw [if_pos ‹_›]
    exact h
  · rw [if_neg ‹_›]
    split at h
    · rw [if_pos ‹_›]
      exact runRepair_mono hle h
    · rw [if_neg ‹_›]
      exact h

theorem runChecksum_of_ends {c rp : Bool} {s s' : Hw} {r : RCode} (hp : s.params.wellFormed = true)
    (hm : s.scr.length = 2 * (s.params.checksumIndex + 1)) (hps : 0 < s.latch.ps.toNat)
    (h : ResEnds (stepChecksum c rp) (enterChecksum s) s r s') : ∃ fuel, runChecksum fuel c rp s = some (s', r) := by
  obtain ⟨r1, s1, h1, h2⟩ := ResEnds.unchain stepChecksum_acquire (fun _ _ => rfl) h
  obtain ⟨rfl, rfl⟩ := ResEnds.det (stepAcquire_ends s) h1
  have hs1 := runAcquire_same s
  simp only [runChecksum]
  obtain ho | ho := runAcquire_outcome s <;> simp only [ho] at h2 ⊢
  · obtain ⟨r2, s2, h3, h4⟩ := ResEnds.unchain stepChecksum_dump (fun _ _ => rfl) h2
    obtain ⟨fuel, hf⟩ := runDump_of_ends
      (checksumSpan_legal _ _ (by rw [hs1.scrLength, hs1.params]; exact hm)) (hs1.latch ▸ hps) h3
    have hs2 := hs1.trans (runDump_same hf)
    rw [hs1.params] at hf
    have hstop : r2 ≠ .ok → ∃ fuel, (runDump fuel c (checksumSpan s.params) (runAcquire s).1).bind (fun x =>
        match x.2 with
        | .ok => runCompare fuel c rp x.1
        | _ => some (runRelease x.1, .cancelled)) = some (s', r) := by
      intro hr2
      have h4' : ResEnds (stepChecksum c rp) (checksumRelease s2 .cancelled) s2 r s' := by
        cases r2 with
        | ok => exact (hr2 rfl).elim
        | cancelled => exact h4
        | arbitrationTimeout => exact h4
        | protectedRegion => exact h4
      obtain ⟨rfl, rfl⟩ := ResEnds.det (checksumRelease_ends _ _) h4'
      exact ⟨fuel, by simp only [hf, Option.bind_some]⟩
    cases r2 with
    | ok =>
      obtain ⟨fuel', hf'⟩ := runCompare_of_ends (hs2.params ▸ hp) (by rw [hs2.scrLength, hs2.params]; exact hm) h4
      refine ⟨max fuel fuel', ?_⟩
      rw [runDump_mono (Nat.le_max_left fuel fuel') hf]
      exact runCompare_mono (Nat.le_max_right fuel fuel') hf'
    | cancelled => exact hstop (by simp)
    | arbitrationTimeout => exact hstop (by simp)
    | protectedRegion => exact hstop (by simp)
  · obtain ⟨rfl, rfl⟩ := h2
    exact ⟨0, rfl⟩

theorem runChecksum_mono {c rp : Bool} {fuel more : Nat} (hle : fuel ≤ more) {s : Hw} {y : Hw × RCode}
    (h : runChecksum fuel c rp s = some y) : runChecksum more c rp s = some y := by
  simp only [runChecksum] at h ⊢
  obtain ho | ho := runAcquire_outcome s <;> simp only [ho] at h ⊢
  · simp only [Option.bind_eq_some_iff] at h ⊢
    obtain ⟨⟨s1, r1⟩, h1, h2⟩ := h
    refine ⟨(s1, r1), runDump_mono hle h1, ?_⟩
    cases r1 with
    | ok => exact runCompare_mono hle h2
    | cancelled => exact h2
    | arbitrationTimeout => exact h2
    | protectedRegion => exact h2
  · exact h

end Sys2Proof.Machine
end

