-- ==== Sys2Proof/Laws/Commands.lean ====
section
/-! SUPPORT. From a command's acceptance to its `finish`, and back: what carries a procedure's run to the whole command
(`CommandEnds`), for any command that enters a procedure. -/

namespace Sys2Proof.Machine

/-- One step, then n more. -/
theorem run_step {s t u : State} (h : step s = .next t) {n : Nat} (hn : Host.Core.run Sys2Proof.core (n + 1) s = .next u) :
    Host.Core.run Sys2Proof.core n t = .next u :=
  (run_succ (M := Sys2Proof.core) h n).symm.trans hn

/-- An idle, quiet machine stays as it is. -/
theorem idle_stays {u : State} (hu : u.seq = .idle) (hq : u.Quiet) (n : Nat) :
    Host.Core.run Sys2Proof.core n u = .next u := by
  induction n with
  | zero => rfl
  | succ n ih =>
    refine (run_succ (M := Sys2Proof.core) (t := u) ?_ n).trans ih
    show step u = .next u
    simp [step, State.mover, hq.turns, hu, popTurn_quiet hq.turns, hostStep, hq.ops, hq.posted]

theorem blockStep_of_seq {q : Seq} {s : State} {x : Host.Outcome State Fault Refusal} (h : s.seq = q)
    (hx : blockStep { s with seq := q } = x) : blockStep s = x := by
  subst h
  exact hx

theorem step_finish {s : State} (hs : s.Quiet) (h : Hw) (code : RCode) :
    step { s with hw := h, seq := .finish code } = .next (State.finish { s with hw := h } code) := by
  rw [step_eq_blockStep (by exact hs.turns) (by simp)]
  rfl

theorem step_statusResult {s : State} (hs : s.Quiet) (h : Hw) (st : Byte) :
    step { s with hw := h, seq := .statusResult st } =
      .next { s with hw := h.setRdata (st.setWidth 32), seq := .finish .ok } := by
  rw [step_eq_blockStep (by exact hs.turns) (by simp)]
  rfl

/-- The ending of READ_STATUS and POLL_READY (42_flash_commands.md R73, R76). -/
theorem reaches_endStatus {s : State} (hs : s.Quiet) (h : Hw) (r : StatusOutcome) :
    Reaches { s with hw := h, seq := endStatusCommand r }
      (State.finish { s with hw := (statusEnding (h, r)).1 } (statusEnding (h, r)).2) := by
  cases r with
  | ok st => exact .head (step_statusResult hs h st) (reaches_finish s hs.turns _ _)
  | cancelled => exact reaches_finish s hs.turns h .cancelled

/-- A command that enters a procedure ends where the procedure's ending does. -/
theorem commandEnds_of_ends {π ρ : Type} {f : π → Hw → Hw × Res π ρ} {wrap : π → Seq} {k : ρ → Seq}
    (hidle : ∀ p, wrap p ≠ .idle)
    (hb : ∀ (p : π) (s : State), s.seq = wrap p → blockStep s = s.advance (f p s.hw) wrap k) {x : Res π ρ} {h' : Hw}
    {r : ρ} {i : Instr} {s : State} (hs : s.Accepted) (he : exec i s = s.enter x wrap k) (hr : ResEnds f x s.hw r h')
    {h'' : Hw} {code : RCode}
    (hu : Reaches { s with hw := h', seq := k r } (State.finish { s with hw := h'' } code)) :
    CommandEnds i s h'' code := by
  obtain ⟨t, ht, hr⟩ := ResEnds.reaches hidle hb s hr hs.quiet.turns hu
  exact ⟨t, he.trans ht, hr⟩

/-- An illegal command ends at once (60_exceptions.md R86). -/
theorem commandEnds_of_illegal {i : Instr} {s : State} (hs : s.Accepted)
    (he : exec i s = .next (s.at (.finish .illegal))) : CommandEnds i s s.hw .illegal :=
  ⟨_, he, reaches_finish s hs.quiet.turns s.hw .illegal⟩

/-- And back: a command that enters a procedure and comes to an idle state has come to the procedure's end. -/
theorem ends_of_reaches {π ρ : Type} {f : π → Hw → Hw × Res π ρ} {wrap : π → Seq} {k : ρ → Seq}
    (hidle : ∀ p, wrap p ≠ .idle)
    (hb : ∀ (p : π) (s : State), s.seq = wrap p → blockStep s = s.advance (f p s.hw) wrap k) {x : Res π ρ} {i : Instr}
    {s : State} (hs : s.Accepted) (he : exec i s = s.enter x wrap k) {u : State} (hu : u.seq = .idle)
    (hr : ∃ t, exec i s = .next t ∧ Reaches t u) :
    ∃ r h', ResEnds f x s.hw r h' ∧ Reaches { s with hw := h', seq := k r } u := by
  obtain ⟨t, ht, n, hn⟩ := hr
  rw [he] at ht
  cases x with
  | goto p =>
    obtain rfl := Host.Outcome.next.inj ht
    exact run_unchain hidle hb n s hs.quiet.turns s.hw p hu hn
  | ret r =>
    obtain rfl := Host.Outcome.next.inj ht
    exact ⟨r, s.hw, ⟨rfl, rfl⟩, n, hn⟩
  | fault e => cases ht

theorem eq_of_reaches_finish {s u : State} (hs : s.Quiet) (h : Hw) (code : RCode) (hu : u.seq = .idle)
    (hr : Reaches { s with hw := h, seq := .finish code } u) : u = State.finish { s with hw := h } code := by
  obtain ⟨n, hn⟩ := hr
  cases n with
  | zero =>
    obtain rfl := Host.Outcome.next.inj hn
    cases hu
  | succ n =>
    have hf := idle_stays (u := State.finish { s with hw := h } code) rfl ⟨hs.ops, hs.posted, hs.turns⟩ n
    exact Host.Outcome.next.inj ((run_step (step_finish hs h code) hn).symm.trans hf)

theorem eq_of_reaches_endStatus {s u : State} (hs : s.Quiet) (h : Hw) (r : StatusOutcome) (hu : u.seq = .idle)
    (hr : Reaches { s with hw := h, seq := endStatusCommand r } u) :
    u = State.finish { s with hw := (statusEnding (h, r)).1 } (statusEnding (h, r)).2 := by
  cases r with
  | ok st =>
    obtain ⟨n, hn⟩ := hr
    cases n with
    | zero =>
      obtain rfl := Host.Outcome.next.inj hn
      cases hu
    | succ n => exact eq_of_reaches_finish hs _ _ hu ⟨n, run_step (step_statusResult hs h st) hn⟩
  | cancelled => exact eq_of_reaches_finish hs h .cancelled hu hr

/-- The page size in a command's latch is not 0 (10_state.md R26). -/
theorem legalPageSize_pos {ps : BitVec 17} (h : legalPageSize ps = true) : 0 < ps.toNat := by
  simp only [legalPageSize, List.any_eq_true, List.mem_range, beq_iff_eq] at h
  obtain ⟨k, hk, rfl⟩ := h
  revert k
  decide

end Sys2Proof.Machine
end

