-- ==== Sys2Proof/Laws/Host.lean ====
section
/-! SUPPORT. What the host's accesses can do: one lemma that says everything per shared operation of Machine/HostPort.lean,
for the statements about the window, acceptance and the host bus. -/

namespace Sys2Proof.Machine

/-! ### Which accesses reach the window, and where -/

@[simp] theorem State.offsetOf_wordAccess (s : State) (off : Nat) : s.offsetOf (wordAccess s.hw.params off) = off :=
  Nat.add_sub_cancel_left ..

/-- An access that is not refused is a whole, aligned word of the window, from a host that is admitted. -/
theorem State.refusal_eq_none {s : State} {a : Access} :
    s.refusal a = none ↔
      a = wordAccess s.hw.params (s.offsetOf a) ∧ s.offsetOf a < 0x40 ∧ s.offsetOf a % 4 = 0 ∧ s.admitted = true := by
  obtain ⟨addr, bytes⟩ := a
  simp only [State.refusal, State.offsetOf, wordAccess, windowAddress, Access.mk.injEq]
  constructor
  · intro h
    split at h
    · cases h
    · split at h
      · cases h
      · split at h
        · cases h
        · split at h
          · exact ⟨⟨by omega, by omega⟩, by omega, by omega, ‹_›⟩
          · cases h
  · rintro ⟨⟨h1, h2⟩, h3, h4, h5⟩
    rw [if_neg (by omega), if_neg (by omega), if_neg (by omega), if_pos h5]

/-- A whole word of the window is refused only to a host that is not admitted. -/
theorem State.refusal_wordAccess {s : State} {off : Nat} (h : off < 0x40) (h4 : off % 4 = 0) (ha : s.admitted = true) :
    s.refusal (wordAccess s.hw.params off) = none :=
  State.refusal_eq_none.mpr (by simp [h, h4, ha])

/-- An access is refused exactly where it is not 32 bits wide, not in the window, not word-aligned, or from a host that is
not admitted. -/
theorem State.refusal_isSome_iff {s : State} {a : Access} :
    (∃ e, s.refusal a = some e) ↔
      a.bytes ≠ 4 ∨ a.addr < s.hw.params.windowBase ∨ s.hw.params.windowBase + 0x40 ≤ a.addr ∨
        (a.addr - s.hw.params.windowBase) % 4 ≠ 0 ∨ s.admitted = false := by
  rw [← Option.ne_none_iff_exists', Ne, State.refusal_eq_none]
  obtain ⟨addr, bytes⟩ := a
  simp only [State.offsetOf, wordAccess, windowAddress, Access.mk.injEq]
  cases s.admitted <;>
    (simp only [Bool.false_eq_true, and_false, not_false_eq_true, or_true, and_true, or_false, reduceCtorEq]; try omega)

/-! ### Loads and stores -/

theorem hostLoad_of_refusal {a : Access} {s : State} {e : Refusal} (h : s.refusal a = some e) :
    hostLoad a s = .refused e := by simp only [hostLoad, h]

theorem hostStore_of_refusal {a : Access} {v : Word} {s : State} {e : Refusal} (h : s.refusal a = some e) :
    hostStore a v s = .refused e := by simp only [hostStore, h]

theorem hostLoad_word {s : State} {off : Nat} (h : off < 0x40) (h4 : off % 4 = 0) (ha : s.admitted = true) :
    hostLoad (wordAccess s.hw.params off) s = .next (s.see (.window off (s.hw.windowLoad off))) := by
  simp only [hostLoad, State.refusal_wordAccess h h4 ha, State.offsetOf_wordAccess]

/-- Stores that arrive in program order reach the window at once. -/
theorem hostStore_program {s : State} {off : Nat} (v : Word) (h : off < 0x40) (h4 : off % 4 = 0)
    (ha : s.admitted = true) (ho : s.hw.params.storeOrder = .program) :
    hostStore (wordAccess s.hw.params off) v s = arriveStore off v s := by
  simp only [hostStore, State.refusal_wordAccess h h4 ha, State.offsetOf_wordAccess, ho]

/-- Stores that may arrive in any order are posted. -/
theorem hostStore_any {s : State} {off : Nat} (v : Word) (h : off < 0x40) (h4 : off % 4 = 0)
    (ha : s.admitted = true) (ho : s.hw.params.storeOrder = .any) :
    hostStore (wordAccess s.hw.params off) v s = .next (s.post off v) := by
  simp only [hostStore, State.refusal_wordAccess h h4 ha, State.offsetOf_wordAccess, ho]

/-- Everything a host store can do. -/
theorem hostStore_cases {a : Access} {v : Word} {s t : State} (h : hostStore a v s = .next t) :
    s.refusal a = none ∧
      ((s.hw.params.storeOrder = .program ∧ arriveStore (s.offsetOf a) v s = .next t) ∨
        (s.hw.params.storeOrder = .any ∧ t = s.post (s.offsetOf a) v)) := by
  simp only [hostStore] at h
  split at h
  · cases h
  · refine ⟨‹_›, ?_⟩
    split at h
    · exact .inl ⟨‹_›, h⟩
    · exact .inr ⟨‹_›, (Host.Outcome.next.inj h).symm⟩

/-- Everything a store to CMD can do. -/
theorem storeCmd_cases {w : Word} {s t : State} (h : storeCmd w s = .next t) :
    (s.hw.status.busy = true ∧ t = { s with hw := s.hw.markOverrun }) ∨
      (s.hw.status.busy = false ∧ ((∃ i, decode w = .ok i ∧ exec i (s.accept w) = .next t) ∨
        ((∃ e, decode w = .error e) ∧ t = (s.accept w).at (.finish .illegal)))) := by
  simp only [storeCmd] at h
  cases hb : s.hw.status.busy with
  | true =>
    rw [if_pos hb] at h
    exact .inl ⟨rfl, (Host.Outcome.next.inj h).symm⟩
  | false =>
    rw [if_neg (by simp [hb])] at h
    refine .inr ⟨rfl, ?_⟩
    split at h
    · exact .inl ⟨_, ‹_›, h⟩
    · exact .inr ⟨⟨_, ‹_›⟩, (Host.Outcome.next.inj h).symm⟩

/-- Everything a step of the host bus can do. -/
theorem busStep_cases {k : Nat} {s t : State} (h : busStep k s = .next t) :
    t = s ∨ ∃ x, s.host.posted[k]? = some x ∧ arriveStore x.off x.v (s.unpost k) = .next t := by
  simp only [busStep] at h
  split at h
  · exact .inr ⟨_, ‹_›, h⟩
  · exact .inl (Host.Outcome.next.inj h).symm

/-- A step that brings a store to CMD is that store, on the state without it (10_state.md R15). -/
theorem step_of_delivers {s u : State} {w : Word} (h : s.Delivers w u) : step s = storeCmd w u := by
  cases h with
  | host hm ho hp ha =>
    have hu : { s with host := { s.host with ops := s.host.ops.tail, turns := s.host.turns.tail } } = s.popTurn.popOp := rfl
    rw [ho, List.tail_cons] at hu
    simp only [step, hm, hostStep, State.popTurn_ops, ho, hostOp, hu]
    exact hostStore_program (s := s.popTurn.popOp) (off := 0x00) w (by decide) rfl ha hp
  | bus hm hp =>
    simp only [step, hm, busStep, State.popTurn_posted, hp]
    rfl

end Sys2Proof.Machine
end

