-- ==== Sys2Proof/Laws/Memory.lean ====
section
/-! SUPPORT. BUF as a memory: every operation keeps the canonical form, a read after a write gives the value written at that
address and the old byte at every other, and equal reads mean equal memories; a MemWrite leaves every other byte of the three
spaces alone. -/

namespace Sys2Proof.Machine

theorem Memory.wfFrom_cons {lo a : Nat} {v : Byte} {m : Memory} :
    Memory.wfFrom lo ((a, v) :: m) = true ↔
      lo ≤ a ∧ a < 2 ^ 32 ∧ v ≠ Memory.blank ∧ Memory.wfFrom (a + 1) m = true := by
  simp only [Memory.wfFrom, Bool.and_eq_true, decide_eq_true_eq, and_assoc]

theorem Memory.wfFrom_mono {lo lo' : Nat} {m : Memory} (h : lo' ≤ lo) (hm : Memory.wfFrom lo m = true) :
    Memory.wfFrom lo' m = true := by
  cases m with
  | nil => rfl
  | cons c m =>
    obtain ⟨a, v⟩ := c
    rw [Memory.wfFrom_cons] at hm ⊢
    exact ⟨h.trans hm.1, hm.2⟩

/-- Below its first address a canonical memory reads blank. -/
theorem Memory.read_of_lt {lo x : Nat} {m : Memory} (hm : Memory.wfFrom lo m = true) (h : x < lo) :
    m.read x = Memory.blank := by
  induction m generalizing lo with
  | nil => rfl
  | cons c m ih =>
    obtain ⟨a, v⟩ := c
    rw [Memory.wfFrom_cons] at hm
    simp only [Memory.read, if_neg (show ¬x = a by omega)]
    exact ih hm.2.2.2 (by omega)

theorem Memory.wfFrom_write {lo x : Nat} {v : Byte} {m : Memory} (hm : Memory.wfFrom lo m = true) (hlo : lo ≤ x)
    (hx : x < 2 ^ 32) : Memory.wfFrom lo (m.write x v) = true := by
  induction m generalizing lo with
  | nil =>
    simp only [Memory.write]
    split
    · rfl
    · exact Memory.wfFrom_cons.2 ⟨hlo, hx, ‹_›, rfl⟩
  | cons c m ih =>
    obtain ⟨a, b⟩ := c
    have h := Memory.wfFrom_cons.1 hm
    simp only [Memory.write]
    split
    · split
      · exact hm
      · exact Memory.wfFrom_cons.2 ⟨hlo, hx, ‹_›, Memory.wfFrom_cons.2 ⟨by omega, h.2.1, h.2.2⟩⟩
    · split
      · split
        · exact Memory.wfFrom_mono (by omega) h.2.2.2
        · exact Memory.wfFrom_cons.2 ⟨hlo, hx, ‹_›, by subst x; exact h.2.2.2⟩
      · exact Memory.wfFrom_cons.2 ⟨h.1, h.2.1, h.2.2.1, ih h.2.2.2 (by omega)⟩

/-- A write keeps the canonical form. -/
theorem Memory.wf_write {x : Nat} {v : Byte} {m : Memory} (hm : m.wf = true) (hx : x < 2 ^ 32) :
    (m.write x v).wf = true :=
  Memory.wfFrom_write hm (Nat.zero_le _) hx

theorem Memory.read_write_from {lo : Nat} {m : Memory} (hm : Memory.wfFrom lo m = true) (x y : Nat) (v : Byte) :
    (m.write x v).read y = if y = x then v else m.read y := by
  induction m generalizing lo with
  | nil =>
    simp only [Memory.write]
    split
    · rename_i hv
      simp only [Memory.read, hv, ite_self]
    · rfl
  | cons c m ih =>
    obtain ⟨a, b⟩ := c
    have h := Memory.wfFrom_cons.1 hm
    simp only [Memory.write]
    split
    · split
      · rename_i hxa hv
        by_cases hy : y = x
        · rw [if_pos hy, hy, hv]
          simp only [Memory.read, if_neg (show ¬x = a by omega)]
          exact Memory.read_of_lt h.2.2.2 (by omega)
        · rw [if_neg hy]
      · rfl
    · split
      · rename_i hxa
        subst hxa
        split
        · rename_i hv
          by_cases hy : y = x
          · rw [if_pos hy, hy, hv]
            exact Memory.read_of_lt h.2.2.2 (by omega)
          · simp only [if_neg hy, Memory.read]
        · by_cases hy : y = x
          · simp only [Memory.read, hy, if_true]
          · simp only [Memory.read, if_neg hy]
      · rename_i hxa
        simp only [Memory.read]
        by_cases hy : y = a
        · simp only [hy, if_true, if_neg (show ¬a = x by omega)]
        · simp only [if_neg hy]
          exact ih h.2.2.2

/-- A read after a write (00_scope.md R6). -/
theorem Memory.read_write {m : Memory} (hm : m.wf = true) (x y : Nat) (v : Byte) :
    (m.write x v).read y = if y = x then v else m.read y :=
  Memory.read_write_from hm x y v

/-- A write leaves every other address alone, whatever the memory's form. -/
theorem Memory.read_write_ne (m : Memory) {x y : Nat} (v : Byte) (h : y ≠ x) : (m.write x v).read y = m.read y := by
  induction m with
  | nil =>
    simp only [Memory.write]
    split
    · rfl
    · simp only [Memory.read, if_neg h]
  | cons c m ih =>
    obtain ⟨a, b⟩ := c
    simp only [Memory.write]
    split
    · split <;> simp only [Memory.read, if_neg h]
    · split
      · subst x
        split <;> simp only [Memory.read, if_neg h]
      · simp only [Memory.read, ih]

/-- Canonical memories with equal reads are equal. -/
theorem Memory.ext_from {lo lo' : Nat} {m n : Memory} (hm : Memory.wfFrom lo m = true) (hn : Memory.wfFrom lo' n = true)
    (h : ∀ x, m.read x = n.read x) : m = n := by
  induction m generalizing lo lo' n with
  | nil =>
    cases n with
    | nil => rfl
    | cons c n =>
      obtain ⟨a, v⟩ := c
      have := h a
      simp only [Memory.read, if_true] at this
      exact ((Memory.wfFrom_cons.1 hn).2.2.1 this.symm).elim
  | cons c m ih =>
    obtain ⟨a, v⟩ := c
    have hm' := Memory.wfFrom_cons.1 hm
    cases n with
    | nil =>
      have := h a
      simp only [Memory.read, if_true] at this
      exact (hm'.2.2.1 this).elim
    | cons d n =>
      obtain ⟨b, w⟩ := d
      have hn' := Memory.wfFrom_cons.1 hn
      have hab : a = b := by
        by_contra hne
        rcases Nat.lt_or_gt_of_ne hne with hlt | hlt
        · have := h a
          simp only [Memory.read, if_true, if_neg hne] at this
          rw [Memory.read_of_lt hn'.2.2.2 (by omega)] at this
          exact hm'.2.2.1 this
        · have := h b
          simp only [Memory.read, if_true, if_neg (Ne.symm hne)] at this
          rw [Memory.read_of_lt hm'.2.2.2 (by omega)] at this
          exact hn'.2.2.1 this.symm
      subst hab
      have hvw : v = w := by
        have := h a
        simpa only [Memory.read, if_true] using this
      subst hvw
      rw [ih hm'.2.2.2 hn'.2.2.2 fun x => ?_]
      by_cases hx : x = a
      · subst hx
        rw [Memory.read_of_lt hm'.2.2.2 (by omega), Memory.read_of_lt hn'.2.2.2 (by omega)]
      · have := h x
        simpa only [Memory.read, if_neg hx] using this

/-- A MemWrite keeps BUF's canonical form. -/
theorem memWrite_wf {s s' : Hw} {r : Ref} {v : Byte} (h : s.memWrite r v = some s') (hm : s.mem.wf = true) :
    s'.mem.wf = true := by
  obtain ⟨space, a⟩ := r
  cases space with
  | buf =>
    cases h
    exact Memory.wf_write hm a.isLt
  | scr =>
    simp only [Hw.memWrite] at h
    split at h <;> cases h
    exact hm
  | opb =>
    simp only [Hw.memWrite] at h
    split at h <;> cases h
    exact hm

/-- OPB as a memory. -/
theorem Opb.get_set_ne {o o' : Opb} {v : Byte} {i j : Nat} (h : o.set v i = some o') (hij : i ≠ j) : o'.get j = o.get j := by
  rcases i with _ | _ | _ | _ | i <;> cases h <;> rcases j with _ | _ | _ | _ | j <;>
    first | rfl | exact (hij rfl).elim

/-- A MemWrite leaves every other byte of the three spaces alone (00_scope.md R6). -/
theorem memRead_memWrite_ne {s s' : Hw} {r x : Ref} {v : Byte} (h : s.memWrite r v = some s') (hx : r ≠ x) :
    s'.memRead x = s.memRead x := by
  obtain ⟨space, a⟩ := r
  obtain ⟨space', b⟩ := x
  have hab : space = space' → a.toNat ≠ b.toNat := fun h1 h2 => hx (by rw [h1, BitVec.eq_of_toNat_eq h2])
  obtain ⟨h1, rfl⟩ | ⟨h1, -, rfl⟩ | ⟨h1, o, ho, rfl⟩ := memWrite_cases h <;> obtain rfl : space = _ := h1 <;>
    cases space' <;> simp only [Hw.memRead]
  · exact congrArg some (Memory.read_write_ne _ _ (hab rfl).symm)
  · exact List.getElem?_set_ne (hab rfl)
  · exact Opb.get_set_ne ho (hab rfl)

end Sys2Proof.Machine
end

