-- ==== Sys2Proof/Laws/Legal.lean ====
section
/-! SUPPORT. From a legal point a step of a procedure does not fault, and the point it goes on to is legal; and every step
keeps BUF's canonical form. One lemma per procedure. -/

namespace Sys2Proof.Machine

/-- What a step answers is legal: no fault, and the point it goes on to satisfies P. -/
def Res.Legal {π ρ : Type} (P : π → Bool) : Res π ρ → Prop
  | .goto p => P p = true
  | .ret _ => True
  | .fault _ => False

theorem Res.Legal.chain {π ρ π' ρ' : Type} {P : π → Bool} {Q : π' → Bool} {x : Res π ρ} {wrap : π → π'}
    {k : ρ → Res π' ρ'} (hx : x.Legal P) (hw : ∀ p, P p = true → Q (wrap p) = true) (hk : ∀ r, (k r).Legal Q) :
    (x.chain wrap k).Legal Q := by
  cases x with
  | goto p => exact hw p hx
  | ret r => exact hk r
  | fault e => exact hx.elim

theorem Res.Legal.mono {π ρ : Type} {P Q : π → Bool} {x : Res π ρ} (hx : x.Legal P) (h : ∀ p, P p = true → Q p = true) :
    x.Legal Q := by
  cases x with
  | goto p => exact h p hx
  | ret r => exact hx
  | fault e => exact hx

theorem stepDrive_legal (p : DrivePt) (s : Hw) : (stepDrive p s).2.Legal fun _ => true := by
  cases p <;> first | exact rfl | exact trivial

theorem stepRaise_legal (p : ClockPt) (s : Hw) : (stepRaise p s).2.Legal fun _ => true := by
  cases p with
  | change => exact rfl
  | drive p => exact (stepDrive_legal p s).chain (fun _ _ => rfl) fun _ => trivial

theorem stepLower_legal (p : ClockPt) (s : Hw) : (stepLower p s).2.Legal fun _ => true := by
  cases p with
  | change => exact rfl
  | drive p => exact (stepDrive_legal p s).chain (fun _ _ => rfl) fun _ => trivial

theorem stepAcquire_legal (p : AcquirePt) (s : Hw) : (stepAcquire p s).2.Legal fun _ => true := by
  cases p <;> first | exact rfl | exact trivial

theorem stepRelease_legal (p : ReleasePt) (s : Hw) : (stepRelease p s).2.Legal fun _ => true := by
  cases p <;> first | exact rfl | exact trivial

theorem stepStandby_legal (p : StandbyPt) (s : Hw) : (stepStandby p s).2.Legal fun _ => true := by
  cases p with
  | seed => exact rfl
  | setCen => exact rfl
  | driveHigh p => exact (stepDrive_legal p s).chain (fun _ _ => rfl) fun _ => rfl
  | clearCen => exact rfl
  | driveLow p => exact (stepDrive_legal p s).chain (fun _ _ => rfl) fun _ => trivial

theorem enterAcquire_legal (s : Hw) : (enterAcquire s).Legal fun _ => true := by
  simp only [enterAcquire]
  split <;> trivial

theorem enterRelease_legal (s : Hw) : (enterRelease s).Legal fun _ => true := by
  simp only [enterRelease]
  split <;> trivial

theorem enterStandby_legal (s : Hw) : (enterStandby s).Legal fun _ => true := by
  simp only [enterStandby]
  split <;> trivial

/-! ### Xfer -/

theorem XferArgs.src_inRange {m : Nat} {a : XferArgs} (h : a.legal m = true) {r : Ref} (hr : a.src = some r) :
    r.inRange m ((a.n + 7) / 8) = true := by
  simp only [XferArgs.legal, Bool.and_eq_true, Option.all_eq_true] at h
  exact h.1 r hr

theorem XferArgs.dst_inRange {m : Nat} {a : XferArgs} (h : a.legal m = true) {r : Ref} (hr : a.dst = some r) :
    r.inRange m ((a.n + 7) / 8) = true := by
  simp only [XferArgs.legal, Bool.and_eq_true, Option.all_eq_true] at h
  exact h.2 r hr

theorem XferArgs.bitSource_legal {m : Nat} {a : XferArgs} (h : a.legal m = true) {i : Nat} (hi : i < a.n) :
    (a.bitSource i).legal m a.n = true := by
  simp only [XferArgs.bitSource]
  split
  · rename_i r hr
    simp only [XferPt.legal, hi, decide_true, Bool.true_and]
    exact bitByte_inRange (XferArgs.src_inRange h hr) hi
  · simp only [XferPt.legal, hi, decide_true]

theorem XferArgs.startBit_legal {m : Nat} {a : XferArgs} (h : a.legal m = true) (i : Nat) :
    (a.startBit i).Legal (XferPt.legal m a.n) := by
  simp only [XferArgs.startBit]
  split
  · rename_i hi
    split
    · simp only [Res.Legal, XferPt.legal, hi, decide_true]
    · exact XferArgs.bitSource_legal h hi
  · simp only [XferArgs.tail]
    split
    · rename_i r hr
      split
      · exact Ref.inRange_add (XferArgs.dst_inRange h hr) (by omega)
      · trivial
    · trivial

theorem stepXfer_legal {a : XferArgs} {p : XferPt} {s : Hw} (h : a.legal s.scr.length = true)
    (hp : p.legal s.scr.length a.n = true) : (stepXfer a p s).2.Legal (XferPt.legal s.scr.length a.n) := by
  cases p with
  | seed => exact XferArgs.startBit_legal h 0
  | check i =>
    simp only [XferPt.legal, decide_eq_true_eq] at hp
    simp only [stepXfer]
    split
    · exact rfl
    · exact XferArgs.bitSource_legal h hp
  | markCancelled => trivial
  | fetch i r =>
    simp only [XferPt.legal, Bool.and_eq_true, decide_eq_true_eq] at hp
    obtain ⟨v, hv⟩ := memRead_total hp.2
    simp only [stepXfer, hv, Res.Legal, XferPt.legal, hp.1, decide_true]
  | present i b => exact hp
  | setup i p => exact (stepDrive_legal p s).chain (fun _ _ => hp) fun _ => hp
  | rise i p => exact (stepRaise_legal p s).chain (fun _ _ => hp) fun _ => hp
  | sample i =>
    have hi : i < a.n := of_decide_eq_true hp
    simp only [stepXfer, XferArgs.capture]
    split
    · rename_i r hr
      simp only [Res.Legal, XferPt.legal, hi, decide_true, Bool.true_and]
      exact bitByte_inRange (XferArgs.dst_inRange h hr) hi
    · exact hp
  | load i r =>
    have hp' := hp
    simp only [XferPt.legal, Bool.and_eq_true, decide_eq_true_eq] at hp'
    obtain ⟨v, hv⟩ := memRead_total hp'.2
    simp only [stepXfer, hv]
    exact hp
  | store i r v =>
    have hp' := hp
    simp only [XferPt.legal, Bool.and_eq_true, decide_eq_true_eq] at hp'
    obtain ⟨s', hs'⟩ := memWrite_total hp'.2 (setBit v i s.sampledBit)
    simp only [stepXfer, hs']
    simp only [Res.Legal, XferPt.legal, hp'.1, decide_true]
  | fall i p => exact (stepLower_legal p s).chain (fun _ _ => hp) fun _ => XferArgs.startBit_legal h (i + 1)
  | loadTail r =>
    obtain ⟨v, hv⟩ := memRead_total hp
    simp only [stepXfer, hv]
    exact hp
  | storeTail r v =>
    obtain ⟨s', hs'⟩ := memWrite_total hp (keepTop v a.n)
    simp only [stepXfer, hs', Res.Legal]

/-! ### The FLASH commands -/

theorem enterEnableWrite_legal (s : Hw) (m : Nat) : (enterEnableWrite s).Legal (EnableWritePt.legal m) :=
  (enterStandby_legal s).chain (fun _ _ => rfl) fun _ => rfl

theorem stepEnableWrite_legal {c : Bool} {p : EnableWritePt} {s : Hw} (hp : p.legal s.scr.length = true) :
    (stepEnableWrite c p s).2.Legal (EnableWritePt.legal s.scr.length) := by
  cases p with
  | standby p => exact (stepStandby_legal p s).chain (fun _ _ => rfl) fun _ => rfl
  | opcode => exact rfl
  | xfer p =>
    exact (stepXfer_legal (opcodeArgs_legal _ 8 c (by omega)) hp).chain (fun _ hq => hq) fun _ => trivial

theorem writeStatusFrame_legal (s : Hw) (m : Nat) (r : SubOutcome) :
    (writeStatusFrame s r).Legal (WriteStatusPt.legal m) := by
  cases r with
  | ok => exact (enterStandby_legal s).chain (fun _ _ => rfl) fun _ => rfl
  | cancelled => trivial
  | arbitrationTimeout => trivial
  | protectedRegion => trivial

theorem enterWriteStatus_legal (s : Hw) (m : Nat) : (enterWriteStatus s).Legal (WriteStatusPt.legal m) :=
  (enterEnableWrite_legal s m).chain (fun _ hq => hq) fun r => writeStatusFrame_legal s _ r

theorem stepWriteStatus_legal {st : Byte} {c : Bool} {p : WriteStatusPt} {s : Hw} (hp : p.legal s.scr.length = true) :
    (stepWriteStatus st c p s).2.Legal (WriteStatusPt.legal s.scr.length) := by
  cases p with
  | enable p => exact (stepEnableWrite_legal (c := c) hp).chain (fun _ hq => hq) fun r => writeStatusFrame_legal _ _ r
  | standby p => exact (stepStandby_legal p s).chain (fun _ _ => rfl) fun _ => rfl
  | opcode => exact rfl
  | status => exact rfl
  | xfer p =>
    exact (stepXfer_legal (opcodeArgs_legal _ 16 c (by omega)) hp).chain (fun _ hq => hq) fun _ => trivial

theorem enterReadStatus_legal (s : Hw) (m : Nat) : (enterReadStatus s).Legal (ReadStatusPt.legal m) :=
  (enterStandby_legal s).chain (fun _ _ => rfl) fun _ => rfl

theorem stepReadStatus_legal {c : Bool} {p : ReadStatusPt} {s : Hw} (hp : p.legal s.scr.length = true) :
    (stepReadStatus c p s).2.Legal (ReadStatusPt.legal s.scr.length) := by
  cases p with
  | standby p => exact (stepStandby_legal p s).chain (fun _ _ => rfl) fun _ => rfl
  | opcode => exact rfl
  | zero => exact rfl
  | xfer p => exact (stepXfer_legal (statusArgs_legal _ c) hp).chain (fun _ hq => hq) fun _ => trivial

theorem enterPage_legal (s : Hw) (m len : Nat) : (enterPage s).Legal (PagePt.legal m len) :=
  (enterStandby_legal s).chain (fun _ _ => rfl) fun _ => rfl

theorem stepPage_legal {op : Byte} {off : Half} {pay : XferArgs} {c : Bool} {len : Nat} {p : PagePt} {s : Hw}
    (hn : pay.n = 8 * len) (h : pay.legal s.scr.length = true) (hp : p.legal s.scr.length len = true) :
    (stepPage op off pay c p s).2.Legal (PagePt.legal s.scr.length len) := by
  cases p with
  | standby p => exact (stepStandby_legal p s).chain (fun _ _ => rfl) fun _ => rfl
  | opcode => exact rfl
  | addrHigh => exact rfl
  | addrMid => exact rfl
  | addrLow => exact rfl
  | header p =>
    refine (stepXfer_legal (opcodeArgs_legal _ 32 c (by omega)) hp).chain (fun _ hq => hq) fun r => ?_
    cases r with
    | ok => exact rfl
    | cancelled => trivial
    | arbitrationTimeout => trivial
    | protectedRegion => trivial
  | payload p =>
    simp only [PagePt.legal, ← hn] at hp
    exact (stepXfer_legal h hp).chain (fun _ hq => by simpa only [PagePt.legal, ← hn] using hq) fun _ => trivial

theorem stepWritePage_legal {v : Span} {c : Bool} {p : PagePt} {s : Hw} (h : v.legal s.scr.length = true)
    (hp : p.legal s.scr.length v.len = true) : (stepWritePage v c p s).2.Legal (PagePt.legal s.scr.length v.len) :=
  stepPage_legal rfl (payloadOut_legal c h) hp

theorem stepReadPage_legal {v : Span} {c : Bool} {p : PagePt} {s : Hw} (h : v.legal s.scr.length = true)
    (hp : p.legal s.scr.length v.len = true) : (stepReadPage v c p s).2.Legal (PagePt.legal s.scr.length v.len) :=
  stepPage_legal rfl (payloadIn_legal c h) hp

theorem stepPollReady_legal {c : Bool} {p : ReadStatusPt} {s : Hw} (hp : p.legal s.scr.length = true) :
    (stepPollReady c p s).2.Legal (ReadStatusPt.legal s.scr.length) := by
  refine (stepReadStatus_legal (c := c) hp).chain (fun _ hq => hq) fun r => ?_
  cases r with
  | ok st =>
    simp only [afterStatus]
    split
    · exact enterReadStatus_legal _ _
    · trivial
  | cancelled => trivial

theorem stepClearBp_legal {c : Bool} {p : WriteStatusPt} {s : Hw} (hp : p.legal s.scr.length = true) :
    (stepClearBp c p s).2.Legal (WriteStatusPt.legal s.scr.length) := stepWriteStatus_legal hp

/-! ### The FLASH operations -/

theorem dumpNext_legal {v : Span} {m : Nat} (ps : Nat) (h : v.legal m = true) (s : Hw) :
    (dumpNext s v).Legal (DumpPt.legal m ps) := by
  simp only [dumpNext]
  split
  · trivial
  · refine (enterPage_legal s m (pageChunk ps v)).chain (fun p hp => ?_) fun _ => trivial
    simp only [DumpPt.legal, h, Bool.true_and]
    exact hp

theorem dumpPolled_legal {v : Span} {m : Nat} (ps : Nat) (h : v.legal m = true) (s : Hw) (r : StatusOutcome) :
    (dumpPolled v s r).Legal (DumpPt.legal m ps) := by
  cases r with
  | ok st => exact dumpNext_legal ps h s
  | cancelled => trivial

theorem enterDump_legal {v : Span} {m : Nat} (ps : Nat) (h : v.legal m = true) (s : Hw) :
    (enterDump s v).Legal (DumpPt.legal m ps) := by
  refine (enterReadStatus_legal s m).chain (fun p hp => ?_) fun r => dumpPolled_legal ps h s r
  simp only [DumpPt.legal, h, Bool.true_and]
  exact hp

theorem stepDump_legal {c : Bool} {p : DumpPt} {s : Hw} (hp : p.legal s.scr.length s.latch.ps.toNat = true) :
    (stepDump c p s).2.Legal (DumpPt.legal s.scr.length s.latch.ps.toNat) := by
  cases p with
  | poll v p =>
    simp only [DumpPt.legal, Bool.and_eq_true] at hp
    refine (stepPollReady_legal (c := c) hp.2).chain (fun q hq => ?_) fun r => dumpPolled_legal _ hp.1 _ r
    simp only [DumpPt.legal, hp.1, Bool.true_and]
    exact hq
  | page v p =>
    simp only [DumpPt.legal, Bool.and_eq_true] at hp
    refine (stepReadPage_legal (c := c) (v := dumpPage s.latch.ps.toNat v) (dumpPage_legal hp.1) hp.2).chain
      (fun q hq => ?_) fun r => ?_
    · simp only [DumpPt.legal, hp.1, Bool.true_and]
      exact hq
    · cases r with
      | ok =>
        exact dumpNext_legal _ (Span.advance_legal hp.1 (pageChunk_le _ _)) _
      | cancelled => trivial
      | arbitrationTimeout => trivial
      | protectedRegion => trivial

theorem programPolled_legal {v : Span} {m : Nat} (h : v.legal m = true) (hv : v.len ≠ 0) (s : Hw) (r : StatusOutcome) :
    (programPolled v s r).Legal (ProgramPt.legal m) := by
  cases r with
  | ok st =>
    refine (enterEnableWrite_legal s m).chain (fun p hp => ?_) fun _ => trivial
    simp only [ProgramPt.legal, h, hv, ne_eq, not_false_iff, decide_true, Bool.true_and]
    exact hp
  | cancelled => trivial

theorem programEnabled_legal {v : Span} {m : Nat} (h : v.legal m = true) (hv : v.len ≠ 0) (s : Hw) (r : SubOutcome) :
    (programEnabled v s r).Legal (ProgramPt.legal m) := by
  cases r with
  | ok =>
    refine (enterPage_legal s m 1).chain (fun p hp => ?_) fun _ => trivial
    simp only [ProgramPt.legal, h, hv, ne_eq, not_false_iff, decide_true, Bool.true_and]
    exact hp
  | cancelled => trivial
  | arbitrationTimeout => trivial
  | protectedRegion => trivial

theorem programNext_legal {v : Span} {m : Nat} (h : v.legal m = true) (s : Hw) :
    (programNext s v).Legal (ProgramPt.legal m) := by
  simp only [programNext]
  split
  · exact (enterReadStatus_legal s m).chain (fun _ hp => hp) fun _ => trivial
  · rename_i hv
    refine (enterReadStatus_legal s m).chain (fun p hp => ?_) fun r => programPolled_legal h hv s r
    simp only [ProgramPt.legal, h, hv, ne_eq, not_false_iff, decide_true, Bool.true_and]
    exact hp

theorem programWritten_legal {v : Span} {m : Nat} (h : v.legal m = true) (hv : v.len ≠ 0) (s : Hw) (r : SubOutcome) :
    (programWritten v s r).Legal (ProgramPt.legal m) := by
  cases r with
  | ok => exact programNext_legal (Span.advance_legal h (Nat.one_le_iff_ne_zero.2 hv)) s
  | cancelled => trivial
  | arbitrationTimeout => trivial
  | protectedRegion => trivial

theorem programCleared_legal {v : Span} {m : Nat} (h : v.legal m = true) (s : Hw) (r : SubOutcome) :
    (programCleared v s r).Legal (ProgramPt.legal m) := by
  have hrel : ((enterRelease s).chain .release fun _ => .ret .protectedRegion : Res ProgramPt SubOutcome).Legal
      (ProgramPt.legal m) := (enterRelease_legal s).chain (fun _ _ => rfl) fun _ => trivial
  cases r with
  | ok => exact programNext_legal h s
  | cancelled => exact hrel
  | arbitrationTimeout => exact hrel
  | protectedRegion => exact hrel

theorem enterProgram_legal {v : Span} {m : Nat} (h : v.legal m = true) (s : Hw) :
    (enterProgram s v).Legal (ProgramPt.legal m) := by
  refine (enterWriteStatus_legal s m).chain (fun p hp => ?_) fun r => programCleared_legal h s r
  simp only [ProgramPt.legal, h, Bool.true_and]
  exact hp

theorem stepProgram_legal {c : Bool} {p : ProgramPt} {s : Hw} (hp : p.legal s.scr.length = true) :
    (stepProgram c p s).2.Legal (ProgramPt.legal s.scr.length) := by
  cases p with
  | clearBp v p =>
    simp only [ProgramPt.legal, Bool.and_eq_true] at hp
    refine (stepClearBp_legal (c := c) hp.2).chain (fun q hq => ?_) fun r => programCleared_legal hp.1 _ r
    simp only [ProgramPt.legal, hp.1, Bool.true_and]
    exact hq
  | release p => exact (stepRelease_legal p s).chain (fun _ _ => rfl) fun _ => trivial
  | poll v p =>
    simp only [ProgramPt.legal, Bool.and_eq_true, decide_eq_true_eq] at hp
    refine (stepPollReady_legal (c := c) hp.2).chain (fun q hq => ?_) fun r => programPolled_legal hp.1.1 hp.1.2 _ r
    simp only [ProgramPt.legal, hp.1.1, hp.1.2, ne_eq, not_false_iff, decide_true, Bool.true_and]
    exact hq
  | enable v p =>
    simp only [ProgramPt.legal, Bool.and_eq_true, decide_eq_true_eq] at hp
    refine (stepEnableWrite_legal (c := c) hp.2).chain (fun q hq => ?_) fun r => programEnabled_legal hp.1.1 hp.1.2 _ r
    simp only [ProgramPt.legal, hp.1.1, hp.1.2, ne_eq, not_false_iff, decide_true, Bool.true_and]
    exact hq
  | write v p =>
    simp only [ProgramPt.legal, Bool.and_eq_true, decide_eq_true_eq] at hp
    refine (stepWritePage_legal (c := c) (v := programByte v) (programByte_legal hp.1.1 hp.1.2) hp.2).chain
      (fun q hq => ?_) fun r => programWritten_legal hp.1.1 hp.1.2 _ r
    simp only [ProgramPt.legal, hp.1.1, hp.1.2, ne_eq, not_false_iff, decide_true, Bool.true_and]
    exact hq
  | finalPoll p => exact (stepPollReady_legal (c := c) hp).chain (fun _ hq => hq) fun _ => trivial

theorem eraseRelease_legal (s : Hw) (m : Nat) (r : SubOutcome) : (eraseRelease s r).Legal (ErasePt.legal m) :=
  (enterRelease_legal s).chain (fun _ _ => rfl) fun _ => trivial

theorem eraseEnabled_legal (s : Hw) (m : Nat) (r : SubOutcome) : (eraseEnabled s r).Legal (ErasePt.legal m) := by
  cases r with
  | ok => exact (enterStandby_legal s).chain (fun _ _ => rfl) fun _ => rfl
  | cancelled => exact eraseRelease_legal s m _
  | arbitrationTimeout => exact eraseRelease_legal s m _
  | protectedRegion => exact eraseRelease_legal s m _

theorem eraseCleared_legal (s : Hw) (m : Nat) (r : SubOutcome) : (eraseCleared s r).Legal (ErasePt.legal m) := by
  cases r with
  | ok => exact (enterEnableWrite_legal s m).chain (fun _ hq => hq) fun r => eraseEnabled_legal s m r
  | cancelled => exact eraseRelease_legal s m _
  | arbitrationTimeout => exact eraseRelease_legal s m _
  | protectedRegion => exact eraseRelease_legal s m _

theorem eraseClear_legal (s : Hw) (m : Nat) : (eraseClear s).Legal (ErasePt.legal m) :=
  (enterWriteStatus_legal s m).chain (fun _ hq => hq) fun r => eraseCleared_legal s m r

theorem eraseAcquired_legal (s : Hw) (m : Nat) (r : SubOutcome) : (eraseAcquired s r).Legal (ErasePt.legal m) := by
  cases r with
  | ok => exact (enterStandby_legal s).chain (fun _ _ => rfl) fun _ => eraseClear_legal s m
  | cancelled => trivial
  | arbitrationTimeout => trivial
  | protectedRegion => trivial

theorem eraseSent_legal (s : Hw) (m : Nat) (r : SubOutcome) : (eraseSent s r).Legal (ErasePt.legal m) := by
  cases r <;> exact eraseRelease_legal s m _

theorem enterErase_legal (s : Hw) (m : Nat) : (enterErase s).Legal (ErasePt.legal m) :=
  (enterAcquire_legal s).chain (fun _ _ => rfl) fun r => eraseAcquired_legal s m r

theorem stepErase_legal {c : Bool} {p : ErasePt} {s : Hw} (hp : p.legal s.scr.length = true) :
    (stepErase c p s).2.Legal (ErasePt.legal s.scr.length) := by
  cases p with
  | acquire p => exact (stepAcquire_legal p s).chain (fun _ _ => rfl) fun r => eraseAcquired_legal _ _ r
  | standby p => exact (stepStandby_legal p s).chain (fun _ _ => rfl) fun _ => eraseClear_legal _ _
  | clearBp p => exact (stepClearBp_legal (c := c) hp).chain (fun _ hq => hq) fun r => eraseCleared_legal _ _ r
  | enable p => exact (stepEnableWrite_legal (c := c) hp).chain (fun _ hq => hq) fun r => eraseEnabled_legal _ _ r
  | standby2 p => exact (stepStandby_legal p s).chain (fun _ _ => rfl) fun _ => rfl
  | opcode => exact rfl
  | xfer p =>
    exact (stepXfer_legal (opcodeArgs_legal _ 8 c (by omega)) hp).chain (fun _ hq => hq) fun r => eraseSent_legal _ _ r
  | release r p => exact (stepRelease_legal p s).chain (fun _ _ => rfl) fun _ => trivial

theorem unlockRelease_legal (s : Hw) (m : Nat) (r : SubOutcome) : (unlockRelease s r).Legal (UnlockPt.legal m) :=
  (enterRelease_legal s).chain (fun _ _ => rfl) fun _ => trivial

theorem unlockCleared_legal (s : Hw) (m : Nat) (r : SubOutcome) : (unlockCleared s r).Legal (UnlockPt.legal m) := by
  cases r <;> exact unlockRelease_legal s m _

theorem unlockClear_legal (s : Hw) (m : Nat) : (unlockClear s).Legal (UnlockPt.legal m) :=
  (enterWriteStatus_legal s m).chain (fun _ hq => hq) fun r => unlockCleared_legal s m r

theorem unlockAcquired_legal (s : Hw) (m : Nat) (r : SubOutcome) : (unlockAcquired s r).Legal (UnlockPt.legal m) := by
  cases r with
  | ok => exact (enterStandby_legal s).chain (fun _ _ => rfl) fun _ => unlockClear_legal s m
  | cancelled => trivial
  | arbitrationTimeout => trivial
  | protectedRegion => trivial

theorem enterUnlock_legal (s : Hw) (m : Nat) : (enterUnlock s).Legal (UnlockPt.legal m) :=
  (enterAcquire_legal s).chain (fun _ _ => rfl) fun r => unlockAcquired_legal s m r

theorem stepUnlock_legal {c : Bool} {p : UnlockPt} {s : Hw} (hp : p.legal s.scr.length = true) :
    (stepUnlock c p s).2.Legal (UnlockPt.legal s.scr.length) := by
  cases p with
  | acquire p => exact (stepAcquire_legal p s).chain (fun _ _ => rfl) fun r => unlockAcquired_legal _ _ r
  | standby p => exact (stepStandby_legal p s).chain (fun _ _ => rfl) fun _ => unlockClear_legal _ _
  | clearBp p => exact (stepClearBp_legal (c := c) hp).chain (fun _ hq => hq) fun r => unlockCleared_legal _ _ r
  | release r p => exact (stepRelease_legal p s).chain (fun _ _ => rfl) fun _ => trivial

theorem checksumRelease_legal (s : Hw) (m ps : Nat) (r : RCode) : (checksumRelease s r).Legal (ChecksumPt.legal m ps) :=
  (enterRelease_legal s).chain (fun _ _ => rfl) fun _ => trivial

theorem checksumDumped_legal (s : Hw) {m : Nat} (ps : Nat) (hm : 1 < m) (r : SubOutcome) :
    (checksumDumped s r).Legal (ChecksumPt.legal m ps) := by
  cases r with
  | ok => exact decide_eq_true (show 2 * 0 + 1 < m by omega)
  | cancelled => exact checksumRelease_legal s m ps _
  | arbitrationTimeout => exact checksumRelease_legal s m ps _
  | protectedRegion => exact checksumRelease_legal s m ps _

theorem checksumAcquired_legal (s : Hw) {m : Nat} (ps : Nat) (hm : m = 2 * (s.params.checksumIndex + 1)) (r : SubOutcome) :
    (checksumAcquired s r).Legal (ChecksumPt.legal m ps) := by
  cases r with
  | ok =>
    exact (enterDump_legal ps (checksumSpan_legal _ _ hm) s).chain (fun _ hq => hq) fun r =>
      checksumDumped_legal s ps (by omega) r
  | cancelled => trivial
  | arbitrationTimeout => trivial
  | protectedRegion => trivial

theorem enterChecksum_legal (s : Hw) {m : Nat} (ps : Nat) (hm : m = 2 * (s.params.checksumIndex + 1)) :
    (enterChecksum s).Legal (ChecksumPt.legal m ps) :=
  (enterAcquire_legal s).chain (fun _ _ => rfl) fun r => checksumAcquired_legal s ps hm r

theorem checksumCompared_legal (rp : Bool) (s : Hw) (x : ChecksumResult) (m ps : Nat) :
    (checksumCompared rp s x).Legal (ChecksumPt.legal m ps) := by
  simp only [checksumCompared]
  split
  · exact checksumRelease_legal ..
  · split
    · exact rfl
    · exact checksumRelease_legal ..

theorem checksumRepaired_legal (s : Hw) (m ps : Nat) (r : SubOutcome) :
    (checksumRepaired s r).Legal (ChecksumPt.legal m ps) := by
  cases r with
  | ok => exact checksumRelease_legal ..
  | cancelled => exact checksumRelease_legal ..
  | arbitrationTimeout => exact checksumRelease_legal ..
  | protectedRegion => trivial

theorem storeScr_legal {s : Hw} {a : Nat} (ha : a < s.scr.length) (v : Byte) {next : Hw → Res ChecksumPt RCode}
    {P : ChecksumPt → Bool} (hn : ∀ s', s.SameRegs s' → (next s').Legal P) : (storeScr s a v next).2.Legal P := by
  obtain ⟨s', hs'⟩ := memWrite_total (s := s) (r := scrRef a) (by
    simp only [scrRef, Ref.inRange, BitVec.toNat_ofNat, decide_eq_true_eq]
    exact (Nat.add_le_add_right (Nat.mod_le _ _) 1).trans ha) v
  simp only [storeScr, hs']
  exact hn s' (.memWrite hs')

theorem loadScr_legal {s : Hw} {a : Nat} (ha : a < s.scr.length) {next : Byte → ChecksumPt} {P : ChecksumPt → Bool}
    (hn : ∀ v, P (next v) = true) : (loadScr s a next).2.Legal P := by
  obtain ⟨v, hv⟩ := memRead_total (s := s) (r := scrRef a) (by
    simp only [scrRef, Ref.inRange, BitVec.toNat_ofNat, decide_eq_true_eq]
    exact (Nat.add_le_add_right (Nat.mod_le _ _) 1).trans ha)
  simp only [loadScr, hv]
  exact hn v

theorem stepChecksum_legal {c rp : Bool} {p : ChecksumPt} {s : Hw} (hw : s.params.wellFormed = true)
    (hm : s.scr.length = 2 * (s.params.checksumIndex + 1))
    (hp : p.legal s.scr.length s.latch.ps.toNat = true) :
    (stepChecksum c rp p s).2.Legal (ChecksumPt.legal s.scr.length s.latch.ps.toNat) := by
  cases p with
  | acquire p =>
    exact (stepAcquire_legal p s).chain (fun _ _ => rfl) fun r =>
      checksumAcquired_legal _ _ (by rw [(stepAcquire_same p s).1.params]; exact hm) r
  | dump p => exact (stepDump_legal (c := c) hp).chain (fun _ hq => hq) fun r => checksumDumped_legal _ _ (by omega) r
  | evalFirst j t =>
    simp only [ChecksumPt.legal, decide_eq_true_eq] at hp
    exact loadScr_legal (by omega) fun v => decide_eq_true hp
  | evalSecond j t v =>
    simp only [ChecksumPt.legal, decide_eq_true_eq] at hp
    refine loadScr_legal hp fun w => ?_
    simp only [checksumWord]
    split
    · exact decide_eq_true (by omega)
    · rfl
  | result x y => exact checksumCompared_legal ..
  | scrLow x => exact storeScr_legal (by omega) _ fun _ _ => rfl
  | scrHigh x =>
    refine storeScr_legal (by omega) _ fun s' hs' => ?_
    refine (enterProgram_legal (m := s.scr.length) ?_ s').chain (fun _ hq => hq) fun r => checksumRepaired_legal _ _ _ r
    exact repairSpan_legal _ (hs'.params ▸ hw) _ (by rw [hs'.params]; exact hm)
  | program p => exact (stepProgram_legal (c := c) hp).chain (fun _ hq => hq) fun r => checksumRepaired_legal _ _ _ r
  | release r p => exact (stepRelease_legal p s).chain (fun _ _ => rfl) fun _ => trivial

/-! ### BUF's canonical form -/

theorem stepXfer_wf (a : XferArgs) (p : XferPt) {s : Hw} (h : s.mem.wf = true) : (stepXfer a p s).1.mem.wf = true := by
  cases p with
  | fetch i r => simp only [stepXfer]; split <;> exact h
  | present i b => simp only [stepXfer]; split <;> exact h
  | setup i p => cases p <;> exact h
  | rise i p => rcases p with _ | p <;> [exact h; (cases p <;> exact h)]
  | fall i p => rcases p with _ | p <;> [exact h; (cases p <;> exact h)]
  | load i r => simp only [stepXfer]; split <;> exact h
  | loadTail r => simp only [stepXfer]; split <;> exact h
  | store i r v =>
    simp only [stepXfer]
    split
    · exact memWrite_wf ‹_› h
    · exact h
  | storeTail r v =>
    simp only [stepXfer]
    split
    · exact memWrite_wf ‹_› h
    · exact h
  | seed => exact h
  | check i => exact h
  | markCancelled => exact h
  | sample i => exact h

theorem stepAcquire_wf (p : AcquirePt) {s : Hw} (h : s.mem.wf = true) : (stepAcquire p s).1.mem.wf = true := by
  cases p <;> exact h

theorem stepRelease_wf (p : ReleasePt) {s : Hw} (h : s.mem.wf = true) : (stepRelease p s).1.mem.wf = true := by
  cases p <;> exact h

theorem stepStandby_wf (p : StandbyPt) {s : Hw} (h : s.mem.wf = true) : (stepStandby p s).1.mem.wf = true := by
  cases p with
  | seed => exact h
  | setCen => exact h
  | clearCen => exact h
  | driveHigh p => cases p <;> exact h
  | driveLow p => cases p <;> exact h

theorem stepEnableWrite_wf (c : Bool) (p : EnableWritePt) {s : Hw} (h : s.mem.wf = true) :
    (stepEnableWrite c p s).1.mem.wf = true := by
  cases p with
  | standby p => exact stepStandby_wf p h
  | opcode => exact h
  | xfer p => exact stepXfer_wf _ p h

theorem stepWriteStatus_wf (st : Byte) (c : Bool) (p : WriteStatusPt) {s : Hw} (h : s.mem.wf = true) :
    (stepWriteStatus st c p s).1.mem.wf = true := by
  cases p with
  | enable p => exact stepEnableWrite_wf c p h
  | standby p => exact stepStandby_wf p h
  | opcode => exact h
  | status => exact h
  | xfer p => exact stepXfer_wf _ p h

theorem stepReadStatus_wf (c : Bool) (p : ReadStatusPt) {s : Hw} (h : s.mem.wf = true) :
    (stepReadStatus c p s).1.mem.wf = true := by
  cases p with
  | standby p => exact stepStandby_wf p h
  | opcode => exact h
  | zero => exact h
  | xfer p => exact stepXfer_wf _ p h

theorem stepPage_wf (op : Byte) (off : Half) (pay : XferArgs) (c : Bool) (p : PagePt) {s : Hw} (h : s.mem.wf = true) :
    (stepPage op off pay c p s).1.mem.wf = true := by
  cases p with
  | standby p => exact stepStandby_wf p h
  | opcode => exact h
  | addrHigh => exact h
  | addrMid => exact h
  | addrLow => exact h
  | header p => exact stepXfer_wf _ p h
  | payload p => exact stepXfer_wf _ p h

theorem stepDump_wf (c : Bool) (p : DumpPt) {s : Hw} (h : s.mem.wf = true) : (stepDump c p s).1.mem.wf = true := by
  cases p with
  | poll v p => exact stepReadStatus_wf c p h
  | page v p => exact stepPage_wf _ _ _ c p h

theorem stepProgram_wf (c : Bool) (p : ProgramPt) {s : Hw} (h : s.mem.wf = true) :
    (stepProgram c p s).1.mem.wf = true := by
  cases p with
  | clearBp v p => exact stepWriteStatus_wf _ c p h
  | release p => exact stepRelease_wf p h
  | poll v p => exact stepReadStatus_wf c p h
  | enable v p => exact stepEnableWrite_wf c p h
  | write v p => exact stepPage_wf _ _ _ c p h
  | finalPoll p => exact stepReadStatus_wf c p h

theorem stepErase_wf (c : Bool) (p : ErasePt) {s : Hw} (h : s.mem.wf = true) : (stepErase c p s).1.mem.wf = true := by
  cases p with
  | acquire p => exact stepAcquire_wf p h
  | standby p => exact stepStandby_wf p h
  | clearBp p => exact stepWriteStatus_wf _ c p h
  | enable p => exact stepEnableWrite_wf c p h
  | standby2 p => exact stepStandby_wf p h
  | opcode => exact h
  | xfer p => exact stepXfer_wf _ p h
  | release r p => exact stepRelease_wf p h

theorem stepUnlock_wf (c : Bool) (p : UnlockPt) {s : Hw} (h : s.mem.wf = true) : (stepUnlock c p s).1.mem.wf = true := by
  cases p with
  | acquire p => exact stepAcquire_wf p h
  | standby p => exact stepStandby_wf p h
  | clearBp p => exact stepWriteStatus_wf _ c p h
  | release r p => exact stepRelease_wf p h

theorem storeScr_wf (s : Hw) (a : Nat) (v : Byte) (next : Hw → Res ChecksumPt RCode) (h : s.mem.wf = true) :
    (storeScr s a v next).1.mem.wf = true := by
  simp only [storeScr]
  split
  · exact memWrite_wf ‹_› h
  · exact h

theorem stepChecksum_wf (c rp : Bool) (p : ChecksumPt) {s : Hw} (h : s.mem.wf = true) :
    (stepChecksum c rp p s).1.mem.wf = true := by
  cases p with
  | acquire p => exact stepAcquire_wf p h
  | dump p => exact stepDump_wf c p h
  | evalFirst j t => exact (congrArg (fun s : Hw => s.mem.wf) (loadScr_hw s _ _)).trans h
  | evalSecond j t v => exact (congrArg (fun s : Hw => s.mem.wf) (loadScr_hw s _ _)).trans h
  | result x y => exact h
  | scrLow x => exact storeScr_wf _ _ _ _ h
  | scrHigh x => exact storeScr_wf _ _ _ _ h
  | program p => exact stepProgram_wf c p h
  | release r p => exact stepRelease_wf p h

end Sys2Proof.Machine
end

