-- ==== Sys2Proof/Laws/PerInstr.lean ====
section
/-! SUPPORT. One lemma per constructor of `Instr`, for statements made instruction by instruction. -/

namespace Sys2Proof.Laws.TableWord

/-- The host's question about the command's own 32-bit word is answered by the command (30_encoding.md R50, R62), and its
code is the row's. -/
def Statement (i : Instr) : Prop :=
  decodeTableWord 32 (encode i).toNat = some i ∧ codeField (encode i) = i.mnemonic.code

theorem transfer (c s d : Bool) : Statement (.transfer c s d) := by
  revert c s d
  unfold Statement
  decide

theorem acquire : Statement .acquire := by unfold Statement; decide
theorem release : Statement .release := by unfold Statement; decide
theorem standby : Statement .standby := by unfold Statement; decide
theorem enableWrite (c : Bool) : Statement (.enableWrite c) := by revert c; unfold Statement; decide
theorem writeStatus (c : Bool) : Statement (.writeStatus c) := by revert c; unfold Statement; decide
theorem readStatus (c : Bool) : Statement (.readStatus c) := by revert c; unfold Statement; decide
theorem writePage (c : Bool) : Statement (.writePage c) := by revert c; unfold Statement; decide
theorem readPage (c : Bool) : Statement (.readPage c) := by revert c; unfold Statement; decide
theorem pollReady (c : Bool) : Statement (.pollReady c) := by revert c; unfold Statement; decide
theorem clearBp (c : Bool) : Statement (.clearBp c) := by revert c; unfold Statement; decide
theorem dump (c : Bool) : Statement (.dump c) := by revert c; unfold Statement; decide
theorem program (c : Bool) : Statement (.program c) := by revert c; unfold Statement; decide
theorem erase (c : Bool) : Statement (.erase c) := by revert c; unfold Statement; decide
theorem unlock (c : Bool) : Statement (.unlock c) := by revert c; unfold Statement; decide
theorem checksum (c rp : Bool) : Statement (.checksum c rp) := by revert c rp; unfold Statement; decide

end Sys2Proof.Laws.TableWord
end

