-- ==== Sys2Proof/Tests/Slice0.lean ====
section
/-! SUPPORT. The model's own tests. Expected values come from the spec (the encodings of 30_encoding.md R50, the examples of
spec/40 to 43, the vectors of 95_test_vectors.md), one step or one operation each; then one witness for the hypotheses of
every statement that has any. -/

namespace Sys2Proof.Tests

open Machine

/-! ### Well-formedness: each check refuses an ill-formed term -/

/-- 00_scope.md R3: two equal bit positions. -/
theorem test_params_positions_distinct : Params.wellFormed { Config.reference with bitGnt := 0 } = false := by decide

/-- 00_scope.md R4: k = 32767 is out of range, 32766 is not. -/
theorem test_params_index_bound :
    Params.wellFormed { Config.reference with checksumIndex := 32767 } = false ∧
      Params.wellFormed { Config.reference with checksumIndex := 32766 } = true := by decide

/-- 30_encoding.md R50: a flag outside the row's column. -/
theorem test_flags_within : (CmdFlags.mk true false false false).within Mnemonic.acquire.allowed = false := by decide

/-- 30_encoding.md R59: `ACQUIRE.C` is an assembly error. -/
theorem test_stmt_suffix_c : assemble Config.reference ⟨.acquire, true, false, .none⟩ = none := by decide

/-- 30_encoding.md R59: `.R` is CHECKSUM's alone. -/
theorem test_stmt_suffix_r : assemble Config.reference ⟨.dump, false, true, .page 0#16 1#32 0#32⟩ = none := by decide

/-- 30_encoding.md R59: operands of another command's shape. -/
theorem test_stmt_operands : assemble Config.reference ⟨.writeStatus, false, false, .expected 1#16⟩ = none := by decide

/-- The canonical form of BUF refuses a blank byte, falling addresses and an address of 2^32. -/
theorem test_memory_form :
    Memory.wf [(1, 0x00#8)] = false ∧ Memory.wf [(2, 1#8), (1, 1#8)] = false ∧ Memory.wf [(2 ^ 32, 1#8)] = false := by
  decide

/-! ### Decoding: a word of each row of 30_encoding.md R50, written out from CODE and the flag bits -/

theorem test_decode_transfer : decode 0b00000000000000000000011100000001#32 = .ok (.transfer true true true) := by decide
theorem test_decode_acquire : decode 0b00000000000000000000000000000010#32 = .ok .acquire := by decide
theorem test_decode_release : decode 0b00000000000000000000000000000011#32 = .ok .release := by decide
theorem test_decode_standby : decode 0b00000000000000000000000000000100#32 = .ok .standby := by decide
theorem test_decode_enableWrite : decode 0b00000000000000000000000100010000#32 = .ok (.enableWrite true) := by decide
theorem test_decode_writeStatus : decode 0b00000000000000000000000000010001#32 = .ok (.writeStatus false) := by decide
theorem test_decode_readStatus : decode 0b00000000000000000000000100010010#32 = .ok (.readStatus true) := by decide
theorem test_decode_writePage : decode 0b00000000000000000000000000010011#32 = .ok (.writePage false) := by decide
theorem test_decode_readPage : decode 0b00000000000000000000000100010100#32 = .ok (.readPage true) := by decide
theorem test_decode_pollReady : decode 0b00000000000000000000000000010101#32 = .ok (.pollReady false) := by decide
theorem test_decode_clearBp : decode 0b00000000000000000000000100010110#32 = .ok (.clearBp true) := by decide
theorem test_decode_dump : decode 0b00000000000000000000000100100000#32 = .ok (.dump true) := by decide
theorem test_decode_program : decode 0b00000000000000000000000000100001#32 = .ok (.program false) := by decide
theorem test_decode_erase : decode 0b00000000000000000000000000100010#32 = .ok (.erase false) := by decide
theorem test_decode_unlock : decode 0b00000000000000000000000100100011#32 = .ok (.unlock true) := by decide
theorem test_decode_checksum : decode 0b00000000000000000000100100100100#32 = .ok (.checksum true true) := by decide

/-- 30_encoding.md R55: each reason for an illegal word. -/
theorem test_decode_illegal :
    decode 0x00000005#32 = .error .unknownCode ∧ decode 0x80000002#32 = .error .reservedBits ∧
      decode 0x00000102#32 = .error .flagNotAllowed ∧ decode 0x00000801#32 = .error .flagNotAllowed := by decide

/-- The host's question about a table word. -/
theorem test_table_word :
    decodeTableWord 32 0x124 = some (.checksum true false) ∧ decodeTableWord 32 0x00001024 = none := by decide

/-! ### Words, operands, arithmetic -/

/-- STATUS of V-XF-4 (CANCELLED, CANCEL_SEEN) and of V-EX-1 (BUSY, OVERRUN), 95_test_vectors.md. -/
theorem test_status_word :
    Status.word ⟨false, .cancelled, true, false⟩ = 0x00010500#32 ∧ Status.word ⟨true, .ok, false, true⟩ = 0x00020001#32 := by
  decide

/-- `CONFIG 1, 8, 1, 0x8000` stores 0x00010081 (95_test_vectors.md P1). -/
theorem test_config_word :
    expandPseudo Config.reference (.config true 8#4 1#16 0x8000#16) =
      [.store ⟨0x20, 4⟩ 0x00010081#32, .store ⟨0x24, 4⟩ 0x00008000#32] := by decide

/-- `UNLOCK.C` (95_test_vectors.md P1) and `CHECKSUM.C.R #0xBABA` (P4). -/
theorem test_assembler_words :
    assemble Config.reference ⟨.unlock, true, false, .none⟩ = some [.store ⟨0, 4⟩ 0x00000123#32, .wait] ∧
      assemble Config.reference ⟨.checksum, true, true, .expected 0xBABA#16⟩ =
        some [.store ⟨0x1C, 4⟩ 0x0000BABA#32, .store ⟨0, 4⟩ 0x00000924#32, .wait] := by decide

/-- V-SRC-5: the pages of a dump of 556 bytes from 250 with PS = 256. -/
theorem test_page_split :
    (dumpPages 256 556 ⟨bufRef 0#32, 250#16, 556⟩).map (fun v => (v.off.toNat, v.len)) =
      [(250, 6), (256, 256), (512, 256), (768, 38)] := by decide

/-- V-CE-1 to V-CE-5: ChecksumEval. -/
theorem test_checksum_eval :
    checksumEval .little [0x00#8, 0x10#8, 0x00#8, 0x02#8, 0x34#8, 0x00#8, 0x00#8, 0x00#8] 3 0xBABA#16 =
        some ⟨0xA886#16, 0x0000#16⟩ ∧
      checksumEval .little [0xFF#8, 0xFF#8, 0x02#8, 0x00#8, 0xFF#8, 0xFF#8] 2 0x0000#16 = some ⟨0xFFFF#16, 0xFFFF#16⟩ ∧
      checksumEval .little [0xBA#8, 0xBA#8] 0 0xBABA#16 = some ⟨0xBABA#16, 0xBABA#16⟩ ∧
      checksumEval .little [0x34#8, 0x12#8, 0x00#8, 0x00#8] 1 0x0000#16 = some ⟨0xEDCC#16, 0x0000#16⟩ := by decide

/-- V-CE-1 with the big-endian word order of 20_memory.md R34. -/
theorem test_checksum_big_endian :
    checksumEval .big [0x00#8, 0x10#8, 0x00#8, 0x02#8, 0x34#8, 0x00#8, 0x00#8, 0x00#8] 3 0xBABA#16 =
      some ⟨0x86A8#16, 0x0000#16⟩ := by decide

/-- The trailing-bit clear of 40_bitclock_transfer.md R65: the top n mod 8 bits stay. -/
theorem test_keep_top : keepTop 0xFF#8 11 = 0xE0#8 ∧ setBit 0x00#8 9 true = 0x40#8 := by decide

/-- A page address beyond 16 bits wraps, and its high wire byte is 0 (20_memory.md R33, R47). -/
theorem test_wire_address :
    addrHighByte 0xFFFF#16 = 0x00#8 ∧ addrMidByte 0x1234#16 = 0x12#8 ∧ addrLowByte 0x1234#16 = 0x34#8 ∧
      (Span.advance ⟨bufRef 0xFFFFFFFF#32, 0xFFFF#16, 2⟩ 1) = ⟨bufRef 0#32, 0#16, 1⟩ := by decide

/-! ### Single steps -/

/-- A parameter record with the reference layout, two polls in Acquire and one checksum word. -/
def params : Params := { Config.reference with grantAttempts := 1, checksumIndex := 0 }

/-- A latch with the given LEN and PRESENT, page size 256 and a delay unit of 1. -/
def latch (len : Word) (present : Bool) : Latch :=
  { Latch.initial with len := len, present := present, ps := 0x100#17, du := 1#16 }

/-- The state in which a command starts, with the given latch and answers. -/
def start (l : Latch) (reads : List Word) (cancels : List Bool) : State :=
  { State.resetWith params with
    hw :=
      { (State.resetWith params).hw with
        status := ⟨true, .ok, false, false⟩, latch := l, reads := reads, cancels := cancels } }

/-- The same with SEQ at a point and LS given. -/
def running (q : Seq) (ls : Word) (reads : List Word) : State :=
  { start (latch 8#32 true) reads [] with
    seq := q, hw := { (start (latch 8#32 true) reads []).hw with ls := ls } }

/-- The events of one step, and the point it goes to. -/
def stepped (s : State) : List Event × Option Seq :=
  match step s with
  | .next t => (t.hw.trace, some t.seq)
  | .fault _ => ([], none)
  | .refused _ => ([], none)

/-- The answer of `exec` as a point of SEQ. -/
def entered (i : Instr) (s : State) : Option Seq :=
  match exec i s with
  | .next t => some t.seq
  | .fault _ => none
  | .refused _ => none

/-- The RAISE example of 40_bitclock_transfer.md R63. -/
theorem test_raise : (stepRaise (.drive .write) ((running .idle 0xC4#32 []).hw.setLs 1#32)).1.trace = [.wr 0xC5#32] := by
  decide

/-- The LOWER example of 40_bitclock_transfer.md R64. -/
theorem test_lower : (stepLower .change (running .idle 0xC5#32 []).hw).1.ls = 0xC4#32 := by decide

/-- 40_bitclock_transfer.md R65: TRANSFER's first step is the seeding read, and its first bit follows. -/
theorem test_transfer_seed :
    stepped (running (.transfer ⟨1, some (bufRef 0x100#32), none, false⟩ .seed) 0#32 [0xC0#32]) =
      ([.rd 0xC0#32], some (.transfer ⟨1, some (bufRef 0x100#32), none, false⟩ (.fetch 0 (bufRef 0x100#32)))) := by decide

/-- The write of SI for a bit 1 from RD(C0), the example of R65. -/
theorem test_transfer_present :
    stepped (running (.transfer ⟨1, none, none, false⟩ (.setup 0 .write)) 0xC4#32 []) =
      ([.wr 0xC4#32], some (.transfer ⟨1, none, none, false⟩ (.setup 0 .flush))) := by decide

/-- The ACQUIRE example of 41_arbiter.md R67: REQ set in the value read. -/
theorem test_acquire_request : stepped (running (.acquire .writeReq) 0x42#32 []) = ([.wr 0x42#32], some (.acquire (.poll 0))) := by
  decide

/-- The same example: the poll sees GNT and goes to the baseline. -/
theorem test_acquire_granted :
    stepped (running (.acquire (.poll 0)) 0x42#32 [0xC2#32]) = ([.rd 0xC2#32], some (.acquire .baseline)) := by decide

/-- The RELEASE example of 41_arbiter.md R68: CEN set and SK cleared in 0xC0. -/
theorem test_release_deselect : (stepRelease .deselect (running .idle 0xC0#32 []).hw).1.ls = 0xC2#32 := by decide

/-- The same example: the last write has REQ = 0 and ends RELEASE. -/
theorem test_release_last : stepped (running (.release .writeReq) 0x82#32 []) = ([.wr 0x82#32], some (.finish .ok)) := by
  decide

/-- The STANDBY example of 41_arbiter.md R69. -/
theorem test_standby_high : stepped (running (.standby (.driveHigh .write)) 0xC2#32 []) =
    ([.wr 0xC2#32], some (.standby (.driveHigh .flush))) := by decide

/-- 42_flash_commands.md R71: with no FLASH attached ENABLE_WRITE starts at its opcode byte. -/
theorem test_enableWrite_enter : entered (.enableWrite true) (start (latch 0#32 false) [] []) =
    some (.enableWrite true .opcode) := by decide

/-- 42_flash_commands.md R72: WRITE_STATUS takes DATA[7:0]. -/
theorem test_writeStatus_enter :
    entered (.writeStatus false) (start { latch 0#32 true with dat := 0xFF73#16 } [] []) =
      some (.writeStatus 0x73#8 false (.enable (.standby .seed))) := by decide

/-- 42_flash_commands.md R73: the second byte captured is the status. -/
theorem test_readStatus_result :
    (statusResult { (running .idle 0#32 []).hw with opb := ⟨0xFF#8, 0x03#8, 0#8, 0#8⟩ } .ok) = .ok 0x03#8 := by decide

/-- 42_flash_commands.md R74: the header byte off[15:8] of the example 0x1234. -/
theorem test_writePage_header :
    (stepWritePage ⟨bufRef 0#32, 0x1234#16, 1⟩ false .addrMid (running .idle 0#32 []).hw).1.opb.b2 = 0x12#8 := by decide

/-- 42_flash_commands.md R75, 30_encoding.md R54: LENGTH = 0x10000 is ILLEGAL. -/
theorem test_readPage_illegal : entered (.readPage false) (start (latch 0x10000#32 true) [] []) = some (.finish .illegal) := by
  decide

/-- 42_flash_commands.md R76: a busy status byte repeats ReadStatus, with nothing in between. -/
theorem test_pollReady_busy : afterStatus (running .idle 0#32 []).hw (.ok 0x01#8) = .goto (.standby .seed) := by decide

/-- 42_flash_commands.md R77: CLEAR_BP writes 0x73 for the reference mask 0x8C. -/
theorem test_clearBp_byte : clearBpByte Config.reference = 0x73#8 := by decide

/-- 43_flash_ops.md R79: DUMP of no bytes ends after its poll. -/
theorem test_dump_empty : dumpNext (running .idle 0#32 []).hw ⟨bufRef 0#32, 0#16, 0⟩ = .ret .ok := by decide

/-- 43_flash_ops.md R80: a cancelled ClearBP goes to the one Release, and a whole one to the first byte's poll. -/
theorem test_program_cleared :
    programCleared ⟨bufRef 0#32, 0#16, 1⟩ (running .idle 0#32 []).hw .cancelled = .goto (.release .seed) ∧
      programCleared ⟨bufRef 0#32, 0#16, 1⟩ (running .idle 0#32 []).hw .ok =
        .goto (.poll ⟨bufRef 0#32, 0#16, 1⟩ (.standby .seed)) := by decide

/-- 43_flash_ops.md R81: no FLASH attached: ERASE starts at ClearBP's opcode. -/
theorem test_erase_enter : entered (.erase false) (start (latch 0#32 false) [] []) =
    some (.erase false (.clearBp (.enable .opcode))) := by decide

/-- 43_flash_ops.md R82: a timed-out Acquire ends UNLOCK with ARB_TIMEOUT and no Release. -/
theorem test_unlock_timeout :
    stepped (running (.unlock false (.acquire .writeTimeout)) 0x00#32 []) = ([.wr 0x00#32], some (.finish .arbTimeout)) := by
  decide

/-- 43_flash_ops.md R84: the comparison puts `computed` and `stored` in RDATA (V-CK-4). -/
theorem test_checksum_rdata : checksumData ⟨0xA886#16, 0x1234#16⟩ = 0x1234A886#32 := by decide

/-- 43_flash_ops.md R83 with k = 0 and SCR = BA BA: the second byte completes word 0, `computed` is E itself. -/
theorem test_checksum_bytes :
    stepChecksum false false (.evalSecond 0 0#16 0xBA#8)
        { (start { latch 0#32 true with dat := 0xBABA#16 } [] []).hw with scr := [0xBA#8, 0xBA#8] } =
      ({ (start { latch 0#32 true with dat := 0xBABA#16 } [] []).hw with scr := [0xBA#8, 0xBA#8] },
       .goto (.result 0xBABA#16 0xBABA#16)) := by decide

/-- 10_state.md R15: the word that `withFetchWord` places is the very next thing to run. -/
theorem test_fetch_word : stepped (State.reset.withFetchWord 32 0x201) =
    ([], some (.transfer ⟨0, some (bufRef 0#32), none, false⟩ .seed)) := by decide

/-! ### Witnesses: the hypotheses of the statements -/

theorem start_accepted (l : Latch) (reads : List Word) (cancels : List Bool) : (start l reads cancels).Accepted :=
  ⟨rfl, rfl, ⟨rfl, rfl, rfl⟩⟩

theorem params_legal : params.wellFormed = true := by decide

theorem pageSize_legal : legalPageSize 0x100#17 = true := by decide

theorem start_sound (len : Word) (present : Bool) (off : Half) (reads : List Word) (cancels : List Bool) :
    (start { latch len present with off := off } reads cancels).hw.Sound :=
  ⟨params_legal, rfl, rfl, pageSize_legal⟩

/-- The answers are just the given words. -/
theorem answers_all (l : Latch) (reads : List Word) (cancels : List Bool) : (start l reads cancels).hw.Answers reads :=
  ⟨[], (List.append_nil _).symm⟩

theorem uncancelled_all (l : Latch) (reads : List Word) (n : Nat) :
    (start l reads (List.replicate n false)).hw.Uncancelled true n := fun _ => ⟨[], (List.append_nil _).symm⟩

/-- A frame of n zero bits. -/
def frame (n : Nat) : FrameAnswers := ⟨0#32, 0#32, List.replicate n 0#32⟩

/-- A frame of n bits with SO = 1. -/
def frameOnes (n : Nat) : FrameAnswers := ⟨0#32, 0#32, List.replicate n 8#32⟩

def page (n : Nat) : PageAnswers := ⟨frame 32, 0#32, List.replicate (8 * n) 0#32⟩

/-- One busy status byte, then a ready one. -/
def poll : PollAnswers := ⟨[frameOnes 16], frame 16⟩

def clear : ClearAnswers := ⟨frame 8, frame 16⟩

def prog (n : Nat) : ProgramAnswers := ⟨clear, List.replicate n ⟨poll, frame 8, page 1⟩, poll⟩

/-- Granted at the second poll, the last that GRANT_ATTEMPTS = 1 allows. -/
def grant : AcquireAnswers := ⟨0#32, [0x40#32], 0xC0#32⟩

def noGrant : AcquireAnswers := ⟨0#32, [0x40#32], 0x40#32⟩

theorem poll_fits : poll.fits params := by
  refine ⟨?_, by decide, by decide⟩
  intro f hf
  obtain rfl : f = frameOnes 16 := by simpa [poll] using hf
  exact ⟨by decide, by decide⟩

theorem clear_fits : clear.fits := ⟨by decide, by decide⟩

theorem page_fits (n : Nat) : (page n).fits n := ⟨by simp [page, frame], by simp [page]⟩

theorem prog_fits (n : Nat) : (prog n).fits params n := by
  refine ⟨clear_fits, by simp [prog], ?_, poll_fits⟩
  intro b hb
  obtain ⟨-, rfl⟩ := List.mem_replicate.1 hb
  exact ⟨poll_fits, by decide, page_fits 1⟩

theorem polls_denied : ∀ v ∈ [0x40#32], v.getLsbD params.bitGnt.val = false := by
  intro v hv
  obtain rfl := List.mem_singleton.1 hv
  decide

theorem grant_granted : grant.granted params := ⟨by decide, polls_denied, by decide⟩

theorem noGrant_timedOut : noGrant.timedOut params := ⟨by decide, polls_denied, by decide⟩

theorem witness_DecodeAndEncodeAgree :
    (Instr.transfer true true true).wellFormed = true ∧ decode 0x00000924#32 = .ok (.checksum true true) := by decide

theorem witness_DecodeSelectsTheRow :
    (⟨.transfer, 0xFFFFF8FF#32, 0x00000001#32⟩ : Row) ∈ commandRows ∧
      0x00000701#32 &&& 0xFFFFF8FF#32 = 0x00000001#32 := by decide

/-- TRANSFER with every operand present. -/
def transferStmt : Stmt := ⟨.transfer, true, false, .bits 8#32 (some 0x100#32) (some 0x200#32)⟩

/-- A host with the given operations, posted stores and turns. -/
def hostSide (ops : List HostOp) (posted : List Posted) (turns : List Turn) : HostSide := ⟨0, ops, posted, turns, []⟩

/-- The reset state of a platform whose window starts at 0x1000 and whose stores arrive in the given order. -/
def platform (o : StoreOrder) (h : HostSide) : State :=
  { State.resetWith { params with windowBase := 0x1000, storeOrder := o } with host := h }

/-- For both store orders. -/
theorem witness_AssembledStatementStartsItsCommand (o : StoreOrder) :
    ∃ (ops : List HostOp) (s : State), assemble s.hw.params transferStmt = some ops ∧ s.seq = .idle ∧
      s.hw.status.busy = false ∧ s.admitted = true ∧ s.host.turns = [] ∧ s.host.ops = ops ++ [] ∧
      s.hw.params.storeOrder = o :=
  ⟨_, platform o (hostSide ((assemble { params with windowBase := 0x1000, storeOrder := o } transferStmt).getD []) [] []),
   rfl, rfl, rfl, rfl, rfl, (List.append_nil _).symm, rfl⟩

/-- A host about to do one operation. -/
def hosted (o : HostOp) (busy : Bool) : State :=
  { State.reset with
    hw := { State.reset.hw with status := ⟨busy, .ok, false, busy⟩ }
    host := hostSide [o] [] [.host] }

/-- 20_memory.md R40: an access at WINDOW_BASE + 0x10 reaches LENGTH, and one at the bare offset is outside. -/
theorem test_window_base :
    (platform .program (hostSide [] [] [])).refusal ⟨0x1010, 4⟩ = none ∧
      (platform .program (hostSide [] [] [])).offsetOf ⟨0x1010, 4⟩ = 0x10 ∧
      (platform .program (hostSide [] [] [])).refusal ⟨0x10, 4⟩ = some .hostAccessOutsideWindow := by decide

/-- 20_memory.md R45: where stores may arrive in any order, the younger of two posted stores can reach the window first. -/
theorem test_store_order :
    stepped (platform .any (hostSide [] [⟨0x10, 8#32⟩, ⟨0x00, 0x1#32⟩] [.bus 1])) =
      ([], some (.transfer ⟨0, none, none, false⟩ .seed)) := by decide

theorem witness_PseudoInstructionsExpand :
    (hosted .wait true).admitted = true ∧
    (hosted .wait true).host.ops = .wait :: [] ∧ (hosted (.skipUnless .ok 7) false).host.ops = .skipUnless .ok 7 :: [] ∧
      (hosted (.skipIf .protectedRegion 2) false).host.ops = .skipIf .protectedRegion 2 :: [] :=
  ⟨rfl, rfl, rfl, rfl⟩

/-- A store that arrives in program order, and one that the bus brings, the second of two. -/
theorem witness_StepRunsTheDecodedCommand :
    (∃ u, State.Delivers (platform .program (hostSide [.store ⟨0x1000, 4⟩ 0x2#32] [] [.host])) 0x2#32 u) ∧
      (∃ u, State.Delivers (platform .any (hostSide [] [⟨0x10, 8#32⟩, ⟨0x00, 0x2#32⟩] [.bus 1])) 0x2#32 u) ∧
      (platform .any (hostSide [] [⟨0x10, 8#32⟩, ⟨0x00, 0x2#32⟩] [.bus 1])).hw.status.busy = false ∧
      decode 0x2#32 = .ok .acquire :=
  ⟨⟨_, .host (rest := []) rfl rfl rfl rfl⟩, ⟨_, .bus rfl rfl⟩, rfl, by decide⟩

theorem witness_LatchIsLoadedAndKept :
    (∃ t, blockStep (running (.release .seed) 0#32 [0#32]) = .next t) ∧
      (hosted (.store ⟨0x0C, 4⟩ 1#32) true).hw.status.busy = true ∧ (hosted (.store ⟨0x0C, 4⟩ 1#32) true).mover = .host ∧
      ∃ t, step (hosted (.store ⟨0x0C, 4⟩ 1#32) true) = .next t := ⟨⟨_, rfl⟩, rfl, rfl, ⟨_, rfl⟩⟩

/-- The store that sets OVERRUN, and both ways in which it is cleared. -/
theorem witness_BusyCommandStoreSetsOverrun :
    (∃ u, State.Delivers (hosted (.store ⟨0x00, 4⟩ 0x3#32) true) 0x3#32 u) ∧
      (hosted (.store ⟨0x00, 4⟩ 0x3#32) true).hw.status.busy = true ∧
      (∃ s t, step s = .next t ∧ s.hw.status.overrun = true ∧ t.hw.status.overrun = false ∧ s.mover = .reset) ∧
      ∃ s t, step s = .next t ∧ s.hw.status.overrun = true ∧ t.hw.status.overrun = false ∧ s.mover = .host :=
  ⟨⟨_, .host (rest := []) rfl rfl rfl rfl⟩, rfl,
   ⟨{ hosted .wait true with host := hostSide [] [] [.reset] }, _, rfl, rfl, rfl, rfl⟩,
   ⟨{ hosted (.store ⟨0x00, 4⟩ 0x3#32) false with
      hw := { State.reset.hw with status := ⟨false, .ok, false, true⟩ } }, _, rfl, rfl, rfl, rfl⟩⟩

/-- A platform that admits no agent. -/
def closed (o : HostOp) : State :=
  { State.resetWith { params with windowAccess := .only [] } with host := hostSide [o] [] [] }

/-- The first and the last reserved offset; a misaligned access, a narrow one, and those just below and just above a window
at 0x1000; a host that is not admitted. -/
theorem witness_ReservedOffsetsAndRefusedAccesses :
    0x28 ∈ [0x28, 0x2C, 0x30, 0x34, 0x38, 0x3C] ∧ 0x3C ∈ [0x28, 0x2C, 0x30, 0x34, 0x38, 0x3C] ∧
      State.reset.admitted = true ∧ (0x1002 - 0x1000) % 4 ≠ 0 ∧ (Access.mk 0x1004 2).bytes ≠ 4 ∧
      (Access.mk 0x0FFC 4).addr < 0x1000 ∧ 0x1000 + 0x40 ≤ (Access.mk 0x1040 4).addr ∧
      (closed .wait).admitted = false ∧ (closed .wait).host.ops = .wait :: [] := by decide

/-- CMD, a writable register, one that ignores stores, and the last offset; an admitted host for both store orders; a posted
store. -/
theorem witness_WindowRegistersReadBack :
    0x00 ∈ windowOffsets ∧ (0x20 ∈ windowOffsets ∧ 0x20 ≠ 0x00) ∧ (0x04 ∈ windowOffsets ∧ 0x04 ≠ 0x00) ∧
      (0x3C ∈ windowOffsets ∧ 0x3C ≠ 0x00) ∧ (platform .program (hostSide [] [] [])).admitted = true ∧
      (platform .any (hostSide [] [] [])).admitted = true ∧
      (platform .any (hostSide [] [⟨0x3C, 1#32⟩] [])).host.posted[0]? = some ⟨0x3C, 1#32⟩ := by decide

theorem witness_FinishRecordsTheResult :
    (running (.finish .invalid) 0#32 []).seq = .finish .invalid ∧
      (∃ t, blockStep (running (.standby .seed) 0#32 []) = .next t) ∧
      ∀ code, (running (.standby .seed) 0#32 []).seq ≠ .finish code := ⟨rfl, ⟨_, rfl⟩, fun _ => nofun⟩

/-- An illegal word, and a page command with the smallest LENGTH that is too wide. -/
theorem witness_IllegalCommandEndsAtOnce :
    (∀ i, decode 0x00000102#32 ≠ .ok i) ∧
      decode 0x00000013#32 = .ok (.writePage false) ∧ (Instr.writePage false).hasByteCount = true ∧
      (0x10000#32).extractLsb' 16 16 ≠ 0#16 ∧
      ∃ s u : State, s.Delivers 0x00000013#32 u ∧ s.seq = .idle ∧ s.hw.status.busy = false ∧ u.host.turns = [] ∧
        s.hw.length = 0x10000#32 := by
  refine ⟨fun i h => ?_, by decide, by decide, by decide, ?_⟩
  · have hd : decode 0x00000102#32 = .error .flagNotAllowed := by decide
    rw [hd] at h
    cases h
  · exact
      ⟨{ State.reset with
         hw := { State.reset.hw with length := 0x10000#32 }
         host := hostSide [.store ⟨0x00, 4⟩ 0x00000013#32] [] [] }, _, .host (rest := []) rfl rfl rfl rfl, rfl, rfl, rfl,
       rfl⟩

/-- The two sides of the boundary of LENGTH. -/
theorem witness_LengthWidths :
    ((Instr.dump false).hasByteCount = true ∧ (latch 0x10000#32 true).len.extractLsb' 16 16 ≠ 0#16) ∧
      (latch 0xFFFF#32 true).len.extractLsb' 16 16 = 0#16 := by decide

theorem witness_BlockResetValues :
    State.mover { running (.release .writeReq) 0#32 [] with host := hostSide [] [] [.reset] } = .reset := rfl

theorem witness_AcquireFollowsItsRule :
    ((start (latch 0#32 false) [] []).Accepted ∧ (start (latch 0#32 false) [] []).hw.latch.present = false) ∧
      ((start (latch 0#32 true) (grant.words true) []).Accepted ∧ grant.granted params ∧
        (start (latch 0#32 true) (grant.words true) []).hw.Answers (grant.words true)) ∧
      (start (latch 0#32 true) (noGrant.words true) []).Accepted ∧ noGrant.timedOut params ∧
        (start (latch 0#32 true) (noGrant.words true) []).hw.Answers (noGrant.words true) :=
  ⟨⟨start_accepted .., rfl⟩, ⟨start_accepted .., grant_granted, answers_all ..⟩, start_accepted .., noGrant_timedOut,
   answers_all ..⟩

theorem witness_ReleaseFollowsItsRule :
    ((start (latch 0#32 false) [] []).Accepted ∧ (start (latch 0#32 false) [] []).hw.latch.present = false) ∧
      (start (latch 0#32 true) [0xC0#32] []).Accepted ∧ (start (latch 0#32 true) [0xC0#32] []).hw.latch.present = true :=
  ⟨⟨start_accepted .., rfl⟩, start_accepted .., rfl⟩

/-- The same two states as RELEASE's. -/
theorem witness_StandbyFollowsItsRule :
    ((start (latch 0#32 false) [] []).Accepted ∧ (start (latch 0#32 false) [] []).hw.latch.present = false) ∧
      (start (latch 0#32 true) [0xC0#32] []).Accepted ∧ (start (latch 0#32 true) [0xC0#32] []).hw.latch.present = true :=
  witness_ReleaseFollowsItsRule

/-- Two bits, cancellable, source and destination the same buffer (both clauses). -/
theorem witness_TransferShiftsOut :
    ∃ s : State, s.Accepted ∧ s.hw.Sound ∧ s.hw.Answers (0xC0#32 :: [8#32, 0#32]) ∧
      [8#32, 0#32].length = s.hw.latch.len.toNat ∧ s.hw.Uncancelled true s.hw.latch.len.toNat ∧
      s.hw.latch.srca = s.hw.latch.dsta :=
  ⟨start { latch 2#32 true with off := 0#16 } [0xC0#32, 8#32, 0#32] (List.replicate 2 false), start_accepted ..,
   start_sound .., answers_all .., rfl, uncancelled_all _ _ 2, rfl⟩

/-- 40_bitclock_transfer.md R65: with the source one byte after the destination, the bits shifted out are the source's. -/
theorem test_exchange_overlap :
    exchangeBits params (some 0x101#32) (some 0x100#32) 0 [(0x101, 0xA0#8)] [8#32, 8#32, 8#32] = [true, false, true] := by
  decide

theorem witness_TransferCaptures :
    ∃ s : State, s.Accepted ∧ s.hw.Sound ∧ s.hw.Answers (0xC0#32 :: [8#32, 0#32]) ∧
      [8#32, 0#32].length = s.hw.latch.len.toNat ∧ s.hw.Uncancelled true s.hw.latch.len.toNat :=
  ⟨start { latch 2#32 true with off := 0#16 } [0xC0#32, 8#32, 0#32] (List.replicate 2 false), start_accepted ..,
   start_sound .., answers_all .., rfl, uncancelled_all _ _ 2⟩

/-- Cancelled before the first bit, and before the last. -/
theorem witness_CancelledTransferStops :
    (∃ s : State, s.Accepted ∧ s.hw.Sound ∧ s.hw.Answers (0xC0#32 :: []) ∧ 0 < s.hw.latch.len.toNat ∧
        s.hw.cancels = List.replicate 0 false ++ true :: []) ∧
      ∃ s : State, s.Accepted ∧ s.hw.Sound ∧ s.hw.Answers (0xC0#32 :: [8#32]) ∧ 1 < s.hw.latch.len.toNat ∧
        s.hw.cancels = List.replicate 1 false ++ true :: [] :=
  ⟨⟨start { latch 2#32 true with off := 0#16 } [0xC0#32] [true], start_accepted .., start_sound .., answers_all ..,
    by decide, rfl⟩,
   ⟨start { latch 2#32 true with off := 0#16 } [0xC0#32, 8#32] [false, true], start_accepted .., start_sound ..,
    answers_all .., by decide, rfl⟩⟩

theorem witness_EnableWriteSendsWren :
    ∃ s : State, s.Accepted ∧ s.hw.Sound ∧ s.hw.Answers ((frame 8).words s.hw.latch.present) ∧
      (frame 8).bits.length = 8 ∧ s.hw.Uncancelled true 8 :=
  ⟨start { latch 0#32 true with off := 0#16 } ((frame 8).words true) (List.replicate 8 false), start_accepted ..,
   start_sound .., answers_all .., rfl, uncancelled_all _ _ 8⟩

theorem witness_WriteStatusSendsTwoFrames :
    ∃ s : State, s.Accepted ∧ s.hw.Sound ∧ s.hw.Answers (clear.words s.hw.latch.present) ∧ clear.fits ∧
      s.hw.Uncancelled true 24 :=
  ⟨start { latch 0#32 true with off := 0#16 } (clear.words true) (List.replicate 24 false), start_accepted ..,
   start_sound .., answers_all .., clear_fits, uncancelled_all _ _ 24⟩

/-- CLEAR_BP starts from the same state. -/
theorem witness_ClearBpWritesTheComplement :
    ∃ s : State, s.Accepted ∧ s.hw.Sound ∧ s.hw.Answers (clear.words s.hw.latch.present) ∧ clear.fits ∧
      s.hw.Uncancelled true 24 := witness_WriteStatusSendsTwoFrames

theorem witness_ReadStatusReturnsTheSecondByte :
    ∃ s : State, s.Accepted ∧ s.hw.Sound ∧ s.hw.Answers ((frame 16).words s.hw.latch.present) ∧
      (frame 16).bits.length = 16 ∧ s.hw.Uncancelled true 16 :=
  ⟨start { latch 0#32 true with off := 0#16 } ((frame 16).words true) (List.replicate 16 false), start_accepted ..,
   start_sound .., answers_all .., rfl, uncancelled_all _ _ 16⟩

/-- A page of two bytes. -/
theorem witness_WritePageSendsHeaderAndPayload :
    ∃ s : State, s.Accepted ∧ s.hw.Sound ∧ s.hw.latch.len.extractLsb' 16 16 = 0#16 ∧
      s.hw.Answers ((page 2).words s.hw.latch.present) ∧ (page 2).fits s.hw.latch.len.toNat ∧
      s.hw.Uncancelled true (32 + 8 * s.hw.latch.len.toNat) :=
  ⟨start { latch 2#32 true with off := 0xFFFF#16 } ((page 2).words true) (List.replicate 48 false), start_accepted ..,
   start_sound .., by decide, answers_all .., page_fits 2, uncancelled_all _ _ 48⟩

theorem witness_ReadPageFillsTheBuffer :
    ∃ s : State, s.Accepted ∧ s.hw.Sound ∧ s.hw.latch.len.extractLsb' 16 16 = 0#16 ∧
      s.hw.Answers ((page 2).words s.hw.latch.present) ∧ (page 2).fits s.hw.latch.len.toNat ∧
      s.hw.Uncancelled true (32 + 8 * s.hw.latch.len.toNat) := witness_WritePageSendsHeaderAndPayload

/-- One busy status byte before the ready one. -/
theorem witness_PollReadyRepeatsUntilReady :
    ∃ s : State, s.Accepted ∧ s.hw.Sound ∧ poll.fits s.hw.params ∧ s.hw.Answers (poll.words s.hw.latch.present) ∧
      s.hw.Uncancelled true (16 * (poll.busy.length + 1)) :=
  ⟨start { latch 0#32 true with off := 0#16 } (poll.words true) (List.replicate 32 false), start_accepted ..,
   start_sound .., poll_fits, answers_all .., uncancelled_all _ _ 32⟩

/-- PROGRAM of no bytes, with a FLASH attached. -/
theorem witness_PollingHasNoBound :
    ∃ s : State, s.Accepted ∧ s.hw.Sound ∧ s.hw.params.statusBusyMask ≠ 0#8 ∧ s.hw.latch.len.extractLsb' 16 16 = 0#16 :=
  ⟨start { latch 0#32 true with off := 0#16 } [] [], start_accepted .., start_sound .., by decide, by decide⟩

/-- The two pages of a dump across a page boundary and the end of the offset space (43_flash_ops.md R79). -/
def split : List Span := dumpPages 0x100 2 ⟨bufRef 0#32, 0xFFFF#16, 2⟩

theorem pages_fit : pagesFit split [page 1, page 1] := ⟨page_fits 1, page_fits 1, trivial⟩

theorem witness_DumpReadsPageByPage :
    ∃ s : State, s.Accepted ∧ s.hw.Sound ∧ s.hw.latch.len.extractLsb' 16 16 = 0#16 ∧
      split = dumpPages s.hw.latch.ps.toNat s.hw.latch.len.toNat ⟨bufRef s.hw.latch.dsta, s.hw.latch.off, s.hw.latch.len.toNat⟩ ∧
      poll.fits s.hw.params ∧ pagesFit split [page 1, page 1] ∧
      s.hw.Answers (poll.words s.hw.latch.present ++ [page 1, page 1].flatMap (PageAnswers.words s.hw.latch.present)) ∧
      ∀ n, s.hw.Uncancelled false n :=
  ⟨start { latch 2#32 true with off := 0xFFFF#16 } (poll.words true ++ [page 1, page 1].flatMap (PageAnswers.words true)) [],
   start_accepted .., start_sound .., by decide, rfl, poll_fits, pages_fit, answers_all .., fun _ h => nomatch h⟩

/-- The smallest and the largest page size. -/
theorem witness_PageSplitStaysInPages : legalPageSize 1#17 = true ∧ legalPageSize 32768#17 = true := by decide

theorem witness_ProgramWritesByteByByte :
    ∃ s : State, s.Accepted ∧ s.hw.Sound ∧ s.hw.latch.len.extractLsb' 16 16 = 0#16 ∧
      (prog 2).fits s.hw.params s.hw.latch.len.toNat ∧ s.hw.Answers ((prog 2).words s.hw.latch.present) ∧
      ∀ n, s.hw.Uncancelled false n :=
  ⟨start { latch 2#32 true with off := 0xFFFF#16 } ((prog 2).words true) [], start_accepted .., start_sound .., by decide,
   prog_fits 2, answers_all .., fun _ h => nomatch h⟩

/-- Granted at the last poll allowed, with a FLASH attached. -/
theorem witness_EraseSendsItsFrames :
    ∃ s : State, s.Accepted ∧ s.hw.Sound ∧ (s.hw.latch.present = true → grant.granted s.hw.params) ∧ clear.fits ∧
      (frame 8).bits.length = 8 ∧
      s.hw.Answers
        (grant.words s.hw.latch.present ++ releaseWords s.hw.latch.present 0#32 ++ clear.words s.hw.latch.present ++
          (frame 8).words s.hw.latch.present ++ (frame 8).words s.hw.latch.present ++
          releaseWords s.hw.latch.present 0#32) ∧
      s.hw.Uncancelled true 40 :=
  ⟨start { latch 0#32 true with off := 0#16 }
     (grant.words true ++ releaseWords true 0#32 ++ clear.words true ++ (frame 8).words true ++ (frame 8).words true ++
       releaseWords true 0#32) (List.replicate 40 false),
   start_accepted .., start_sound .., fun _ => grant_granted, clear_fits, rfl, answers_all .., uncancelled_all _ _ 40⟩

theorem witness_UnlockSendsItsFrames :
    ∃ s : State, s.Accepted ∧ s.hw.Sound ∧ (s.hw.latch.present = true → grant.granted s.hw.params) ∧ clear.fits ∧
      s.hw.Answers
        (grant.words s.hw.latch.present ++ releaseWords s.hw.latch.present 0#32 ++ clear.words s.hw.latch.present ++
          releaseWords s.hw.latch.present 0#32) ∧
      s.hw.Uncancelled true 24 :=
  ⟨start { latch 0#32 true with off := 0#16 }
     (grant.words true ++ releaseWords true 0#32 ++ clear.words true ++ releaseWords true 0#32) (List.replicate 24 false),
   start_accepted .., start_sound .., fun _ => grant_granted, clear_fits, answers_all .., uncancelled_all _ _ 24⟩

/-- k = 0. -/
theorem witness_ChecksumEngine : [0xBA#8, 0xBA#8].length = 2 * (0 + 1) := rfl

/-- k = 0, the dumped word 0x0000 and an expected sum of 1: a mismatch that RP = 1 repairs. -/
theorem witness_ChecksumComparesAndRepairs :
    ∃ (s : State) (bytes : List Byte) (x : ChecksumResult) (pages : List PageAnswers), s.Accepted ∧ s.hw.Sound ∧
      (s.hw.latch.present = true → grant.granted s.hw.params) ∧ poll.fits s.hw.params ∧
      pagesFit (dumpPages s.hw.latch.ps.toNat (2 * (s.hw.params.checksumIndex + 1))
        ⟨scrRef 0, 0#16, 2 * (s.hw.params.checksumIndex + 1)⟩) pages ∧ (prog 2).fits s.hw.params 2 ∧
      bytes = sampledBytes s.hw.params (2 * (s.hw.params.checksumIndex + 1)) (pages.flatMap PageAnswers.payload) ∧
      checksumEval s.hw.params.wordOrder bytes s.hw.params.checksumIndex s.hw.latch.dat = some x ∧
      x.computed ≠ x.stored ∧
      s.hw.Answers
        (grant.words s.hw.latch.present ++ poll.words s.hw.latch.present ++
          pages.flatMap (PageAnswers.words s.hw.latch.present) ++ (prog 2).words s.hw.latch.present ++
          releaseWords s.hw.latch.present 0#32) ∧
      ∀ n, s.hw.Uncancelled false n :=
  ⟨start { latch 0#32 true with dat := 1#16 }
     (grant.words true ++ poll.words true ++ [page 2].flatMap (PageAnswers.words true) ++ (prog 2).words true ++
       releaseWords true 0#32) [],
   _, ⟨1#16, 0#16⟩, [page 2], start_accepted .., ⟨by decide, by decide, by decide, by decide⟩, fun _ => grant_granted,
   poll_fits, ⟨page_fits 2, trivial⟩, prog_fits 2, rfl, by decide, by decide, answers_all .., fun _ h => nomatch h⟩

/-- RELEASE with no FLASH attached ends OK after one step. -/
theorem release_ends : CommandEnds .release (start (latch 0#32 false) [] []) (start (latch 0#32 false) [] []).hw .ok :=
  ⟨_, rfl, 1, rfl⟩

/-- TRANSFER.C of one bit, cancelled at its first sample. -/
theorem transfer_cancelled :
    CommandEnds (.transfer true false false) (start (latch 1#32 false) [0#32] [true])
      (start (latch 1#32 false) [0#32] [true]).hw.regRead.cancelPending.markCancelled .cancelled := ⟨_, rfl, 4, rfl⟩

/-- UNLOCK.C with no FLASH attached, cancelled in ClearBP. -/
theorem unlock_protected :
    CommandEnds (.unlock true) (start (latch 0#32 false) [0#32] [true])
      ((start (latch 0#32 false) [0#32] [true]).hw.setOpb0 0x06#8).regRead.cancelPending.markCancelled .protectedRegion :=
  ⟨_, rfl, 5, rfl⟩

/-- ERASE with a FLASH attached, never granted. -/
theorem erase_timeout :
    CommandEnds (.erase true) (start (latch 0#32 true) (noGrant.words true) [])
      (runAcquire (start (latch 0#32 true) (noGrant.words true) []).hw).1 .arbTimeout := ⟨_, rfl, 9, rfl⟩

theorem plain_sound (len : Word) (present : Bool) (reads : List Word) (cancels : List Bool) :
    (start (latch len present) reads cancels).hw.Sound :=
  ⟨params_legal, rfl, rfl, pageSize_legal⟩

theorem witness_EachCommandProducesItsCodes :
    ∃ i s h code, State.Accepted s ∧ s.hw.Sound ∧ CommandEnds i s h code :=
  ⟨_, _, _, _, start_accepted .., plain_sound .., erase_timeout⟩

/-- j samples that answer 0 take a transfer out of OPB j bits on. -/
theorem bits_uncancelled {n : Nat} (hn : n ≤ 16) (j left : Nat) (hl : j + left ≤ n) {s : Hw} {rest : List Bool}
    (h : s.cancels = List.replicate j false ++ rest) :
    ∃ s', runBits (opcodeArgs n true) (j + left) s = runBits (opcodeArgs n true) left s' ∧ s'.cancels = rest ∧
      s'.latch = s.latch ∧ cancelSamples s'.trace = cancelSamples s.trace + j := by
  induction j generalizing s with
  | zero => exact ⟨s, by rw [Nat.zero_add], h, rfl, rfl⟩
  | succ j ih =>
    have ha : s.cancelAnswer = false := by simp only [Hw.cancelAnswer, h, List.replicate_succ, List.cons_append]
    have hb : ∃ u, runBit (opcodeArgs n true) (n - (j + left + 1)) s.cancelPending = some u ∧
        u.cancels = s.cancels.tail ∧ u.latch = s.latch ∧ cancelSamples u.trace = cancelSamples s.trace + 1 := by
      obtain ⟨v, hv⟩ : ∃ v, s.cancelPending.memRead (bitByte opbRef (n - (j + left + 1))) = some v := by
        have : (n - (j + left + 1)) / 8 = 0 ∨ (n - (j + left + 1)) / 8 = 1 := by omega
        rcases this with h0 | h0 <;> simp only [bitByte, h0] <;> exact ⟨_, rfl⟩
      refine ⟨_, by simp only [runBit, sourceBit, opcodeArgs, hv, Option.map_some, Option.bind_some, captureBit]; rfl, ?_⟩
      simp only [putSi]
      split <;> simp [runLower, runRaise, runDrive, Hw.cancelPending, cancelSamples, Hw.regRead, Hw.regWrite, Hw.flush,
        Hw.delayUnit, Hw.delay, Hw.emit, Hw.setLs, Hw.clearLs]
    obtain ⟨u, hu, hc, hlat, ht⟩ := hb
    obtain ⟨s', hs, hr, hlat', hs'⟩ := ih (by omega) (s := u) (by rw [hc, h]; rfl)
    refine ⟨s', ?_, hr, hlat'.trans hlat, by omega⟩
    rw [show j + 1 + left = j + left + 1 by omega, ← hs]
    simp only [runBits, ha, show (opcodeArgs n true).c = true from rfl, show (opcodeArgs n true).n = n from rfl, if_true,
      hu, Option.bind_some, Bool.false_eq_true, if_false]

/-- A transfer of n bits out of OPB that no sample cancels. -/
theorem xfer_ok {n : Nat} (hn : n ≤ 16) {s : Hw} {rest : List Bool} (h : s.cancels = List.replicate n false ++ rest) :
    ∃ s', runXfer (opcodeArgs n true) s = some (s', .ok) ∧ s'.cancels = rest ∧ s'.latch = s.latch ∧
      cancelSamples s'.trace = cancelSamples s.trace + n := by
  obtain ⟨s', h1, h2, h3, h4⟩ := bits_uncancelled hn n 0 (Nat.le_refl n) (s := s.regRead) h
  exact ⟨s', h1, h2, h3, by simpa [Hw.regRead, cancelSamples] using h4⟩

/-- One that its sample j + 1 cancels. -/
theorem xfer_cancelled {n : Nat} (hn : n ≤ 16) (j : Nat) (hj : j < n) {s : Hw} {rest : List Bool}
    (h : s.cancels = List.replicate j false ++ true :: rest) :
    ∃ s', runXfer (opcodeArgs n true) s = some (s', .cancelled) ∧ s'.latch = s.latch ∧
      cancelSamples s'.trace = cancelSamples s.trace + j + 1 := by
  obtain ⟨s', h1, h2, h3, h4⟩ := bits_uncancelled hn j (n - j) (by omega) (s := s.regRead) h
  refine ⟨s'.cancelPending.markCancelled, ?_, h3, ?_⟩
  · rw [show j + (n - j) = n by omega, show n - j = n - j - 1 + 1 by omega] at h1
    refine h1.trans ?_
    simp only [runBits, show (opcodeArgs n true).c = true from rfl, if_true, Hw.cancelAnswer, h2]
  · simpa [Hw.regRead, cancelSamples, Hw.cancelPending, Hw.markCancelled] using h4

/-- An ERASE.C ends as its pseudocode does, run straight through. -/
theorem erase_ends {s : State} {h : Hw} {r : SubOutcome} (hs : s.Accepted) (hr : runErase true s.hw = some (h, r)) :
    CommandEnds (.erase true) s h r.rcode :=
  commandEnds_of_ends (wrap := .erase true) (k := endByOutcome) (fun _ => nofun)
    (fun _ _ ht => blockStep_of_seq ht rfl) hs rfl (stepErase_ends hr) (reaches_finish s hs.quiet.turns h _)

/-- ERASE.C with no FLASH attached, cancelled at sample k + 1. -/
def eraseCancelledAfter (k : Nat) : State := start (latch 0#32 false) [] (List.replicate k false ++ [true])

theorem standby_none {s : Hw} (h : s.latch.present = false) : runStandby s = s := by simp [runStandby, h]

theorem release_none {s : Hw} (h : s.latch.present = false) : runRelease s = s := by simp [runRelease, h]

/-- ERASE.C with no FLASH attached runs ClearBP at once. -/
theorem runErase_start (k : Nat) : runErase true (eraseCancelledAfter k).hw = runEraseBody true (eraseCancelledAfter k).hw :=
  rfl

/-- Sample 24, the last of ClearBP. -/
theorem erase_sample_24 :
    ∃ h, CommandEnds (.erase true) (eraseCancelledAfter 23) h .protectedRegion ∧ cancelSamples h.trace = 24 := by
  obtain ⟨u, hu, huc, hul, hut⟩ := xfer_ok (n := 8) (by decide) (rest := List.replicate 15 false ++ [true])
    (s := (eraseCancelledAfter 23).hw.setOpb0 (eraseCancelledAfter 23).hw.params.opWren) rfl
  obtain ⟨w, hw, hwl, hwt⟩ := xfer_cancelled (n := 16) (by decide) 15 (by decide) (rest := [])
    (s := (u.setOpb0 u.params.opWrsr).setOpb1 (clearBpByte (eraseCancelledAfter 23).hw.params)) huc
  have hup : u.latch.present = false := by rw [hul]; rfl
  have hwp : w.latch.present = false := by rw [hwl]; exact hup
  refine ⟨w, erase_ends (r := .protectedRegion) (start_accepted ..) ?_, hwt.trans (by simp [hut]; rfl)⟩
  simp only [runErase_start, standby_none (s := (eraseCancelledAfter 23).hw) rfl, runEraseBody, runClearBp,
    runWriteStatus, runEnableWrite, hu, Option.bind_some, runStatusFrame, standby_none hup, hw, release_none hwp]

/-- Sample 25, the first after it. -/
theorem erase_sample_25 :
    ∃ h, CommandEnds (.erase true) (eraseCancelledAfter 24) h .cancelled ∧ cancelSamples h.trace = 25 := by
  obtain ⟨u, hu, huc, hul, hut⟩ := xfer_ok (n := 8) (by decide) (rest := List.replicate 16 false ++ [true])
    (s := (eraseCancelledAfter 24).hw.setOpb0 (eraseCancelledAfter 24).hw.params.opWren) rfl
  obtain ⟨w, hw, hwc, hwl, hwt⟩ := xfer_ok (n := 16) (by decide) (rest := [true])
    (s := (u.setOpb0 u.params.opWrsr).setOpb1 (clearBpByte (eraseCancelledAfter 24).hw.params)) huc
  obtain ⟨x, hx, hxl, hxt⟩ := xfer_cancelled (n := 8) (by decide) 0 (by decide) (rest := [])
    (s := w.setOpb0 w.params.opWren) hwc
  have hup : u.latch.present = false := by rw [hul]; rfl
  have hwp : w.latch.present = false := by rw [hwl]; exact hup
  have hxp : x.latch.present = false := by rw [hxl]; exact hwp
  refine ⟨x, erase_ends (r := .cancelled) (start_accepted ..) ?_, hxt.trans (by simp [hwt, hut]; rfl)⟩
  simp only [runErase_start, standby_none (s := (eraseCancelledAfter 24).hw) rfl, runEraseBody, runClearBp,
    runWriteStatus, runEnableWrite, hu, Option.bind_some, runStatusFrame, standby_none hup, hw, standby_none hwp, hx,
    release_none hxp]

/-- A command that is cancelled, one that fails in ClearBP, one that times out; ERASE cancelled at the last sample of ClearBP
and at the next; an illegal word, and a page command with the smallest LENGTH that is too wide. -/
theorem witness_FirstFailureDecidesTheOutcome :
    (∃ i s h, State.Accepted s ∧ s.hw.Sound ∧ CommandEnds i s h .cancelled) ∧
      (∃ i s h, State.Accepted s ∧ s.hw.Sound ∧ CommandEnds i s h .protectedRegion) ∧
      (∃ i s h, State.Accepted s ∧ s.hw.Sound ∧ CommandEnds i s h .arbTimeout) ∧
      (∃ c s h, State.Accepted s ∧ s.hw.Sound ∧ CommandEnds (.erase c) s h .protectedRegion ∧
        cancelSamples h.trace = 24) ∧
      (∃ c s h, State.Accepted s ∧ s.hw.Sound ∧ CommandEnds (.erase c) s h .cancelled ∧ cancelSamples h.trace = 25) ∧
      (∃ u, State.Delivers (hosted (.store ⟨0x00, 4⟩ 0x102#32) false) 0x102#32 u) ∧
      (hosted (.store ⟨0x00, 4⟩ 0x102#32) false).hw.status.busy = false ∧
      decode 0x102#32 = .error .flagNotAllowed ∧
      (∃ h, CommandEnds (.writePage true) (start (latch 0x10000#32 true) [] []) h .illegal) ∧
      ∃ t, blockStep (running (.release .seed) 0#32 [0#32]) = .next t :=
  ⟨⟨_, _, _, start_accepted .., plain_sound .., transfer_cancelled⟩,
   ⟨_, _, _, start_accepted .., plain_sound .., unlock_protected⟩,
   ⟨_, _, _, start_accepted .., plain_sound .., erase_timeout⟩,
   ⟨_, _, _, start_accepted .., plain_sound .., erase_sample_24.choose_spec⟩,
   ⟨_, _, _, start_accepted .., plain_sound .., erase_sample_25.choose_spec⟩,
   ⟨_, .host (rest := []) rfl rfl rfl rfl⟩, rfl, by decide, ⟨_, _, rfl, 1, rfl⟩, ⟨_, rfl⟩⟩

theorem witness_CancelledCommandStopsAtOnce :
    (∃ i s h, State.Accepted s ∧ s.hw.Sound ∧ CommandEnds i s h .cancelled) ∧
      ∃ i s h, State.Accepted s ∧ s.hw.Sound ∧ CommandEnds i s h .protectedRegion :=
  ⟨⟨_, _, _, start_accepted .., plain_sound .., transfer_cancelled⟩,
   ⟨_, _, _, start_accepted .., plain_sound .., unlock_protected⟩⟩

theorem witness_CancellationOnlyCutsTheRun :
    ∃ i s h after, State.Accepted s ∧ s.hw.Sound ∧ CommandEnds i s h .cancelled ∧
      h.trace = s.hw.trace ++ [.rd 0#32] ++ .cp true :: after :=
  ⟨_, _, _, [], start_accepted .., plain_sound .., transfer_cancelled, rfl⟩

theorem witness_CancellationIsSampledOnlyUnderC :
    ∃ i s h code, State.Accepted s ∧ s.hw.Sound ∧ (Instr.flags i).c = false ∧ CommandEnds i s h code :=
  ⟨_, _, _, _, start_accepted .., plain_sound .., rfl, release_ends⟩

theorem witness_TimeoutHappensOnlyInAcquire :
    (∃ i s h, State.Accepted s ∧ s.hw.Sound ∧ CommandEnds i s h .arbTimeout) ∧
      (Instr.erase true).ownsSession = true ∧
      ∃ s : State, s.Accepted ∧ s.hw.Sound ∧ s.hw.latch.present = true ∧ noGrant.timedOut s.hw.params ∧
        s.hw.Answers (noGrant.words true) :=
  ⟨⟨_, _, _, start_accepted .., plain_sound .., erase_timeout⟩, rfl,
   ⟨start (latch 0#32 true) (noGrant.words true) [], start_accepted .., plain_sound .., rfl, noGrant_timedOut,
    answers_all ..⟩⟩

theorem witness_OwnSessionEndsWithReqClear :
    ∃ i s h code, State.Accepted s ∧ s.hw.Sound ∧ Instr.ownsSession i = true ∧ s.hw.latch.present = true ∧
      CommandEnds i s h code := ⟨_, _, _, _, start_accepted .., plain_sound .., rfl, rfl, erase_timeout⟩

theorem reset_inv : (State.resetWith params).Inv :=
  ⟨by decide, by decide, by decide, by decide, by decide, by decide⟩

/-- The bound of the index, and the invariant. -/
theorem witness_ResetAndAcceptanceAreSound :
    Params.wellFormed { Config.reference with checksumIndex := 32766 } = true ∧ ∃ s : State, s.Inv :=
  ⟨by decide, _, reset_inv⟩

theorem witness_StepKeepsInv : ∃ s t : State, s.Inv ∧ step s = .next t := ⟨_, _, reset_inv, rfl⟩

/-- A refused step from an invariant state. -/
theorem witness_StepNeverFaults : ∃ s : State, s.Inv ∧ step s = .refused .hostAccessWidth :=
  ⟨{ State.resetWith params with host := hostSide [.load ⟨0x04, 2⟩] [] [] },
   ⟨by decide, by decide, by decide, by decide, by decide, by decide⟩, rfl⟩

/-- A step of each kind of store and one that stores nothing: Xfer into the last address of BUF and into the last byte of
SCR, the trailing-bit clear, an opcode byte and the last header byte in OPB, and the two bytes of CHECKSUM's word. -/
theorem witness_BlockStepIsOnePrimitive :
    (∃ t, blockStep (running (.transfer ⟨8, none, some ⟨.buf, 0xFFFFFFFF#32⟩, false⟩ (.store 7 ⟨.buf, 0xFFFFFFFF#32⟩ 0#8))
        0xFFFFFFFF#32 []) = .next t ∧ t.hw.mem = [(0xFFFFFFFF, 1#8)]) ∧
      (∃ t, blockStep (running (.checksum false true (.dump (.page ⟨scrRef 0, 0#16, 2⟩ (.payload (.store 8 (scrRef 1) 0#8)))))
        0xFFFFFFFF#32 []) = .next t ∧ t.hw.scr = [0#8, 0x80#8]) ∧
      (∃ t, blockStep (running (.transfer ⟨3, none, some ⟨.buf, 5#32⟩, false⟩ (.storeTail ⟨.buf, 5#32⟩ 0xFF#8)) 0#32 []) =
        .next t ∧ t.hw.mem = [(5, 0xE0#8)]) ∧
      (∃ t, blockStep (running (.enableWrite false .opcode) 0#32 []) = .next t) ∧
      (∃ t, blockStep (running (.writePage ⟨⟨.buf, 0#32⟩, 0x1234#16, 1⟩ false .addrLow) 0#32 []) = .next t ∧
        t.hw.opb.b3 = 0x34#8) ∧
      (∃ t, blockStep (running (.checksum false true (.scrLow 0x1234#16)) 0#32 []) = .next t) ∧
      (∃ t, blockStep (running (.checksum false true (.scrHigh 0x1234#16)) 0#32 []) = .next t) ∧
      ∃ t, blockStep (running (.release .seed) 0#32 [0#32]) = .next t :=
  ⟨⟨_, rfl, by decide⟩, ⟨_, rfl, by decide⟩, ⟨_, rfl, by decide⟩, ⟨_, rfl⟩, ⟨_, rfl, by decide⟩, ⟨_, rfl⟩, ⟨_, rfl⟩, ⟨_, rfl⟩⟩

/-- A step that writes RDATA. -/
theorem witness_BlockStepKeepsHostRegisters :
    ∃ t, blockStep (running (.statusResult 0x03#8) 0#32 []) = .next t ∧
      t.hw.rdata ≠ (running (.statusResult 0x03#8) 0#32 []).hw.rdata := ⟨_, rfl, by decide⟩

theorem witness_CommandFrame : ∃ i s h code, State.Accepted s ∧ s.hw.Sound ∧ CommandEnds i s h code :=
  witness_EachCommandProducesItsCodes

/-- LS is live and holds the bits last read; the step writes it. -/
theorem witness_OtherBitsArePreserved :
    ∃ s t : State, s.LsFollowsReads ∧ step s = .next t ∧ t.hw.trace = s.hw.trace ++ [.wr 0x42#32] :=
  ⟨{ running (.acquire .writeReq) 0x42#32 [] with
     hw := { (running .idle 0x42#32 []).hw with trace := [.rd 0x02#32] } }, _,
   fun _ => ⟨0x02#32, rfl, by decide⟩, rfl, rfl⟩

theorem witness_ScratchIsNotObservable : ∃ i s h code, State.Accepted s ∧ s.hw.Sound ∧ CommandEnds i s h code :=
  ⟨_, _, _, _, start_accepted .., plain_sound .., unlock_protected⟩

theorem witness_OperandStoreCommutesWithTheBlock :
    (running (.release .seed) 0#32 [0#32]).seq ≠ .idle ∧ ∃ t, blockStep (running (.release .seed) 0#32 [0#32]) = .next t :=
  ⟨by decide, _, rfl⟩

/-- The top of the address space; a host access to BUF while a command runs. -/
theorem witness_BufReadAfterWrite :
    (Memory.wf [(2 ^ 32 - 1, 1#8)] = true ∧ 2 ^ 32 - 1 < 2 ^ 32) ∧
      ((hosted (.bufStore 0xFFFFFFFF#32 1#8) true).mover = .host ∧
        (hosted (.bufStore 0xFFFFFFFF#32 1#8) true).hw.mem.wf = true ∧
        (hosted (.bufStore 0xFFFFFFFF#32 1#8) true).host.ops = .bufStore 0xFFFFFFFF#32 1#8 :: []) ∧
      (hosted (.bufLoad 0#32) true).host.ops = .bufLoad 0#32 :: [] ∧ (hosted .wait true).host.turns = .host :: [] := by
  decide

theorem witness_MachineRunsThePseudocode : ∃ s : State, s.Accepted ∧ s.hw.Sound :=
  ⟨_, start_accepted (latch 1#32 true) [] [], plain_sound ..⟩

/-- Both premises. -/
theorem witness_BoundedCommandsComplete :
    (Instr.erase true).bounded = true ∧
      ∃ s : State, s.Accepted ∧ s.hw.Sound ∧ s.hw.params.statusBusyMask = 0#8 :=
  ⟨rfl,
   { start (latch 0#32 true) [] [] with
     hw := { (start (latch 0#32 true) [] []).hw with params := { params with statusBusyMask := 0#8 } } },
   ⟨rfl, rfl, ⟨rfl, rfl, rfl⟩⟩, ⟨by decide, by decide, by decide, by show legalPageSize 0x100#17 = true; decide⟩, rfl⟩

theorem witness_EventCounts :
    (∃ i s h, State.Accepted s ∧ s.hw.Sound ∧ CommandEnds i s h .ok) ∧
      ∃ i s h, State.Accepted s ∧ s.hw.Sound ∧ CommandEnds i s h .arbTimeout :=
  ⟨⟨_, _, _, start_accepted .., plain_sound .., release_ends⟩, ⟨_, _, _, start_accepted .., plain_sound .., erase_timeout⟩⟩

end Sys2Proof.Tests
end

section
/-! PROOFS. What one step of the machine can do to the line state LS and to the values read from and written to CTRL
(00_scope.md R2, R10; 10_state.md R25): `Hw.LineStep` says it once, one lemma per procedure shows it, and the statement that
the block preserves the other bits of CTRL follows. -/

namespace Sys2Proof.Machine

/-! ### The bits that no update of LS changes -/

/-- The bits SK, SI, CEN and REQ are not among the kept ones. -/
theorem bitMask_and_keptMask {p : Params} {b : Fin 32}
    (hb : b = p.bitSk ∨ b = p.bitSi ∨ b = p.bitCen ∨ b = p.bitReq) : bitMask b &&& keptMask p = 0#32 := by
  ext i hi
  simp only [keptMask, BitVec.getElem_and, BitVec.getElem_not, BitVec.getElem_or, BitVec.getElem_zero]
  cases hm : (bitMask b)[i] with
  | false => rfl
  | true => obtain rfl | rfl | rfl | rfl := hb <;> simp [hm]

/-- Every bit other than SK, SI, CEN and REQ is among the kept ones. -/
theorem keptMask_getLsbD {p : Params} {b : Nat} (hb : b < 32) (hsk : b ≠ p.bitSk.val) (hsi : b ≠ p.bitSi.val)
    (hcen : b ≠ p.bitCen.val) (hreq : b ≠ p.bitReq.val) : (keptMask p).getLsbD b = true := by
  have other : ∀ i : Fin 32, b ≠ i.val → (bitMask i).getLsbD b = false := fun i hi => by
    rw [bitMask, BitVec.getLsbD_shiftLeft, BitVec.getLsbD_one, decide_eq_true hb]
    obtain hlt | hne : b < i.val ∨ b - i.val ≠ 0 := by omega
    · rw [decide_eq_true hlt]
      rfl
    · rw [decide_eq_false hne, Bool.and_false, Bool.and_false]
  simp only [keptMask, BitVec.getLsbD_not, BitVec.getLsbD_or, hb, other _ hsk, other _ hsi, other _ hcen, other _ hreq,
    decide_true, Bool.or_self, Bool.not_false, Bool.and_self]

/-- Setting bits outside `k` leaves the bits of `k` alone. -/
theorem or_and_of_disjoint {m k : Word} (h : m &&& k = 0#32) (x : Word) : (x ||| m) &&& k = x &&& k := by
  rw [BitVec.and_comm, BitVec.and_or_distrib_left, BitVec.and_comm k m, h, BitVec.or_zero, BitVec.and_comm]

/-- Clearing bits outside `k` leaves the bits of `k` alone. -/
theorem andNot_and_of_disjoint {m k : Word} (h : m &&& k = 0#32) (x : Word) : (x &&& ~~~m) &&& k = x &&& k := by
  ext i hi
  have hb : (m &&& k)[i] = false := by rw [h, BitVec.getElem_zero]
  rw [BitVec.getElem_and, Bool.and_eq_false_iff] at hb
  simp only [BitVec.getElem_and, BitVec.getElem_not]
  obtain hm | hk := hb
  · rw [hm, Bool.not_false, Bool.and_true]
  · rw [hk, Bool.and_false, Bool.and_false]

/-! ### The last value read -/

theorem lastRead_append_rd (t : List Event) (v : Word) : lastRead (t ++ [.rd v]) = some v := by
  simp only [lastRead, List.foldl_append, List.foldl_cons, List.foldl_nil]

theorem lastRead_append_of_ne_rd (t : List Event) {e : Event} (h : ∀ v, e ≠ .rd v) : lastRead (t ++ [e]) = lastRead t := by
  cases e with
  | rd v => exact (h v rfl).elim
  | wr | fl | dl | cp => simp only [lastRead, List.foldl_append, List.foldl_cons, List.foldl_nil]

/-! ### What one step can do -/

/-- What one step can do to LS and to CTRL, where `before` and `after` say whether LS is live before and after it: it reads
CTRL into LS, or writes a live LS to CTRL, or does neither, and then an LS that is live after the step was live before it and
has the kept bits it had. -/
inductive Hw.LineStep (before after : Bool) (s : Hw) : Hw → Prop where
  | read : LineStep before after s s.regRead
  | write (live : before = true) : LineStep before after s s.regWrite
  | keep {t : Hw} (params : t.params = s.params) (read : lastRead t.trace = lastRead s.trace)
      (noWrite : ∀ w, t.trace ≠ s.trace ++ [.wr w])
      (ls : after = true → before = true ∧ t.ls &&& keptMask s.params = s.ls &&& keptMask s.params) :
      LineStep before after s t

namespace Hw.LineStep

variable {before after : Bool} {s t : Hw}

/-- LS may be live after a step only where the step lets it be. -/
theorem mono {after' : Bool} (h : LineStep before after s t) (ha : after' = true → after = true) :
    LineStep before after' s t := by
  cases h with
  | read => exact .read
  | write live => exact .write live
  | keep params read noWrite ls => exact .keep params read noWrite fun h => ls (ha h)

/-- Once LS is live after a step, nothing more is asked of what follows. -/
theorem any (h : LineStep before true s t) : LineStep before after s t := h.mono fun _ => rfl

/-- A step that leaves the trace alone. -/
theorem silent (params : t.params = s.params) (trace : t.trace = s.trace)
    (ls : after = true → before = true ∧ t.ls &&& keptMask s.params = s.ls &&& keptMask s.params) :
    LineStep before after s t :=
  .keep params (by rw [trace]) (fun w h => by simp [trace] at h) ls

/-- A step that leaves LS alone too. -/
theorem same (params : t.params = s.params) (trace : t.trace = s.trace) (ls : t.ls = s.ls) (h : after = true → before = true) :
    LineStep before after s t :=
  .silent params trace fun ha => ⟨h ha, by rw [ls]⟩

/-- A step that neither reads nor writes CTRL and emits one event. -/
theorem event {e : Event} (hr : ∀ v, e ≠ .rd v) (hw : ∀ v, e ≠ .wr v) (params : t.params = s.params) (ls : t.ls = s.ls)
    (trace : t.trace = s.trace ++ [e]) : LineStep true true s t :=
  .keep params (trace ▸ lastRead_append_of_ne_rd _ hr)
    (fun w h => hw w (List.singleton_inj.1 (List.append_cancel_left (trace.symm.trans h))))
    fun _ => ⟨rfl, by rw [ls]⟩

theorem delay (us : Nat) : LineStep true true s (s.delay us) := .event (e := .dl us) nofun nofun rfl rfl rfl

theorem setLs {m : Word} (h : m &&& keptMask s.params = 0#32) : LineStep true true s (s.setLs m) :=
  .silent rfl rfl fun _ => ⟨rfl, or_and_of_disjoint h _⟩

theorem clearLs {m : Word} (h : m &&& keptMask s.params = 0#32) : LineStep true true s (s.clearLs m) :=
  .silent rfl rfl fun _ => ⟨rfl, andNot_and_of_disjoint h _⟩

/-- A MemWrite (00_scope.md R6). -/
theorem memWrite {r : Ref} {v : Byte} (h : s.memWrite r v = some t) (hl : after = true → before = true) :
    LineStep before after s t := by
  obtain ⟨-, rfl⟩ | ⟨-, -, rfl⟩ | ⟨-, o, -, rfl⟩ := memWrite_cases h <;> exact .same rfl rfl rfl hl

/-- After such a step a live LS holds the kept bits as last read, if it did before. -/
theorem keepsOthers (h : LineStep before after s t) (hs : before = true → KeepsOthers s.params s.trace s.ls)
    (ha : after = true) : KeepsOthers t.params t.trace t.ls := by
  cases h with
  | read => exact ⟨_, lastRead_append_rd _ _, rfl⟩
  | write live =>
    obtain ⟨v, hv, hk⟩ := hs live
    exact ⟨v, (lastRead_append_of_ne_rd (e := .wr _) _ nofun).trans hv, hk⟩
  | keep params read _ ls =>
    obtain ⟨live, hls⟩ := ls ha
    obtain ⟨v, hv, hk⟩ := hs live
    exact ⟨v, read.trans hv, by rw [params, hls, hk]⟩

/-- The only value that such a step writes to CTRL is a live LS. -/
theorem written (h : LineStep before after s t) {w : Word} (hw : t.trace = s.trace ++ [.wr w]) :
    before = true ∧ w = s.ls := by
  cases h with
  | read => simp at hw
  | write live => exact ⟨live, by simpa using hw.symm⟩
  | keep _ _ noWrite _ => exact (noWrite w hw).elim

end Hw.LineStep

/-! ### The procedures that drive the lines -/

theorem stepDrive_line (p : DrivePt) (s : Hw) : s.LineStep true true (stepDrive p s).1 := by
  cases p with
  | write => exact .write rfl
  | flush => exact .event (e := .fl) nofun nofun rfl rfl rfl
  | delay => exact .delay _

theorem stepRaise_line (p : ClockPt) (s : Hw) : s.LineStep true true (stepRaise p s).1 := by
  cases p with
  | change => exact .setLs (bitMask_and_keptMask (.inl rfl))
  | drive p => exact stepDrive_line p s

theorem stepLower_line (p : ClockPt) (s : Hw) : s.LineStep true true (stepLower p s).1 := by
  cases p with
  | change => exact .clearLs (bitMask_and_keptMask (.inl rfl))
  | drive p => exact stepDrive_line p s

theorem stepXfer_line (a : XferArgs) (p : XferPt) (s : Hw) :
    s.LineStep (Leaf.xfer p).lsLive true (stepXfer a p s).1 := by
  cases p with
  | seed => exact .read
  | check i => exact .event (e := .cp _) nofun nofun rfl rfl rfl
  | markCancelled => exact .same rfl rfl rfl fun _ => rfl
  | fetch i r => simp only [stepXfer]; split <;> exact .same rfl rfl rfl fun _ => rfl
  | present i b =>
    have hm : bitMask s.params.bitSi &&& keptMask s.params = 0#32 := bitMask_and_keptMask (.inr (.inl rfl))
    simp only [stepXfer]
    split
    · exact .setLs hm
    · exact .clearLs hm
  | setup i p => exact stepDrive_line p s
  | rise i p => exact stepRaise_line p s
  | sample i => exact .read
  | load i r => simp only [stepXfer]; split <;> exact .same rfl rfl rfl fun _ => rfl
  | store i r v =>
    simp only [stepXfer]
    split
    · exact .memWrite ‹_› fun _ => rfl
    · exact .same rfl rfl rfl fun _ => rfl
  | fall i p => exact stepLower_line p s
  | loadTail r => simp only [stepXfer]; split <;> exact .same rfl rfl rfl fun _ => rfl
  | storeTail r v =>
    simp only [stepXfer]
    split
    · exact .memWrite ‹_› fun _ => rfl
    · exact .same rfl rfl rfl fun _ => rfl

theorem stepAcquire_line (p : AcquirePt) (s : Hw) :
    s.LineStep (Leaf.acquire p).lsLive true (stepAcquire p s).1 := by
  have hreq : bitMask s.params.bitReq &&& keptMask s.params = 0#32 := bitMask_and_keptMask (.inr (.inr (.inr rfl)))
  cases p with
  | seed => exact .read
  | setReq => exact .setLs hreq
  | writeReq => exact .write rfl
  | poll a => exact .read
  | pollDelay a => exact .delay _
  | clearReq => exact .clearLs hreq
  | writeTimeout => exact .write rfl
  | baseline =>
    have hsi : bitMask s.params.bitSi &&& keptMask s.params = 0#32 := bitMask_and_keptMask (.inr (.inl rfl))
    have hcen : bitMask s.params.bitCen &&& keptMask s.params = 0#32 := bitMask_and_keptMask (.inr (.inr (.inl rfl)))
    have hsk : bitMask s.params.bitSk &&& keptMask s.params = 0#32 := bitMask_and_keptMask (.inl rfl)
    exact .clearLs ((or_and_of_disjoint hsk _).trans ((or_and_of_disjoint hcen _).trans hsi))
  | writeBaseline => exact .write rfl
  | delayBaseline => exact .delay _

theorem stepRelease_line (p : ReleasePt) (s : Hw) :
    s.LineStep (Leaf.release p).lsLive true (stepRelease p s).1 := by
  have hcen : bitMask s.params.bitCen &&& keptMask s.params = 0#32 := bitMask_and_keptMask (.inr (.inr (.inl rfl)))
  have hsk : bitMask s.params.bitSk &&& keptMask s.params = 0#32 := bitMask_and_keptMask (.inl rfl)
  cases p with
  | seed => exact .read
  | deselect =>
    exact .silent rfl rfl fun _ => ⟨rfl, (andNot_and_of_disjoint hsk _).trans (or_and_of_disjoint hcen _)⟩
  | writeDeselect => exact .write rfl
  | delayDeselect => exact .delay _
  | clearReq => exact .clearLs (bitMask_and_keptMask (.inr (.inr (.inr rfl))))
  | writeReq => exact .write rfl

theorem stepStandby_line (p : StandbyPt) (s : Hw) :
    s.LineStep (Leaf.standby p).lsLive true (stepStandby p s).1 := by
  have hcen : bitMask s.params.bitCen &&& keptMask s.params = 0#32 := bitMask_and_keptMask (.inr (.inr (.inl rfl)))
  cases p with
  | seed => exact .read
  | setCen => exact .setLs hcen
  | driveHigh p => exact stepDrive_line p s
  | clearCen => exact .clearLs hcen
  | driveLow p => exact stepDrive_line p s

/-! ### Their callers

A step that is no step of the procedures above leaves LS alone, and the point that comes next does not use LS. -/

section
variable {π ρ π' ρ' : Type} {leaf : π → Leaf} {leaf' : π' → Leaf}

/-- Is LS live at the point that a step goes on to? `returned` stands for what follows a return. -/
def Res.lsLive (returned : Bool) (leaf : π → Leaf) : Res π ρ → Bool
  | .goto p => (leaf p).lsLive
  | .ret _ => returned
  | .fault _ => false

/-- A step of a called procedure, as a step of its caller: what the caller does after a return is free, because a step that
returns leaves LS live. -/
theorem Hw.LineStep.chain {before returned : Bool} {s : Hw} {x : Hw × Res π ρ} {wrap : π → π'} {k : Hw → ρ → Res π' ρ'}
    (h : s.LineStep before (x.2.lsLive true leaf) x.1) (hw : ∀ p, leaf' (wrap p) = leaf p) :
    s.LineStep before ((chainStep x wrap k).2.lsLive returned leaf') (chainStep x wrap k).1 := by
  obtain ⟨t, p | r | e⟩ := x
  · exact h.mono fun hl => (congrArg Leaf.lsLive (hw p)).symm.trans hl
  · exact h.any
  · exact h.mono nofun

end

theorem stepEnableWrite_line (returned c : Bool) (p : EnableWritePt) (s : Hw) :
    s.LineStep p.leaf.lsLive ((stepEnableWrite c p s).2.lsLive returned EnableWritePt.leaf) (stepEnableWrite c p s).1 := by
  cases p with
  | standby p => exact (stepStandby_line p s).any
  | opcode => exact .same rfl rfl rfl nofun
  | xfer p => exact (stepXfer_line _ p s).any

theorem stepWriteStatus_line (returned : Bool) (st : Byte) (c : Bool) (p : WriteStatusPt) (s : Hw) :
    s.LineStep p.leaf.lsLive ((stepWriteStatus st c p s).2.lsLive returned WriteStatusPt.leaf)
      (stepWriteStatus st c p s).1 := by
  cases p with
  | enable p => exact (stepEnableWrite_line true c p s).chain fun _ => rfl
  | standby p => exact (stepStandby_line p s).any
  | opcode => exact .same rfl rfl rfl nofun
  | status => exact .same rfl rfl rfl nofun
  | xfer p => exact (stepXfer_line _ p s).any

theorem stepReadStatus_line (returned c : Bool) (p : ReadStatusPt) (s : Hw) :
    s.LineStep p.leaf.lsLive ((stepReadStatus c p s).2.lsLive returned ReadStatusPt.leaf) (stepReadStatus c p s).1 := by
  cases p with
  | standby p => exact (stepStandby_line p s).any
  | opcode => exact .same rfl rfl rfl nofun
  | zero => exact .same rfl rfl rfl nofun
  | xfer p => exact (stepXfer_line _ p s).any

theorem stepPage_line (returned : Bool) (op : Byte) (off : Half) (pay : XferArgs) (c : Bool) (p : PagePt) (s : Hw) :
    s.LineStep p.leaf.lsLive ((stepPage op off pay c p s).2.lsLive returned PagePt.leaf) (stepPage op off pay c p s).1 := by
  cases p with
  | standby p => exact (stepStandby_line p s).any
  | opcode => exact .same rfl rfl rfl nofun
  | addrHigh => exact .same rfl rfl rfl nofun
  | addrMid => exact .same rfl rfl rfl nofun
  | addrLow => exact .same rfl rfl rfl nofun
  | header p => exact (stepXfer_line _ p s).any
  | payload p => exact (stepXfer_line _ p s).any

theorem stepPollReady_line (returned c : Bool) (p : ReadStatusPt) (s : Hw) :
    s.LineStep p.leaf.lsLive ((stepPollReady c p s).2.lsLive returned ReadStatusPt.leaf) (stepPollReady c p s).1 :=
  (stepReadStatus_line true c p s).chain fun _ => rfl

theorem stepDump_line (returned c : Bool) (p : DumpPt) (s : Hw) :
    s.LineStep p.leaf.lsLive ((stepDump c p s).2.lsLive returned DumpPt.leaf) (stepDump c p s).1 := by
  cases p with
  | poll v p => exact (stepPollReady_line true c p s).chain fun _ => rfl
  | page v p => exact (stepPage_line true _ _ _ c p s).chain fun _ => rfl

theorem stepProgram_line (returned c : Bool) (p : ProgramPt) (s : Hw) :
    s.LineStep p.leaf.lsLive ((stepProgram c p s).2.lsLive returned ProgramPt.leaf) (stepProgram c p s).1 := by
  cases p with
  | clearBp v p => exact (stepWriteStatus_line true _ c p s).chain fun _ => rfl
  | release p => exact (stepRelease_line p s).any
  | poll v p => exact (stepPollReady_line true c p s).chain fun _ => rfl
  | enable v p => exact (stepEnableWrite_line true c p s).chain fun _ => rfl
  | write v p => exact (stepPage_line true _ _ _ c p s).chain fun _ => rfl
  | finalPoll p => exact (stepPollReady_line true c p s).chain fun _ => rfl

theorem stepErase_line (returned c : Bool) (p : ErasePt) (s : Hw) :
    s.LineStep p.leaf.lsLive ((stepErase c p s).2.lsLive returned ErasePt.leaf) (stepErase c p s).1 := by
  cases p with
  | acquire p => exact (stepAcquire_line p s).any
  | standby p => exact (stepStandby_line p s).any
  | clearBp p => exact (stepWriteStatus_line true _ c p s).chain fun _ => rfl
  | enable p => exact (stepEnableWrite_line true c p s).chain fun _ => rfl
  | standby2 p => exact (stepStandby_line p s).any
  | opcode => exact .same rfl rfl rfl nofun
  | xfer p => exact (stepXfer_line _ p s).any
  | release r p => exact (stepRelease_line p s).any

theorem stepUnlock_line (returned c : Bool) (p : UnlockPt) (s : Hw) :
    s.LineStep p.leaf.lsLive ((stepUnlock c p s).2.lsLive returned UnlockPt.leaf) (stepUnlock c p s).1 := by
  cases p with
  | acquire p => exact (stepAcquire_line p s).any
  | standby p => exact (stepStandby_line p s).any
  | clearBp p => exact (stepWriteStatus_line true _ c p s).chain fun _ => rfl
  | release r p => exact (stepRelease_line p s).any

/-! ### Where a command and its next part begin

A procedure is entered at a point that does not use LS: at a RegRead, or before one. -/

section
variable {π ρ π' ρ' : Type} {leaf : π → Leaf} {leaf' : π' → Leaf}

theorem Res.lsLive_chain {x : Res π ρ} {wrap : π → π'} {k : ρ → Res π' ρ'} (hx : x.lsLive false leaf = false)
    (hw : ∀ p, leaf' (wrap p) = leaf p) (hk : ∀ r, (k r).lsLive false leaf' = false) :
    (x.chain wrap k).lsLive false leaf' = false := by
  cases x with
  | goto p => exact (congrArg Leaf.lsLive (hw p)).trans hx
  | ret r => exact hk r
  | fault e => rfl

/-- Where the called procedure has a first point, the caller's next part does not matter. -/
theorem Res.lsLive_chain_goto {x : Res π ρ} {wrap : π → π'} {k : ρ → Res π' ρ'} (hg : ∃ p, x = .goto p)
    (hx : x.lsLive false leaf = false) (hw : ∀ p, leaf' (wrap p) = leaf p) :
    (x.chain wrap k).lsLive false leaf' = false := by
  obtain ⟨p, rfl⟩ := hg
  exact (congrArg Leaf.lsLive (hw p)).trans hx

theorem Res.chain_isGoto {x : Res π ρ} {wrap : π → π'} {k : ρ → Res π' ρ'} (hg : ∃ p, x = .goto p) :
    ∃ p, x.chain wrap k = .goto p := by
  obtain ⟨p, rfl⟩ := hg
  exact ⟨wrap p, rfl⟩

end

theorem enterAcquire_lsLive (s : Hw) : (enterAcquire s).lsLive false .acquire = false := by
  simp only [enterAcquire]
  split <;> rfl

theorem enterRelease_lsLive (s : Hw) : (enterRelease s).lsLive false .release = false := by
  simp only [enterRelease]
  split <;> rfl

theorem enterStandby_lsLive (s : Hw) : (enterStandby s).lsLive false .standby = false := by
  simp only [enterStandby]
  split <;> rfl

theorem enterEnableWrite_lsLive (s : Hw) : (enterEnableWrite s).lsLive false EnableWritePt.leaf = false :=
  Res.lsLive_chain (enterStandby_lsLive s) (fun _ => rfl) fun _ => rfl

theorem enterWriteStatus_lsLive (s : Hw) : (enterWriteStatus s).lsLive false WriteStatusPt.leaf = false :=
  Res.lsLive_chain_goto (enterEnableWrite_goto s) (enterEnableWrite_lsLive s) fun _ => rfl

theorem enterWriteStatus_goto (s : Hw) : ∃ p, enterWriteStatus s = .goto p := Res.chain_isGoto (enterEnableWrite_goto s)

theorem enterReadStatus_lsLive (s : Hw) : (enterReadStatus s).lsLive false ReadStatusPt.leaf = false :=
  Res.lsLive_chain (enterStandby_lsLive s) (fun _ => rfl) fun _ => rfl

theorem enterPage_lsLive (s : Hw) : (enterPage s).lsLive false PagePt.leaf = false :=
  Res.lsLive_chain (enterStandby_lsLive s) (fun _ => rfl) fun _ => rfl

theorem enterDump_lsLive (s : Hw) (v : Span) : (enterDump s v).lsLive false DumpPt.leaf = false :=
  Res.lsLive_chain_goto (enterReadStatus_goto s) (enterReadStatus_lsLive s) fun _ => rfl

theorem enterProgram_lsLive (s : Hw) (v : Span) : (enterProgram s v).lsLive false ProgramPt.leaf = false :=
  Res.lsLive_chain_goto (enterWriteStatus_goto s) (enterWriteStatus_lsLive s) fun _ => rfl

theorem eraseClear_lsLive (s : Hw) : (eraseClear s).lsLive false ErasePt.leaf = false :=
  Res.lsLive_chain_goto (enterWriteStatus_goto s) (enterWriteStatus_lsLive s) fun _ => rfl

theorem enterErase_lsLive (s : Hw) : (enterErase s).lsLive false ErasePt.leaf = false := by
  refine Res.lsLive_chain (enterAcquire_lsLive s) (fun _ => rfl) fun r => ?_
  cases r with
  | ok => exact Res.lsLive_chain (enterStandby_lsLive s) (fun _ => rfl) fun _ => eraseClear_lsLive s
  | cancelled | arbitrationTimeout | protectedRegion => rfl

theorem unlockClear_lsLive (s : Hw) : (unlockClear s).lsLive false UnlockPt.leaf = false :=
  Res.lsLive_chain_goto (enterWriteStatus_goto s) (enterWriteStatus_lsLive s) fun _ => rfl

theorem enterUnlock_lsLive (s : Hw) : (enterUnlock s).lsLive false UnlockPt.leaf = false := by
  refine Res.lsLive_chain (enterAcquire_lsLive s) (fun _ => rfl) fun r => ?_
  cases r with
  | ok => exact Res.lsLive_chain (enterStandby_lsLive s) (fun _ => rfl) fun _ => unlockClear_lsLive s
  | cancelled | arbitrationTimeout | protectedRegion => rfl

theorem enterChecksum_lsLive (s : Hw) : (enterChecksum s).lsLive false ChecksumPt.leaf = false := by
  refine Res.lsLive_chain (enterAcquire_lsLive s) (fun _ => rfl) fun r => ?_
  cases r with
  | ok => exact Res.lsLive_chain_goto (Res.chain_isGoto (enterReadStatus_goto s)) (enterDump_lsLive s _) fun _ => rfl
  | cancelled | arbitrationTimeout | protectedRegion => rfl

theorem checksumRelease_lsLive (s : Hw) (r : RCode) : (checksumRelease s r).lsLive false ChecksumPt.leaf = false :=
  Res.lsLive_chain (enterRelease_lsLive s) (fun _ => rfl) fun _ => rfl

theorem checksumCompared_lsLive (rp : Bool) (s : Hw) (x : ChecksumResult) :
    (checksumCompared rp s x).lsLive false ChecksumPt.leaf = false := by
  simp only [checksumCompared]
  split
  · exact checksumRelease_lsLive s _
  · split
    · rfl
    · exact checksumRelease_lsLive s _

theorem checksumRepair_lsLive (s : Hw) : (checksumRepair s).lsLive false ChecksumPt.leaf = false :=
  Res.lsLive_chain_goto (Res.chain_isGoto (enterWriteStatus_goto s)) (enterProgram_lsLive s _) fun _ => rfl

theorem checksumWord_lsLive (s : Hw) (j : Nat) (total w : Half) : (checksumWord s j total w).leaf.lsLive = false := by
  simp only [checksumWord]
  split <;> rfl

/-! ### CHECKSUM's own steps -/

theorem loadScr_line {s : Hw} (a : Nat) {next : Byte → ChecksumPt} (hn : ∀ v, (next v).leaf.lsLive = false) :
    s.LineStep false ((loadScr s a next).2.lsLive false ChecksumPt.leaf) (loadScr s a next).1 := by
  simp only [loadScr]
  split
  · exact .same rfl rfl rfl fun h => (hn _).symm.trans h
  · exact .same rfl rfl rfl nofun

theorem storeScr_line {s : Hw} (a : Nat) (v : Byte) {next : Hw → Res ChecksumPt RCode}
    (hn : ∀ s', (next s').lsLive false ChecksumPt.leaf = false) :
    s.LineStep false ((storeScr s a v next).2.lsLive false ChecksumPt.leaf) (storeScr s a v next).1 := by
  simp only [storeScr]
  split
  · exact .memWrite ‹_› fun h => (hn _).symm.trans h
  · exact .same rfl rfl rfl nofun

theorem stepChecksum_line (c rp : Bool) (p : ChecksumPt) (s : Hw) :
    s.LineStep p.leaf.lsLive ((stepChecksum c rp p s).2.lsLive false ChecksumPt.leaf) (stepChecksum c rp p s).1 := by
  cases p with
  | acquire p => exact (stepAcquire_line p s).any
  | dump p => exact (stepDump_line true c p s).chain fun _ => rfl
  | evalFirst j total => exact loadScr_line _ fun _ => rfl
  | evalSecond j total v => exact loadScr_line _ fun _ => checksumWord_lsLive ..
  | result x y => exact .same rfl rfl rfl fun h => (checksumCompared_lsLive ..).symm.trans h
  | scrLow x => exact storeScr_line _ _ fun _ => rfl
  | scrHigh x => exact storeScr_line _ _ checksumRepair_lsLive
  | program p => exact (stepProgram_line true c p s).chain fun _ => rfl
  | release r p => exact (stepRelease_line p s).any

/-! ### Steps of the machine -/

/-- `Hw.LineStep` from one state of the machine to another. -/
def State.LineStep (s t : State) : Prop := s.hw.LineStep s.seq.leaf.lsLive t.seq.leaf.lsLive t.hw

/-- A step that emits nothing and comes to a point that does not use LS. -/
theorem State.LineStep.of_not_live {s t : State} (params : t.hw.params = s.hw.params) (trace : t.hw.trace = s.hw.trace)
    (h : t.seq.leaf.lsLive = false) : s.LineStep t :=
  .silent params trace fun ha => Bool.noConfusion (h.symm.trans ha)

/-- A step that leaves SEQ, LS and the trace alone. -/
theorem State.LineStep.of_same {s t : State} (seq : t.seq = s.seq) (params : t.hw.params = s.hw.params)
    (trace : t.hw.trace = s.hw.trace) (ls : t.hw.ls = s.hw.ls) : s.LineStep t :=
  .same params trace ls fun h => seq ▸ h

section
variable {π ρ : Type} {leaf : π → Leaf} {s t : State} {wrap : π → Seq} {k : ρ → Seq}

theorem advance_line {x : Hw × Res π ρ} (h : s.advance x wrap k = .next t)
    (hx : s.hw.LineStep s.seq.leaf.lsLive (x.2.lsLive false leaf) x.1) (hw : ∀ p, (wrap p).leaf = leaf p)
    (hk : ∀ r, (k r).leaf.lsLive = false) : s.LineStep t := by
  obtain ⟨t', p | r | e⟩ := x
  · cases h
    exact hx.mono fun hl => (congrArg Leaf.lsLive (hw p)).symm.trans hl
  · cases h
    exact hx.mono fun hl => Bool.noConfusion ((hk r).symm.trans hl)
  · cases h

/-- Entering a command changes SEQ alone, and LS is not live there. -/
theorem enter_not_live {x : Res π ρ} (h : s.enter x wrap k = .next t) (hx : x.lsLive false leaf = false)
    (hw : ∀ p, (wrap p).leaf = leaf p) (hk : ∀ r, (k r).leaf.lsLive = false) : t.hw = s.hw ∧ t.seq.leaf.lsLive = false := by
  cases x with
  | goto p =>
    cases h
    exact ⟨rfl, (congrArg Leaf.lsLive (hw p)).trans hx⟩
  | ret r =>
    cases h
    exact ⟨rfl, hk r⟩
  | fault e => cases h

end

theorem endStatusCommand_lsLive (r : StatusOutcome) : (endStatusCommand r).leaf.lsLive = false := by
  cases r <;> rfl

theorem blockStep_line {s t : State} (h : blockStep s = .next t) : s.LineStep t := by
  obtain ⟨q, hw, host⟩ := s
  cases q with
  | idle => cases h; exact .of_same rfl rfl rfl rfl
  | transfer a p => exact advance_line h (stepXfer_line a p hw).any (fun _ => rfl) fun _ => rfl
  | acquire p => exact advance_line h (stepAcquire_line p hw).any (fun _ => rfl) fun _ => rfl
  | release p => exact advance_line h (stepRelease_line p hw).any (fun _ => rfl) fun _ => rfl
  | standby p => exact advance_line h (stepStandby_line p hw).any (fun _ => rfl) fun _ => rfl
  | enableWrite c p => exact advance_line h (stepEnableWrite_line false c p hw) (fun _ => rfl) fun _ => rfl
  | writeStatus st c p => exact advance_line h (stepWriteStatus_line false st c p hw) (fun _ => rfl) fun _ => rfl
  | readStatus c p => exact advance_line h (stepReadStatus_line false c p hw) (fun _ => rfl) endStatusCommand_lsLive
  | writePage v c p => exact advance_line h (stepPage_line false _ _ _ c p hw) (fun _ => rfl) fun _ => rfl
  | readPage v c p => exact advance_line h (stepPage_line false _ _ _ c p hw) (fun _ => rfl) fun _ => rfl
  | pollReady c p => exact advance_line h (stepPollReady_line false c p hw) (fun _ => rfl) endStatusCommand_lsLive
  | clearBp c p => exact advance_line h (stepWriteStatus_line false _ c p hw) (fun _ => rfl) fun _ => rfl
  | dump c p => exact advance_line h (stepDump_line false c p hw) (fun _ => rfl) fun _ => rfl
  | program c p => exact advance_line h (stepProgram_line false c p hw) (fun _ => rfl) fun _ => rfl
  | erase c p => exact advance_line h (stepErase_line false c p hw) (fun _ => rfl) fun _ => rfl
  | unlock c p => exact advance_line h (stepUnlock_line false c p hw) (fun _ => rfl) fun _ => rfl
  | checksum c rp p => exact advance_line h (stepChecksum_line c rp p hw) (fun _ => rfl) fun _ => rfl
  | statusResult st => cases h; exact .of_not_live rfl rfl rfl
  | finish code => cases h; exact .of_not_live rfl rfl rfl

/-- A page or loop command is entered, or it is illegal (30_encoding.md R54). -/
theorem enterIfFits_not_live {π : Type} {leaf : π → Leaf} {s t : State} {x : Res π SubOutcome} {wrap : π → Seq}
    {k : SubOutcome → Seq}
    (h : (if lengthFits s.hw.latch then s.enter x wrap k else .next (s.at (.finish .illegal))) = .next t)
    (hx : x.lsLive false leaf = false) (hw : ∀ p, (wrap p).leaf = leaf p) (hk : ∀ r, (k r).leaf.lsLive = false) :
    t.hw = s.hw ∧ t.seq.leaf.lsLive = false := by
  split at h
  · exact enter_not_live h hx hw hk
  · cases h
    exact ⟨rfl, rfl⟩

/-- A command's entry leaves the hardware alone, and LS is not live at its first point (30_encoding.md R52). -/
theorem exec_not_live {i : Instr} {s t : State} (h : exec i s = .next t) : t.hw = s.hw ∧ t.seq.leaf.lsLive = false := by
  cases i with
  | transfer c sf df => cases h; exact ⟨rfl, rfl⟩
  | acquire => exact enter_not_live h (enterAcquire_lsLive _) (fun _ => rfl) fun _ => rfl
  | release => exact enter_not_live h (enterRelease_lsLive _) (fun _ => rfl) fun _ => rfl
  | standby => exact enter_not_live h (enterStandby_lsLive _) (fun _ => rfl) fun _ => rfl
  | enableWrite c => exact enter_not_live h (enterEnableWrite_lsLive _) (fun _ => rfl) fun _ => rfl
  | writeStatus c => exact enter_not_live h (enterWriteStatus_lsLive _) (fun _ => rfl) fun _ => rfl
  | readStatus c => exact enter_not_live h (enterReadStatus_lsLive _) (fun _ => rfl) endStatusCommand_lsLive
  | writePage c => exact enterIfFits_not_live h (enterPage_lsLive _) (fun _ => rfl) fun _ => rfl
  | readPage c => exact enterIfFits_not_live h (enterPage_lsLive _) (fun _ => rfl) fun _ => rfl
  | pollReady c => exact enter_not_live h (enterReadStatus_lsLive _) (fun _ => rfl) endStatusCommand_lsLive
  | clearBp c => exact enter_not_live h (enterWriteStatus_lsLive _) (fun _ => rfl) fun _ => rfl
  | dump c => exact enterIfFits_not_live h (enterDump_lsLive _ _) (fun _ => rfl) fun _ => rfl
  | program c => exact enterIfFits_not_live h (enterProgram_lsLive _ _) (fun _ => rfl) fun _ => rfl
  | erase c => exact enter_not_live h (enterErase_lsLive _) (fun _ => rfl) fun _ => rfl
  | unlock c => exact enter_not_live h (enterUnlock_lsLive _) (fun _ => rfl) fun _ => rfl
  | checksum c rp => exact enter_not_live h (enterChecksum_lsLive _) (fun _ => rfl) fun _ => rfl

/-! ### The host's steps, the bus and the reset input -/

/-- A store to an operand register, to DEVCFG or to DEVSIZE touches neither the line state nor the port. -/
theorem windowStore_keeps_line (s : Hw) (off : Nat) (v : Word) :
    (s.windowStore off v).params = s.params ∧ (s.windowStore off v).trace = s.trace ∧ (s.windowStore off v).ls = s.ls := by
  simp only [Hw.windowStore]
  split <;> exact ⟨rfl, rfl, rfl⟩

theorem storeCmd_line {w : Word} {s t : State} (h : storeCmd w s = .next t) : s.LineStep t := by
  obtain ⟨-, rfl⟩ | ⟨-, ⟨i, -, hi⟩ | ⟨-, rfl⟩⟩ := storeCmd_cases h
  · exact .of_same rfl rfl rfl rfl
  · obtain ⟨hhw, hlive⟩ := exec_not_live hi
    exact .of_not_live (by rw [hhw]; rfl) (by rw [hhw]; rfl) hlive
  · exact .of_not_live rfl rfl rfl

theorem arriveStore_line {off : Nat} {v : Word} {s t : State} (h : arriveStore off v s = .next t) : s.LineStep t := by
  simp only [arriveStore] at h
  split at h
  · exact storeCmd_line h
  · cases h
    obtain ⟨hparams, htrace, hls⟩ := windowStore_keeps_line s.hw off v
    exact .of_same rfl hparams htrace hls

theorem hostStore_line {a : Access} {v : Word} {s t : State} (h : hostStore a v s = .next t) : s.LineStep t := by
  obtain ⟨-, ⟨-, harrive⟩ | ⟨-, rfl⟩⟩ := hostStore_cases h
  · exact arriveStore_line harrive
  · exact .of_same rfl rfl rfl rfl

theorem hostLoad_line {a : Access} {s t : State} (h : hostLoad a s = .next t) : s.LineStep t := by
  simp only [hostLoad] at h
  split at h
  · cases h
  · cases h
    exact .of_same rfl rfl rfl rfl

theorem hostStatus_eq {s after t : State} (h : hostStatus s after = .next t) : t = after.loadStatus := by
  simp only [hostStatus] at h
  split at h
  · exact (Host.Outcome.next.inj h).symm
  · cases h

theorem hostOp_line {o : HostOp} {s t : State} (h : hostOp o s = .next t) : s.LineStep t := by
  cases o with
  | store a v => exact hostStore_line (s := s.popOp) h
  | load a => exact hostLoad_line (s := s.popOp) h
  | bufStore a v => cases h; exact .of_same rfl rfl rfl rfl
  | bufLoad a => cases h; exact .of_same rfl rfl rfl rfl
  | wait => obtain rfl := hostStatus_eq h; split <;> exact .of_same rfl rfl rfl rfl
  | skipUnless code n => obtain rfl := hostStatus_eq h; split <;> exact .of_same rfl rfl rfl rfl
  | skipIf code n => obtain rfl := hostStatus_eq h; split <;> exact .of_same rfl rfl rfl rfl

theorem hostStep_line {s t : State} (h : hostStep s = .next t) : s.LineStep t := by
  simp only [hostStep] at h
  split at h
  · cases h
    exact .of_same rfl rfl rfl rfl
  · exact hostOp_line h

theorem busStep_line {k : Nat} {s t : State} (h : busStep k s = .next t) : s.LineStep t := by
  obtain rfl | ⟨x, -, harrive⟩ := busStep_cases h
  · exact .of_same rfl rfl rfl rfl
  · exact arriveStore_line (s := s.unpost k) harrive

/-- Whoever moves, a step of the machine does to LS and CTRL what `Hw.LineStep` says. -/
theorem step_line {s t : State} (h : step s = .next t) : s.LineStep t := by
  simp only [step] at h
  split at h
  · exact blockStep_line (s := s.popTurn) h
  · exact hostStep_line (s := s.popTurn) h
  · exact busStep_line (s := s.popTurn) h
  · cases h
    exact .of_not_live rfl rfl rfl

/-- Words with equal kept bits agree in every bit other than SK, SI, CEN and REQ. -/
theorem getLsbD_eq_of_kept {p : Params} {w v : Word} (h : w &&& keptMask p = v &&& keptMask p) {b : Nat} (hb : b < 32)
    (hsk : b ≠ p.bitSk.val) (hsi : b ≠ p.bitSi.val) (hcen : b ≠ p.bitCen.val) (hreq : b ≠ p.bitReq.val) :
    w.getLsbD b = v.getLsbD b := by
  have hbit := congrArg (fun x : Word => x.getLsbD b) h
  simpa only [BitVec.getLsbD_and, keptMask_getLsbD hb hsk hsi hcen hreq, Bool.and_true] using hbit

/-- Settles O54: by `step_line` a step keeps the kept bits of a live LS as last read, and the only value it writes to CTRL is
a live LS. -/
theorem otherBitsArePreserved : Obligations.OtherBitsArePreserved := by
  intro s t hs hstep
  have hline := step_line hstep
  refine ⟨hline.keepsOthers hs, fun w hw => ?_⟩
  obtain ⟨live, rfl⟩ := hline.written hw
  obtain ⟨v, hread, hkept⟩ := hs live
  exact ⟨v, hread, fun b hb hsk hsi hcen hreq => getLsbD_eq_of_kept hkept hb hsk hsi hcen hreq⟩

end Sys2Proof.Machine
end

section
/-! PROOFS. BUF as the host sees it (00_scope.md R6; 20_memory.md R46): the memory's laws are those of Laws/Memory.lean, and an
operation of the host is one step of the machine whenever the host moves (60_exceptions.md R97). -/

namespace Sys2Proof.Machine

/-- Where the host moves, a step of the machine is the host's next operation. -/
theorem step_of_hostOp {s : State} {o : HostOp} {rest : List HostOp} (hm : s.mover = .host) (ho : s.host.ops = o :: rest) :
    step s = hostOp o s.popTurn := by
  simp only [step, hm, hostStep, State.popTurn_ops, ho]

theorem popTurn_popOp {s : State} {o : HostOp} {rest : List HostOp} (ho : s.host.ops = o :: rest) :
    s.popTurn.popOp = { s with host := { s.host with ops := rest, turns := s.host.turns.tail } } := by
  simp only [State.popOp, State.popTurn, ho, List.tail_cons]

theorem step_bufStore {s : State} {a : Word} {v : Byte} {rest : List HostOp} (hm : s.mover = .host)
    (ho : s.host.ops = .bufStore a v :: rest) :
    step s =
      .next
        { s with
          hw := { s.hw with mem := s.hw.mem.write a.toNat v }
          host := { s.host with ops := rest, turns := s.host.turns.tail } } := by
  rw [step_of_hostOp hm ho]
  simp only [hostOp, popTurn_popOp ho, State.popTurn_hw]

theorem step_bufLoad {s : State} {a : Word} {rest : List HostOp} (hm : s.mover = .host)
    (ho : s.host.ops = .bufLoad a :: rest) :
    step s =
      .next
        { s with
          host :=
            { s.host with
              ops := rest
              turns := s.host.turns.tail
              seen := s.host.seen ++ [.buf a (s.hw.mem.read a.toNat)] } } := by
  rw [step_of_hostOp hm ho]
  simp only [hostOp, popTurn_popOp ho, State.popTurn_hw, State.see]

theorem mover_of_turns {s : State} {t : Turn} {rest : List Turn} (h : s.host.turns = t :: rest) : s.mover = t := by
  simp only [State.mover, h]

/-- Settles O57: from the memory's laws and the two steps of the host. -/
theorem bufReadAfterWrite : Obligations.BufReadAfterWrite := by
  refine ⟨fun m x y v hwf hx => ⟨Memory.wf_write hwf hx, Memory.read_write hwf x y v⟩,
    fun m n hm hn h => Memory.ext_from hm hn h, fun s a v rest hm hwf ho => ?_,
    fun s a rest hm ho => step_bufLoad hm ho, fun s t rest h => mover_of_turns h⟩
  refine ⟨s.hw.mem.write a.toNat v, fun x => ?_, step_bufStore hm ho⟩
  simp only [Memory.read_write hwf, BitVec.toNat_inj]

/-! ### The base of the invariant -/

/-- Every value of PAGE_LOG2 gives a legal page size (10_state.md R21, R26). -/
theorem legalPageSize_pageSize (k : BitVec 4) : legalPageSize (pageSize k) = true := by
  refine List.any_eq_true.mpr ⟨k.toNat, List.mem_range.mpr k.isLt, ?_⟩
  rw [BitVec.ofNat_toNat, BitVec.setWidth_eq, beq_self_eq_true]

theorem resetWith_inv {p : Params} (hp : p.wellFormed = true) : (State.resetWith p).Inv where
  params := hp
  mem := rfl
  scr := List.length_replicate
  busy := ⟨Bool.noConfusion, fun h => (h rfl).elim⟩
  pageSize h := (h rfl).elim
  seq := rfl

theorem accept_sound {s : State} (h : s.Inv) (w : Word) : (s.accept w).hw.Sound where
  params := h.params
  mem := h.mem
  scr := h.scr
  pageSize := legalPageSize_pageSize _

/-- Settles O48: the invariant holds at reset, and acceptance loads a legal page size. -/
theorem resetAndAcceptanceAreSound : Obligations.ResetAndAcceptanceAreSound :=
  ⟨fun _ hp => resetWith_inv hp, fun _ w h => accept_sound h w⟩

end Sys2Proof.Machine
end

section
/-! PROOFS. The command word (30_encoding.md R49, R50): a word is its CODE, its four flags and its bits [31:12], so a row of the
table selects it exactly where the code is the row's, the bits [31:12] are zero and the flags are among those allowed. From
these, what `decode` answers for every word, and the statements about the encoding. -/

namespace Sys2Proof

/-! ### The fields of a word -/

/-- The four flag bits of a word (30_encoding.md R49). -/
def wordFlags (w : Word) : CmdFlags := ⟨flagC w, flagS w, flagD w, flagRp w⟩

/-- The flags set in both. -/
def CmdFlags.inter (f g : CmdFlags) : CmdFlags := ⟨f.c && g.c, f.s && g.s, f.d && g.d, f.rp && g.rp⟩

/-- The bits [31:12] of a word, which every row requires to be zero (30_encoding.md R50). -/
def reservedField (w : Word) : BitVec 20 := w.extractLsb' 12 20

/-- A word is its fields. -/
theorem word_eq_iff {v w : Word} :
    v = w ↔ codeField v = codeField w ∧ wordFlags v = wordFlags w ∧ reservedField v = reservedField w := by
  refine ⟨by rintro rfl; exact ⟨rfl, rfl, rfl⟩, fun ⟨hcode, hflags, hreserved⟩ => ?_⟩
  obtain ⟨hc, hs, hd, hrp⟩ := CmdFlags.mk.inj hflags
  refine BitVec.eq_of_getLsbD_eq fun k hk => ?_
  obtain hlow | rfl | rfl | rfl | rfl | hhigh : k < 8 ∨ k = 8 ∨ k = 9 ∨ k = 10 ∨ k = 11 ∨ 12 ≤ k := by omega
  · simpa [codeField, hlow] using congrArg (·.getLsbD k) hcode
  · exact hc
  · exact hs
  · exact hd
  · exact hrp
  · have hbit := congrArg (·.getLsbD (k - 12)) hreserved
    simpa [reservedField, show k - 12 < 20 by omega, show 12 + (k - 12) = k by omega] using hbit

@[simp] theorem codeField_and (v w : Word) : codeField (v &&& w) = codeField v &&& codeField w := BitVec.extractLsb'_and

@[simp] theorem reservedField_and (v w : Word) : reservedField (v &&& w) = reservedField v &&& reservedField w :=
  BitVec.extractLsb'_and

@[simp] theorem wordFlags_and (v w : Word) : wordFlags (v &&& w) = (wordFlags v).inter (wordFlags w) := by
  simp only [wordFlags, CmdFlags.inter, flagC, flagS, flagD, flagRp, BitVec.getLsbD_and]

/-! ### The fields of an encoded word -/

/-- A flag moved to bit n stands at bit n alone. -/
theorem flagBit_getLsbD (b : Bool) {n : Nat} (hn : n < 32) (k : Nat) :
    ((BitVec.ofBool b).setWidth 32 <<< n).getLsbD k = (decide (k = n) && b) := by
  rw [BitVec.getLsbD_shiftLeft, BitVec.getLsbD_setWidth, BitVec.getLsbD_ofBool, Bool.eq_iff_iff]
  simp only [Bool.and_eq_true, Bool.not_eq_true', decide_eq_true_eq, decide_eq_false_iff_not]
  constructor
  · rintro ⟨⟨hk, hle⟩, -, h0, hb⟩
    exact ⟨by omega, hb⟩
  · rintro ⟨rfl, hb⟩
    exact ⟨⟨hn, lt_irrefl k⟩, by omega, Nat.sub_self k, hb⟩

/-- Where the bits of an encoded word come from (30_encoding.md R60). -/
theorem commandWord_getLsbD (code : Byte) (f : CmdFlags) (k : Nat) :
    (commandWord code f).getLsbD k =
      (code.getLsbD k || (decide (k = 8) && f.c) || (decide (k = 9) && f.s) || (decide (k = 10) && f.d) ||
        (decide (k = 11) && f.rp)) := by
  have hcode : (code.setWidth 32).getLsbD k = code.getLsbD k := by
    rw [BitVec.getLsbD_setWidth, Bool.and_eq_right_iff_imp]
    exact fun h => decide_eq_true ((BitVec.lt_of_getLsbD h).trans (by decide))
  simp only [commandWord, BitVec.getLsbD_or, hcode, flagBit_getLsbD _ (show 8 < 32 by decide),
    flagBit_getLsbD _ (show 9 < 32 by decide), flagBit_getLsbD _ (show 10 < 32 by decide),
    flagBit_getLsbD _ (show 11 < 32 by decide)]

@[simp] theorem codeField_commandWord (code : Byte) (f : CmdFlags) : codeField (commandWord code f) = code := by
  refine BitVec.eq_of_getLsbD_eq fun k hk => ?_
  simp [codeField, commandWord_getLsbD, hk, show k ≠ 8 ∧ k ≠ 9 ∧ k ≠ 10 ∧ k ≠ 11 by omega]

@[simp] theorem wordFlags_commandWord (code : Byte) (f : CmdFlags) : wordFlags (commandWord code f) = f := by
  simp only [wordFlags, flagC, flagS, flagD, flagRp, commandWord_getLsbD,
    BitVec.getLsbD_of_ge code _ (show 8 ≤ 8 by decide), BitVec.getLsbD_of_ge code _ (show 8 ≤ 9 by decide),
    BitVec.getLsbD_of_ge code _ (show 8 ≤ 10 by decide), BitVec.getLsbD_of_ge code _ (show 8 ≤ 11 by decide)]
  simp

@[simp] theorem reservedField_commandWord (code : Byte) (f : CmdFlags) : reservedField (commandWord code f) = 0#20 := by
  refine BitVec.eq_of_getLsbD_eq fun k hk => ?_
  simp [reservedField, commandWord_getLsbD, hk, BitVec.getLsbD_of_ge code (12 + k) (by omega),
    show 12 + k ≠ 8 ∧ 12 + k ≠ 9 ∧ 12 + k ≠ 10 ∧ 12 + k ≠ 11 by omega]

/-- A word whose bits [31:12] are zero is put together again from its fields. -/
theorem commandWord_fields {w : Word} (h : reservedField w = 0#20) : commandWord (codeField w) (wordFlags w) = w :=
  word_eq_iff.mpr ⟨codeField_commandWord .., wordFlags_commandWord .., (reservedField_commandWord ..).trans h.symm⟩

/-! ### The rows -/

/-- No flag set. -/
def CmdFlags.none : CmdFlags := ⟨false, false, false, false⟩

/-- The other flags. -/
def CmdFlags.compl (f : CmdFlags) : CmdFlags := ⟨!f.c, !f.s, !f.d, !f.rp⟩

/-- The flags are within the allowed ones where none of the others is set. -/
theorem inter_compl_eq_none {f allowed : CmdFlags} : f.inter allowed.compl = .none ↔ f.within allowed = true := by
  simp [CmdFlags.inter, CmdFlags.compl, CmdFlags.none, CmdFlags.within, and_assoc, imp_iff_not_or]

/-- Flags that are within the allowed ones are all taken. -/
theorem inter_eq_self {f allowed : CmdFlags} (h : f.within allowed = true) : f.inter allowed = f := by
  obtain ⟨c, s, d, rp⟩ := f
  simpa [CmdFlags.within, CmdFlags.inter, and_assoc, imp_iff_not_or] using h

/-- The row of a mnemonic (30_encoding.md R50): a word selects it where its code is the mnemonic's and, but for the allowed
flags, its other bits are zero. -/
def Mnemonic.row (m : Mnemonic) : Row := ⟨m, ~~~commandWord 0#8 m.allowed, commandWord m.code .none⟩

/-- What a row's mask takes in: the whole code, the flags that are not allowed, and all of [31:12]. -/
theorem row_mask (m : Mnemonic) :
    codeField m.row.mask = BitVec.allOnes 8 ∧ wordFlags m.row.mask = m.allowed.compl ∧
      reservedField m.row.mask = BitVec.allOnes 20 := by
  cases m <;> decide

/-- The table lists every mnemonic's row, and nothing else. -/
theorem row_mem (m : Mnemonic) : m.row ∈ commandRows := by cases m <;> decide

theorem eq_row_of_mem : ∀ r ∈ commandRows, r = r.op.row := by decide

/-- No two rows have the same code. -/
theorem rowCodes_nodup : (commandRows.map fun r => codeField r.pattern).Nodup := by decide

@[simp] theorem row_codeField (m : Mnemonic) : codeField m.row.pattern = m.code := codeField_commandWord ..

theorem row_eq_of_codeField {r r' : Row} (hr : r ∈ commandRows) (hr' : r' ∈ commandRows)
    (h : codeField r.pattern = codeField r'.pattern) : r = r' :=
  List.inj_on_of_nodup_map rowCodes_nodup hr hr' h

/-- No two mnemonics have the same code. -/
theorem code_injective : Function.Injective Mnemonic.code := fun m m' h =>
  congrArg Row.op (row_eq_of_codeField (row_mem m) (row_mem m') (by rw [row_codeField, row_codeField, h]))

/-- Selection under mask and match, as a condition on the word's fields. -/
theorem row_selects (m : Mnemonic) (w : Word) :
    m.row.selects w = true ↔
      codeField w = m.code ∧ (wordFlags w).within m.allowed = true ∧ reservedField w = 0#20 := by
  obtain ⟨hcode, hflags, hreserved⟩ := row_mask m
  have hpattern : m.row.pattern = commandWord m.code .none := rfl
  simp only [Row.selects, beq_iff_eq, word_eq_iff (v := w &&& _), codeField_and, wordFlags_and, reservedField_and, hcode,
    hflags, hreserved, BitVec.and_allOnes, hpattern, codeField_commandWord, wordFlags_commandWord,
    reservedField_commandWord, inter_compl_eq_none]

theorem code_of_selects {m : Mnemonic} {w : Word} (h : m.row.selects w = true) : m.code = codeField w := by
  obtain ⟨hcode, -⟩ := (row_selects m w).mp h
  exact hcode.symm

theorem reserved_of_selects {m : Mnemonic} {w : Word} (h : m.row.selects w = true) : reservedField w = 0#20 := by
  obtain ⟨-, -, hreserved⟩ := (row_selects m w).mp h
  exact hreserved

/-! ### What the decoder answers -/

/-- A word selects at most one row. -/
theorem row_unique {w : Word} {r r' : Row} (hr : r ∈ commandRows) (hr' : r' ∈ commandRows) (h : r.selects w = true)
    (h' : r'.selects w = true) : r = r' := by
  rw [eq_row_of_mem r hr] at h
  rw [eq_row_of_mem r' hr'] at h'
  have hcode : r.op.code = r'.op.code := (code_of_selects h).trans (code_of_selects h').symm
  rw [eq_row_of_mem r hr, eq_row_of_mem r' hr', code_injective hcode]

theorem decode_of_selects {w : Word} {r : Row} (hr : r ∈ commandRows) (h : r.selects w = true) :
    decode w = .ok (commandOf r.op w) := by
  cases hfind : commandRows.find? (·.selects w) with
  | none => exact absurd h (List.find?_eq_none.mp hfind r hr)
  | some r' =>
    obtain rfl := row_unique hr (List.mem_of_find?_eq_some hfind) h (List.find?_some (p := fun r : Row => r.selects w) hfind)
    simp only [decode, hfind]

theorem decode_of_not_selects {w : Word} (h : ∀ m : Mnemonic, ¬ m.row.selects w = true) :
    decode w = .error (rejectReason w) := by
  have hfind : commandRows.find? (·.selects w) = none :=
    List.find?_eq_none.mpr fun r hr => by rw [eq_row_of_mem r hr]; exact h _
  simp only [decode, hfind]

/-- A word decodes exactly where it selects a row. -/
theorem decode_eq_ok_iff {w : Word} {i : Instr} :
    decode w = .ok i ↔ ∃ m : Mnemonic, m.row.selects w = true ∧ commandOf m w = i := by
  constructor
  · intro h
    by_cases hsel : ∃ m : Mnemonic, m.row.selects w = true
    · obtain ⟨m, hm⟩ := hsel
      rw [decode_of_selects (row_mem m) hm] at h
      exact ⟨m, hm, Except.ok.inj h⟩
    · rw [decode_of_not_selects (not_exists.mp hsel)] at h
      cases h
  · rintro ⟨m, hm, rfl⟩
    exact decode_of_selects (row_mem m) hm

/-! ### The command of a word, and the word of a command -/

@[simp] theorem commandOf_mnemonic (m : Mnemonic) (w : Word) : (commandOf m w).mnemonic = m := by cases m <;> rfl

/-- A command takes every flag of the word that its row allows. -/
theorem commandOf_flags (m : Mnemonic) (w : Word) : (commandOf m w).flags = (wordFlags w).inter m.allowed := by
  cases m <;> simp [commandOf, Instr.flags, Mnemonic.allowed, CmdFlags.inter, wordFlags]

/-- A command is its mnemonic and its flags. -/
theorem commandOf_eq_self {i : Instr} {w : Word} (h : wordFlags w = i.flags) : commandOf i.mnemonic w = i := by
  obtain ⟨hc, hs, hd, hrp⟩ := CmdFlags.mk.inj h
  cases i <;> simp_all [commandOf, Instr.mnemonic, Instr.flags]

/-- The decoder reads back every encoded command. -/
theorem decode_encode {i : Instr} (h : i.wellFormed = true) : decode (encode i) = .ok i := by
  refine decode_eq_ok_iff.mpr ⟨i.mnemonic, (row_selects _ _).mpr ⟨?_, ?_, ?_⟩, commandOf_eq_self ?_⟩
  · exact codeField_commandWord ..
  · rw [encode, wordFlags_commandWord]
    exact h
  · exact reservedField_commandWord ..
  · exact wordFlags_commandWord ..

/-- A command has arguments only for the flags its row allows. -/
theorem instr_wellFormed (i : Instr) : i.wellFormed = true := by
  cases i <;> simp [Instr.wellFormed, Instr.flags, Instr.mnemonic, Mnemonic.allowed, CmdFlags.within]

/-- A word that decodes to a command is that command's word. -/
theorem encode_of_decode {w : Word} {i : Instr} (h : decode w = .ok i) : encode i = w := by
  obtain ⟨m, hm, rfl⟩ := decode_eq_ok_iff.mp h
  obtain ⟨hcode, hflags, hreserved⟩ := (row_selects m w).mp hm
  rw [encode, commandOf_mnemonic, commandOf_flags, inter_eq_self hflags, ← hcode, commandWord_fields hreserved]

/-- Settles O1: a word is put together from its fields, and the row of a word fixes all of them but the allowed flags. -/
theorem decodeAndEncodeAgree : Obligations.DecodeAndEncodeAgree :=
  ⟨fun _ h => decode_encode h, fun _ _ h => encode_of_decode h⟩

/-- Settles O2: rows with one code are the same row, and what the decoder finds is the row that matches. -/
theorem decodeSelectsTheRow : Obligations.DecodeSelectsTheRow := by
  refine ⟨fun w r r' hr hr' h h' => row_unique hr hr' (beq_iff_eq.mpr h) (beq_iff_eq.mpr h'), fun w i => ?_⟩
  rw [decode_eq_ok_iff]
  constructor
  · rintro ⟨m, hm, hi⟩
    exact ⟨m.row, row_mem m, beq_iff_eq.mp hm, hi⟩
  · rintro ⟨r, hr, hsel, hi⟩
    refine ⟨r.op, ?_, hi⟩
    rw [← eq_row_of_mem r hr]
    exact beq_iff_eq.mpr hsel

/-! ### Illegal words -/

/-- The reason looks at the code first: unknown where it is no row's. -/
theorem rejectReason_unknown {w : Word} (h : ∀ m : Mnemonic, m.code ≠ codeField w) : rejectReason w = .unknownCode := by
  refine if_pos (List.all_eq_true.mpr fun r hr => bne_iff_ne.mpr ?_)
  rw [eq_row_of_mem r hr, row_codeField]
  exact h _

theorem decode_unknownCode {w : Word} (h : ∀ m : Mnemonic, m.code ≠ codeField w) : decode w = .error .unknownCode := by
  rw [decode_of_not_selects fun m hm => h m (code_of_selects hm), rejectReason_unknown h]

section
variable {w : Word} {m : Mnemonic} (hcode : m.code = codeField w)
include hcode

/-- Then at the bits [31:12]. -/
theorem rejectReason_known :
    rejectReason w = if reservedField w != 0#20 then .reservedBits else .flagNotAllowed := by
  have hrow : ¬ (commandRows.all fun r => codeField r.pattern != codeField w) = true := by
    intro hall
    exact bne_iff_ne.mp (List.all_eq_true.mp hall _ (row_mem m)) ((row_codeField m).trans hcode)
  exact if_neg hrow

theorem decode_reservedBits (h : reservedField w ≠ 0#20) : decode w = .error .reservedBits := by
  rw [decode_of_not_selects fun m hm => h (reserved_of_selects hm), rejectReason_known hcode, if_pos (bne_iff_ne.mpr h)]

theorem decode_flagNotAllowed (h : reservedField w = 0#20) (hflags : (wordFlags w).within m.allowed = false) :
    decode w = .error .flagNotAllowed := by
  have hsel (m' : Mnemonic) : ¬ m'.row.selects w = true := by
    rw [row_selects]
    rintro ⟨hcode', hflags', -⟩
    obtain rfl := code_injective (hcode.trans hcode')
    rw [hflags] at hflags'
    cases hflags'
  rw [decode_of_not_selects hsel, rejectReason_known hcode, if_neg (mt bne_iff_ne.mp (not_not_intro h))]

theorem decode_command (h : reservedField w = 0#20) (hflags : (wordFlags w).within m.allowed = true) :
    decode w = .ok (commandOf m w) :=
  decode_eq_ok_iff.mpr ⟨m, (row_selects m w).mpr ⟨hcode.symm, hflags, h⟩, rfl⟩

end

/-- Settles O3: by the code, then the bits [31:12], then the flags of the word, as `decode` answers for each. -/
theorem illegalWordsAreNamed : Obligations.IllegalWordsAreNamed := by
  intro w
  change (_ ↔ ∀ m : Mnemonic, m.code ≠ codeField w) ∧
    (_ ↔ (∃ m : Mnemonic, m.code = codeField w) ∧ reservedField w ≠ 0#20) ∧
    (_ ↔ reservedField w = 0#20 ∧ ∃ m : Mnemonic, m.code = codeField w ∧ (wordFlags w).within m.allowed = false)
  by_cases hknown : ∃ m : Mnemonic, m.code = codeField w
  · obtain ⟨m, hm⟩ := hknown
    have hcodes (m' : Mnemonic) : m'.code = codeField w ↔ m' = m := by rw [← hm, code_injective.eq_iff]
    by_cases hreserved : reservedField w = 0#20
    · cases hflags : (wordFlags w).within m.allowed with
      | false => simp [decode_flagNotAllowed hm hreserved hflags, hcodes, hreserved, hflags]
      | true => simp [decode_command hm hreserved hflags, hcodes, hreserved, hflags]
    · simp [decode_reservedBits hm hreserved, hcodes, hreserved]
  · rw [not_exists] at hknown
    simp [decode_unknownCode hknown, hknown]

/-- Settles O4: each word is the word of its command, which the decoder reads back. -/
theorem commandWordsDecode : Obligations.CommandWordsDecode :=
  ⟨decode_encode (i := .transfer false true false) rfl, decode_encode (i := .transfer true true true) rfl,
   decode_encode (i := .acquire) rfl, decode_encode (i := .release) rfl, decode_encode (i := .standby) rfl,
   decode_encode (i := .readStatus true) rfl, decode_encode (i := .dump true) rfl, decode_encode (i := .program true) rfl,
   decode_encode (i := .unlock true) rfl, decode_encode (i := .checksum false false) rfl,
   decode_encode (i := .checksum true true) rfl⟩

end Sys2Proof
end

section
/-! PROOFS. The assembler (30_encoding.md R59 to R61): a statement's operand stores as a list of offsets and words, what the
host's stores of such a list do for both store orders (20_memory.md R45; log 17), and the operations of the
pseudo-instructions; with them the width of LENGTH (R54). -/

namespace Sys2Proof.Machine

/-! ### The command of a statement -/

theorem stmt_flags_c (t : Stmt) : t.flags.c = t.dotC := by
  obtain ⟨op, c, r, args⟩ := t
  cases args <;> rfl

theorem stmt_flags_rp (t : Stmt) : t.flags.rp = t.dotR := by
  obtain ⟨op, c, r, args⟩ := t
  cases args <;> rfl

/-- A statement's command is its mnemonic's, with the flags that the statement asks for. -/
theorem stmtCommand_eq_commandOf {t : Stmt} {w : Word} (h : wordFlags w = t.flags) : stmtCommand t = commandOf t.op w := by
  have hc : flagC w = t.dotC := (congrArg CmdFlags.c h).trans (stmt_flags_c t)
  have hrp : flagRp w = t.dotR := (congrArg CmdFlags.rp h).trans (stmt_flags_rp t)
  obtain ⟨op, c, r, args⟩ := t
  cases op
  case transfer =>
    have hs : flagS w = _ := congrArg CmdFlags.s h
    have hd : flagD w = _ := congrArg CmdFlags.d h
    cases args <;> simp [stmtCommand, commandOf, hc, hs, hd, Stmt.flags]
  all_goals simp [stmtCommand, commandOf, hc, hrp]

/-- A well-formed statement asks only for flags that its command allows (30_encoding.md R59). -/
theorem stmt_flags_within {t : Stmt} (h : t.wellFormed = true) : t.flags.within t.op.allowed = true := by
  obtain ⟨op, c, r, args⟩ := t
  simp only [Stmt.wellFormed, Bool.and_eq_true] at h
  obtain ⟨⟨hc, hr⟩, hargs⟩ := h
  cases args with
  | bits n src dst =>
    obtain rfl : op = .transfer := by simpa [StmtArgs.fits] using hargs
    simpa [Stmt.flags, CmdFlags.within, Mnemonic.allowed] using hr
  | _ => simp only [Stmt.flags, CmdFlags.within, hc, hr]; rfl

theorem encode_stmtCommand {t : Stmt} (h : t.wellFormed = true) :
    encode (stmtCommand t) = commandWord t.op.code t.flags := by
  have hflags := wordFlags_commandWord t.op.code t.flags
  rw [stmtCommand_eq_commandOf hflags, encode, commandOf_mnemonic, commandOf_flags, hflags,
    inter_eq_self (stmt_flags_within h)]

/-! ### The operand stores of a statement -/

/-- The offsets and words that a statement's operands are stored at (30_encoding.md R60). -/
def stmtStores (t : Stmt) : List Posted :=
  match t.args with
  | .none => []
  | .bits n src dst => ⟨0x10, n⟩ :: ((src.map (Posted.mk 0x14)).toList ++ (dst.map (Posted.mk 0x18)).toList)
  | .statusByte s => [⟨0x1C, s.setWidth 32⟩]
  | .page off len buf => [⟨0x0C, off.setWidth 32⟩, ⟨0x10, len⟩, ⟨if readsSource t.op then 0x14 else 0x18, buf⟩]
  | .expected e => [⟨0x1C, e.setWidth 32⟩]

/-- The host's operation for a store of a word at an offset of the window. -/
def storeOp (p : Params) (x : Posted) : HostOp := .store (wordAccess p x.off) x.v

theorem operandStores_eq (p : Params) (t : Stmt) : operandStores p t = (stmtStores t).map (storeOp p) := by
  obtain ⟨op, c, r, args⟩ := t
  cases args with
  | bits n src dst => cases src <;> cases dst <;> rfl
  | _ => rfl

/-- The offset is one of the operand registers: in the window, word-aligned, and not CMD. -/
def Posted.isOperand (x : Posted) : Prop := x.off < 0x40 ∧ x.off % 4 = 0 ∧ x.off ≠ 0

theorem stmtStores_isOperand (t : Stmt) : ∀ x ∈ stmtStores t, x.isOperand := by
  obtain ⟨op, c, r, args⟩ := t
  cases args with
  | bits n src dst => cases src <;> cases dst <;> simp [stmtStores, Posted.isOperand]
  | page off len buf => cases h : readsSource op <;> simp [stmtStores, h, Posted.isOperand]
  | _ => simp [stmtStores, Posted.isOperand]

theorem stmtStores_sorted (t : Stmt) : ((stmtStores t).map Posted.off).Pairwise (· < ·) := by
  obtain ⟨op, c, r, args⟩ := t
  cases args with
  | bits n src dst => cases src <;> cases dst <;> simp [stmtStores]
  | page off len buf => cases h : readsSource op <;> simp [stmtStores, h]
  | _ => simp [stmtStores]

/-- The register window after the stores have arrived in their order. -/
def Hw.afterStores (h : Hw) (xs : List Posted) : Hw := xs.foldl (fun h x => h.windowStore x.off x.v) h

/-- The low half of a word that a narrower value was widened to. -/
theorem lowHalf_setWidth {n : Nat} (v : BitVec n) : (v.setWidth 32).extractLsb' 0 16 = v.setWidth 16 := by
  rw [← BitVec.setWidth_eq_extractLsb' (by decide), BitVec.setWidth_setWidth_of_le _ (by decide)]

theorem afterStores_stmtStores (h : Hw) (t : Stmt) : h.afterStores (stmtStores t) = t.operandsInto h := by
  obtain ⟨op, c, r, args⟩ := t
  cases args with
  | none => rfl
  | bits n src dst => cases src <;> cases dst <;> rfl
  | page off len buf =>
    have hsrc : readsSource op = true ↔ op = .writePage ∨ op = .program := by simp [readsSource]
    by_cases hop : op = .writePage ∨ op = .program <;>
      simp [Hw.afterStores, stmtStores, Hw.windowStore, lowHalf_setWidth, Stmt.operandsInto, hsrc, hop]
  | _ => simp [Hw.afterStores, stmtStores, Hw.windowStore, lowHalf_setWidth, Stmt.operandsInto]

/-! ### What the host's stores do -/

/-- The state with these operations left to the host. -/
def State.withOps (s : State) (ops : List HostOp) : State := { s with host := { s.host with ops := ops } }

theorem State.withOps_self {s : State} {ops : List HostOp} (h : s.host.ops = ops) : s.withOps ops = s := by
  subst h
  rfl

/-- The host moves, its accesses reach the window, and the block does nothing. -/
structure State.HostReady (s : State) : Prop where
  idle : s.seq = .idle
  turns : s.host.turns = []
  admitted : s.admitted = true

theorem State.HostReady.mover {s : State} (hs : s.HostReady) {o : HostOp} {rest : List HostOp}
    (ho : s.host.ops = o :: rest) : s.mover = .host := by
  simp [State.mover, hs.turns, hs.idle, ho]

theorem State.HostReady.step_store {s : State} (hs : s.HostReady) {x : Posted} {rest : List HostOp}
    (ho : s.host.ops = storeOp s.hw.params x :: rest) :
    step s = hostStore (wordAccess s.hw.params x.off) x.v (s.withOps rest) := by
  rw [step_of_hostOp (hs.mover ho) ho, popTurn_quiet hs.turns]
  simp only [storeOp, hostOp, State.popOp, ho, List.tail_cons, State.withOps]

/-- Where stores arrive in program order, the host's stores write their registers in turn, each in a step of its own. -/
theorem run_stores_program {xs : List Posted} (hxs : ∀ x ∈ xs, x.isOperand) {s : State} (hs : s.HostReady)
    (hp : s.hw.params.storeOrder = .program) {rest : List HostOp}
    (ho : s.host.ops = xs.map (storeOp s.hw.params) ++ rest) :
    Host.Core.run Sys2Proof.core xs.length s = .next { s.withOps rest with hw := s.hw.afterStores xs } := by
  induction xs generalizing s with
  | nil => exact congrArg Host.Outcome.next (State.withOps_self ho).symm
  | cons x xs ih =>
    obtain ⟨⟨hlt, halign, hcmd⟩, hxs⟩ := List.forall_mem_cons.mp hxs
    have hparams := (windowStore_keeps_line s.hw x.off x.v).1
    let ops := xs.map (storeOp s.hw.params) ++ rest
    have hstep : step s = .next { s.withOps ops with hw := s.hw.windowStore x.off x.v } := by
      rw [hs.step_store ho]
      exact (hostStore_program (s := s.withOps ops) x.v hlt halign hs.admitted hp).trans (if_neg hcmd)
    refine (run_succ (M := Sys2Proof.core) hstep xs.length).trans (ih hxs ⟨hs.idle, hs.turns, ?_⟩ ?_ ?_)
    · exact (congrArg (·.windowAccess.admits s.host.agent) hparams).trans hs.admitted
    · exact (congrArg Params.storeOrder hparams).trans hp
    · simp only [hparams]; rfl

/-- Where stores may arrive in any order, the host's stores are posted in turn, each in a step of its own. -/
theorem run_stores_any {xs : List Posted} (hxs : ∀ x ∈ xs, x.off < 0x40 ∧ x.off % 4 = 0) {s : State} (hs : s.HostReady)
    (hp : s.hw.params.storeOrder = .any) {rest : List HostOp}
    (ho : s.host.ops = xs.map (storeOp s.hw.params) ++ rest) :
    Host.Core.run Sys2Proof.core xs.length s =
      .next { s with host := { s.host with ops := rest, posted := s.host.posted ++ xs } } := by
  induction xs generalizing s with
  | nil => rw [List.append_nil]; exact congrArg Host.Outcome.next (State.withOps_self ho).symm
  | cons x xs ih =>
    obtain ⟨⟨hlt, halign⟩, hxs⟩ := List.forall_mem_cons.mp hxs
    let ops := xs.map (storeOp s.hw.params) ++ rest
    have hstep : step s = .next ((s.withOps ops).post x.off x.v) := by
      rw [hs.step_store ho]
      exact hostStore_any (s := s.withOps ops) x.v hlt halign hs.admitted hp
    have hrun := ih (s := (s.withOps ops).post x.off x.v) hxs ⟨hs.idle, hs.turns, hs.admitted⟩ hp rfl
    refine (run_succ (M := Sys2Proof.core) hstep xs.length).trans (hrun.trans ?_)
    simp only [State.post_posted, List.append_assoc, List.singleton_append]
    rfl

/-! ### The store of the command word -/

/-- A store of a command's word to CMD of a block that is not busy starts the command. -/
theorem storeCmd_encode {i : Instr} {s : State} (hb : s.hw.status.busy = false) :
    storeCmd (encode i) s = exec i (s.accept (encode i)) := by
  simp only [storeCmd, hb, Bool.false_eq_true, if_false, decode_encode (instr_wellFormed i)]

theorem State.HostReady.step_command {s : State} (hs : s.HostReady) (hp : s.hw.params.storeOrder = .program)
    (hb : s.hw.status.busy = false) {i : Instr} {rest : List HostOp}
    (ho : s.host.ops = .store (wordAccess s.hw.params 0x00) (encode i) :: rest) :
    step s = exec i (s.popOp.accept (encode i)) := by
  rw [step_of_delivers (.host (hs.mover ho) ho hp hs.admitted), ← popTurn_popOp ho, popTurn_quiet hs.turns]
  exact storeCmd_encode hb

/-- The operands go to host-written registers. -/
theorem operandsInto_keeps (t : Stmt) (h : Hw) :
    (t.operandsInto h).params = h.params ∧ (t.operandsInto h).status = h.status := by
  simp only [Stmt.operandsInto]
  split
  case h_4 => split <;> exact ⟨rfl, rfl⟩
  all_goals exact ⟨rfl, rfl⟩

/-- The stores of a statement in their order: its operands, then its command word. -/
def stmtIssued (t : Stmt) : List Posted := stmtStores t ++ [⟨0x00, encode (stmtCommand t)⟩]

theorem stmtIssued_ops (p : Params) (t : Stmt) :
    (stmtIssued t).map (storeOp p) ++ [.wait] =
      operandStores p t ++ [.store (wordAccess p 0x00) (encode (stmtCommand t)), .wait] := by
  simp only [stmtIssued, operandStores_eq, List.map_append, List.append_assoc]
  rfl

theorem stmtIssued_aligned (t : Stmt) : ∀ x ∈ stmtIssued t, x.off < 0x40 ∧ x.off % 4 = 0 := by
  intro x hx
  rcases List.mem_append.mp hx with hx | hx
  · obtain ⟨hlt, halign, -⟩ := stmtStores_isOperand t x hx
    exact ⟨hlt, halign⟩
  · obtain rfl := List.mem_singleton.mp hx
    exact ⟨Nat.zero_lt_succ _, rfl⟩

/-- The addresses of a statement's operand stores rise with the offsets. -/
theorem operandStores_sorted (p : Params) (t : Stmt) :
    ((operandStores p t).map HostOp.storeAddress).Pairwise (· < ·) := by
  have h := stmtStores_sorted t
  rw [List.pairwise_map] at h
  rw [operandStores_eq, List.map_map, List.pairwise_map]
  exact h.imp fun hlt => Nat.add_lt_add_left hlt _

/-- The state in which only the command word of a statement is left to be stored. -/
def State.operandsStored (s : State) (t : Stmt) (rest : List HostOp) : State :=
  { s.withOps (.store (wordAccess s.hw.params 0x00) (encode (stmtCommand t)) :: .wait :: rest) with
    hw := t.operandsInto s.hw }

section
variable {s : State} (hs : s.HostReady) {t : Stmt} {rest : List HostOp}
  (ho : s.host.ops =
    operandStores s.hw.params t ++ .store (wordAccess s.hw.params 0x00) (encode (stmtCommand t)) :: .wait :: rest)
include hs ho

/-- In program order the operand stores write the operand registers and nothing else. -/
theorem run_operandStores (hp : s.hw.params.storeOrder = .program) :
    Host.Core.run Sys2Proof.core (operandStores s.hw.params t).length s = .next (s.operandsStored t rest) := by
  rw [operandStores_eq] at ho
  rw [operandStores_eq, List.length_map, run_stores_program (stmtStores_isOperand t) hs hp ho, afterStores_stmtStores]
  rfl

/-- In any order the stores are posted in the statement's order. -/
theorem run_stmtIssued (hp : s.hw.params.storeOrder = .any) :
    Host.Core.run Sys2Proof.core (stmtIssued t).length s =
      .next { s with host := { s.host with ops := .wait :: rest, posted := s.host.posted ++ stmtIssued t } } := by
  refine run_stores_any (stmtIssued_aligned t) hs hp (ho.trans ?_)
  simpa using congrArg (· ++ rest) (stmtIssued_ops s.hw.params t).symm

end

/-- The store that is left starts the statement's command. -/
theorem step_operandsStored {s : State} (hs : s.HostReady) (hp : s.hw.params.storeOrder = .program)
    (hb : s.hw.status.busy = false) (t : Stmt) (rest : List HostOp) :
    step (s.operandsStored t rest) =
      exec (stmtCommand t) ((s.operandsStored t rest).popOp.accept (encode (stmtCommand t))) := by
  obtain ⟨hparams, hstatus⟩ := operandsInto_keeps t s.hw
  have hready : (s.operandsStored t rest).HostReady :=
    ⟨hs.idle, hs.turns, (congrArg (·.windowAccess.admits s.host.agent) hparams).trans hs.admitted⟩
  refine hready.step_command (rest := .wait :: rest) ?_ ?_ ?_
  · exact (congrArg Params.storeOrder hparams).trans hp
  · exact (congrArg Status.busy hstatus).trans hb
  · exact congrArg (fun p => .store (wordAccess p 0x00) (encode (stmtCommand t)) :: .wait :: rest) hparams.symm

/-- Settles O5: the statement's stores are a list of offsets and words, whose run is known for both store orders; the last of
them brings a word that decodes to the statement's command. -/
theorem assembledStatementStartsItsCommand : Obligations.AssembledStatementStartsItsCommand := by
  intro t ops rest s hasm hidle hbusy hadm hturns hops
  obtain ⟨hwf, rfl⟩ := Option.ite_some_none_eq_some.mp hasm
  have hs : s.HostReady := ⟨hidle, hturns, hadm⟩
  have ho := hops.trans (List.append_assoc ..)
  refine ⟨rfl, encode_stmtCommand hwf, operandStores_sorted _ t, fun hp => ⟨s.operandsStored t rest, ?_, ?_, ?_⟩,
    fun hp => ⟨stmtIssued t, stmtIssued_ops _ t, run_stmtIssued hs ho hp⟩⟩
  · rw [List.drop_left]
    rfl
  · exact run_operandStores hs ho hp
  · exact step_operandsStored hs hp hbusy t rest

/-! ### The operations of the pseudo-instructions -/

theorem hostStatus_admitted {s : State} (h : s.admitted = true) (after : State) :
    hostStatus s after = .next after.loadStatus :=
  if_pos h

theorem hostStep_of_ops {s : State} {o : HostOp} {rest : List HostOp} (ho : s.host.ops = o :: rest) :
    hostStep s = hostOp o s := by
  simp only [hostStep, ho]

section
variable {s : State} (ha : s.admitted = true) {rest : List HostOp}
include ha

/-- `WAIT` stays where it is while the block is busy. -/
theorem hostStep_wait (ho : s.host.ops = .wait :: rest) :
    hostStep s = .next (s.withOps (if s.hw.status.busy then .wait :: rest else rest)).loadStatus := by
  rw [hostStep_of_ops ho, hostOp, hostStatus_admitted ha]
  cases s.hw.status.busy with
  | true => rw [if_pos rfl, if_pos rfl, State.withOps_self ho]
  | false => rw [if_neg Bool.false_ne_true, if_neg Bool.false_ne_true, State.popOp, ho]; rfl

theorem hostStep_skipUnless {code : RCode} {n : Nat} (ho : s.host.ops = .skipUnless code n :: rest) :
    hostStep s = .next (s.withOps (if s.hw.status.rcode = code then rest else rest.drop n)).loadStatus := by
  rw [hostStep_of_ops ho, hostOp, hostStatus_admitted ha, State.popOp, ho]
  split <;> rfl

theorem hostStep_skipIf {code : RCode} {n : Nat} (ho : s.host.ops = .skipIf code n :: rest) :
    hostStep s = .next (s.withOps (if s.hw.status.rcode = code then rest.drop n else rest)).loadStatus := by
  rw [hostStep_of_ops ho, hostOp, hostStatus_admitted ha, State.popOp, ho]
  split <;> rfl

end

/-- The word of DEVCFG, as CONFIG builds it. -/
theorem devCfg_word (b : Bool) (g : BitVec 4) (d : Half) :
    (DevCfg.mk b g d).word = (BitVec.ofBool b).setWidth 32 ||| g.setWidth 32 <<< 4 ||| d.setWidth 32 <<< 16 := by
  simp only [DevCfg.word, flagAt, BitVec.shiftLeft_zero]

/-! The words of `DUMP.C`, `PROGRAM.C` and `CHECKSUM.C`, without and with `.R`, that R61 uses. -/

theorem encode_dump_c : encode (.dump true) = 0x00000120#32 := rfl

theorem encode_program_c : encode (.program true) = 0x00000121#32 := rfl

theorem encode_checksum_c (u : Bool) :
    encode (.checksum true u) = if u then 0x00000924#32 else 0x00000124#32 := by
  cases u <;> rfl

/-- Settles O6: an operation of an admitted host is its load of STATUS and the operations it leaves; the expansions are the
assembled statements, their words written out. -/
theorem pseudoInstructionsExpand : Obligations.PseudoInstructionsExpand := by
  refine ⟨fun s rest ha ho => hostStep_wait ha ho, fun s code n rest ha ho => hostStep_skipUnless ha ho,
    fun s code n rest ha ho => hostStep_skipIf ha ho,
    fun p => ⟨rfl, fun b g d w => ?_, fun off len dst => ?_, fun src off len => ?_, fun u => ?_, rfl, rfl⟩⟩
  · rw [expandPseudo, devCfg_word]
    rfl
  · rw [← encode_dump_c]
    rfl
  · rw [← encode_program_c]
    rfl
  · rw [← encode_checksum_c]
    rfl

/-! ### The width of LENGTH -/

theorem lengthFits_iff (l : Latch) : lengthFits l = true ↔ l.len.extractLsb' 16 16 = 0#16 := beq_iff_eq

/-- A page or loop command with a LENGTH that is too wide is illegal (30_encoding.md R54; 60_exceptions.md R86). -/
theorem exec_too_long {i : Instr} {s : State} (hi : i.hasByteCount = true) (hl : lengthFits s.hw.latch = false) :
    exec i s = .next (s.at (.finish .illegal)) := by
  have hne : ¬ lengthFits s.hw.latch = true := by rw [hl]; exact Bool.false_ne_true
  cases i
  case writePage c => exact if_neg hne
  case readPage c => exact if_neg hne
  case dump c => exact if_neg hne
  case program c => exact if_neg hne
  all_goals cases hi

/-- A LENGTH whose upper half is zero is the byte count. -/
theorem byteCount_eq {l : Latch} (h : l.len.extractLsb' 16 16 = 0#16) : byteCount l = l.len.toNat := by
  have hhigh := congrArg BitVec.toNat h
  simp only [BitVec.extractLsb'_toNat, Nat.shiftRight_eq_div_pow, BitVec.toNat_ofNat] at hhigh
  simp only [byteCount, BitVec.extractLsb'_toNat, Nat.shiftRight_zero]
  have := l.len.isLt
  omega

/-- Settles O15: by cases on the command, and because a LENGTH that fits is its own lower half. -/
theorem lengthWidths : Obligations.LengthWidths :=
  ⟨fun _ s hi hl => exec_too_long hi (Bool.eq_false_iff.mpr (mt (lengthFits_iff s.hw.latch).mp hl)),
   fun _ h => ⟨byteCount_eq h, byteCount_eq h⟩,
   fun c sf df s => ⟨transferArgs s.hw.latch c sf df, rfl, rfl⟩⟩

end Sys2Proof.Machine
end

section
/-! PROOFS. BitClock and TRANSFER (40_bitclock_transfer.md R63 to R66). A transfer of BUF is followed through the straight-line
pseudocode of Machine/Pseudocode.lean: what one bit does to the hardware state, what the bits of a list of sampled answers do,
and what the trailing-bit clear does; then, apart from the port, what a list of captured bits leaves in BUF. -/

namespace Sys2Proof.Machine

/-! ### RAISE and LOWER -/

theorem runDrive_eq (s : Hw) :
    runDrive s = { s with ctrl := s.ls, trace := s.trace ++ [.wr s.ls, .fl, .dl s.latch.du.toNat] } := by
  have htrace : (runDrive s).trace = s.trace ++ [.wr s.ls, .fl, .dl s.latch.du.toNat] := by simp [runDrive]
  rw [← htrace]
  rfl

/-- Settles O19: RAISE and LOWER end with LS changed and driven. -/
theorem raiseAndLower : Obligations.RaiseAndLower := by
  refine ⟨fun s => ?_, fun s => ?_⟩
  · have hends := stepRaise_ends s
    rw [runRaise, runDrive_eq] at hends
    exact hends
  · have hends := stepLower_ends s
    rw [runLower, runDrive_eq] at hends
    exact hends

/-! ### Where a transfer's bits lie in BUF -/

/-- Bit k of the bit sequence that starts at the BUF address a (00_scope.md R11). -/
def bufBit (m : Memory) (a : Word) (k : Nat) : Bool := getBit (m.read (a + BitVec.ofNat 32 (k / 8)).toNat) k

/-- The bit that a transfer shifts out as its bit k, from the source or else 0. -/
def sourceBufBit (src : Option Word) (k : Nat) (m : Memory) : Bool :=
  match src with
  | some a => bufBit m a k
  | none => false

/-- BUF after the capture of bit i of the answer `ans`. -/
def captureInBuf (p : Params) (dst : Option Word) (i : Nat) (m : Memory) (ans : Word) : Memory :=
  match dst with
  | some a =>
    m.write (a + BitVec.ofNat 32 (i / 8)).toNat (setBit (m.read (a + BitVec.ofNat 32 (i / 8)).toNat) i (soBit p ans))
  | none => m

/-- BUF after the capture of the answers as bits i, i + 1, and so on. -/
def captureAllInBuf (p : Params) (dst : Option Word) : Nat → Memory → List Word → Memory
  | _, m, [] => m
  | i, m, ans :: rest => captureAllInBuf p dst (i + 1) (captureInBuf p dst i m ans) rest

/-- BUF after the trailing-bit clear of a transfer of n bits. -/
def clearTrailingInBuf (n : Nat) (dst : Option Word) (m : Memory) : Memory :=
  match dst with
  | some a =>
    if n % 8 ≠ 0 then
      m.write (a + BitVec.ofNat 32 (n / 8)).toNat (keepTop (m.read (a + BitVec.ofNat 32 (n / 8)).toNat) n)
    else m
  | none => m

@[simp] theorem captureAllInBuf_none (p : Params) (i : Nat) (m : Memory) (ws : List Word) :
    captureAllInBuf p none i m ws = m := by
  induction ws generalizing i with
  | nil => rfl
  | cons w ws ih => exact ih (i + 1)

/-- The bits a transfer shifts out, by the shift and the capture of its first bit. -/
theorem exchangeBits_cons (p : Params) (src dst : Option Word) (i : Nat) (m : Memory) (w : Word) (ws : List Word) :
    exchangeBits p src dst i m (w :: ws) =
      sourceBufBit src i m :: exchangeBits p src dst (i + 1) (captureInBuf p dst i m w) ws := by
  cases src <;> cases dst <;> rfl

/-! ### The transfer's run -/

/-- The arguments of a transfer whose buffers are in BUF. -/
def bufArgs (n : Nat) (src dst : Option Word) (c : Bool) : XferArgs := ⟨n, src.map bufRef, dst.map bufRef, c⟩

@[simp] theorem bufArgs_n (n : Nat) (src dst : Option Word) (c : Bool) : (bufArgs n src dst c).n = n := rfl
@[simp] theorem bufArgs_c (n : Nat) (src dst : Option Word) (c : Bool) : (bufArgs n src dst c).c = c := rfl

theorem transferArgs_eq_bufArgs (l : Latch) (c sf df : Bool) :
    transferArgs l c sf df =
      bufArgs l.len.toNat (if sf then some l.srca else none) (if df then some l.dsta else none) c := by
  cases sf <;> cases df <;> rfl

/-- The state after bit i of a transfer, with no cancellation seen and the answer `ans` sampled; with c = 0 the steps 2 to 5
of the bit are all of it (40_bitclock_transfer.md R65). -/
def Hw.afterBit (s : Hw) (src dst : Option Word) (c : Bool) (i : Nat) (ans : Word) : Hw :=
  { s with
    ls := ans &&& ~~~bitMask s.params.bitSk
    ctrl := ans &&& ~~~bitMask s.params.bitSk
    mem := captureInBuf s.params dst i s.mem ans
    reads := s.reads.tail
    cancels := if c then s.cancels.tail else s.cancels
    draws := if c then s.draws + 2 else s.draws + 1
    trace :=
      s.trace ++
        ((if c then [.cp false] else []) ++
          bitEvents s.params s.latch.du.toNat (sourceBufBit src i s.mem) s.ls ans) }

theorem sourceBit_bufArgs (n : Nat) (src dst : Option Word) (c : Bool) (i : Nat) (s : Hw) :
    sourceBit (bufArgs n src dst c) i s = some (sourceBufBit src i s.mem) := by
  cases src <;> rfl

theorem captureBit_bufArgs (n : Nat) (src dst : Option Word) (c : Bool) (i : Nat) (s : Hw) :
    captureBit (bufArgs n src dst c) i s = some { s with mem := captureInBuf s.params dst i s.mem s.ls } := by
  cases dst <;> rfl

theorem runTail_bufArgs (n : Nat) (src dst : Option Word) (c : Bool) (s : Hw) :
    runTail (bufArgs n src dst c) s = some { s with mem := clearTrailingInBuf n dst s.mem } := by
  cases dst with
  | none => rfl
  | some a =>
    by_cases h : n % 8 ≠ 0
    · simp only [clearTrailingInBuf, if_pos h]
      exact if_pos h
    · simp only [clearTrailingInBuf, if_neg h]
      exact if_neg h

theorem putSi_eq (b : Bool) (s : Hw) : putSi b s = { s with ls := withSi s.params b s.ls } := by
  cases b <;> rfl

/-- Steps 2 to 5 of a bit (40_bitclock_transfer.md R65). -/
theorem runBit_bufArgs {n : Nat} {src dst : Option Word} {c : Bool} {i : Nat} {s : Hw} {w : Word} {rest : List Word}
    (hr : s.reads = w :: rest) : runBit (bufArgs n src dst c) i s = some (s.afterBit src dst false i w) := by
  obtain rfl := Hw.readAnswer_cons hr
  simp only [runBit, sourceBit_bufArgs, captureBit_bufArgs, Option.bind_some, Option.map_some, runRaise, runLower,
    runDrive_eq, putSi_eq]
  simp only [Hw.afterBit, Hw.regRead, Hw.setLs, Hw.clearLs, Hw.readAnswer, bitEvents, List.append_assoc, List.cons_append,
    List.nil_append, Bool.false_eq_true, if_false]

/-- One bit of a transfer that goes on: its sample of the cancellation input, where it has one, answers 0. -/
theorem runBits_succ_bufArgs {n left i : Nat} {src dst : Option Word} {c : Bool} {s : Hw} {w : Word} {rest : List Word}
    {later : List Bool} (hn : n - (left + 1) = i) (hr : s.reads = w :: rest) (hc : c = true → s.cancels = false :: later) :
    runBits (bufArgs n src dst c) (left + 1) s = runBits (bufArgs n src dst c) left (s.afterBit src dst c i w) := by
  cases c with
  | false =>
    simp only [runBits, bufArgs_n, bufArgs_c, hn, Bool.false_eq_true, if_false, runBit_bufArgs hr, Option.bind_some]
  | true =>
    have ha : s.cancelAnswer = false := Hw.cancelAnswer_cons (hc rfl)
    have hbit : runBit (bufArgs n src dst true) i s.cancelPending = some (s.afterBit src dst true i w) := by
      rw [runBit_bufArgs (s := s.cancelPending) hr]
      simp only [Hw.afterBit, Hw.cancelPending, ha, List.append_assoc, if_true, Bool.false_eq_true, if_false,
        List.nil_append]
    simp only [runBits, bufArgs_n, bufArgs_c, hn, ha, Bool.false_eq_true, if_true, if_false, hbit, Option.bind_some]

/-- The bits of a list of sampled answers, none of them cancelled: what is left of the transfer runs from a state whose BUF
and trace are written out. -/
theorem runBits_bufArgs {src dst : Option Word} {c : Bool} {n left : Nat} {rest : List Word} {later : List Bool}
    (ws : List Word) {i : Nat} {s : Hw} (hn : i + (ws.length + left) = n) (hr : s.reads = ws ++ rest)
    (hc : c = true → s.cancels = List.replicate ws.length false ++ later) :
    ∃ ls ctrl cancels draws,
      runBits (bufArgs n src dst c) (ws.length + left) s =
        runBits (bufArgs n src dst c) left
          { s with
            ls := ls
            ctrl := ctrl
            mem := captureAllInBuf s.params dst i s.mem ws
            reads := rest
            cancels := cancels
            draws := draws
            trace :=
              s.trace ++
                shiftEvents s.params s.latch.du.toNat c s.ls (exchangeBits s.params src dst i s.mem ws) ws } ∧
      (c = true → cancels = later) := by
  induction ws generalizing i s with
  | nil =>
    refine ⟨s.ls, s.ctrl, s.cancels, s.draws, ?_, hc⟩
    obtain rfl : rest = s.reads := hr.symm
    simp only [List.length_nil, Nat.zero_add, captureAllInBuf, shiftEvents, exchangeBits, List.append_nil]
  | cons w ws ih =>
    rw [List.length_cons] at hn
    have hbit := runBits_succ_bufArgs (n := n) (left := ws.length + left) (i := i) (src := src) (dst := dst) (by omega) hr hc
    obtain ⟨ls, ctrl, cancels, draws, hrun, hlater⟩ := ih (i := i + 1) (s := s.afterBit src dst c i w) (by omega)
      (congrArg List.tail hr) (by rintro rfl; exact congrArg List.tail (hc rfl))
    refine ⟨ls, ctrl, cancels, draws, ?_, hlater⟩
    rw [List.length_cons, Nat.add_right_comm, hbit, hrun]
    simp only [Hw.afterBit, captureAllInBuf, exchangeBits_cons, shiftEvents, List.append_assoc]

/-- The same from the seeding read on. -/
theorem runXfer_bufArgs {src dst : Option Word} {c : Bool} {n left : Nat} {seed : Word} {ws rest : List Word}
    {later : List Bool} {s : Hw} (hn : ws.length + left = n) (hr : s.reads = seed :: ws ++ rest)
    (hc : c = true → s.cancels = List.replicate ws.length false ++ later) :
    ∃ t : Hw,
      runXfer (bufArgs n src dst c) s = runBits (bufArgs n src dst c) left t ∧
      Hw.OnlyPort { s with mem := captureAllInBuf s.params dst 0 s.mem ws } t ∧
      t.trace =
        s.trace ++ xferEvents s.params s.latch.du.toNat c seed (exchangeBits s.params src dst 0 s.mem ws) ws ∧
      (c = true → t.cancels = later) := by
  have hseed : s.readAnswer = seed := Hw.readAnswer_cons hr
  obtain ⟨ls, ctrl, cancels, draws, hrun, hlater⟩ := runBits_bufArgs (src := src) (dst := dst) ws (s := s.regRead)
    (show 0 + (ws.length + left) = n by omega) (congrArg List.tail hr) hc
  refine ⟨_, (congrArg (runBits (bufArgs n src dst c) · s.regRead) hn.symm).trans hrun, rfl, ?_, hlater⟩
  simp only [Hw.regRead, hseed, xferEvents, List.append_assoc, List.singleton_append]

theorem runBits_of_cancelled {a : XferArgs} {s : Hw} (left : Nat) (hc : a.c = true) (h : s.cancelAnswer = true) :
    runBits a (left + 1) s = some (s.cancelPending.markCancelled, .cancelled) := by
  simp only [runBits, hc, h, if_true]

/-- TRANSFER ends as its straight-line pseudocode does (40_bitclock_transfer.md R66). -/
theorem transfer_ends {c sf df : Bool} {s : State} {h : Hw} {r : SubOutcome} (hs : s.Accepted)
    (hr : runXfer (transferArgs s.hw.latch c sf df) s.hw = some (h, r)) :
    CommandEnds (.transfer c sf df) s h r.okOrCancelled :=
  commandEnds_of_ends (wrap := .transfer (transferArgs s.hw.latch c sf df)) (k := endTransfer) (x := .goto .seed)
    (fun _ => nofun) (fun _ _ ht => blockStep_of_seq ht rfl) hs rfl (stepXfer_ends hr)
    (reaches_finish s hs.quiet.turns h _)

/-- States that differ in the port only still do when both get the same BUF. -/
theorem Hw.OnlyPort.withMem {s t : Hw} (h : s.OnlyPort t) (m : Memory) :
    Hw.OnlyPort { s with mem := m } { t with mem := m } := by
  have hmem := congrArg (fun u : Hw => { u with mem := m }) h
  exact hmem

/-- TRANSFER, not cancelled: its port trace, and BUF as the bits and the trailing-bit clear leave it. -/
theorem transfer_completes {s : State} {c : Bool} (sf df : Bool) {seed : Word} {ws : List Word} (hs : s.Accepted)
    (hr : s.hw.Answers (seed :: ws)) (hlen : ws.length = s.hw.latch.len.toNat)
    (hc : s.hw.Uncancelled c s.hw.latch.len.toNat) {src dst : Option Word}
    (hargs : transferArgs s.hw.latch c sf df = bufArgs s.hw.latch.len.toNat src dst c) :
    ∃ h, CommandEnds (.transfer c sf df) s h .ok ∧
      h.trace =
        s.hw.trace ++
          xferEvents s.hw.params s.hw.latch.du.toNat c seed (exchangeBits s.hw.params src dst 0 s.hw.mem ws) ws ∧
      Hw.OnlyPort
        { s.hw with mem := clearTrailingInBuf ws.length dst (captureAllInBuf s.hw.params dst 0 s.hw.mem ws) } h := by
  obtain ⟨rest, hr⟩ := hr
  obtain ⟨later, hc⟩ : ∃ later, c = true → s.hw.cancels = List.replicate ws.length false ++ later := by
    rw [hlen]
    cases c with
    | false => exact ⟨[], nofun⟩
    | true => exact (hc rfl).imp fun _ h _ => h
  obtain ⟨t, hrun, hport, htrace, -⟩ := runXfer_bufArgs (left := 0) (src := src) (dst := dst) hlen hr hc
  have hmem : t.mem = captureAllInBuf s.hw.params dst 0 s.hw.mem ws := congrArg Hw.mem hport
  rw [runBits, runTail_bufArgs, Option.map_some, ← hargs, ← hlen, hmem] at hrun
  exact ⟨_, transfer_ends hs hrun, htrace, hport.withMem _⟩

/-- TRANSFER.C, with cancellation seen after the bits of a list of sampled answers: its port trace, and BUF as these bits
leave it. -/
theorem transfer_cancels {s : State} (sf df : Bool) {seed : Word} {ws : List Word} {later : List Bool} (hs : s.Accepted)
    (hr : s.hw.Answers (seed :: ws)) (hlen : ws.length < s.hw.latch.len.toNat)
    (hc : s.hw.cancels = List.replicate ws.length false ++ true :: later) {src dst : Option Word}
    (hargs : transferArgs s.hw.latch true sf df = bufArgs s.hw.latch.len.toNat src dst true) :
    ∃ h, CommandEnds (.transfer true sf df) s h .cancelled ∧ h.status.cancelSeen = true ∧
      h.trace =
        s.hw.trace ++
          xferEvents s.hw.params s.hw.latch.du.toNat true seed (exchangeBits s.hw.params src dst 0 s.hw.mem ws) ws ++
          [.cp true] ∧
      h.mem = captureAllInBuf s.hw.params dst 0 s.hw.mem ws := by
  obtain ⟨rest, hr⟩ := hr
  obtain ⟨left, hleft⟩ := Nat.exists_eq_add_of_lt hlen
  obtain ⟨t, hrun, hport, htrace, hlater⟩ := runXfer_bufArgs (left := left + 1) (src := src) (dst := dst)
    hleft.symm hr fun _ => hc
  have hseen : t.cancelAnswer = true := Hw.cancelAnswer_cons (hlater rfl)
  rw [runBits_of_cancelled left rfl hseen, ← hargs] at hrun
  refine ⟨_, transfer_ends hs hrun, rfl, ?_, congrArg Hw.mem hport⟩
  rw [← htrace, ← hseen]
  rfl

/-! ### What the captured bits leave in BUF -/

section

variable {p : Params} {m : Memory} {a : Word} {ws : List Word}

/-- The bytes of a buffer lie at different addresses (20_memory.md R47: the addresses wrap modulo 2^32). -/
theorem addr_add_inj {j k : Nat} (hj : j < 2 ^ 32) (hk : k < 2 ^ 32)
    (h : (a + BitVec.ofNat 32 j).toNat = (a + BitVec.ofNat 32 k).toNat) : j = k := by
  have h' := congrArg BitVec.toNat ((BitVec.add_right_inj a).mp (BitVec.eq_of_toNat_eq h))
  rwa [BitVec.toNat_ofNat, BitVec.toNat_ofNat, Nat.mod_eq_of_lt hj, Nat.mod_eq_of_lt hk] at h'

/-- Bit k of byte j of a buffer. -/
theorem bufBit_byte {j k : Nat} (hk : k < 8) :
    bufBit m a (8 * j + k) = (m.read (a + BitVec.ofNat 32 j).toNat).getLsbD (7 - k) := by
  rw [bufBit, getBit, bitPos, show (8 * j + k) / 8 = j by omega, show (8 * j + k) % 8 = k by omega]

/-- The bits of a buffer after a write of its byte j. -/
theorem bufBit_write (hm : m.wf = true) {j k : Nat} (hj : j < 2 ^ 32) (hk : k / 8 < 2 ^ 32) (v : Byte) :
    bufBit (m.write (a + BitVec.ofNat 32 j).toNat v) a k = if k / 8 = j then getBit v k else bufBit m a k := by
  by_cases h : k / 8 = j
  · rw [bufBit, Memory.read_write hm, if_pos (by rw [h]), if_pos h]
  · rw [bufBit, Memory.read_write_ne m v (mt (addr_add_inj hk hj) h), if_neg h, bufBit]

theorem getBit_setBit (v : Byte) (i k : Nat) (b : Bool) :
    getBit (setBit v i b) k = if k % 8 = i % 8 then b else getBit v k := by
  have hone : ∀ x < 8, ∀ y < 8, (1#8 <<< (7 - x)).getLsbD (7 - y) = decide (y = x) := by decide
  have hmask : (1#8 <<< bitPos i).getLsbD (bitPos k) = decide (k % 8 = i % 8) :=
    hone _ (Nat.mod_lt i (by decide)) _ (Nat.mod_lt k (by decide))
  have hk : bitPos k < 8 := by rw [bitPos]; omega
  cases b with
  | false =>
    rw [setBit, if_neg Bool.false_ne_true, getBit, BitVec.getLsbD_and, BitVec.getLsbD_not, hmask]
    by_cases h : k % 8 = i % 8 <;> simp [h, hk, getBit]
  | true =>
    rw [setBit, if_pos rfl, getBit, BitVec.getLsbD_or, hmask]
    by_cases h : k % 8 = i % 8 <;> simp [h, getBit]

theorem getBit_keepTop (v : Byte) {n : Nat} (hn : n % 8 ≠ 0) (k : Nat) :
    getBit (keepTop v n) k = (decide (k % 8 < n % 8) && getBit v k) := by
  have hmasks : ∀ r < 8, r ≠ 0 → ∀ q < 8, (~~~((1#8 <<< (8 - r)) - 1#8)).getLsbD (7 - q) = decide (q < r) := by
    decide
  have hmask := hmasks (n % 8) (Nat.mod_lt _ (by decide)) hn (k % 8) (Nat.mod_lt _ (by decide))
  rw [getBit, keepTop, BitVec.getLsbD_and, bitPos, hmask, Bool.and_comm]
  rfl

theorem captureInBuf_wf (hm : m.wf = true) (dst : Option Word) (i : Nat) (w : Word) :
    (captureInBuf p dst i m w).wf = true := by
  cases dst with
  | none => exact hm
  | some a => exact Memory.wf_write hm (BitVec.isLt _)

theorem captureAllInBuf_wf (hm : m.wf = true) (dst : Option Word) (i : Nat) :
    (captureAllInBuf p dst i m ws).wf = true := by
  induction ws generalizing i m with
  | nil => exact hm
  | cons w ws ih => exact ih (captureInBuf_wf hm dst i w) (i + 1)

/-- A captured bit is the SO bit of its answer, and no other bit of the buffer changes. -/
theorem bufBit_captureInBuf (hm : m.wf = true) {i k : Nat} (hi : i / 8 < 2 ^ 32) (hk : k / 8 < 2 ^ 32) (w : Word) :
    bufBit (captureInBuf p (some a) i m w) a k = if k = i then soBit p w else bufBit m a k := by
  rw [captureInBuf, bufBit_write hm hi hk, getBit_setBit]
  by_cases hbyte : k / 8 = i / 8
  · by_cases hbit : k % 8 = i % 8
    · rw [if_pos hbyte, if_pos hbit, if_pos (by omega)]
    · rw [if_pos hbyte, if_neg hbit, if_neg (by omega), bufBit, hbyte]
  · rw [if_neg hbyte, if_neg (by omega)]

/-- The captured bits are the SO bits of their answers, and no other bit of the buffer changes. -/
theorem bufBit_captureAllInBuf (hm : m.wf = true) {i k : Nat} (hi : (i + ws.length) / 8 < 2 ^ 32) (hk : k / 8 < 2 ^ 32) :
    bufBit (captureAllInBuf p (some a) i m ws) a k =
      if i ≤ k ∧ k < i + ws.length then soBit p (ws.getD (k - i) 0#32) else bufBit m a k := by
  induction ws generalizing i m with
  | nil => rw [if_neg (by simp)]; rfl
  | cons w ws ih =>
    rw [List.length_cons] at hi ⊢
    rw [captureAllInBuf, ih (captureInBuf_wf hm _ i w) (by omega), bufBit_captureInBuf hm (by omega) hk]
    obtain hlt | rfl | hgt := Nat.lt_trichotomy k i
    · rw [if_neg (by omega), if_neg (by omega), if_neg (by omega)]
    · rw [if_neg (by omega), if_pos rfl, if_pos (by omega), Nat.sub_self, List.getD_cons_zero]
    · rw [if_neg (Nat.ne_of_gt hgt), show k - i = k - (i + 1) + 1 by omega, List.getD_cons_succ]
      exact if_congr (by omega) rfl rfl

/-- The bits of the bytes of a transfer of n bits after the trailing-bit clear: those from bit n on are 0. -/
theorem bufBit_clearTrailingInBuf (hm : m.wf = true) {n k : Nat} (hn : n / 8 < 2 ^ 32) (hk : k / 8 < (n + 7) / 8) :
    bufBit (clearTrailingInBuf n (some a) m) a k = (decide (k < n) && bufBit m a k) := by
  by_cases h0 : n % 8 = 0
  · rw [clearTrailingInBuf, if_neg (not_not.mpr h0), decide_eq_true (show k < n by omega), Bool.true_and]
  · rw [clearTrailingInBuf, if_pos h0, bufBit_write hm hn (by omega), getBit_keepTop _ h0]
    by_cases hbyte : k / 8 = n / 8
    · rw [if_pos hbyte, bufBit, hbyte, decide_eq_decide.mpr (show k % 8 < n % 8 ↔ k < n by omega)]
    · rw [if_neg hbyte, decide_eq_true (show k < n by omega), Bool.true_and]

/-- The captures of a transfer touch the bytes of its destination only. -/
theorem read_captureAllInBuf {x : Word} {i : Nat} (hx : ∀ j, j < (i + ws.length + 7) / 8 → x ≠ a + BitVec.ofNat 32 j) :
    (captureAllInBuf p (some a) i m ws).read x.toNat = m.read x.toNat := by
  induction ws generalizing i m with
  | nil => rfl
  | cons w ws ih =>
    rw [List.length_cons] at hx
    rw [captureAllInBuf, ih fun j hj => hx j (by omega)]
    exact Memory.read_write_ne _ _ (mt BitVec.eq_of_toNat_eq (hx (i / 8) (by omega)))

theorem read_clearTrailingInBuf {x : Word} {n : Nat} (hx : ∀ j, j < (n + 7) / 8 → x ≠ a + BitVec.ofNat 32 j) :
    (clearTrailingInBuf n (some a) m).read x.toNat = m.read x.toNat := by
  by_cases h0 : n % 8 = 0
  · rw [clearTrailingInBuf, if_neg (not_not.mpr h0)]
  · rw [clearTrailingInBuf, if_pos h0]
    exact Memory.read_write_ne _ _ (mt BitVec.eq_of_toNat_eq (hx (n / 8) (by omega)))

end

/-! ### The bits shifted out -/

/-- Where no capture changes a source bit that is still to be shifted, the bits shifted out are those of the source as it
stood before. -/
theorem exchangeBits_eq_map {p : Params} {src dst : Option Word} {n : Nat}
    (hkeep : ∀ (m : Memory) (i k : Nat) (w : Word), m.wf = true → i < k → k < n →
      sourceBufBit src k (captureInBuf p dst i m w) = sourceBufBit src k m) {ws : List Word} {i : Nat} {m : Memory}
    (hm : m.wf = true) (hn : i + ws.length = n) :
    exchangeBits p src dst i m ws = (List.range' i ws.length).map (sourceBufBit src · m) := by
  induction ws generalizing i m with
  | nil => rfl
  | cons w ws ih =>
    rw [List.length_cons] at hn
    rw [exchangeBits_cons, ih (captureInBuf_wf hm dst i w) (by omega), List.length_cons, List.range'_succ, List.map_cons]
    refine congrArg _ (List.map_congr_left fun k hk => hkeep m i k w hm ?_ ?_) <;>
      rw [List.mem_range'_1] at hk <;> omega

/-- The captures of a TRANSFER change no source bit that is still to be shifted, unless source and destination partly
overlap. -/
theorem sourceBufBit_captureInBuf {p : Params} {sf df : Bool} {l : Latch}
    (h : df = false ∨ sf = false ∨ l.srca = l.dsta ∨
      ∀ j k, j < (l.len.toNat + 7) / 8 → k < (l.len.toNat + 7) / 8 →
        l.srca + BitVec.ofNat 32 j ≠ l.dsta + BitVec.ofNat 32 k)
    {m : Memory} {i k : Nat} {w : Word} (hm : m.wf = true) (hik : i < k) (hk : k < l.len.toNat) :
    sourceBufBit (if sf then some l.srca else none) k (captureInBuf p (if df then some l.dsta else none) i m w) =
      sourceBufBit (if sf then some l.srca else none) k m := by
  cases df with
  | false => rfl
  | true =>
    cases sf with
    | false => rfl
    | true =>
      have hlt := l.len.isLt
      obtain h | h | h | h := h
      · cases h
      · cases h
      · simp only [if_true, h]
        exact (bufBit_captureInBuf hm (by omega) (by omega) w).trans (if_neg (Nat.ne_of_gt hik))
      · exact congrArg (getBit · k)
          (Memory.read_write_ne _ _ (mt BitVec.eq_of_toNat_eq (h (k / 8) (i / 8) (by omega) (by omega))))

/-! ### The statements -/

/-- Settles O23: the trace from the run of the bits; the bits shifted out from what the captures leave alone. -/
theorem transferShiftsOut : Obligations.TransferShiftsOut := by
  rintro s c sf df seed ws out hs hsound hr hlen hc rfl
  refine ⟨?_, fun hsep => ?_⟩
  · obtain ⟨h, hends, htrace, hport⟩ := transfer_completes sf df hs hr hlen hc (transferArgs_eq_bufArgs ..)
    have hmem := congrArg Hw.mem hport
    refine ⟨h, hends, htrace, ?_, ?_⟩
    · rw [hmem]
      exact hport
    · rintro rfl
      exact hmem.trans (captureAllInBuf_none ..)
  · rw [exchangeBits_eq_map (fun m i k w => sourceBufBit_captureInBuf hsep) hsound.mem ((Nat.zero_add _).trans hlen), hlen,
      ← List.range_eq_range']
    cases sf with
    | false => exact (List.map_const' ..).trans (congrArg (List.replicate · false) List.length_range)
    | true => rfl

/-- Settles O24: bit by bit, the captures and then the trailing-bit clear. -/
theorem transferCaptures : Obligations.TransferCaptures := by
  intro s c sf seed ws hs hsound hr hlen hc
  have hlt := s.hw.latch.len.isLt
  obtain ⟨h, hends, -, hport⟩ := transfer_completes sf true hs hr hlen hc (dst := some s.hw.latch.dsta)
    (transferArgs_eq_bufArgs ..)
  have hmem := congrArg Hw.mem hport
  rw [← hlen] at hlt ⊢
  refine ⟨h, hends, fun j k hj hk => ?_, fun x hx => ?_⟩
  · rw [← bufBit_byte hk, hmem, bufBit_clearTrailingInBuf (captureAllInBuf_wf hsound.mem _ _) (by omega) (by omega),
      bufBit_captureAllInBuf hsound.mem (by omega) (by omega)]
    by_cases hbit : 8 * j + k < ws.length
    · rw [if_pos ⟨Nat.zero_le _, by omega⟩]
      rfl
    · rw [decide_eq_false hbit, Bool.false_and, Bool.false_and]
  · rw [hmem, read_clearTrailingInBuf hx]
    exact read_captureAllInBuf (by rwa [Nat.zero_add])

/-- Settles O25: the same captures, cut off before bit i, and no trailing-bit clear. -/
theorem cancelledTransferStops : Obligations.CancelledTransferStops := by
  rintro s sf df seed ws i later hs hsound hr rfl hi hc
  have hlt := s.hw.latch.len.isLt
  obtain ⟨h, hends, hseen, htrace, hmem⟩ := transfer_cancels sf df hs hr hi hc (transferArgs_eq_bufArgs ..)
  refine ⟨h, hends, hseen, htrace, ?_, ?_⟩
  · rintro rfl
    exact hmem.trans (captureAllInBuf_none ..)
  · rintro rfl
    simp only [if_true] at hmem
    refine ⟨fun j k hj hk => ?_, fun x hx => ?_⟩
    · rw [← bufBit_byte hk, ← bufBit_byte hk, hmem, bufBit_captureAllInBuf hsound.mem (by omega) (by omega)]
      exact if_congr (by omega) rfl rfl
    · rw [hmem]
      exact read_captureAllInBuf fun j hj => hx j (by omega)

end Sys2Proof.Machine
end

section
/-! PROOFS. The arbiter commands (41_arbiter.md R67 to R69): what the straight-line pseudocode of Acquire, Release and Standby
(Machine/Pseudocode.lean) leaves where a FLASH is attached, written out in full, and so their commands' whole runs. -/

namespace Sys2Proof.Machine

/-! ### Acquire -/

/-- The state after Acquire's REQ write and polls, with the answers `a` read and `rest` still to come (41_arbiter.md R67). -/
def Hw.afterHandshake (s : Hw) (a : AcquireAnswers) (rest : List Word) : Hw :=
  { s with
    ls := a.last
    ctrl := a.last
    reads := rest
    draws := s.draws + 1 + (a.polls.length + 1)
    trace := s.trace ++ handshakeEvents s a }

/-- The bounded poll from its first read on: it goes through the polls that do not see GNT and stops at the last, which sees
it or is out of attempts (41_arbiter.md R67). -/
theorem runPoll_regRead {polls rest : List Word} {last : Word} {n : Nat} {s : Hw} (hr : s.reads = polls ++ last :: rest)
    (hpolls : ∀ v ∈ polls, v.getLsbD s.params.bitGnt.val = false) (hn : polls.length ≤ n)
    (hstop : last.getLsbD s.params.bitGnt.val = true ∨ polls.length = n) :
    runPoll n s.regRead =
      { s with
        ls := last
        ctrl := last
        reads := rest
        draws := s.draws + (polls.length + 1)
        trace := s.trace ++ ((polls.flatMap fun v => [.rd v, .dl s.params.grantPollUs]) ++ [.rd last]) } := by
  induction polls generalizing n s with
  | nil =>
    obtain rfl := Hw.readAnswer_cons hr
    obtain rfl : s.reads.tail = rest := congrArg List.tail hr
    cases n with
    | zero => rfl
    | succ n =>
      have hgnt := hstop.resolve_right nofun
      exact if_pos hgnt
  | cons v polls ih =>
    obtain rfl := Hw.readAnswer_cons hr
    obtain ⟨hgnt, hpolls⟩ := List.forall_mem_cons.mp hpolls
    cases n with
    | zero => cases hn
    | succ n =>
      have hnext : runPoll (n + 1) s.regRead = runPoll n (s.regRead.delay s.params.grantPollUs).regRead :=
        if_neg (Bool.eq_false_iff.mp hgnt)
      rw [hnext, ih (s := s.regRead.delay s.params.grantPollUs) (congrArg List.tail hr) hpolls (Nat.le_of_succ_le_succ hn)
        (hstop.imp_right Nat.succ.inj)]
      simp only [Hw.regRead, Hw.delay, Hw.emit, List.length_cons, List.flatMap_cons, List.append_assoc, List.cons_append,
        List.nil_append, Nat.add_assoc, Nat.add_comm 1]

theorem runAcquire_of_absent {s : Hw} (hp : s.latch.present = false) : runAcquire s = (s, .ok) :=
  if_neg (Bool.eq_false_iff.mp hp)

/-- Acquire up to its last poll, granted or out of attempts (41_arbiter.md R67). -/
theorem runAcquire_eq_runGrant {s : Hw} {a : AcquireAnswers} {rest : List Word} (hp : s.latch.present = true)
    (hr : s.reads = a.words true ++ rest) (hpolls : ∀ v ∈ a.polls, v.getLsbD s.params.bitGnt.val = false)
    (hn : a.polls.length ≤ s.params.grantAttempts)
    (hstop : a.last.getLsbD s.params.bitGnt.val = true ∨ a.polls.length = s.params.grantAttempts) :
    runAcquire s = runGrant (s.afterHandshake a rest) := by
  have hreads : s.reads = a.seed :: (a.polls ++ a.last :: rest) := by
    rw [hr, AcquireAnswers.words, if_pos rfl, List.cons_append, List.append_assoc, List.singleton_append]
  have hseed : s.readAnswer = a.seed := Hw.readAnswer_cons hreads
  rw [runAcquire, if_pos hp, runPoll_regRead (s := (s.regRead.setLs (bitMask s.params.bitReq)).regWrite)
    (congrArg List.tail hreads) hpolls hn hstop]
  simp only [Hw.afterHandshake, handshakeEvents, Hw.regWrite, Hw.setLs, Hw.regRead, hseed, List.append_assoc,
    List.cons_append, List.nil_append]

/-- ACQUIRE ends as its straight-line pseudocode does. -/
theorem acquire_ends {s : State} {h : Hw} {r : SubOutcome} (hs : s.Accepted) (hr : runAcquire s.hw = (h, r)) :
    CommandEnds .acquire s h r.okOrTimeout := by
  have hends := stepAcquire_ends s.hw
  rw [hr] at hends
  exact commandEnds_of_ends (wrap := .acquire) (k := endAcquire) (fun _ => nofun) (fun _ _ ht => blockStep_of_seq ht rfl) hs
    rfl hends (reaches_finish s hs.quiet.turns h _)

/-- Settles O20: the polls come to the last one, and GNT there says which of the two endings follows. -/
theorem acquireFollowsItsRule : Obligations.AcquireFollowsItsRule := by
  refine ⟨fun s hs hp => acquire_ends hs (runAcquire_of_absent hp), ?_, ?_⟩
  · rintro s a hs hp ⟨hn, hpolls, hgnt⟩ ⟨rest, hr⟩
    have hrun := (runAcquire_eq_runGrant hp hr hpolls hn (.inl hgnt)).trans (if_pos hgnt)
    refine ⟨_, acquire_ends hs hrun, rfl, ?_⟩
    rw [acquireEvents, if_pos hp, ← List.append_assoc]
    exact List.append_assoc ..
  · rintro s a hs hp ⟨hn, hpolls, hgnt⟩ ⟨rest, hr⟩
    have hrun := (runAcquire_eq_runGrant hp hr hpolls hn.le (.inr hn)).trans (if_neg (Bool.eq_false_iff.mp hgnt))
    exact ⟨_, acquire_ends hs hrun, rfl, List.append_assoc ..⟩

/-! ### Release -/

theorem runRelease_of_absent {s : Hw} (hp : s.latch.present = false) : runRelease s = s :=
  if_neg (Bool.eq_false_iff.mp hp)

theorem runRelease_of_present {s : Hw} (hp : s.latch.present = true) :
    runRelease s =
      { s with
        ls := deselected s.params s.readAnswer &&& ~~~bitMask s.params.bitReq
        ctrl := deselected s.params s.readAnswer &&& ~~~bitMask s.params.bitReq
        reads := s.reads.tail
        draws := s.draws + 1
        trace := s.trace ++ releaseEvents s.params s.latch.du.toNat s.readAnswer } := by
  simp only [runRelease, if_pos hp, deselectLs, deselected, Hw.clearLs, Hw.setLs, Hw.regWrite, Hw.delayUnit, Hw.delay,
    Hw.emit, Hw.regRead, releaseEvents, List.append_assoc, List.cons_append, List.nil_append]

/-- RELEASE ends as its straight-line pseudocode does. -/
theorem release_ends {s : State} (hs : s.Accepted) : CommandEnds .release s (runRelease s.hw) .ok :=
  commandEnds_of_ends (wrap := .release) (k := endRelease) (fun _ => nofun) (fun _ _ ht => blockStep_of_seq ht rfl) hs
    rfl (stepRelease_ends s.hw) (reaches_finish s hs.quiet.turns _ _)

/-- Settles O21: the state that Release leaves is written out from its one read. -/
theorem releaseFollowsItsRule : Obligations.ReleaseFollowsItsRule := by
  refine ⟨fun s hs hp => ?_, fun s hs hp => ?_⟩
  · have hends := release_ends hs
    rwa [runRelease_of_absent hp] at hends
  · have hends := release_ends hs
    rw [runRelease_of_present hp] at hends
    exact ⟨_, hends, rfl, _, _, rfl, rfl, rfl⟩

/-! ### Standby -/

theorem runStandby_of_absent {s : Hw} (hp : s.latch.present = false) : runStandby s = s :=
  if_neg (Bool.eq_false_iff.mp hp)

theorem runStandby_of_present {s : Hw} (hp : s.latch.present = true) :
    runStandby s =
      { s with
        ls := (s.readAnswer ||| bitMask s.params.bitCen) &&& ~~~bitMask s.params.bitCen
        ctrl := (s.readAnswer ||| bitMask s.params.bitCen) &&& ~~~bitMask s.params.bitCen
        reads := s.reads.tail
        draws := s.draws + 1
        trace := s.trace ++ standbyEvents s.params s.latch.du.toNat s.readAnswer } := by
  simp only [runStandby, if_pos hp, runDrive_eq, Hw.clearLs, Hw.setLs, Hw.regRead, standbyEvents, List.append_assoc,
    List.cons_append, List.nil_append]

/-- STANDBY ends as its straight-line pseudocode does. -/
theorem standby_ends {s : State} (hs : s.Accepted) : CommandEnds .standby s (runStandby s.hw) .ok :=
  commandEnds_of_ends (wrap := .standby) (k := endStandby) (fun _ => nofun) (fun _ _ ht => blockStep_of_seq ht rfl) hs
    rfl (stepStandby_ends s.hw) (reaches_finish s hs.quiet.turns _ _)

/-- Settles O22: the state that Standby leaves is written out from its one read. -/
theorem standbyFollowsItsRule : Obligations.StandbyFollowsItsRule := by
  refine ⟨fun s hs hp => ?_, fun s hs hp => ?_⟩
  · have hends := standby_ends hs
    rwa [runStandby_of_absent hp] at hends
  · have hends := standby_ends hs
    rw [runStandby_of_present hp] at hends
    exact ⟨_, hends, rfl, _, _, rfl, rfl, rfl⟩

end Sys2Proof.Machine
end

section
/-! PROOFS. One rule for every transfer that is not cancelled (40_bitclock_transfer.md R65), whatever memory its buffers lie in:
what it does to the port's side is written out in full, and what it does to the memories is a loop invariant over its bits.
After it the two invariants that the FLASH commands need: a transfer that only sends, and one that fills whole bytes. -/

namespace Sys2Proof.Machine

/-! ### What a run does to the port's side -/

/-- From s to t the block reads the answers ws, samples the cancellation input n times where c = 1, each time 0, and its port
events are ev; of all else only the memories BUF, SCR and OPB may differ. -/
structure Hw.Moves (c : Bool) (s t : Hw) (ws : List Word) (n : Nat) (ev : List Event) : Prop where
  port : Hw.OnlyPort { s with mem := t.mem, scr := t.scr } t
  reads : s.reads = ws ++ t.reads
  cancels : c = true → s.cancels = List.replicate n false ++ t.cancels
  trace : t.trace = s.trace ++ ev

/-- The same, with BUF and SCR unchanged too. -/
structure Hw.Sends (c : Bool) (s t : Hw) (ws : List Word) (n : Nat) (ev : List Event) : Prop
    extends Hw.Moves c s t ws n ev where
  mem : t.mem = s.mem
  scr : t.scr = s.scr

/-- The two states agree on the parameters and on BUF, OPB and SCR. -/
structure Hw.SameData (s t : Hw) : Prop where
  params : t.params = s.params
  mem : t.mem = s.mem
  opb : t.opb = s.opb
  scr : t.scr = s.scr

section

variable {c : Bool} {s t u : Hw} {ws ws' : List Word} {m n : Nat} {ev ev' : List Event}

theorem Hw.Answers.left (h : s.Answers (ws ++ ws')) : s.Answers ws := by
  obtain ⟨rest, h⟩ := h
  exact ⟨ws' ++ rest, h.trans (List.append_assoc ..)⟩

theorem Hw.Uncancelled.left (h : s.Uncancelled c (n + m)) : s.Uncancelled c n := fun hc => by
  obtain ⟨rest, h⟩ := h hc
  exact ⟨List.replicate m false ++ rest, by rw [h, List.replicate_add, List.append_assoc]⟩

theorem Hw.OnlyPort.params (h : s.OnlyPort t) : t.params = s.params := by
  have hparams := congrArg Hw.params h
  exact hparams

theorem Hw.OnlyPort.latch (h : s.OnlyPort t) : t.latch = s.latch := by
  have hlatch := congrArg Hw.latch h
  exact hlatch

theorem Hw.Moves.params (h : s.Moves c t ws n ev) : t.params = s.params := h.port.params

theorem Hw.Moves.latch (h : s.Moves c t ws n ev) : t.latch = s.latch := h.port.latch

theorem Hw.Moves.answers (h : s.Moves c t ws n ev) (ha : s.Answers (ws ++ ws')) : t.Answers ws' := by
  obtain ⟨rest, ha⟩ := ha
  exact ⟨rest, List.append_cancel_left (h.reads.symm.trans (ha.trans (List.append_assoc ..)))⟩

theorem Hw.Moves.uncancelled (h : s.Moves c t ws n ev) (hc : s.Uncancelled c (n + m)) : t.Uncancelled c m := fun h1 => by
  obtain ⟨rest, hc⟩ := hc h1
  rw [List.replicate_add, List.append_assoc] at hc
  exact ⟨rest, List.append_cancel_left ((h.cancels h1).symm.trans hc)⟩

theorem Hw.Moves.trans (h : s.Moves c t ws m ev) (h' : t.Moves c u ws' n ev') :
    s.Moves c u (ws ++ ws') (m + n) (ev ++ ev') where
  port := by
    have hst := congrArg (fun x : Hw =>
      { x with
        ls := u.ls, ctrl := u.ctrl, opb := u.opb, mem := u.mem, scr := u.scr, reads := u.reads, cancels := u.cancels
        draws := u.draws, trace := u.trace }) h.port
    exact h'.port.trans hst
  reads := by rw [h.reads, h'.reads, List.append_assoc]
  cancels hc := by rw [h.cancels hc, h'.cancels hc, List.replicate_add, List.append_assoc]
  trace := by rw [h'.trace, h.trace, List.append_assoc]

theorem Hw.Sends.trans (h : s.Sends c t ws m ev) (h' : t.Sends c u ws' n ev') :
    s.Sends c u (ws ++ ws') (m + n) (ev ++ ev') :=
  ⟨h.toMoves.trans h'.toMoves, h'.mem.trans h.mem, h'.scr.trans h.scr⟩

theorem Hw.Sends.onlyPort (h : s.Sends c t ws n ev) : s.OnlyPort t := by
  have hport := h.port
  rwa [h.mem, h.scr] at hport

/-- A RegRead takes one answer (00_scope.md R5). -/
theorem regRead_moves {w : Word} (ha : s.Answers [w]) : s.Moves c s.regRead [w] 0 [.rd w] := by
  obtain ⟨rest, hr⟩ := ha
  obtain rfl := Hw.readAnswer_cons hr
  exact ⟨rfl, by rw [Hw.regRead_reads, hr]; rfl, fun _ => rfl, rfl⟩

/-! ### The bits of a transfer -/

/-- The state after step 1 of a bit: the cancellation input is sampled where c = 1 (40_bitclock_transfer.md R65). -/
def Hw.sampled (s : Hw) (c : Bool) : Hw := if c then s.cancelPending else s

theorem Hw.sampled_sameData (s : Hw) (c : Bool) : s.SameData (s.sampled c) := by
  cases c <;> exact ⟨rfl, rfl, rfl, rfl⟩

@[simp] theorem Hw.sampled_ls (s : Hw) (c : Bool) : (s.sampled c).ls = s.ls := by
  cases c <;> rfl

theorem Hw.cancelAnswer_of_uncancelled (hc : s.Uncancelled true (n + 1)) : s.cancelAnswer = false :=
  (hc rfl).elim fun _ h => Hw.cancelAnswer_cons h

theorem sampled_moves (hc : s.Uncancelled c (n + 1)) :
    s.Moves c (s.sampled c) [] 1 (if c then [.cp false] else []) := by
  cases c with
  | false => exact ⟨rfl, rfl, nofun, (List.append_nil _).symm⟩
  | true =>
    refine ⟨rfl, rfl, fun _ => ?_, ?_⟩
    · obtain ⟨rest, h⟩ := hc rfl
      show s.cancels = false :: s.cancels.tail
      rw [h]
      rfl
    · show s.trace ++ [.cp s.cancelAnswer] = _
      rw [Hw.cancelAnswer_of_uncancelled hc]
      rfl

/-- A bit that is not cancelled: its sample, its steps 2 to 5, and the bits left. -/
theorem runBits_succ {a : XferArgs} {left : Nat} (hc : s.Uncancelled a.c (left + 1)) :
    runBits a (left + 1) s = (runBit a (a.n - (left + 1)) (s.sampled a.c)).bind (runBits a left) := by
  rw [runBits, Hw.sampled]
  cases h : a.c with
  | false => rfl
  | true =>
    rw [h] at hc
    simp only [Hw.cancelAnswer_of_uncancelled hc, Bool.false_eq_true, if_true, if_false]

/-- Steps 2 to 4 of a bit: data setup, rising edge and sample (40_bitclock_transfer.md R65). -/
theorem sampleBit_eq {w : Word} {rest : List Word} (b : Bool) (hr : s.reads = w :: rest) :
    (runRaise (runDrive (putSi b s))).regRead =
      { s with
        ls := w
        ctrl := w
        reads := rest
        draws := s.draws + 1
        trace :=
          s.trace ++
            [.wr (withSi s.params b s.ls), .fl, .dl s.latch.du.toNat, .wr (withSi s.params b s.ls ||| bitMask s.params.bitSk),
             .fl, .dl s.latch.du.toNat, .rd w] } := by
  simp only [putSi_eq, runRaise, runDrive_eq, Hw.setLs, Hw.regRead, Hw.readAnswer, hr, List.tail_cons, List.append_assoc,
    List.cons_append, List.nil_append]

/-- The capture of a bit changes memories only. -/
theorem captureBit_data {a : XferArgs} {i : Nat} (h : captureBit a i s = some t) :
    ∃ mem opb scr, t = { s with mem := mem, opb := opb, scr := scr } := by
  rw [captureBit] at h
  split at h
  · obtain ⟨v, -, h⟩ := Option.bind_eq_some_iff.mp h
    obtain ⟨-, rfl⟩ | ⟨-, -, rfl⟩ | ⟨-, o, -, rfl⟩ := memWrite_cases h <;> exact ⟨_, _, _, rfl⟩
  · obtain rfl := Option.some.inj h
    exact ⟨_, _, _, rfl⟩

end

/-- A loop invariant of a transfer, on the parameters and the memories: where I holds before bit i, the bit shifted out is
`out i`, and I holds after the capture of the answer `ans i`. -/
structure XferArgs.Invariant (a : XferArgs) (out : Nat → Bool) (ans : Nat → Word) (I : Nat → Hw → Prop) : Prop where
  congr : ∀ {i s t}, I i s → s.SameData t → I i t
  source : ∀ {i s}, i < a.n → I i s → sourceBit a i s = some (out i)
  capture : ∀ {i s}, i < a.n → I i s → s.ls = ans i → ∃ t, captureBit a i s = some t ∧ I (i + 1) t

section

variable {a : XferArgs} {out : Nat → Bool} {ans : Nat → Word} {I : Nat → Hw → Prop}

/-- Steps 2 to 5 of bit i (40_bitclock_transfer.md R65). -/
theorem runBit_moves (hinv : a.Invariant out ans I) {i : Nat} {s : Hw} (hi : i < a.n) (hI : I i s)
    (ha : s.Answers [ans i]) (c : Bool) :
    ∃ t, runBit a i s = some t ∧
      s.Moves c t [ans i] 0 (bitEvents s.params s.latch.du.toNat (out i) s.ls (ans i)) ∧
      t.ls = ans i &&& ~~~bitMask s.params.bitSk ∧ I (i + 1) t := by
  obtain ⟨rest, hr⟩ := ha
  have hsampled := sampleBit_eq (out i) hr
  obtain ⟨u, hcap, hI'⟩ := hinv.capture hi (hinv.congr hI (by rw [hsampled]; exact ⟨rfl, rfl, rfl, rfl⟩))
    (congrArg Hw.ls hsampled)
  obtain ⟨mem, opb, scr, hu⟩ := captureBit_data hcap
  rw [hsampled] at hu
  refine ⟨runLower u, ?_, ?_⟩
  · rw [runBit, hinv.source hi hI, Option.bind_some, hcap, Option.map_some]
  · subst hu
    rw [runLower, runDrive_eq]
    exact ⟨⟨rfl, hr, fun _ => rfl, List.append_assoc ..⟩, rfl, hinv.congr hI' ⟨rfl, rfl, rfl, rfl⟩⟩

/-- The bits of a transfer from bit i on, none of them cancelled. -/
theorem runBits_moves (hinv : a.Invariant out ans I) (htail : a.dst = none ∨ a.n % 8 = 0) {left i : Nat} {s : Hw}
    (hn : i + left = a.n) (hI : I i s) (ha : s.Answers ((List.range' i left).map ans)) (hc : s.Uncancelled a.c left) :
    ∃ t, runBits a left s = some (t, .ok) ∧
      s.Moves a.c t ((List.range' i left).map ans) left
        (shiftEvents s.params s.latch.du.toNat a.c s.ls ((List.range' i left).map out) ((List.range' i left).map ans)) ∧
      I a.n t := by
  induction left generalizing i s with
  | zero =>
    have hrun : runTail a s = some s := by
      rw [runTail]
      split
      · next r hr => exact if_neg (not_not.mpr (htail.resolve_left (by rw [hr]; nofun)))
      · rfl
    refine ⟨s, by rw [runBits, hrun]; rfl, ⟨rfl, rfl, fun _ => rfl, (List.append_nil _).symm⟩, ?_⟩
    rwa [← hn]
  | succ left ih =>
    rw [List.range'_succ, List.map_cons, List.map_cons] at *
    have hsample := sampled_moves hc
    have hdata := s.sampled_sameData a.c
    obtain ⟨t, hbit, hmoves, hls, hI'⟩ := runBit_moves hinv (show i < a.n by omega) (hinv.congr hI hdata)
      (Hw.Answers.left (ws' := (List.range' (i + 1) left).map ans) (hsample.answers ha)) a.c
    have hone := hsample.trans hmoves
    obtain ⟨u, hrun, hrest, hend⟩ := ih (by omega) hI' (hone.answers ha) (hone.uncancelled (by rwa [Nat.add_comm] at hc))
    refine ⟨u, ?_, ?_, hend⟩
    · rw [runBits_succ hc, show a.n - (left + 1) = i by omega, hbit, Option.bind_some, hrun]
    · have hall := hone.trans hrest
      rw [hone.params, hone.latch, hls, hsample.params, hsample.latch, Hw.sampled_ls] at hall
      rwa [shiftEvents, Nat.add_comm left]

/-- Xfer, not cancelled, from its seeding read on. -/
theorem runXfer_moves (hinv : a.Invariant out ans I) (htail : a.dst = none ∨ a.n % 8 = 0) {s : Hw} {seed : Word}
    (hI : I 0 s) (ha : s.Answers (seed :: (List.range a.n).map ans)) (hc : s.Uncancelled a.c a.n) :
    ∃ t, runXfer a s = some (t, .ok) ∧
      s.Moves a.c t (seed :: (List.range a.n).map ans) a.n
        (xferEvents s.params s.latch.du.toNat a.c seed ((List.range a.n).map out) ((List.range a.n).map ans)) ∧
      I a.n t := by
  have hseed := regRead_moves (c := a.c) (Hw.Answers.left (ws := [seed]) ha)
  have hls : s.regRead.ls = seed := ha.elim fun _ h => Hw.readAnswer_cons h
  rw [List.range_eq_range'] at ha ⊢
  obtain ⟨t, hrun, hmoves, hend⟩ := runBits_moves hinv htail (Nat.zero_add a.n)
    (hinv.congr hI (t := s.regRead) ⟨rfl, rfl, rfl, rfl⟩) (hseed.answers ha) hc
  have hall := hseed.trans hmoves
  rw [hls, Nat.zero_add] at hall
  exact ⟨t, hrun, hall, hend⟩

end

/-! ### A transfer that only sends -/

theorem Hw.SameData.trans {s t u : Hw} (h : s.SameData t) (h' : t.SameData u) : s.SameData u :=
  ⟨h'.params.trans h.params, h'.mem.trans h.mem, h'.opb.trans h.opb, h'.scr.trans h.scr⟩

theorem Hw.SameData.memRead {s t : Hw} (h : s.SameData t) (r : Ref) : t.memRead r = s.memRead r := by
  simp only [Hw.memRead, h.mem, h.opb, h.scr]

theorem Hw.SameData.sourceBit {s t : Hw} (h : s.SameData t) (a : XferArgs) (i : Nat) :
    sourceBit a i t = sourceBit a i s := by
  simp only [Machine.sourceBit, h.memRead]

theorem map_getD_range {α : Type} (l : List α) (d : α) : (List.range l.length).map (l.getD · d) = l := by
  refine List.ext_getElem (by simp) fun i h h' => ?_
  rw [List.getElem_map, List.getElem_range, List.getD_eq_getElem _ _ h']

section

variable {a : XferArgs} {s : Hw} {out : List Bool} {seed : Word} {ws : List Word}

/-- A list of source bits is as long as the transfer. -/
theorem length_of_sourceBits (hout : (List.range a.n).map (sourceBit a · s) = out.map some) : out.length = a.n := by
  simpa using (congrArg List.length hout).symm

theorem sourceBit_of_sourceBits (hout : (List.range a.n).map (sourceBit a · s) = out.map some) {i : Nat} (hi : i < a.n) :
    sourceBit a i s = some (out.getD i false) := by
  have hbit := congrArg (·[i]?) hout
  rw [← length_of_sourceBits hout] at hi hbit
  simpa [hi] using hbit

/-- `runXfer_moves` with the bits shifted out and the answers as lists. -/
theorem runXfer_moves_of_lists {I : Nat → Hw → Prop} (hinv : a.Invariant (out.getD · false) (ws.getD · 0#32) I)
    (htail : a.dst = none ∨ a.n % 8 = 0) (hI : I 0 s) (hout : out.length = a.n) (hws : ws.length = a.n)
    (ha : s.Answers (seed :: ws)) (hc : s.Uncancelled a.c a.n) :
    ∃ t, runXfer a s = some (t, .ok) ∧
      s.Moves a.c t (seed :: ws) a.n (xferEvents s.params s.latch.du.toNat a.c seed out ws) ∧ I a.n t := by
  have houts := map_getD_range out false
  have hanswers := map_getD_range ws 0#32
  rw [hout] at houts
  rw [hws] at hanswers
  have hmoves := runXfer_moves hinv htail hI (seed := seed) (by rwa [hanswers]) hc
  rwa [houts, hanswers] at hmoves

/-- A transfer with no destination leaves the three memories as they are. -/
theorem runXfer_sends (hdst : a.dst = none) (hout : (List.range a.n).map (sourceBit a · s) = out.map some)
    (hws : ws.length = a.n) (ha : s.Answers (seed :: ws)) (hc : s.Uncancelled a.c a.n) :
    ∃ t, runXfer a s = some (t, .ok) ∧
      s.Sends a.c t (seed :: ws) a.n (xferEvents s.params s.latch.du.toNat a.c seed out ws) := by
  have hinv : a.Invariant (out.getD · false) (ws.getD · 0#32) (fun _ => s.SameData) :=
    { congr := Hw.SameData.trans
      source := fun hi h => (h.sourceBit a _).trans (sourceBit_of_sourceBits hout hi)
      capture := fun {i t} _ h _ => ⟨t, by rw [captureBit, hdst], h⟩ }
  obtain ⟨t, hrun, hmoves, hdata⟩ :=
    runXfer_moves_of_lists hinv (.inl hdst) ⟨rfl, rfl, rfl, rfl⟩ (length_of_sourceBits hout) hws ha hc
  exact ⟨t, hrun, hmoves, hdata.mem, hdata.scr⟩

end

/-! ### A transfer that fills whole bytes -/

/-- Bit k of the byte sequence at r, where its byte exists (00_scope.md R11). -/
def Hw.bitAt (s : Hw) (r : Ref) (k : Nat) : Option Bool := (s.memRead (bitByte r k)).map fun v => getBit v k

/-- From s to t the first i bits of the len bytes at r have become the SO bits of the answers ws; every other bit of these
bytes, every other byte and the other spaces are unchanged (40_bitclock_transfer.md R65). -/
structure Hw.Receives (s : Hw) (r : Ref) (len : Nat) (ws : List Word) (i : Nat) (t : Hw) : Prop where
  params : t.params = s.params
  wf : t.mem.wf = true
  bits : ∀ k, k < 8 * len → t.bitAt r k = if k < i then some (soBit s.params (ws.getD k 0#32)) else s.bitAt r k
  others : ∀ x, (∀ j, j < len → x ≠ r.add j) → t.memRead x = s.memRead x
  mem : r.space ≠ .buf → t.mem = s.mem
  scr : r.space ≠ .scr → t.scr = s.scr

theorem Opb.get_set {o o' : Opb} {v : Byte} {i : Nat} (h : o.set v i = some o') : o'.get i = some v := by
  rcases i with _ | _ | _ | _ | i <;> cases h <;> rfl

section

variable {s t u : Hw} {r : Ref} {v : Byte}

/-- A MemRead after a MemWrite of the same byte (00_scope.md R6). -/
theorem memRead_memWrite (hm : s.mem.wf = true) (h : s.memWrite r v = some t) : t.memRead r = some v := by
  obtain ⟨space, addr⟩ := r
  obtain ⟨h1, rfl⟩ | ⟨h1, hlt, rfl⟩ | ⟨h1, o, ho, rfl⟩ := memWrite_cases h <;> obtain rfl : space = _ := h1
  · exact congrArg some ((Memory.read_write hm ..).trans (if_pos rfl))
  · exact List.getElem?_set_self hlt
  · exact Opb.get_set ho

theorem Ref.add_inj {j k : Nat} (hj : j < 2 ^ 32) (hk : k < 2 ^ 32) (h : r.add j = r.add k) : j = k :=
  addr_add_inj hj hk (congrArg (fun x : Ref => x.addr.toNat) h)

/-- The bits at r after a MemWrite of its byte j. -/
theorem bitAt_memWrite (hm : s.mem.wf = true) {j k : Nat} (hj : j < 2 ^ 32) (hk : k / 8 < 2 ^ 32)
    (h : s.memWrite (r.add j) v = some t) : t.bitAt r k = if k / 8 = j then some (getBit v k) else s.bitAt r k := by
  by_cases hkj : k / 8 = j
  · rw [if_pos hkj, Hw.bitAt, bitByte, hkj, memRead_memWrite hm h, Option.map_some]
  · rw [if_neg hkj, Hw.bitAt, Hw.bitAt, bitByte, memRead_memWrite_ne h (mt (Ref.add_inj hj hk) (Ne.symm hkj))]

theorem Hw.SameData.bitAt (h : s.SameData t) (k : Nat) : t.bitAt r k = s.bitAt r k :=
  congrArg (Option.map fun v => getBit v k) (h.memRead _)

namespace Hw.Receives

variable {len i : Nat} {ws : List Word}

theorem zero (hm : s.mem.wf = true) : s.Receives r len ws 0 s :=
  ⟨rfl, hm, fun _ _ => (if_neg (Nat.not_lt_zero _)).symm, fun _ _ => rfl, fun _ => rfl, fun _ => rfl⟩

theorem congr (h : s.Receives r len ws i t) (hd : t.SameData u) : s.Receives r len ws i u where
  params := hd.params.trans h.params
  wf := by rw [hd.mem, h.wf]
  bits k hk := (hd.bitAt k).trans (h.bits k hk)
  others x hx := (hd.memRead x).trans (h.others x hx)
  mem hr := hd.mem.trans (h.mem hr)
  scr hr := hd.scr.trans (h.scr hr)

/-- A bit that has not been captured yet. -/
theorem bitAt_eq (h : s.Receives r len ws i t) (hi : i < 8 * len) : t.bitAt r i = s.bitAt r i :=
  (h.bits i hi).trans (if_neg (Nat.lt_irrefl i))

/-- The MemWrite of a captured bit. -/
theorem memWrite (h : s.Receives r len ws i t) (hlen : len ≤ 2 ^ 32) (hi : i < 8 * len)
    (hv : t.memRead (bitByte r i) = some v)
    (hu : t.memWrite (bitByte r i) (setBit v i (soBit s.params (ws.getD i 0#32))) = some u) :
    s.Receives r len ws (i + 1) u where
  params := (Hw.SameRegs.memWrite hu).params.trans h.params
  wf := memWrite_wf hu h.wf
  bits k hk := by
    rw [bitAt_memWrite h.wf (by omega) (by omega) hu, h.bits k hk, getBit_setBit]
    by_cases hbyte : k / 8 = i / 8
    · by_cases hbit : k % 8 = i % 8
      · obtain rfl : k = i := by omega
        rw [if_pos rfl, if_pos rfl, if_pos (Nat.lt_succ_self k)]
      · have hold : some (getBit v k) = t.bitAt r k := by rw [Hw.bitAt, bitByte, hbyte, ← bitByte, hv, Option.map_some]
        rw [if_pos hbyte, if_neg hbit, hold, h.bits k hk]
        exact if_congr (by omega) rfl rfl
    · rw [if_neg hbyte]
      exact if_congr (by omega) rfl rfl
  others x hx := (memRead_memWrite_ne hu (hx (i / 8) (by omega)).symm).trans (h.others x hx)
  mem hr := by
    obtain ⟨hbuf, -⟩ | ⟨-, -, rfl⟩ | ⟨-, o, -, rfl⟩ := memWrite_cases hu
    · exact (hr hbuf).elim
    · exact h.mem hr
    · exact h.mem hr
  scr hr := by
    obtain ⟨-, rfl⟩ | ⟨hscr, -⟩ | ⟨-, o, -, rfl⟩ := memWrite_cases hu
    · exact h.scr hr
    · exact (hr hscr).elim
    · exact h.scr hr

end Hw.Receives

end

/-- A transfer that fills the len bytes at r, with no source or with the same bytes as its source. -/
theorem runXfer_receives {a : XferArgs} {s : Hw} {r : Ref} {len : Nat} {out : List Bool} {seed : Word} {ws : List Word}
    (hdst : a.dst = some r) (hsrc : a.src = none ∨ a.src = some r) (hn : a.n = 8 * len) (hlen : len ≤ 2 ^ 32)
    (hm : s.mem.wf = true) (hexist : ∀ j, j < len → ∃ v, s.memRead (r.add j) = some v)
    (hout : (List.range a.n).map (sourceBit a · s) = out.map some) (hws : ws.length = a.n)
    (ha : s.Answers (seed :: ws)) (hc : s.Uncancelled a.c a.n) :
    ∃ t, runXfer a s = some (t, .ok) ∧
      s.Moves a.c t (seed :: ws) a.n (xferEvents s.params s.latch.du.toNat a.c seed out ws) ∧
      s.Receives r len ws (8 * len) t := by
  have hinv : a.Invariant (out.getD · false) (ws.getD · 0#32) (s.Receives r len ws · ·) :=
    { congr := Hw.Receives.congr
      source := fun {i t} hi h => by
        rw [← sourceBit_of_sourceBits hout hi]
        obtain hsrc | hsrc := hsrc
        · simp only [sourceBit, hsrc]
        · simp only [sourceBit, hsrc]
          exact h.bitAt_eq (hn ▸ hi)
      capture := fun {i t} hi h hls => by
        rw [hn] at hi
        obtain ⟨w, hw⟩ := hexist (i / 8) (by omega)
        have hbit : t.bitAt r i = some (getBit w i) := by
          rw [h.bitAt_eq hi, Hw.bitAt, bitByte, hw, Option.map_some]
        obtain ⟨v, hv, -⟩ := Option.map_eq_some_iff.mp hbit
        obtain ⟨u, hu⟩ := memWrite_isSome_of_memRead (w := setBit v i t.sampledBit) hv
        refine ⟨u, by simp only [captureBit, hdst, hv, Option.bind_some, hu], h.memWrite hlen hi hv ?_⟩
        rwa [Hw.sampledBit, hls, h.params] at hu }
  rw [← hn]
  exact runXfer_moves_of_lists hinv (.inr (by omega)) (.zero hm) (length_of_sourceBits hout) hws ha hc

/-! ### The received bytes -/

theorem byte_eq_of_getBit {v w : Byte} (h : ∀ k, k < 8 → getBit v k = getBit w k) : v = w := by
  refine BitVec.eq_of_getLsbD_eq fun i hi => ?_
  have hbit := h (7 - i) (by omega)
  rwa [getBit, getBit, bitPos, show 7 - (7 - i) % 8 = i by omega] at hbit

theorem getBit_foldl_setBit (f : Nat → Bool) (v : Byte) {n k : Nat} (hn : n ≤ 8) (hk : k < 8) :
    getBit ((List.range n).foldl (fun acc i => setBit acc i (f i)) v) k = if k < n then f k else getBit v k := by
  induction n with
  | zero => rfl
  | succ n ih =>
    rw [List.range_succ, List.foldl_append, List.foldl_cons, List.foldl_nil, getBit_setBit, ih (by omega)]
    by_cases hkn : k = n
    · rw [hkn, if_pos rfl, if_pos (Nat.lt_succ_self n)]
    · rw [if_neg (by omega)]
      exact if_congr (by omega) rfl rfl

theorem getBit_sampledByte (p : Params) (ws : List Word) {k : Nat} (hk : k < 8) :
    getBit (sampledByte p ws) k = soBit p (ws.getD k 0#32) := by
  rw [sampledByte, getBit_foldl_setBit _ _ (Nat.le_refl 8) hk, if_pos hk, List.getD_eq_getElem?_getD]
  cases ws[k]? with
  | none => exact BitVec.getLsbD_zero.symm
  | some w => rfl

/-- The bytes that a transfer has filled (40_bitclock_transfer.md R65). -/
theorem Hw.Receives.memRead {s t : Hw} {r : Ref} {len : Nat} {ws : List Word} (h : s.Receives r len ws (8 * len) t)
    {j : Nat} (hj : j < len) : t.memRead (r.add j) = some (sampledByte s.params (ws.drop (8 * j))) := by
  have hbits : ∀ k, k < 8 →
      (t.memRead (r.add j)).map (getBit · k) = some (soBit s.params (ws.getD (8 * j + k) 0#32)) := by
    intro k hk
    have hbit := h.bits (8 * j + k) (by omega)
    rw [if_pos (by omega), Hw.bitAt, bitByte, show (8 * j + k) / 8 = j by omega] at hbit
    rw [← hbit]
    have hpos : ∀ v : Byte, getBit v k = getBit v (8 * j + k) := fun v => by
      rw [getBit, getBit, bitPos, bitPos, show (8 * j + k) % 8 = k % 8 by omega]
    simp only [hpos]
  obtain ⟨v, hv, -⟩ := Option.map_eq_some_iff.mp (hbits 0 (by omega))
  rw [hv] at hbits ⊢
  refine congrArg some (byte_eq_of_getBit fun k hk => ?_)
  rw [getBit_sampledByte _ _ hk, List.getD_eq_getElem?_getD, List.getElem?_drop, ← List.getD_eq_getElem?_getD]
  exact Option.some.inj (hbits k hk)

end Sys2Proof.Machine
end

section
/-! PROOFS. The FLASH commands (42_flash_commands.md R71 to R77). A frame is Standby, some bytes of OPB and one transfer
(30_encoding.md R56); each procedure's straight-line pseudocode (Machine/Pseudocode.lean) is its frames, one after the other,
and each command ends as its procedure does. -/

namespace Sys2Proof.Machine

/-! ### Frames -/

section

variable {c : Bool} {s t : Hw} {ws : List Word} {n : Nat} {ev : List Event}

/-- Standby, and the bytes of OPB that the frame sends. -/
theorem runStandby_sends {v : Word} (ha : s.Answers (if s.latch.present then [v] else [])) (c : Bool) (o : Opb) :
    s.Sends c { runStandby s with opb := o } (if s.latch.present then [v] else []) 0
      (if s.latch.present then standbyEvents s.params s.latch.du.toNat v else []) := by
  cases hp : s.latch.present with
  | false =>
    rw [runStandby_of_absent hp]
    exact ⟨⟨rfl, rfl, fun _ => rfl, (List.append_nil _).symm⟩, rfl, rfl⟩
  | true =>
    rw [hp] at ha
    obtain ⟨rest, hr⟩ := ha
    obtain rfl := Hw.readAnswer_cons hr
    rw [runStandby_of_present hp]
    exact ⟨⟨rfl, by rw [hr]; rfl, fun _ => rfl, rfl⟩, rfl, rfl⟩

/-- A frame that only sends: the first n bits of OPB (30_encoding.md R56). -/
theorem runFrame_sends {out : List Bool} {f : FrameAnswers} (o : Opb)
    (hout : (List.range n).map (sourceBit (opcodeArgs n c) · { runStandby s with opb := o }) = out.map some)
    (hlen : f.bits.length = n) (ha : s.Answers (f.words s.latch.present)) (hc : s.Uncancelled c n) :
    ∃ t, runXfer (opcodeArgs n c) { runStandby s with opb := o } = some (t, .ok) ∧
      s.Sends c t (f.words s.latch.present) n (frameEvents s c out f) := by
  have hstart := runStandby_sends ha.left c o
  rw [← Nat.zero_add n] at hc
  obtain ⟨t, hrun, hsends⟩ := runXfer_sends (a := opcodeArgs n c) rfl hout hlen (hstart.answers ha) (hstart.uncancelled hc)
  have hall := hstart.trans hsends
  rw [hstart.params, hstart.latch, Nat.zero_add] at hall
  exact ⟨t, hrun, hall⟩

/-- A frame's events depend on the parameters and the latch only. -/
theorem Hw.Moves.frameEvents_eq (h : s.Moves c t ws n ev) (out : List Bool) (f : FrameAnswers) :
    frameEvents t c out f = frameEvents s c out f := by
  simp only [frameEvents, h.params, h.latch]

/-! ### The frames of EnableWrite, WriteStatus and ClearBP -/

/-- EnableWrite (42_flash_commands.md R71). -/
theorem runEnableWrite_sends {f : FrameAnswers} (hlen : f.bits.length = 8) (ha : s.Answers (f.words s.latch.present))
    (hc : s.Uncancelled c 8) :
    ∃ t, runEnableWrite c s = some (t, .ok) ∧
      s.Sends c t (f.words s.latch.present) 8 (frameEvents s c (byteBits s.params.opWren) f) :=
  runFrame_sends { (runStandby s).opb with b0 := s.params.opWren } rfl hlen ha hc

/-- The WRSR frame of WriteStatus (42_flash_commands.md R72). -/
theorem runStatusFrame_sends {st : Byte} {f : FrameAnswers} (hlen : f.bits.length = 16)
    (ha : s.Answers (f.words s.latch.present)) (hc : s.Uncancelled c 16) :
    ∃ t, runStatusFrame st c s = some (t, .ok) ∧
      s.Sends c t (f.words s.latch.present) 16 (frameEvents s c (byteBits s.params.opWrsr ++ byteBits st) f) :=
  runFrame_sends { (runStandby s).opb with b0 := s.params.opWrsr, b1 := st } rfl hlen ha hc

/-- WriteStatus (42_flash_commands.md R72). -/
theorem runWriteStatus_sends {st : Byte} {a : ClearAnswers} (hfits : a.fits) (ha : s.Answers (a.words s.latch.present))
    (hc : s.Uncancelled c 24) :
    ∃ t, runWriteStatus st c s = some (t, .ok) ∧
      s.Sends c t (a.words s.latch.present) 24 (writeStatusEvents s c st a) := by
  obtain ⟨hwren, hwrsr⟩ := hfits
  obtain ⟨t, hrun, hsends⟩ := runEnableWrite_sends hwren ha.left (Hw.Uncancelled.left (m := 16) hc)
  have ha' := hsends.answers ha
  rw [← hsends.latch] at ha'
  obtain ⟨u, hrun', hsends'⟩ := runStatusFrame_sends (st := st) hwrsr ha' (hsends.uncancelled hc)
  refine ⟨u, by rw [runWriteStatus, hrun]; exact hrun', ?_⟩
  have hall := hsends.trans hsends'
  rwa [hsends.frameEvents_eq, hsends.params, hsends.latch] at hall

/-! ### The status frame and PollReady -/

/-- The transfer of a status frame puts the second byte it samples into OPB[1] (42_flash_commands.md R73). -/
theorem runXfer_statusArgs_sends {seed : Word} (hm : s.mem.wf = true) (hws : ws.length = 16)
    (ha : s.Answers (seed :: ws)) (hc : s.Uncancelled c 16) :
    ∃ t, runXfer (statusArgs c) s = some (t, .ok) ∧ t.opb.b1 = sampledByte s.params (ws.drop 8) ∧
      s.Sends c t (seed :: ws) 16
        (xferEvents s.params s.latch.du.toNat c seed (byteBits s.opb.b0 ++ byteBits s.opb.b1) ws) := by
  have hexist : ∀ j, j < 2 → ∃ v, s.memRead (opbRef.add j) = some v := by
    intro j hj
    interval_cases j <;> exact ⟨_, rfl⟩
  obtain ⟨t, hrun, hmoves, hrecv⟩ := runXfer_receives (a := statusArgs c) (len := 2)
    (out := byteBits s.opb.b0 ++ byteBits s.opb.b1) rfl (.inr rfl) rfl (by decide) hm hexist rfl hws ha hc
  exact ⟨t, hrun, Option.some.inj (hrecv.memRead (j := 1) (by decide)), hmoves, hrecv.mem nofun, hrecv.scr nofun⟩

/-- ReadStatus: the status is the second byte sampled (42_flash_commands.md R73). -/
theorem runReadStatus_sends {f : FrameAnswers} (hm : s.mem.wf = true) (hlen : f.bits.length = 16)
    (ha : s.Answers (f.words s.latch.present)) (hc : s.Uncancelled c 16) :
    ∃ t, runReadStatus c s = some (t, .ok (f.status s.params)) ∧
      s.Sends c t (f.words s.latch.present) 16 (statusEvents s c f) := by
  have hstart := runStandby_sends ha.left c { (runStandby s).opb with b0 := s.params.opRdsr, b1 := 0x00#8 }
  obtain ⟨t, hrun, hstatus, hsends⟩ := runXfer_statusArgs_sends (by rw [hstart.mem, hm]) hlen (hstart.answers ha)
    (hstart.uncancelled (m := 16) hc)
  have hall := hstart.trans hsends
  rw [hstart.params, hstart.latch] at hall
  rw [hstart.params] at hstatus
  refine ⟨t, ?_, hall⟩
  rw [FrameAnswers.status, ← hstatus]
  exact congrArg (Option.map fun x => (x.1, statusResult x.1 x.2)) hrun

/-- PollReady's loop: one status frame per busy byte, and one more (42_flash_commands.md R76). -/
theorem runPollReady_loop_sends {ready : FrameAnswers} (hlen : ready.bits.length = 16) (busy : List FrameAnswers) {s : Hw}
    (hm : s.mem.wf = true)
    (hbusy : ∀ f ∈ busy, f.bits.length = 16 ∧ f.status s.params &&& s.params.statusBusyMask ≠ 0#8)
    (hready : ready.status s.params &&& s.params.statusBusyMask = 0#8)
    (ha : s.Answers ((busy ++ [ready]).flatMap (FrameAnswers.words s.latch.present)))
    (hc : s.Uncancelled c (16 * (busy.length + 1))) :
    ∃ t, runPollReady (busy.length + 1) c s = some (t, .ok (ready.status s.params)) ∧
      s.Sends c t ((busy ++ [ready]).flatMap (FrameAnswers.words s.latch.present)) (16 * (busy.length + 1))
        ((busy ++ [ready]).flatMap (statusEvents s c)) := by
  induction busy generalizing s with
  | nil =>
    rw [List.nil_append, List.flatMap_singleton] at ha ⊢
    rw [List.flatMap_singleton]
    obtain ⟨t, hrun, hsends⟩ := runReadStatus_sends hm hlen ha hc
    refine ⟨t, (runPollReady_succ hrun).trans (if_neg ?_), hsends⟩
    rw [statusBusy, hsends.params, hready]
    exact Bool.false_ne_true
  | cons f busy ih =>
    obtain ⟨⟨hflen, hfbusy⟩, hbusy⟩ := List.forall_mem_cons.mp hbusy
    rw [List.cons_append, List.flatMap_cons] at ha ⊢
    rw [List.length_cons, Nat.mul_add_one 16 (busy.length + 1), Nat.add_comm _ 16] at hc ⊢
    obtain ⟨t, hrun, hsends⟩ := runReadStatus_sends hm hflen ha.left hc.left
    have hcongr : statusEvents t c = statusEvents s c := by
      funext g
      rw [statusEvents, statusEvents, hsends.frameEvents_eq, hsends.params]
    have hrest := hsends.answers ha
    rw [← hsends.params] at hbusy hready
    rw [← hsends.latch] at hrest
    obtain ⟨u, hrun', hsends'⟩ := ih (by rw [hsends.mem, hm]) hbusy hready hrest (hsends.uncancelled hc)
    have hall := hsends.trans hsends'
    rw [hcongr, hsends.latch] at hall
    rw [hsends.params] at hrun'
    refine ⟨u, (runPollReady_succ hrun).trans ((if_pos ?_).trans hrun'), hall⟩
    rw [statusBusy, hsends.params]
    exact bne_iff_ne.mpr hfbusy

/-- PollReady (42_flash_commands.md R76). -/
theorem runPollReady_sends {a : PollAnswers} (hm : s.mem.wf = true) (hfits : a.fits s.params)
    (ha : s.Answers (a.words s.latch.present)) (hc : s.Uncancelled c (16 * (a.busy.length + 1))) :
    ∃ t, runPollReady (a.busy.length + 1) c s = some (t, .ok (a.ready.status s.params)) ∧
      s.Sends c t (a.words s.latch.present) (16 * (a.busy.length + 1)) (pollEvents s c a) := by
  obtain ⟨hbusy, hlen, hready⟩ := hfits
  exact runPollReady_loop_sends hlen a.busy hm hbusy hready ha hc

/-! ### Page frames -/

@[simp] theorem addrHighByte_eq (off : Half) : addrHighByte off = 0x00#8 := by
  rw [addrHighByte, wireAddress]
  ext i hi
  simp

@[simp] theorem addrMidByte_eq (off : Half) : addrMidByte off = off.extractLsb' 8 8 := by
  rw [addrMidByte, wireAddress]
  ext i hi
  simp [show 8 + i < 24 by omega]

@[simp] theorem addrLowByte_eq (off : Half) : addrLowByte off = off.extractLsb' 0 8 := by
  refine BitVec.eq_of_toNat_eq ?_
  simp [addrLowByte, wireAddress]

/-- The bits that OPB sends as a page header (30_encoding.md R57). -/
theorem sourceBits_header (s : Hw) (c : Bool) :
    (List.range 32).map (sourceBit (opcodeArgs 32 c) · s) =
      (byteBits s.opb.b0 ++ byteBits s.opb.b1 ++ byteBits s.opb.b2 ++ byteBits s.opb.b3).map some := rfl

theorem putHeader_eq (op : Byte) (off : Half) (s : Hw) :
    putHeader op off s = { s with opb := ⟨op, addrHighByte off, addrMidByte off, addrLowByte off⟩ } := rfl

/-- The header frame of a page command (42_flash_commands.md R74, R75). -/
theorem runHeader_sends {op : Byte} {off : Half} {f : FrameAnswers} (hlen : f.bits.length = 32)
    (ha : s.Answers (f.words s.latch.present)) (hc : s.Uncancelled c 32) :
    ∃ t, runXfer (opcodeArgs 32 c) (putHeader op off (runStandby s)) = some (t, .ok) ∧
      s.Sends c t (f.words s.latch.present) 32 (frameEvents s c (headerBits op off) f) := by
  rw [putHeader_eq]
  refine runFrame_sends _ ?_ hlen ha hc
  rw [sourceBits_header, addrHighByte_eq, addrMidByte_eq, addrLowByte_eq, headerBits]

/-- A page frame whose header is not cancelled goes on with its payload (42_flash_commands.md R74, R75). -/
theorem runPage_of_header {op : Byte} {off : Half} {payload : XferArgs}
    (h : runXfer (opcodeArgs 32 c) (putHeader op off (runStandby s)) = some (t, .ok)) :
    runPage op off payload c s = runXfer payload t := by
  rw [runPage, h]
  rfl

/-- States with the same BUF and SCR read the same bytes there. -/
theorem memRead_eq_of_ne_opb {r : Ref} (hmem : t.mem = s.mem) (hscr : t.scr = s.scr) (hr : r.space ≠ .opb) :
    t.memRead r = s.memRead r := by
  obtain ⟨space, addr⟩ := r
  cases space with
  | buf => simp only [Hw.memRead, hmem]
  | scr => simp only [Hw.memRead, hscr]
  | opb => exact (hr rfl).elim

/-- WritePage (42_flash_commands.md R74). -/
theorem runWritePage_sends {v : Span} {a : PageAnswers} {out : List Bool} (hbuf : v.buf.space ≠ .opb)
    (hout : (List.range (8 * v.len)).map (sourceBit (payloadOut v c) · s) = out.map some) (hfits : a.fits v.len)
    (ha : s.Answers (a.words s.latch.present)) (hc : s.Uncancelled c (32 + 8 * v.len)) :
    ∃ t, runWritePage v c s = some (t, .ok) ∧
      s.Sends c t (a.words s.latch.present) (32 + 8 * v.len) (pageEvents s c s.params.opWrite v.off out a) := by
  obtain ⟨hheader, hpayload⟩ := hfits
  obtain ⟨t, hrun, hsends⟩ := runHeader_sends (op := s.params.opWrite) (off := v.off) hheader ha.left hc.left
  have hsame : (sourceBit (payloadOut v c) · t) = (sourceBit (payloadOut v c) · s) := funext fun i =>
    congrArg (Option.map fun b => getBit b i) (memRead_eq_of_ne_opb hsends.mem hsends.scr hbuf)
  rw [← hsame] at hout
  obtain ⟨u, hrun', hsends'⟩ := runXfer_sends (a := payloadOut v c) (s := t) rfl hout hpayload
    (hsends.answers ha) (hsends.uncancelled hc)
  have hall := hsends.trans hsends'
  rw [hsends.params, hsends.latch] at hall
  exact ⟨u, (runPage_of_header hrun).trans hrun', hall⟩

/-- From s to t the given bytes have been stored at r, and no other byte of BUF and SCR has changed. -/
structure Hw.Fills (s : Hw) (r : Ref) (bytes : List Byte) (t : Hw) : Prop where
  wf : t.mem.wf = true
  stored : ∀ j, ∀ h : j < bytes.length, t.memRead (r.add j) = some bytes[j]
  others : ∀ x, x.space ≠ .opb → (∀ j, j < bytes.length → x ≠ r.add j) → t.memRead x = s.memRead x
  mem : r.space ≠ .buf → t.mem = s.mem
  scr : r.space ≠ .scr → t.scr = s.scr

@[simp] theorem sampledBytes_length (p : Params) (n : Nat) (ws : List Word) : (sampledBytes p n ws).length = n := by
  rw [sampledBytes, List.length_map, List.length_range]

theorem Hw.Receives.fills {r : Ref} {len : Nat} (h : s.Receives r len ws (8 * len) t) :
    s.Fills r (sampledBytes s.params len ws) t where
  wf := h.wf
  stored j hj := by
    rw [h.memRead (by simpa using hj)]
    simp only [sampledBytes, List.getElem_map, List.getElem_range]
  others x _ hx := h.others x (by simpa using hx)
  mem := h.mem
  scr := h.scr

/-- Stores after a run that sends. -/
theorem Hw.Sends.fills {u : Hw} {r : Ref} {bytes : List Byte} (h : s.Sends c t ws n ev) (hf : t.Fills r bytes u) :
    s.Fills r bytes u where
  wf := hf.wf
  stored := hf.stored
  others x hopb hx := (hf.others x hopb hx).trans (memRead_eq_of_ne_opb h.mem h.scr hopb)
  mem hr := (hf.mem hr).trans h.mem
  scr hr := (hf.scr hr).trans h.scr

/-- ReadPage (42_flash_commands.md R75). -/
theorem runReadPage_fills {v : Span} {a : PageAnswers} (hbuf : v.buf.space ≠ .opb) (hlen : v.len ≤ 2 ^ 32)
    (hexist : ∀ j, j < v.len → ∃ b, s.memRead (v.buf.add j) = some b) (hm : s.mem.wf = true) (hfits : a.fits v.len)
    (ha : s.Answers (a.words s.latch.present)) (hc : s.Uncancelled c (32 + 8 * v.len)) :
    ∃ t, runReadPage v c s = some (t, .ok) ∧
      s.Moves c t (a.words s.latch.present) (32 + 8 * v.len)
        (pageEvents s c s.params.opRead v.off (List.replicate (8 * v.len) false) a) ∧
      s.Fills v.buf (sampledBytes s.params v.len a.payload) t := by
  obtain ⟨hheader, hpayload⟩ := hfits
  obtain ⟨t, hrun, hsends⟩ := runHeader_sends (op := s.params.opRead) (off := v.off) hheader ha.left hc.left
  have hdest : ∀ j, j < v.len → ∃ b, t.memRead (v.buf.add j) = some b := fun j hj =>
    (hexist j hj).imp fun _ hb => (memRead_eq_of_ne_opb (r := v.buf.add j) hsends.mem hsends.scr hbuf).trans hb
  have hzeros : (List.range (8 * v.len)).map (sourceBit (payloadIn v c) · t) =
      (List.replicate (8 * v.len) false).map some := by
    rw [List.map_replicate]
    exact (List.map_const' ..).trans (congrArg (List.replicate · _) List.length_range)
  obtain ⟨u, hrun', hmoves, hrecv⟩ := runXfer_receives (a := payloadIn v c) rfl (.inl rfl) rfl hlen
    (by rw [hsends.mem, hm]) hdest hzeros hpayload (hsends.answers ha) (hsends.uncancelled hc)
  have hall := hsends.toMoves.trans hmoves
  have hfills := hrecv.fills
  rw [hsends.params, hsends.latch] at hall
  rw [hsends.params] at hfills
  exact ⟨u, (runPage_of_header hrun).trans hrun', hall, hsends.fills hfills⟩

end

/-! ### The commands' runs -/

section

variable {c : Bool} {s : State} {h : Hw} {r : SubOutcome} {x : StatusOutcome}

theorem enableWrite_ends (hs : s.Accepted) (hr : runEnableWrite c s.hw = some (h, r)) :
    CommandEnds (.enableWrite c) s h r.okOrCancelled :=
  commandEnds_of_ends (wrap := .enableWrite c) (k := endFlashCommand) (fun _ => nofun)
    (fun _ _ ht => blockStep_of_seq ht rfl) hs rfl (stepEnableWrite_ends hr) (reaches_finish s hs.quiet.turns h _)

theorem writeStatus_ends (hs : s.Accepted) (hr : runWriteStatus (statusOperand s.hw.latch) c s.hw = some (h, r)) :
    CommandEnds (.writeStatus c) s h r.okOrCancelled :=
  commandEnds_of_ends (wrap := .writeStatus (statusOperand s.hw.latch) c) (k := endFlashCommand) (fun _ => nofun)
    (fun _ _ ht => blockStep_of_seq ht rfl) hs rfl (stepWriteStatus_ends hr) (reaches_finish s hs.quiet.turns h _)

theorem clearBp_ends (hs : s.Accepted) (hr : runClearBp c s.hw = some (h, r)) :
    CommandEnds (.clearBp c) s h r.okOrCancelled :=
  commandEnds_of_ends (wrap := .clearBp c) (k := endFlashCommand) (fun _ => nofun)
    (fun _ _ ht => blockStep_of_seq ht rfl) hs rfl (stepClearBp_ends hr) (reaches_finish s hs.quiet.turns h _)

theorem readStatus_ends (hs : s.Accepted) (hr : runReadStatus c s.hw = some (h, x)) :
    CommandEnds (.readStatus c) s (statusEnding (h, x)).1 (statusEnding (h, x)).2 :=
  commandEnds_of_ends (wrap := .readStatus c) (k := endStatusCommand) (fun _ => nofun)
    (fun _ _ ht => blockStep_of_seq ht rfl) hs rfl (stepReadStatus_ends hr) (reaches_endStatus hs.quiet h x)

theorem pollReady_ends {fuel : Nat} (hs : s.Accepted) (hr : runPollReady fuel c s.hw = some (h, x)) :
    CommandEnds (.pollReady c) s (statusEnding (h, x)).1 (statusEnding (h, x)).2 :=
  commandEnds_of_ends (wrap := .pollReady c) (k := endStatusCommand) (fun _ => nofun)
    (fun _ _ ht => blockStep_of_seq ht rfl) hs rfl (stepPollReady_ends hr) (reaches_endStatus hs.quiet h x)

theorem writePage_ends (hs : s.Accepted) (hl : lengthFits s.hw.latch = true)
    (hr : runWritePage (sourceSpan s.hw.latch) c s.hw = some (h, r)) : CommandEnds (.writePage c) s h r.okOrCancelled :=
  commandEnds_of_ends (wrap := .writePage (sourceSpan s.hw.latch) c) (k := endFlashCommand) (fun _ => nofun)
    (fun _ _ ht => blockStep_of_seq ht rfl) hs
    (show exec (.writePage c) s = _ from if_pos hl) (stepWritePage_ends hr) (reaches_finish s hs.quiet.turns h _)

theorem readPage_ends (hs : s.Accepted) (hl : lengthFits s.hw.latch = true)
    (hr : runReadPage (destSpan s.hw.latch) c s.hw = some (h, r)) : CommandEnds (.readPage c) s h r.okOrCancelled :=
  commandEnds_of_ends (wrap := .readPage (destSpan s.hw.latch) c) (k := endFlashCommand) (fun _ => nofun)
    (fun _ _ ht => blockStep_of_seq ht rfl) hs
    (show exec (.readPage c) s = _ from if_pos hl) (stepReadPage_ends hr) (reaches_finish s hs.quiet.turns h _)

end

/-! ### The statements -/

theorem Hw.OnlyPort.setRdata {s t : Hw} (h : s.OnlyPort t) (v : Word) :
    Hw.OnlyPort { s with rdata := v } (t.setRdata v) := by
  have hrdata := congrArg (Hw.setRdata · v) h
  exact hrdata

/-- Settles O26: one frame. -/
theorem enableWriteSendsWren : Obligations.EnableWriteSendsWren := by
  intro s c f hs _ ha hlen hc
  obtain ⟨h, hrun, hsends⟩ := runEnableWrite_sends hlen ha hc
  exact ⟨h, enableWrite_ends hs hrun, hsends.onlyPort, hsends.trace⟩

/-- Settles O27: WriteStatus's two frames. -/
theorem writeStatusSendsTwoFrames : Obligations.WriteStatusSendsTwoFrames := by
  intro s c a hs _ ha hfits hc
  obtain ⟨h, hrun, hsends⟩ := runWriteStatus_sends (st := statusOperand s.hw.latch) hfits ha hc
  exact ⟨h, writeStatus_ends hs hrun, hsends.onlyPort, hsends.trace.trans (List.append_assoc ..).symm⟩

/-- Settles O28: ClearBP is the same two frames with the complement of PROTECT_MASK. -/
theorem clearBpWritesTheComplement : Obligations.ClearBpWritesTheComplement := by
  intro s c a hs _ ha hfits hc
  obtain ⟨h, hrun, hsends⟩ := runWriteStatus_sends (st := clearBpByte s.hw.params) hfits ha hc
  exact ⟨h, clearBp_ends hs hrun, hsends.onlyPort, hsends.trace.trans (List.append_assoc ..).symm⟩

/-- Settles O29: the status byte is the one sampled, bit by bit. -/
theorem readStatusReturnsTheSecondByte : Obligations.ReadStatusReturnsTheSecondByte := by
  intro s c f hs hsound ha hlen hc
  obtain ⟨h, hrun, hsends⟩ := runReadStatus_sends hsound.mem hlen ha hc
  refine ⟨_, f.status s.hw.params, readStatus_ends hs hrun, fun k hk => ?_, hsends.onlyPort.setRdata _, hsends.trace⟩
  have hbit := getBit_sampledByte s.hw.params (f.bits.drop 8) hk
  rw [List.getD_eq_getElem?_getD, List.getElem?_drop, ← List.getD_eq_getElem?_getD] at hbit
  rwa [getBit, bitPos, Nat.mod_eq_of_lt hk] at hbit

/-- Settles O30: the header frame, and a payload whose bits are those of the source. -/
theorem writePageSendsHeaderAndPayload : Obligations.WritePageSendsHeaderAndPayload := by
  intro s c a hs _ hl ha hfits hc
  rw [← byteCount_eq hl] at hfits hc ⊢
  obtain ⟨h, hrun, hsends⟩ := runWritePage_sends (v := sourceSpan s.hw.latch) nofun (List.map_map ..).symm hfits ha hc
  exact ⟨h, writePage_ends hs ((lengthFits_iff _).mpr hl) hrun, hsends.onlyPort, hsends.trace⟩

/-- A destination in BUF. -/
theorem Hw.Fills.bufHolds {s t : Hw} {a : Word} {bytes : List Byte} (h : s.Fills (bufRef a) bytes t) :
    BufHolds s.mem t.mem a bytes :=
  ⟨fun j hj => Option.some.inj (h.stored j hj), fun x hx =>
    Option.some.inj (h.others (bufRef x) nofun fun j hj heq => hx j hj (congrArg Ref.addr heq))⟩

/-- Settles O31: the header frame, and a payload that fills the destination. -/
theorem readPageFillsTheBuffer : Obligations.ReadPageFillsTheBuffer := by
  intro s c a hs hsound hl ha hfits hc
  rw [← byteCount_eq hl] at hfits hc ⊢
  have hlen : byteCount s.hw.latch ≤ 2 ^ 32 := byteCount_eq hl ▸ s.hw.latch.len.isLt.le
  obtain ⟨h, hrun, hmoves, hfills⟩ := runReadPage_fills (v := destSpan s.hw.latch) nofun hlen (fun _ _ => ⟨_, rfl⟩)
    hsound.mem hfits ha hc
  have hport := hmoves.port
  rw [hfills.scr nofun] at hport
  exact ⟨h, readPage_ends hs ((lengthFits_iff _).mpr hl) hrun, hport, hfills.bufHolds, hmoves.trace⟩

/-- Settles O32: the loop's frames, with the first ready byte in RDATA. -/
theorem pollReadyRepeatsUntilReady : Obligations.PollReadyRepeatsUntilReady := by
  intro s c a hs hsound hfits ha hc
  obtain ⟨h, hrun, hsends⟩ := runPollReady_sends hsound.mem hfits ha hc
  exact ⟨_, pollReady_ends hs hrun, hsends.onlyPort.setRdata _, hsends.trace⟩

end Sys2Proof.Machine
end

section
/-! PROOFS. Two facts of 43_flash_ops.md that no run is needed for: the page split of DUMP (R79), chunk by chunk, and the
arithmetic of the checksum engine on little-endian words (R83). -/

namespace Sys2Proof.Machine

/-! ### The page split -/

@[simp] theorem Ref.add_zero (r : Ref) : r.add 0 = r := by
  simp only [Ref.add, BitVec.add_zero]

theorem Ref.add_add (r : Ref) (j k : Nat) : (r.add j).add k = r.add (j + k) := by
  simp only [Ref.add, BitVec.add_assoc, BitVec.ofNat_add]

theorem dumpPages_of_len_eq_zero {ps : Nat} {v : Span} (rounds : Nat) (hv : v.len = 0) : dumpPages ps rounds v = [] := by
  cases rounds with
  | zero => rfl
  | succ rounds => exact if_pos hv

theorem dumpPages_succ {ps : Nat} {v : Span} (rounds : Nat) (hv : v.len ≠ 0) :
    dumpPages ps (rounds + 1) v = dumpPage ps v :: dumpPages ps rounds (v.advance (pageChunk ps v)) := if_neg hv

/-- What is left after a page takes fewer rounds. -/
theorem advance_pageChunk_len_le {ps rounds : Nat} {v : Span} (hps : 0 < ps) (hv : v.len ≠ 0) (hr : v.len ≤ rounds + 1) :
    (v.advance (pageChunk ps v)).len ≤ rounds := by
  have hpos := pageChunk_pos hps hv
  simp only [Span.advance]
  omega

/-- No chunk is empty, and none crosses the end of its page. -/
theorem dumpPages_within_page {ps : Nat} (hps : 0 < ps) (rounds : Nat) (v : Span) :
    ∀ c ∈ dumpPages ps rounds v, 0 < c.len ∧ c.off.toNat % ps + c.len ≤ ps := by
  induction rounds generalizing v with
  | zero => exact nofun
  | succ rounds ih =>
    by_cases hv : v.len = 0
    · rw [dumpPages_of_len_eq_zero _ hv]
      exact nofun
    · rw [dumpPages_succ _ hv]
      refine List.forall_mem_cons.mpr ⟨⟨pageChunk_pos hps hv, ?_⟩, ih _⟩
      have hoff := Nat.mod_lt v.off.toNat hps
      simp only [dumpPage, pageChunk]
      omega

/-- The chunks cover the length. -/
theorem dumpPages_len_sum {ps : Nat} (hps : 0 < ps) {rounds : Nat} {v : Span} (hr : v.len ≤ rounds) :
    ((dumpPages ps rounds v).map Span.len).sum = v.len := by
  induction rounds generalizing v with
  | zero => exact (Nat.le_zero.mp hr).symm
  | succ rounds ih =>
    by_cases hv : v.len = 0
    · rw [dumpPages_of_len_eq_zero _ hv, hv]
      rfl
    · rw [dumpPages_succ _ hv, List.map_cons, List.sum_cons, ih (advance_pageChunk_len_le hps hv hr)]
      exact Nat.add_sub_of_le (pageChunk_le ps v)

/-- Each chunk starts where the one before it ended. -/
theorem dumpPages_start {ps : Nat} {rounds : Nat} {v c : Span} {before after : List Span}
    (h : dumpPages ps rounds v = before ++ c :: after) :
    c.off = v.off + BitVec.ofNat 16 (before.map Span.len).sum ∧ c.buf = v.buf.add (before.map Span.len).sum := by
  induction rounds generalizing v before with
  | zero => exact (List.append_ne_nil_of_right_ne_nil before (List.cons_ne_nil c after) h.symm).elim
  | succ rounds ih =>
    by_cases hv : v.len = 0
    · rw [dumpPages_of_len_eq_zero _ hv] at h
      exact (List.append_ne_nil_of_right_ne_nil before (List.cons_ne_nil c after) h.symm).elim
    · rw [dumpPages_succ _ hv] at h
      cases before with
      | nil =>
        obtain ⟨rfl, -⟩ := List.cons.inj h
        exact ⟨(BitVec.add_zero _).symm, (Ref.add_zero _).symm⟩
      | cons d before =>
        obtain ⟨rfl, hrest⟩ := List.cons.inj h
        obtain ⟨hoff, hbuf⟩ := ih hrest
        rw [List.map_cons, List.sum_cons, BitVec.ofNat_add, ← BitVec.add_assoc, ← Ref.add_add]
        exact ⟨hoff, hbuf⟩

/-- Settles O35: by induction on the rounds of the page loop. -/
theorem pageSplitStaysInPages : Obligations.PageSplitStaysInPages := by
  rintro ps v split hps rfl
  have hpos := legalPageSize_pos hps
  exact ⟨dumpPages_within_page hpos v.len v, dumpPages_len_sum hpos (Nat.le_refl _), fun _ _ _ => dumpPages_start⟩

/-! ### The checksum engine -/

/-- A little-endian word is the value of its two bytes (20_memory.md R34). -/
theorem joinWord_little_toNat (x y : Byte) : (joinWord .little x y).toNat = x.toNat + 256 * y.toNat := by
  rw [joinWord, BitVec.toNat_append, ← Nat.shiftLeft_add_eq_or_of_lt x.isLt, Nat.shiftLeft_eq]
  omega

section

variable {b : List Byte} {w : Nat → Nat} {j k : Nat}

/-- W(j) of a buffer that holds it. -/
theorem bufferWord_little (hw : ∀ j, w j = (b.getD (2 * j) 0#8).toNat + 256 * (b.getD (2 * j + 1) 0#8).toNat)
    (hj : 2 * j + 1 < b.length) : ∃ x, bufferWord .little b j = some x ∧ x.toNat = w j := by
  have hj' : 2 * j < b.length := by omega
  refine ⟨joinWord .little b[2 * j] b[2 * j + 1], ?_, ?_⟩
  · simp only [bufferWord, List.getElem?_eq_getElem hj, List.getElem?_eq_getElem hj']
  · rw [joinWord_little_toNat, hw, List.getD_eq_getElem _ _ hj, List.getD_eq_getElem _ _ hj']

/-- The sum of the first k words, modulo 2^16. -/
theorem wordSum_little (hw : ∀ j, w j = (b.getD (2 * j) 0#8).toNat + 256 * (b.getD (2 * j + 1) 0#8).toNat)
    (hk : 2 * k ≤ b.length) :
    ∃ x, wordSum .little b k = some x ∧ x.toNat = ((List.range k).map w).sum % 2 ^ 16 := by
  induction k with
  | zero => exact ⟨0#16, rfl, rfl⟩
  | succ k ih =>
    obtain ⟨x, hx, hsum⟩ := ih (by omega)
    obtain ⟨y, hy, hword⟩ := bufferWord_little hw (j := k) (by omega)
    refine ⟨x + y, by simp only [wordSum, hx, hy], ?_⟩
    rw [BitVec.toNat_add, hsum, hword, List.range_succ, List.map_append, List.sum_append, Nat.mod_add_mod]
    rfl

end

/-- Settles O39: from the sum of the first k words and from word k, as numbers. -/
theorem checksumEngine : Obligations.ChecksumEngine := by
  intro b k e hlen
  obtain ⟨r, hr⟩ := checksumEval_total .little b k e (by omega)
  refine ⟨r, hr, fun w hw => ?_⟩
  obtain ⟨total, htotal, hsum⟩ := wordSum_little hw (k := k) (by omega)
  obtain ⟨last, hlast, hword⟩ := bufferWord_little hw (j := k) (by omega)
  have hall : ((List.range (k + 1)).map w).sum = ((List.range k).map w).sum + w k := by
    rw [List.range_succ, List.map_append, List.sum_append]
    rfl
  simp only [checksumEval, htotal, hlast, Option.some.injEq] at hr
  subst hr
  have hcomputed := BitVec.toNat_sub e total
  have htotal_lt := total.isLt
  have he_lt := e.isLt
  refine ⟨by dsimp only; omega, hword, ?_⟩
  rw [ChecksumResult.agrees, beq_iff_eq, ← BitVec.toNat_inj, hall]
  dsimp only
  omega

end Sys2Proof.Machine
end

section
/-! PROOFS. Runs put together from runs (43_flash_ops.md). How often a run samples the cancellation input is read off its
port events (60_exceptions.md R87), and what a procedure does to the port depends on the state it starts from only through
the parameters, the latch and what the environment still has to give; so one run after another does the one's events and
then the other's. With it ERASE (R81) and UNLOCK (R82). -/

namespace Sys2Proof.Machine

/-! ### How often the events of a frame sample the cancellation input -/

theorem cancelSamples_append (t t' : List Event) : cancelSamples (t ++ t') = cancelSamples t + cancelSamples t' := by
  simp only [cancelSamples, List.filter_append, List.length_append]

@[simp] theorem byteBits_length (v : Byte) : (byteBits v).length = 8 := rfl

/-- One sample per bit (40_bitclock_transfer.md R65). -/
theorem cancelSamples_shiftEvents (p : Params) (du : Nat) (prev : Word) {bs : List Bool} {ws : List Word}
    (h : bs.length = ws.length) : cancelSamples (shiftEvents p du true prev bs ws) = ws.length := by
  induction ws generalizing prev bs with
  | nil =>
    rw [List.eq_nil_of_length_eq_zero h]
    rfl
  | cons w ws ih =>
    obtain ⟨b, bs, rfl⟩ := List.exists_cons_of_length_eq_add_one h
    have hbit : cancelSamples (Event.cp false :: bitEvents p du b prev w) = 1 := rfl
    rw [shiftEvents, cancelSamples_append, ih _ (Nat.succ.inj h), List.length_cons, Nat.add_comm]
    exact congrArg (ws.length + ·) hbit

theorem cancelSamples_xferEvents (p : Params) (du : Nat) (seed : Word) {bs : List Bool} {ws : List Word}
    (h : bs.length = ws.length) : cancelSamples (xferEvents p du true seed bs ws) = ws.length :=
  cancelSamples_shiftEvents p du seed h

section

variable {s : Hw}

@[simp] theorem cancelSamples_standbyPart (s : Hw) (v : Word) : cancelSamples (standbyPart s v) = 0 := by
  rw [standbyPart]
  split <;> rfl

@[simp] theorem cancelSamples_releasePart (s : Hw) (v : Word) : cancelSamples (releasePart s v) = 0 := by
  rw [releasePart]
  split <;> rfl

@[simp] theorem cancelSamples_acquireEvents (s : Hw) (q : AcquireAnswers) : cancelSamples (acquireEvents s q) = 0 := by
  have hpolls : ∀ l : List Word,
      cancelSamples (l.flatMap fun v => [Event.rd v, .dl s.params.grantPollUs]) = 0 := by
    intro l
    induction l with
    | nil => rfl
    | cons v l ih => exact ih
  rw [acquireEvents]
  split
  · rw [handshakeEvents, cancelSamples_append, cancelSamples_append, cancelSamples_append, hpolls]
    rfl
  · rfl

theorem cancelSamples_frameEvents {out : List Bool} {f : FrameAnswers} (h : out.length = f.bits.length) :
    cancelSamples (frameEvents s true out f) = f.bits.length := by
  have hstandby : cancelSamples (if s.latch.present then standbyEvents s.params s.latch.du.toNat f.standby else []) = 0 :=
    cancelSamples_standbyPart s f.standby
  rw [frameEvents, cancelSamples_append, hstandby, Nat.zero_add]
  exact cancelSamples_xferEvents _ _ _ h

theorem cancelSamples_writeStatusEvents {st : Byte} {a : ClearAnswers} (h : a.fits) :
    cancelSamples (writeStatusEvents s true st a) = 24 := by
  obtain ⟨hwren, hwrsr⟩ := h
  rw [writeStatusEvents, cancelSamples_append, cancelSamples_frameEvents (by rw [hwren]; rfl),
    cancelSamples_frameEvents (by rw [hwrsr]; rfl), hwren, hwrsr]

theorem cancelSamples_statusEvents_flatMap {l : List FrameAnswers} (h : ∀ f ∈ l, f.bits.length = 16) :
    cancelSamples (l.flatMap (statusEvents s true)) = 16 * l.length := by
  induction l with
  | nil => rfl
  | cons f l ih =>
    obtain ⟨hf, hl⟩ := List.forall_mem_cons.mp h
    rw [List.flatMap_cons, cancelSamples_append, ih hl, statusEvents, cancelSamples_frameEvents (by rw [hf]; rfl), hf,
      List.length_cons]
    omega

theorem cancelSamples_pollEvents {a : PollAnswers} (h : a.fits s.params) :
    cancelSamples (pollEvents s true a) = 16 * (a.busy.length + 1) := by
  obtain ⟨hbusy, hready, -⟩ := h
  rw [pollEvents, cancelSamples_statusEvents_flatMap, List.length_append, List.length_singleton]
  intro f hf
  obtain hf | hf := List.mem_append.mp hf
  · exact (hbusy f hf).1
  · rw [List.mem_singleton.mp hf, hready]

theorem cancelSamples_pageEvents {op : Byte} {off : Half} {out : List Bool} {len : Nat} {a : PageAnswers}
    (h : a.fits len) (hout : out.length = 8 * len) : cancelSamples (pageEvents s true op off out a) = 32 + 8 * len := by
  obtain ⟨hheader, hpayload⟩ := h
  rw [pageEvents, cancelSamples_append, cancelSamples_frameEvents (by rw [hheader]; rfl),
    cancelSamples_xferEvents _ _ _ (hout.trans hpayload.symm), hheader, hpayload]

end

/-! ### One run after another -/

/-- The next RegReads from s get the answers ws, and no sample that the events ev show sees a cancellation. -/
structure Hw.Feeds (c : Bool) (s : Hw) (ws : List Word) (ev : List Event) : Prop where
  answers : s.Answers ws
  uncancelled : s.Uncancelled c (cancelSamples ev)

/-- `Hw.Moves`, with the samples that the events show. -/
abbrev Hw.Plays (c : Bool) (s t : Hw) (ws : List Word) (ev : List Event) : Prop := s.Moves c t ws (cancelSamples ev) ev

/-- `Hw.Sends`, with the samples that the events show. -/
abbrev Hw.PlaysOut (c : Bool) (s t : Hw) (ws : List Word) (ev : List Event) : Prop :=
  s.Sends c t ws (cancelSamples ev) ev

section

variable {c : Bool} {s t u : Hw} {ws ws' : List Word} {n : Nat} {ev ev' : List Event}

theorem Hw.Feeds.left (h : s.Feeds c (ws ++ ws') (ev ++ ev')) : s.Feeds c ws ev :=
  ⟨h.answers.left, Hw.Uncancelled.left (cancelSamples_append ev ev' ▸ h.uncancelled)⟩

/-- What is left for the run that follows. -/
theorem Hw.Moves.feeds (h : s.Plays c t ws ev) (hf : s.Feeds c (ws ++ ws') (ev ++ ev')) : t.Feeds c ws' ev' :=
  ⟨Hw.Moves.answers h hf.answers, Hw.Moves.uncancelled h (cancelSamples_append ev ev' ▸ hf.uncancelled)⟩

theorem Hw.Moves.trans_plays (h : s.Plays c t ws ev) (h' : t.Plays c u ws' ev') :
    s.Plays c u (ws ++ ws') (ev ++ ev') := by
  rw [Hw.Plays, cancelSamples_append]
  exact Hw.Moves.trans h h'

theorem Hw.Sends.trans_playsOut (h : s.PlaysOut c t ws ev) (h' : t.PlaysOut c u ws' ev') :
    s.PlaysOut c u (ws ++ ws') (ev ++ ev') := by
  rw [Hw.PlaysOut, cancelSamples_append]
  exact Hw.Sends.trans h h'

/-- A run from t after a run from s to t: the answers W that it reads, and its events E, are those it would have from s. -/
theorem Hw.Moves.andThen (h : s.Plays c t ws ev) (W : Bool → List Word) (E : Hw → List Event) {P : Hw → Prop}
    (hE : E t = E s)
    (hrun : t.Feeds c (W t.latch.present) (E t) → ∃ u, P u ∧ t.Plays c u (W t.latch.present) (E t))
    (hf : s.Feeds c (ws ++ W s.latch.present) (ev ++ E s)) :
    ∃ u, P u ∧ s.Plays c u (ws ++ W s.latch.present) (ev ++ E s) := by
  rw [Hw.Moves.latch h, hE] at hrun
  obtain ⟨u, hP, hplays⟩ := hrun (Hw.Moves.feeds h hf)
  exact ⟨u, hP, Hw.Moves.trans_plays h hplays⟩

/-- The same for runs that only send. -/
theorem Hw.Sends.andThen (h : s.PlaysOut c t ws ev) (W : Bool → List Word) (E : Hw → List Event) {P : Hw → Prop}
    (hE : E t = E s)
    (hrun : t.Feeds c (W t.latch.present) (E t) → ∃ u, P u ∧ t.PlaysOut c u (W t.latch.present) (E t))
    (hf : s.Feeds c (ws ++ W s.latch.present) (ev ++ E s)) :
    ∃ u, P u ∧ s.PlaysOut c u (ws ++ W s.latch.present) (ev ++ E s) := by
  rw [h.toMoves.latch, hE] at hrun
  obtain ⟨u, hP, hplays⟩ := hrun (Hw.Moves.feeds h.toMoves hf)
  exact ⟨u, hP, Hw.Sends.trans_playsOut h hplays⟩

/-- A run of which the number of its samples is known. -/
theorem exists_playsOut {P : Hw → Prop} (hn : c = true → cancelSamples ev = n)
    (hrun : s.Answers ws → s.Uncancelled c n → ∃ t, P t ∧ s.Sends c t ws n ev) (hf : s.Feeds c ws ev) :
    ∃ t, P t ∧ s.PlaysOut c t ws ev := by
  obtain ⟨t, hP, hsends⟩ := hrun hf.answers fun hc => hn hc ▸ hf.uncancelled hc
  exact ⟨t, hP, ⟨hsends.port, hsends.reads, fun hc => hn hc ▸ hsends.cancels hc, hsends.trace⟩, hsends.mem, hsends.scr⟩

/-! ### The events of a run that follows another -/

theorem Hw.Moves.standbyPart_eq (h : s.Moves c t ws n ev) : standbyPart t = standbyPart s := by
  funext v
  simp only [standbyPart, h.params, h.latch]

theorem Hw.Moves.releasePart_eq (h : s.Moves c t ws n ev) : releasePart t = releasePart s := by
  funext v
  simp only [releasePart, h.params, h.latch]

theorem Hw.Moves.writeStatusEvents_eq (h : s.Moves c t ws n ev) : writeStatusEvents t c = writeStatusEvents s c := by
  funext st a
  simp only [writeStatusEvents, h.frameEvents_eq, h.params]

/-! ### The arbiter inside a command -/

/-- Acquire, granted (41_arbiter.md R67). -/
theorem runAcquire_playsOut {q : AcquireAnswers} (hq : s.latch.present = true → q.granted s.params)
    (hf : s.Feeds c (q.words s.latch.present) (acquireEvents s q)) :
    ∃ t, runAcquire s = (t, .ok) ∧ s.PlaysOut c t (q.words s.latch.present) (acquireEvents s q) := by
  refine exists_playsOut (fun _ => cancelSamples_acquireEvents s q) (fun ha _ => ?_) hf
  cases hp : s.latch.present with
  | false =>
    have hev : acquireEvents s q = [] := if_neg (Bool.eq_false_iff.mp hp)
    rw [hev]
    exact ⟨s, runAcquire_of_absent hp, ⟨rfl, rfl, fun _ => rfl, (List.append_nil _).symm⟩, rfl, rfl⟩
  | true =>
    obtain ⟨hn, hpolls, hgnt⟩ := hq hp
    rw [hp] at ha
    obtain ⟨rest, hr⟩ := ha
    have hrun := (runAcquire_eq_runGrant hp hr hpolls hn (.inl hgnt)).trans (if_pos hgnt)
    refine ⟨_, hrun, ⟨rfl, hr, fun _ => rfl, ?_⟩, rfl, rfl⟩
    rw [acquireEvents, if_pos hp, ← List.append_assoc]
    exact List.append_assoc ..

/-- Standby inside a command (41_arbiter.md R69). -/
theorem runStandby_playsOut {v : Word} (hf : s.Feeds c (releaseWords s.latch.present v) (standbyPart s v)) :
    ∃ t, t = runStandby s ∧ s.PlaysOut c t (releaseWords s.latch.present v) (standbyPart s v) :=
  exists_playsOut (fun _ => cancelSamples_standbyPart s v)
    (fun ha _ => ⟨_, rfl, runStandby_sends ha c (runStandby s).opb⟩) hf

/-- Release inside a command (41_arbiter.md R68). -/
theorem runRelease_playsOut {v : Word} (hf : s.Feeds c (releaseWords s.latch.present v) (releasePart s v)) :
    ∃ t, t = runRelease s ∧ s.PlaysOut c t (releaseWords s.latch.present v) (releasePart s v) := by
  refine exists_playsOut (fun _ => cancelSamples_releasePart s v) (fun ha _ => ⟨_, rfl, ?_⟩) hf
  cases hp : s.latch.present with
  | false =>
    rw [runRelease_of_absent hp, releasePart, if_neg (Bool.eq_false_iff.mp hp)]
    exact ⟨⟨rfl, rfl, fun _ => rfl, (List.append_nil _).symm⟩, rfl, rfl⟩
  | true =>
    rw [hp] at ha
    obtain ⟨rest, hr⟩ := ha
    obtain rfl := Hw.readAnswer_cons hr
    rw [runRelease_of_present hp, releasePart, if_pos hp]
    exact ⟨⟨rfl, by rw [hr]; rfl, fun _ => rfl, rfl⟩, rfl, rfl⟩

/-! ### The frames of ERASE and UNLOCK -/

/-- ClearBP (42_flash_commands.md R77). -/
theorem runClearBp_playsOut {a : ClearAnswers} (hfits : a.fits)
    (hf : s.Feeds c (a.words s.latch.present) (writeStatusEvents s c (~~~s.params.protectMask) a)) :
    ∃ t, runClearBp c s = some (t, .ok) ∧
      s.PlaysOut c t (a.words s.latch.present) (writeStatusEvents s c (~~~s.params.protectMask) a) := by
  refine exists_playsOut (n := 24) ?_ (runWriteStatus_sends hfits) hf
  rintro rfl
  exact cancelSamples_writeStatusEvents hfits

/-- EnableWrite (42_flash_commands.md R71). -/
theorem runEnableWrite_playsOut {f : FrameAnswers} (hlen : f.bits.length = 8)
    (hf : s.Feeds c (f.words s.latch.present) (frameEvents s c (byteBits s.params.opWren) f)) :
    ∃ t, runEnableWrite c s = some (t, .ok) ∧
      s.PlaysOut c t (f.words s.latch.present) (frameEvents s c (byteBits s.params.opWren) f) := by
  refine exists_playsOut (n := 8) ?_ (runEnableWrite_sends hlen) hf
  rintro rfl
  exact (cancelSamples_frameEvents (out := byteBits s.params.opWren) hlen.symm).trans hlen

/-- The chip-erase frame (43_flash_ops.md R81). -/
theorem runEraseXfer_playsOut {f : FrameAnswers} (hlen : f.bits.length = 8)
    (hf : s.Feeds c (f.words s.latch.present) (frameEvents s c (byteBits s.params.opChipErase) f)) :
    ∃ t, runXfer (opcodeArgs 8 c) ((runStandby s).setOpb0 s.params.opChipErase) = some (t, .ok) ∧
      s.PlaysOut c t (f.words s.latch.present) (frameEvents s c (byteBits s.params.opChipErase) f) := by
  refine exists_playsOut (n := 8) ?_
    (runFrame_sends { (runStandby s).opb with b0 := s.params.opChipErase } rfl hlen) hf
  rintro rfl
  exact (cancelSamples_frameEvents (out := byteBits s.params.opChipErase) hlen.symm).trans hlen

/-- The start of ERASE and UNLOCK: Acquire, Standby and ClearBP (43_flash_ops.md R81, R82). -/
theorem runSession_playsOut {q : AcquireAnswers} {v : Word} {a : ClearAnswers}
    (hq : s.latch.present = true → q.granted s.params) (hfits : a.fits)
    (hf : s.Feeds c (q.words s.latch.present ++ releaseWords s.latch.present v ++ a.words s.latch.present)
      (acquireEvents s q ++ standbyPart s v ++ writeStatusEvents s c (~~~s.params.protectMask) a)) :
    ∃ t u, runAcquire s = (t, .ok) ∧ runClearBp c (runStandby t) = some (u, .ok) ∧
      s.PlaysOut c u (q.words s.latch.present ++ releaseWords s.latch.present v ++ a.words s.latch.present)
        (acquireEvents s q ++ standbyPart s v ++ writeStatusEvents s c (~~~s.params.protectMask) a) := by
  obtain ⟨t, hacquire, h0⟩ := runAcquire_playsOut hq hf.left.left
  obtain ⟨_, rfl, h1⟩ := h0.andThen (releaseWords · v) (standbyPart · v) (congrFun h0.standbyPart_eq v)
    runStandby_playsOut hf.left
  obtain ⟨u, hclear, h2⟩ := h1.andThen a.words (fun t => writeStatusEvents t c (~~~t.params.protectMask) a)
    (by rw [h1.writeStatusEvents_eq, h1.params]) (runClearBp_playsOut hfits) hf
  exact ⟨t, u, hacquire, hclear, h2⟩

/-- Unlock (43_flash_ops.md R82). -/
theorem runUnlock_playsOut {q : AcquireAnswers} {v0 v1 : Word} {a : ClearAnswers}
    (hq : s.latch.present = true → q.granted s.params) (hfits : a.fits)
    (hf : s.Feeds c
      (q.words s.latch.present ++ releaseWords s.latch.present v0 ++ a.words s.latch.present ++
        releaseWords s.latch.present v1)
      (acquireEvents s q ++ standbyPart s v0 ++ writeStatusEvents s c (~~~s.params.protectMask) a ++ releasePart s v1)) :
    ∃ t, runUnlock c s = some (t, .ok) ∧
      s.PlaysOut c t
        (q.words s.latch.present ++ releaseWords s.latch.present v0 ++ a.words s.latch.present ++
          releaseWords s.latch.present v1)
        (acquireEvents s q ++ standbyPart s v0 ++ writeStatusEvents s c (~~~s.params.protectMask) a ++
          releasePart s v1) := by
  obtain ⟨t, u, hacquire, hclear, h0⟩ := runSession_playsOut hq hfits hf.left
  obtain ⟨_, rfl, h1⟩ := h0.andThen (releaseWords · v1) (releasePart · v1) (congrFun h0.releasePart_eq v1)
    runRelease_playsOut hf
  refine ⟨_, ?_, h1⟩
  simp only [runUnlock, hacquire, hclear, Option.map_some]

/-- Erase (43_flash_ops.md R81). -/
theorem runErase_playsOut {q : AcquireAnswers} {v0 v1 : Word} {a : ClearAnswers} {wren erase : FrameAnswers}
    (hq : s.latch.present = true → q.granted s.params) (hfits : a.fits) (hwren : wren.bits.length = 8)
    (herase : erase.bits.length = 8)
    (hf : s.Feeds c
      (q.words s.latch.present ++ releaseWords s.latch.present v0 ++ a.words s.latch.present ++
        wren.words s.latch.present ++ erase.words s.latch.present ++ releaseWords s.latch.present v1)
      (acquireEvents s q ++ standbyPart s v0 ++ writeStatusEvents s c (~~~s.params.protectMask) a ++
        frameEvents s c (byteBits s.params.opWren) wren ++ frameEvents s c (byteBits s.params.opChipErase) erase ++
        releasePart s v1)) :
    ∃ t, runErase c s = some (t, .ok) ∧
      s.PlaysOut c t
        (q.words s.latch.present ++ releaseWords s.latch.present v0 ++ a.words s.latch.present ++
          wren.words s.latch.present ++ erase.words s.latch.present ++ releaseWords s.latch.present v1)
        (acquireEvents s q ++ standbyPart s v0 ++ writeStatusEvents s c (~~~s.params.protectMask) a ++
          frameEvents s c (byteBits s.params.opWren) wren ++ frameEvents s c (byteBits s.params.opChipErase) erase ++
          releasePart s v1) := by
  obtain ⟨t, u, hacquire, hclear, h0⟩ := runSession_playsOut hq hfits hf.left.left.left
  obtain ⟨u1, henable, h1⟩ := h0.andThen wren.words (fun t => frameEvents t c (byteBits t.params.opWren) wren)
    (by rw [h0.frameEvents_eq, h0.params]) (runEnableWrite_playsOut hwren) hf.left.left
  obtain ⟨u2, hxfer, h2⟩ := h1.andThen erase.words (fun t => frameEvents t c (byteBits t.params.opChipErase) erase)
    (by rw [h1.frameEvents_eq, h1.params]) (runEraseXfer_playsOut herase) hf.left
  obtain ⟨_, rfl, h3⟩ := h2.andThen (releaseWords · v1) (releasePart · v1) (congrFun h2.releasePart_eq v1)
    runRelease_playsOut hf
  refine ⟨_, ?_, h3⟩
  simp only [runErase, hacquire, runEraseBody, hclear, henable, runEraseFrame, hxfer, Option.bind_some, Option.map_some]

end

/-! ### The commands -/

section

variable {c : Bool} {s : State} {h : Hw} {r : SubOutcome}

theorem erase_ends (hs : s.Accepted) (hr : runErase c s.hw = some (h, r)) : CommandEnds (.erase c) s h r.rcode :=
  commandEnds_of_ends (wrap := .erase c) (k := endByOutcome) (fun _ => nofun) (fun _ _ ht => blockStep_of_seq ht rfl) hs
    rfl (stepErase_ends hr) (reaches_finish s hs.quiet.turns h _)

theorem unlock_ends (hs : s.Accepted) (hr : runUnlock c s.hw = some (h, r)) : CommandEnds (.unlock c) s h r.rcode :=
  commandEnds_of_ends (wrap := .unlock c) (k := endByOutcome) (fun _ => nofun) (fun _ _ ht => blockStep_of_seq ht rfl) hs
    rfl (stepUnlock_ends hr) (reaches_finish s hs.quiet.turns h _)

end

theorem Hw.Uncancelled.congr {c : Bool} {s : Hw} {m n : Nat} (h : s.Uncancelled c m) (hn : c = true → n = m) :
    s.Uncancelled c n :=
  fun hc => hn hc ▸ h hc

/-- Settles O37: the frames of Erase, one after the other; ClearBP's two, WREN and the chip erase have 40 bits. -/
theorem eraseSendsItsFrames : Obligations.EraseSendsItsFrames := by
  rintro s c q v0 a wren erase v1 ev hs - hq hfits hwren herase ha hev hc
  have hn : c = true → cancelSamples ev = 40 := by
    rintro rfl
    simp only [hev, cancelSamples_append, cancelSamples_acquireEvents, cancelSamples_standbyPart,
      cancelSamples_releasePart, cancelSamples_writeStatusEvents hfits,
      cancelSamples_frameEvents ((byteBits_length _).trans hwren.symm),
      cancelSamples_frameEvents ((byteBits_length _).trans herase.symm), hwren, herase]
  subst hev
  obtain ⟨h, hrun, hplays⟩ := runErase_playsOut hq hfits hwren herase ⟨ha, hc.congr hn⟩
  exact ⟨h, erase_ends hs hrun, hplays.onlyPort, hplays.trace⟩

/-- Settles O38: the frames of Unlock, one after the other; ClearBP's two have 24 bits. -/
theorem unlockSendsItsFrames : Obligations.UnlockSendsItsFrames := by
  rintro s c q v0 a v1 ev hs - hq hfits ha hev hc
  have hn : c = true → cancelSamples ev = 24 := by
    rintro rfl
    simp only [hev, cancelSamples_append, cancelSamples_acquireEvents, cancelSamples_standbyPart,
      cancelSamples_releasePart, cancelSamples_writeStatusEvents hfits]
  subst hev
  obtain ⟨h, hrun, hplays⟩ := runUnlock_playsOut hq hfits ⟨ha, hc.congr hn⟩
  exact ⟨h, unlock_ends hs hrun, hplays.onlyPort, hplays.trace⟩

end Sys2Proof.Machine
end

section
/-! PROOFS. DUMP (43_flash_ops.md R79) and PROGRAM (R80): a loop's run is its body's run and then the loop's run from
there. DUMP's pages fill the destination one after the other, so its bytes are those sampled in all of its pages. -/

namespace Sys2Proof.Machine

section

variable {c : Bool} {s t u : Hw} {ws : List Word} {n : Nat} {ev : List Event}

/-! ### The parts of the loops -/

/-- PollReady (42_flash_commands.md R76). -/
theorem runPollReady_playsOut {a : PollAnswers} (hm : s.mem.wf = true) (hfits : a.fits s.params)
    (hf : s.Feeds c (a.words s.latch.present) (pollEvents s c a)) :
    ∃ t, runPollReady (a.busy.length + 1) c s = some (t, .ok (a.ready.status s.params)) ∧
      s.PlaysOut c t (a.words s.latch.present) (pollEvents s c a) := by
  refine exists_playsOut (n := 16 * (a.busy.length + 1)) ?_ (runPollReady_sends hm hfits) hf
  rintro rfl
  exact cancelSamples_pollEvents hfits

/-- WritePage (42_flash_commands.md R74). -/
theorem runWritePage_playsOut {v : Span} {a : PageAnswers} {out : List Bool} (hbuf : v.buf.space ≠ .opb)
    (hout : (List.range (8 * v.len)).map (sourceBit (payloadOut v c) · s) = out.map some) (hfits : a.fits v.len)
    (hf : s.Feeds c (a.words s.latch.present) (pageEvents s c s.params.opWrite v.off out a)) :
    ∃ t, runWritePage v c s = some (t, .ok) ∧
      s.PlaysOut c t (a.words s.latch.present) (pageEvents s c s.params.opWrite v.off out a) := by
  refine exists_playsOut (n := 32 + 8 * v.len) ?_ (runWritePage_sends hbuf hout hfits) hf
  rintro rfl
  exact cancelSamples_pageEvents hfits (length_of_sourceBits (a := payloadOut v true) hout)

/-- ReadPage (42_flash_commands.md R75). -/
theorem runReadPage_plays {v : Span} {a : PageAnswers} (hbuf : v.buf.space ≠ .opb) (hlen : v.len ≤ 2 ^ 32)
    (hv : v.legal s.scr.length = true) (hm : s.mem.wf = true) (hfits : a.fits v.len)
    (hf : s.Feeds c (a.words s.latch.present)
      (pageEvents s c s.params.opRead v.off (List.replicate (8 * v.len) false) a)) :
    ∃ t, runReadPage v c s = some (t, .ok) ∧ s.Fills v.buf (sampledBytes s.params v.len a.payload) t ∧
      s.Plays c t (a.words s.latch.present)
        (pageEvents s c s.params.opRead v.off (List.replicate (8 * v.len) false) a) := by
  have hn : c = true →
      cancelSamples (pageEvents s c s.params.opRead v.off (List.replicate (8 * v.len) false) a) = 32 + 8 * v.len := by
    rintro rfl
    exact cancelSamples_pageEvents hfits List.length_replicate
  obtain ⟨t, hrun, hmoves, hfills⟩ := runReadPage_fills hbuf hlen
    (fun j hj => memRead_total (Ref.inRange_add hv (Nat.succ_le_of_lt hj))) hm hfits hf.answers
    (hf.uncancelled.congr fun hc => (hn hc).symm)
  exact ⟨t, hrun, hfills, hmoves.port, hmoves.reads, fun hc => hn hc ▸ hmoves.cancels hc, hmoves.trace⟩

/-! ### The events of the parts that follow another -/

theorem Hw.Moves.pageEvents_eq (h : s.Moves c t ws n ev) : pageEvents t c = pageEvents s c := by
  funext op off out a
  simp only [pageEvents, h.frameEvents_eq, h.params, h.latch]

theorem Hw.Moves.pollEvents_eq (h : s.Moves c t ws n ev) : pollEvents t c = pollEvents s c := by
  have hstatus : statusEvents t c = statusEvents s c := by
    funext f
    simp only [statusEvents, h.frameEvents_eq, h.params]
  funext a
  simp only [pollEvents, hstatus]

theorem Hw.Moves.dumpPagesEvents_eq (h : s.Moves c t ws n ev) (vs : List Span) (pages : List PageAnswers) :
    dumpPagesEvents t c vs pages = dumpPagesEvents s c vs pages := by
  induction vs generalizing pages with
  | nil => rfl
  | cons v vs ih =>
    cases pages with
    | nil => rfl
    | cons a rest => rw [dumpPagesEvents, dumpPagesEvents, ih, h.pageEvents_eq, h.params]

theorem Hw.Moves.programBytesEvents_eq (h : s.Moves c t ws n ev) (off : Half) (bytes : List Byte)
    (answers : List ByteAnswers) : programBytesEvents t c off bytes answers = programBytesEvents s c off bytes answers := by
  induction bytes generalizing off answers with
  | nil => rfl
  | cons b bytes ih =>
    cases answers with
    | nil => rfl
    | cons a rest =>
      rw [programBytesEvents, programBytesEvents, ih, programByteEvents, programByteEvents, h.pollEvents_eq,
        h.frameEvents_eq, h.pageEvents_eq, h.params]

/-! ### Stores one after the other -/

theorem Hw.Fills.nil (r : Ref) (hm : s.mem.wf = true) : s.Fills r [] s :=
  ⟨hm, nofun, fun _ _ _ => rfl, fun _ => rfl, fun _ => rfl⟩

/-- Two fills, the second where the first ended (20_memory.md R47). -/
theorem Hw.Fills.append {r : Ref} {bs bs' : List Byte} (h : s.Fills r bs t) (h' : t.Fills (r.add bs.length) bs' u)
    (hr : r.space ≠ .opb) (hlen : bs.length + bs'.length ≤ 2 ^ 32) : s.Fills r (bs ++ bs') u where
  wf := h'.wf
  stored j hj := by
    rw [List.length_append] at hj
    by_cases hlt : j < bs.length
    · rw [List.getElem_append_left hlt, ← h.stored j hlt]
      refine h'.others _ hr fun k hk heq => ?_
      rw [Ref.add_add] at heq
      have hjk := Ref.add_inj (by omega) (by omega) heq
      omega
    · have hstored := h'.stored (j - bs.length) (by omega)
      rw [Ref.add_add, Nat.add_sub_cancel' (Nat.not_lt.mp hlt)] at hstored
      rw [List.getElem_append_right (Nat.not_lt.mp hlt), hstored]
  others x hx hne := by
    rw [List.length_append] at hne
    refine (h'.others x hx fun k hk => ?_).trans (h.others x hx fun k hk => hne k (by omega))
    rw [Ref.add_add]
    exact hne _ (by omega)
  mem hb := (h'.mem hb).trans (h.mem hb)
  scr hb := (h'.scr hb).trans (h.scr hb)

/-- A sampled byte depends on its own eight answers only. -/
theorem sampledByte_append (p : Params) {ws ws' : List Word} (h : 8 ≤ ws.length) :
    sampledByte p (ws ++ ws') = sampledByte p ws := by
  refine byte_eq_of_getBit fun k hk => ?_
  rw [getBit_sampledByte _ _ hk, getBit_sampledByte _ _ hk, List.getD_append _ _ _ _ (by omega)]

theorem sampledBytes_append (p : Params) {j k : Nat} {ws ws' : List Word} (h : ws.length = 8 * j) :
    sampledBytes p (j + k) (ws ++ ws') = sampledBytes p j ws ++ sampledBytes p k ws' := by
  simp only [sampledBytes, List.range_add, List.map_append, List.map_map]
  congr 1
  · refine List.map_congr_left fun i hi => ?_
    have hi := List.mem_range.mp hi
    rw [List.drop_append_of_le_length (by omega), sampledByte_append p (by rw [List.length_drop]; omega)]
  · refine List.map_congr_left fun i _ => ?_
    rw [Function.comp_apply, Nat.mul_add, ← h, ← List.drop_drop, List.drop_left]

/-! ### DUMP -/

theorem eq_nil_of_pagesFit {pages : List PageAnswers} (h : pagesFit [] pages) : pages = [] := by
  cases pages with
  | nil => rfl
  | cons a rest => exact h.elim

theorem exists_of_pagesFit_cons {v : Span} {vs : List Span} {pages : List PageAnswers} (h : pagesFit (v :: vs) pages) :
    ∃ a rest, pages = a :: rest ∧ a.fits v.len ∧ pagesFit vs rest := by
  cases pages with
  | nil => exact h.elim
  | cons a rest => exact ⟨a, rest, rfl, h⟩

theorem runDumpLoop_of_len_eq_zero {v : Span} (rounds : Nat) (s : Hw) (hv : v.len = 0) :
    runDumpLoop c rounds v s = some (s, .ok) := by
  cases rounds <;> exact if_pos hv

/-- A page of Dump's loop, and the loop from there (43_flash_ops.md R79). -/
theorem runDumpLoop_succ {v : Span} (rounds : Nat) (hv : v.len ≠ 0)
    (h : runReadPage (dumpPage s.latch.ps.toNat v) c s = some (t, .ok)) :
    runDumpLoop c (rounds + 1) v s = runDumpLoop c rounds (v.advance (pageChunk t.latch.ps.toNat v)) t := by
  rw [runDumpLoop, if_neg hv]
  simp only [h, Option.bind_some]

/-- What Dump's page loop does from s on, with v still to read (43_flash_ops.md R79). -/
def DumpLoopPlays (c : Bool) (ps rounds : Nat) (v : Span) (pages : List PageAnswers) (s : Hw) : Prop :=
  ∃ t,
    (runDumpLoop c rounds v s = some (t, .ok) ∧
      s.Fills v.buf (sampledBytes s.params v.len (pages.flatMap PageAnswers.payload)) t) ∧
    s.Plays c t (pages.flatMap (PageAnswers.words s.latch.present))
      (dumpPagesEvents s c (dumpPages ps rounds v) pages)

theorem dumpLoopPlays_of_len_eq_zero {ps rounds : Nat} {v : Span} {pages : List PageAnswers} (hv : v.len = 0)
    (hm : s.mem.wf = true) (hfits : pagesFit (dumpPages ps rounds v) pages) : DumpLoopPlays c ps rounds v pages s := by
  rw [dumpPages_of_len_eq_zero _ hv] at hfits
  obtain rfl := eq_nil_of_pagesFit hfits
  rw [DumpLoopPlays, dumpPages_of_len_eq_zero _ hv, hv]
  exact ⟨s, ⟨runDumpLoop_of_len_eq_zero rounds s hv, .nil _ hm⟩, rfl, rfl, fun _ => rfl, (List.append_nil _).symm⟩

/-- Dump's page loop (43_flash_ops.md R79). -/
theorem runDumpLoop_plays {ps rounds : Nat} {v : Span} {pages : List PageAnswers} {s : Hw} (hps : 0 < ps)
    (hlatch : s.latch.ps.toNat = ps) (hbuf : v.buf.space ≠ .opb) (hlen : v.len ≤ 2 ^ 32) (hr : v.len ≤ rounds)
    (hv : v.legal s.scr.length = true) (hm : s.mem.wf = true) (hfits : pagesFit (dumpPages ps rounds v) pages)
    (hf : s.Feeds c (pages.flatMap (PageAnswers.words s.latch.present))
      (dumpPagesEvents s c (dumpPages ps rounds v) pages)) : DumpLoopPlays c ps rounds v pages s := by
  induction rounds generalizing v pages s with
  | zero => exact dumpLoopPlays_of_len_eq_zero (Nat.le_zero.mp hr) hm hfits
  | succ rounds ih =>
    by_cases hv0 : v.len = 0
    · exact dumpLoopPlays_of_len_eq_zero hv0 hm hfits
    rw [dumpPages_succ _ hv0] at hfits hf
    obtain ⟨a, rest, rfl, hafits, hrestfits⟩ := exists_of_pagesFit_cons hfits
    rw [DumpLoopPlays, dumpPages_succ _ hv0]
    have hle := pageChunk_le ps v
    obtain ⟨t, hpage, hfills, h0⟩ := runReadPage_plays (v := dumpPage ps v) hbuf (hle.trans hlen) (dumpPage_legal hv) hm
      hafits hf.left
    have hlatch' : t.latch.ps.toNat = ps := by rw [Hw.Moves.latch h0, hlatch]
    rw [← hlatch] at hpage
    obtain ⟨u, ⟨hloop, hfills'⟩, h1⟩ := Hw.Moves.andThen h0 (fun present => rest.flatMap (PageAnswers.words present))
      (fun t => dumpPagesEvents t c (dumpPages ps rounds (v.advance (pageChunk ps v))) rest)
      (Hw.Moves.dumpPagesEvents_eq h0 _ _)
      (ih hlatch' hbuf ((Nat.sub_le ..).trans hlen) (advance_pageChunk_len_le hps hv0 hr)
        (by rw [(runReadPage_same hpage).scrLength]; exact Span.advance_legal hv hle) hfills.wf hrestfits) hf
    refine ⟨u, ⟨?_, ?_⟩, h1⟩
    · rw [runDumpLoop_succ rounds hv0 hpage, hlatch', hloop]
    · rw [Hw.Moves.params h0] at hfills'
      have hcover : (dumpPage ps v).len + (v.advance (pageChunk ps v)).len = v.len := Nat.add_sub_of_le hle
      have hall := hfills.append (by rwa [sampledBytes_length]) hbuf
        (by rw [sampledBytes_length, sampledBytes_length, hcover]; exact hlen)
      rwa [← sampledBytes_append _ hafits.2, hcover] at hall

/-- Dump (43_flash_ops.md R79). -/
theorem runDump_plays {v : Span} {a : PollAnswers} {pages : List PageAnswers} (hps : 0 < s.latch.ps.toNat)
    (hbuf : v.buf.space ≠ .opb) (hlen : v.len ≤ 2 ^ 32) (hv : v.legal s.scr.length = true) (hm : s.mem.wf = true)
    (hafits : a.fits s.params) (hfits : pagesFit (dumpPages s.latch.ps.toNat v.len v) pages)
    (hf : s.Feeds c (a.words s.latch.present ++ pages.flatMap (PageAnswers.words s.latch.present))
      (pollEvents s c a ++ dumpPagesEvents s c (dumpPages s.latch.ps.toNat v.len v) pages)) :
    ∃ t, (∃ fuel, runDump fuel c v s = some (t, .ok)) ∧
      s.Fills v.buf (sampledBytes s.params v.len (pages.flatMap PageAnswers.payload)) t ∧
      s.Plays c t (a.words s.latch.present ++ pages.flatMap (PageAnswers.words s.latch.present))
        (pollEvents s c a ++ dumpPagesEvents s c (dumpPages s.latch.ps.toNat v.len v) pages) := by
  obtain ⟨t, hpoll, h0⟩ := runPollReady_playsOut hm hafits hf.left
  obtain ⟨u, ⟨hloop, hfills⟩, h1⟩ := Hw.Moves.andThen h0.toMoves
    (fun present => pages.flatMap (PageAnswers.words present))
    (fun t => dumpPagesEvents t c (dumpPages s.latch.ps.toNat v.len v) pages) (h0.dumpPagesEvents_eq _ _)
    (runDumpLoop_plays hps (by rw [h0.latch]) hbuf hlen (Nat.le_refl _) (by rwa [h0.scr]) (by rwa [h0.mem]) hfits) hf
  rw [h0.params] at hfills
  refine ⟨u, ⟨a.busy.length + 1, ?_⟩, h0.fills hfills, h1⟩
  rw [runDump, hpoll]
  exact hloop

/-! ### PROGRAM -/

/-- The given bytes stand at r, one after the other (20_memory.md R47). -/
def Hw.Holds (s : Hw) (r : Ref) (bytes : List Byte) : Prop :=
  ∀ j, ∀ h : j < bytes.length, s.memRead (r.add j) = some bytes[j]

theorem Hw.Holds.head {r : Ref} {b : Byte} {bytes : List Byte} (h : s.Holds r (b :: bytes)) : s.memRead r = some b := by
  have hfirst := h 0 (Nat.zero_lt_succ _)
  rwa [Ref.add_zero] at hfirst

theorem Hw.Holds.tail {r : Ref} {b : Byte} {bytes : List Byte} (h : s.Holds r (b :: bytes)) :
    s.Holds (r.add 1) bytes := fun j hj => by
  rw [Ref.add_add, Nat.add_comm]
  exact h (j + 1) (Nat.succ_lt_succ hj)

/-- A run that sends leaves the bytes of BUF and SCR where they are. -/
theorem Hw.Sends.holds {r : Ref} {bytes : List Byte} (h : s.Sends c t ws n ev) (hr : r.space ≠ .opb)
    (hs : s.Holds r bytes) : t.Holds r bytes :=
  fun j hj => (memRead_eq_of_ne_opb (r := r.add j) h.mem h.scr hr).trans (hs j hj)

/-- The bits that a page write of one byte sends. -/
theorem sourceBits_programByte {v : Span} {b : Byte} (hb : s.memRead v.buf = some b) :
    (List.range (8 * (programByte v).len)).map (sourceBit (payloadOut (programByte v) c) · s) = (byteBits b).map some := by
  rw [byteBits, List.map_map]
  refine List.map_congr_left fun i hi => ?_
  have hbyte : bitByte v.buf i = v.buf := by
    rw [bitByte, Nat.div_eq_of_lt (show i < 8 from List.mem_range.mp hi), Ref.add_zero]
  show (s.memRead (bitByte v.buf i)).map (getBit · i) = some (getBit b i)
  rw [hbyte, hb, Option.map_some]

/-- One byte of Program's loop (43_flash_ops.md R80). -/
theorem runProgramByte_playsOut {v : Span} {b : Byte} {a : ByteAnswers} (hbuf : v.buf.space ≠ .opb)
    (hb : s.memRead v.buf = some b) (hm : s.mem.wf = true) (hfits : a.fits s.params)
    (hf : s.Feeds c (a.words s.latch.present) (programByteEvents s c v.off b a)) :
    ∃ t, runProgramByte (a.poll.busy.length + 1) c v s = some (t, .ok) ∧
      s.PlaysOut c t (a.words s.latch.present) (programByteEvents s c v.off b a) := by
  obtain ⟨hpoll, hwren, hpage⟩ := hfits
  obtain ⟨t, hrun, h0⟩ := runPollReady_playsOut hm hpoll hf.left.left
  obtain ⟨u, hrun1, h1⟩ := h0.andThen a.wren.words (fun t => frameEvents t c (byteBits t.params.opWren) a.wren)
    (by rw [h0.frameEvents_eq, h0.params]) (runEnableWrite_playsOut hwren) hf.left
  obtain ⟨x, hrun2, h2⟩ := h1.andThen a.page.words
    (fun t => pageEvents t c t.params.opWrite v.off (byteBits b) a.page) (by rw [h1.pageEvents_eq, h1.params])
    (runWritePage_playsOut (v := programByte v) hbuf
      (sourceBits_programByte ((memRead_eq_of_ne_opb h1.mem h1.scr hbuf).trans hb)) hpage) hf
  exact ⟨x, by simp only [runProgramByte, hrun, hrun1, hrun2, Option.bind_some], h2⟩

/-- Program's byte loop and its final PollReady (43_flash_ops.md R80). -/
theorem runProgramLoop_playsOut {bytes : List Byte} {answers : List ByteAnswers} {final : PollAnswers} {v : Span} {s : Hw}
    (hbuf : v.buf.space ≠ .opb) (hbytes : s.Holds v.buf bytes)
    (hm : s.mem.wf = true) (hcount : answers.length = bytes.length) (hfits : ∀ a ∈ answers, a.fits s.params)
    (hfinal : final.fits s.params)
    (hf : s.Feeds c (answers.flatMap (ByteAnswers.words s.latch.present) ++ final.words s.latch.present)
      (programBytesEvents s c v.off bytes answers ++ pollEvents s c final)) :
    ∃ t, (∃ fuel, runProgramLoop fuel c bytes.length v s = some (t, .ok)) ∧
      s.PlaysOut c t (answers.flatMap (ByteAnswers.words s.latch.present) ++ final.words s.latch.present)
        (programBytesEvents s c v.off bytes answers ++ pollEvents s c final) := by
  induction bytes generalizing answers v s with
  | nil =>
    obtain rfl := List.eq_nil_of_length_eq_zero hcount
    obtain ⟨t, hrun, h0⟩ := runPollReady_playsOut hm hfinal hf
    refine ⟨t, ⟨final.busy.length + 1, ?_⟩, h0⟩
    rw [List.length_nil, runProgramLoop, hrun]
    rfl
  | cons b bytes ih =>
    obtain ⟨a, rest, rfl⟩ := List.exists_cons_of_length_eq_add_one hcount
    obtain ⟨hafits, hrestfits⟩ := List.forall_mem_cons.mp hfits
    rw [programBytesEvents, List.flatMap_cons, List.append_assoc, List.append_assoc] at hf ⊢
    obtain ⟨t, hrun, h0⟩ := runProgramByte_playsOut hbuf hbytes.head hm hafits hf.left
    obtain ⟨u, ⟨fuel, hloop⟩, h1⟩ := h0.andThen
      (fun present => rest.flatMap (ByteAnswers.words present) ++ final.words present)
      (fun t => programBytesEvents t c (v.off + 1#16) bytes rest ++ pollEvents t c final)
      (by rw [h0.programBytesEvents_eq, h0.pollEvents_eq])
      (ih (v := v.advance 1) hbuf (h0.holds (r := v.buf.add 1) hbuf hbytes.tail) (by rwa [h0.mem]) (Nat.succ.inj hcount)
        (by rwa [h0.params]) (by rwa [h0.params])) hf
    refine ⟨u, ⟨max (a.poll.busy.length + 1) fuel, ?_⟩, h1⟩
    rw [List.length_cons, runProgramLoop, runProgramByte_mono (Nat.le_max_left ..) hrun]
    exact runProgramLoop_mono (Nat.le_max_right ..) _ hloop

/-- Program (43_flash_ops.md R80). -/
theorem runProgram_playsOut {bytes : List Byte} {a : ProgramAnswers} {v : Span} (hbuf : v.buf.space ≠ .opb)
    (hlen : v.len = bytes.length) (hbytes : s.Holds v.buf bytes)
    (hm : s.mem.wf = true) (hfits : a.fits s.params bytes.length)
    (hf : s.Feeds c (a.words s.latch.present) (programEvents s c v.off bytes a)) :
    ∃ t, (∃ fuel, runProgram fuel c v s = some (t, .ok)) ∧
      s.PlaysOut c t (a.words s.latch.present) (programEvents s c v.off bytes a) := by
  obtain ⟨hclear, hcount, hbytesfit, hfinal⟩ := hfits
  rw [ProgramAnswers.words, programEvents, List.append_assoc, List.append_assoc] at hf ⊢
  obtain ⟨t, hrun, h0⟩ := runClearBp_playsOut hclear hf.left
  obtain ⟨u, ⟨fuel, hloop⟩, h1⟩ := h0.andThen
    (fun present => a.bytes.flatMap (ByteAnswers.words present) ++ a.final.words present)
    (fun t => programBytesEvents t c v.off bytes a.bytes ++ pollEvents t c a.final)
    (by rw [h0.programBytesEvents_eq, h0.pollEvents_eq])
    (runProgramLoop_playsOut hbuf (h0.holds hbuf hbytes)
      (by rwa [h0.mem]) hcount (by rwa [h0.params]) (by rwa [h0.params])) hf
  refine ⟨u, ⟨fuel, ?_⟩, h1⟩
  rw [runProgram, hrun, Option.bind_some, hlen]
  exact hloop

end

/-! ### The commands -/

section

variable {c : Bool} {s : State} {h : Hw} {r : SubOutcome} {fuel : Nat}

theorem dump_ends (hs : s.Accepted) (hl : lengthFits s.hw.latch = true)
    (hr : runDump fuel c (destSpan s.hw.latch) s.hw = some (h, r)) : CommandEnds (.dump c) s h r.okOrCancelled :=
  commandEnds_of_ends (wrap := .dump c) (k := endDump) (fun _ => nofun) (fun _ _ ht => blockStep_of_seq ht rfl) hs
    (show exec (.dump c) s = _ from if_pos hl) (stepDump_ends hr) (reaches_finish s hs.quiet.turns h _)

theorem program_ends (hs : s.Accepted) (hl : lengthFits s.hw.latch = true)
    (hr : runProgram fuel c (sourceSpan s.hw.latch) s.hw = some (h, r)) : CommandEnds (.program c) s h r.rcode :=
  commandEnds_of_ends (wrap := .program c) (k := endByOutcome) (fun _ => nofun) (fun _ _ ht => blockStep_of_seq ht rfl) hs
    (show exec (.program c) s = _ from if_pos hl) (stepProgram_ends hr) (reaches_finish s hs.quiet.turns h _)

end

/-- Settles O34: PollReady, and the page loop that fills the destination. -/
theorem dumpReadsPageByPage : Obligations.DumpReadsPageByPage := by
  rintro s c a pages split ev hs hsound hl rfl hafits hfits ha rfl hc
  rw [← byteCount_eq hl] at hfits hc ⊢
  have hlen : byteCount s.hw.latch ≤ 2 ^ 32 := byteCount_eq hl ▸ s.hw.latch.len.isLt.le
  obtain ⟨h, ⟨fuel, hrun⟩, hfills, hplays⟩ := runDump_plays (v := destSpan s.hw.latch) (legalPageSize_pos hsound.pageSize)
    nofun hlen rfl hsound.mem hafits hfits ⟨ha, hc⟩
  have hport := Hw.Moves.port hplays
  rw [hfills.scr nofun] at hport
  exact ⟨h, dump_ends hs ((lengthFits_iff _).mpr hl) hrun, hport, Hw.Moves.trace hplays, hfills.bufHolds⟩

/-- The bytes of BUF from an address on (00_scope.md R6). -/
theorem holds_bufRef (s : Hw) (a : Word) (n : Nat) :
    s.Holds (bufRef a) ((List.range n).map fun j => s.mem.read (a + BitVec.ofNat 32 j).toNat) := fun j hj => by
  rw [List.getElem_map, List.getElem_range]
  rfl

/-- Settles O36: ClearBP, the byte loop over the source, and the final PollReady. -/
theorem programWritesByteByByte : Obligations.ProgramWritesByteByByte := by
  rintro s c a bytes ev hs hsound hl hbytes hfits ha rfl hc
  have hlen : bytes.length = s.hw.latch.len.toNat := by rw [hbytes, List.length_map, List.length_range]
  have hholds := holds_bufRef s.hw s.hw.latch.srca s.hw.latch.len.toNat
  rw [← hbytes] at hholds
  rw [← hlen] at hfits
  obtain ⟨h, ⟨fuel, hrun⟩, hplays⟩ := runProgram_playsOut (v := sourceSpan s.hw.latch) nofun
    ((byteCount_eq hl).trans hlen.symm) hholds hsound.mem hfits ⟨ha, hc⟩
  exact ⟨h, program_ends hs ((lengthFits_iff _).mpr hl) hrun, hplays.onlyPort, hplays.trace⟩

end Sys2Proof.Machine
end

section
/-! PROOFS. The session of ERASE, UNLOCK and CHECKSUM (43_flash_ops.md R81, R82, R84; 60_exceptions.md R88): every path of
their pseudocode ends with a Release or with the write of a timed-out Acquire, and both leave REQ clear. -/

namespace Sys2Proof.Machine

/-- The last value that the block wrote to CTRL has REQ = 0. -/
def Hw.ReqClear (s : Hw) : Prop := ∃ w, lastWrite s.trace = some w ∧ w.getLsbD s.params.bitReq.val = false

theorem lastWrite_append_wr (t : List Event) (v : Word) : lastWrite (t ++ [.wr v]) = some v := by
  simp only [lastWrite, List.foldl_append, List.foldl_cons, List.foldl_nil]

theorem bitMask_getLsbD_self (b : Fin 32) : (bitMask b).getLsbD b.val = true := by
  rw [bitMask, BitVec.getLsbD_shiftLeft, decide_eq_true b.isLt, decide_eq_false (Nat.lt_irrefl _), Nat.sub_self]
  rfl

section

variable {c rp : Bool} {s h : Hw} {r : SubOutcome} {code : RCode} {fuel : Nat}

/-- The write that ends a session or gives up its request: REQ cleared in LS, and LS written. -/
theorem reqClear_regWrite (s : Hw) : (s.clearLs (bitMask s.params.bitReq)).regWrite.ReqClear := by
  refine ⟨_, lastWrite_append_wr _ _, ?_⟩
  show (s.ls &&& ~~~bitMask s.params.bitReq).getLsbD s.params.bitReq.val = false
  rw [BitVec.getLsbD_and, BitVec.getLsbD_not, bitMask_getLsbD_self, Bool.not_true, Bool.and_false, Bool.and_false]

theorem runRelease_reqClear (hp : s.latch.present = true) : (runRelease s).ReqClear := by
  rw [runRelease, if_pos hp]
  exact reqClear_regWrite _

theorem runAcquire_reqClear (h : (runAcquire s).2 = .arbitrationTimeout) : (runAcquire s).1.ReqClear := by
  rw [runAcquire] at h ⊢
  split at h
  · rw [if_pos ‹_›]
    rw [runGrant] at h ⊢
    split at h
    · cases h
    · rw [if_neg ‹_›]
      exact reqClear_regWrite _
  · cases h

/-! ### ERASE and UNLOCK -/

theorem runEraseFrame_reqClear (hp : s.latch.present = true) (hrun : runEraseFrame c s = some (h, r)) : h.ReqClear := by
  simp only [runEraseFrame, Option.map_eq_some_iff, Prod.exists] at hrun
  obtain ⟨t, r1, hxfer, hrun⟩ := hrun
  have hp1 : t.latch.present = true := by
    rw [((runStandby_same s).trans ((Hw.SameRegs.setOpb0 _ _).trans (runXfer_same hxfer))).latch, hp]
  cases r1 with
  | ok | cancelled | arbitrationTimeout | protectedRegion =>
    cases hrun
    exact runRelease_reqClear hp1

theorem runEraseBody_reqClear (hp : s.latch.present = true) (hrun : runEraseBody c s = some (h, r)) : h.ReqClear := by
  simp only [runEraseBody, Option.bind_eq_some_iff, Prod.exists] at hrun
  obtain ⟨t, r1, hclear, hrun⟩ := hrun
  have hp1 : t.latch.present = true := by rw [(runClearBp_same hclear).latch, hp]
  cases r1 with
  | ok =>
    simp only [Option.bind_eq_some_iff, Prod.exists] at hrun
    obtain ⟨u, r2, henable, hrun⟩ := hrun
    have hp2 : u.latch.present = true := by rw [(runEnableWrite_same henable).latch, hp1]
    cases r2 with
    | ok => exact runEraseFrame_reqClear hp2 hrun
    | cancelled | arbitrationTimeout | protectedRegion =>
      cases hrun
      exact runRelease_reqClear hp2
  | cancelled | arbitrationTimeout | protectedRegion =>
    cases hrun
    exact runRelease_reqClear hp1

theorem runErase_reqClear (hp : s.latch.present = true) (hrun : runErase c s = some (h, r)) : h.ReqClear := by
  rw [runErase] at hrun
  obtain ho | ho := runAcquire_outcome s <;> simp only [ho] at hrun
  · exact runEraseBody_reqClear (by rw [((runAcquire_same s).trans (runStandby_same _)).latch, hp]) hrun
  · cases hrun
    exact runAcquire_reqClear ho

theorem runUnlock_reqClear (hp : s.latch.present = true) (hrun : runUnlock c s = some (h, r)) : h.ReqClear := by
  rw [runUnlock] at hrun
  obtain ho | ho := runAcquire_outcome s <;> simp only [ho] at hrun
  · simp only [Option.map_eq_some_iff, Prod.exists] at hrun
    obtain ⟨t, r1, hclear, hrun⟩ := hrun
    have hp1 : t.latch.present = true := by
      rw [((runAcquire_same s).trans ((runStandby_same _).trans (runClearBp_same hclear))).latch, hp]
    cases r1 with
    | ok | cancelled | arbitrationTimeout | protectedRegion =>
      cases hrun
      exact runRelease_reqClear hp1
  · cases hrun
    exact runAcquire_reqClear ho

/-! ### CHECKSUM -/

/-- Past its ClearBP, Program does not end PROTECTED_REGION (43_flash_ops.md R80). -/
theorem runProgramLoop_outcome {left : Nat} {v : Span} (hrun : runProgramLoop fuel c left v s = some (h, r)) :
    r ≠ .protectedRegion := by
  induction left generalizing v s with
  | zero =>
    simp only [runProgramLoop, Option.map_eq_some_iff, Prod.exists] at hrun
    obtain ⟨t, r1, -, hrun⟩ := hrun
    cases r1 with
    | ok st | cancelled =>
      cases hrun
      exact nofun
  | succ left ih =>
    simp only [runProgramLoop, Option.bind_eq_some_iff, Prod.exists] at hrun
    obtain ⟨t, r1, -, hrun⟩ := hrun
    cases r1 with
    | ok => exact ih hrun
    | cancelled | arbitrationTimeout | protectedRegion =>
      cases hrun
      exact nofun

/-- Program ends PROTECTED_REGION only after a Release of its own (43_flash_ops.md R80). -/
theorem runProgram_reqClear {v : Span} (hp : s.latch.present = true)
    (hrun : runProgram fuel c v s = some (h, .protectedRegion)) : h.ReqClear := by
  simp only [runProgram, Option.bind_eq_some_iff, Prod.exists] at hrun
  obtain ⟨t, r1, hclear, hrun⟩ := hrun
  have hp1 : t.latch.present = true := by rw [(runClearBp_same hclear).latch, hp]
  cases r1 with
  | ok => exact (runProgramLoop_outcome hrun rfl).elim
  | cancelled | arbitrationTimeout | protectedRegion =>
    cases hrun
    exact runRelease_reqClear hp1

theorem runRepair_reqClear {x : ChecksumResult} (hp : s.latch.present = true)
    (hrun : runRepair fuel c x s = some (h, code)) : h.ReqClear := by
  simp only [runRepair, Option.bind_eq_some_iff, Option.map_eq_some_iff, Prod.exists] at hrun
  obtain ⟨s1, hlow, s2, hhigh, t, r, hprogram, hrun⟩ := hrun
  have hp2 : s2.latch.present = true := by
    rw [((Hw.SameRegs.memWrite hlow).trans (Hw.SameRegs.memWrite hhigh)).latch, hp]
  have hp3 : t.latch.present = true := by rw [(runProgram_same hprogram).latch, hp2]
  cases r with
  | protectedRegion =>
    cases hrun
    exact runProgram_reqClear hp2 hprogram
  | ok | cancelled | arbitrationTimeout =>
    cases hrun
    exact runRelease_reqClear hp3

theorem runCompare_reqClear (hp : s.latch.present = true) (hrun : runCompare fuel c rp s = some (h, code)) :
    h.ReqClear := by
  simp only [runCompare, Option.bind_eq_some_iff] at hrun
  obtain ⟨x, -, hrun⟩ := hrun
  split at hrun
  · cases hrun
    exact runRelease_reqClear hp
  · split at hrun
    · exact runRepair_reqClear (s := s.setRdata (checksumData x)) hp hrun
    · cases hrun
      exact runRelease_reqClear hp

theorem runChecksum_reqClear (hp : s.latch.present = true) (hrun : runChecksum fuel c rp s = some (h, code)) :
    h.ReqClear := by
  rw [runChecksum] at hrun
  obtain ho | ho := runAcquire_outcome s <;> simp only [ho] at hrun
  · simp only [Option.bind_eq_some_iff, Prod.exists] at hrun
    obtain ⟨t, r, hdump, hrun⟩ := hrun
    have hp1 : t.latch.present = true := by rw [((runAcquire_same s).trans (runDump_same hdump)).latch, hp]
    cases r with
    | ok => exact runCompare_reqClear hp1 hrun
    | cancelled | arbitrationTimeout | protectedRegion =>
      cases hrun
      exact runRelease_reqClear hp1
  · cases hrun
    exact runAcquire_reqClear ho

end

/-! ### The commands -/

/-- A command that ends has run its procedure to the end, in the state that the command ends with but for STATUS. -/
theorem ends_of_commandEnds {π ρ : Type} {f : π → Hw → Hw × Res π ρ} {wrap : π → Seq} {k : ρ → Seq}
    (hidle : ∀ p, wrap p ≠ .idle)
    (hb : ∀ (p : π) (s : State), s.seq = wrap p → blockStep s = s.advance (f p s.hw) wrap k) {x : Res π ρ} {i : Instr}
    {s : State} (hs : s.Accepted) (he : exec i s = s.enter x wrap k) {g : ρ → RCode} (hk : ∀ r, k r = .finish (g r))
    {h : Hw} {code : RCode} (hc : CommandEnds i s h code) :
    ∃ r h', ResEnds f x s.hw r h' ∧ State.finish { s with hw := h } code = State.finish { s with hw := h' } (g r) := by
  obtain ⟨r, h', hends, hreach⟩ := ends_of_reaches hidle hb hs he rfl hc
  rw [hk] at hreach
  exact ⟨r, h', hends, eq_of_reaches_finish hs.quiet h' (g r) rfl hreach⟩

/-- `finish` leaves the trace alone, and a command leaves the parameters alone: what the procedure left is what the command
leaves. -/
theorem reqClear_of_finish_eq {s : State} {h h' : Hw} {code code' : RCode}
    (heq : State.finish { s with hw := h } code = State.finish { s with hw := h' } code') (hsame : s.hw.SameRegs h')
    (hclear : h'.ReqClear) : ∃ w, lastWrite h.trace = some w ∧ w.getLsbD s.hw.params.bitReq.val = false := by
  have htrace : h.trace = h'.trace := congrArg (fun u : State => u.hw.trace) heq
  rwa [htrace, ← hsame.params]

section

variable {c rp : Bool} {s : State} {h : Hw} {code : RCode}

theorem erase_reqClear (hs : s.Accepted) (hp : s.hw.latch.present = true) (hc : CommandEnds (.erase c) s h code) :
    ∃ w, lastWrite h.trace = some w ∧ w.getLsbD s.hw.params.bitReq.val = false := by
  obtain ⟨r, h', hends, heq⟩ := ends_of_commandEnds (wrap := .erase c) (k := endByOutcome) (fun _ => nofun)
    (fun _ _ ht => blockStep_of_seq ht rfl) hs rfl (g := SubOutcome.rcode) (fun _ => rfl) hc
  have hrun := run_of_ends (runErase_total c s.hw) (fun _ _ => stepErase_ends) hends
  exact reqClear_of_finish_eq heq (hends.same fun p u => (stepErase_same c p u).1) (runErase_reqClear hp hrun)

theorem unlock_reqClear (hs : s.Accepted) (hp : s.hw.latch.present = true) (hc : CommandEnds (.unlock c) s h code) :
    ∃ w, lastWrite h.trace = some w ∧ w.getLsbD s.hw.params.bitReq.val = false := by
  obtain ⟨r, h', hends, heq⟩ := ends_of_commandEnds (wrap := .unlock c) (k := endByOutcome) (fun _ => nofun)
    (fun _ _ ht => blockStep_of_seq ht rfl) hs rfl (g := SubOutcome.rcode) (fun _ => rfl) hc
  have hrun := run_of_ends (runUnlock_total c s.hw) (fun _ _ => stepUnlock_ends) hends
  exact reqClear_of_finish_eq heq (hends.same fun p u => (stepUnlock_same c p u).1) (runUnlock_reqClear hp hrun)

theorem checksum_reqClear (hs : s.Accepted) (hsound : s.hw.Sound) (hp : s.hw.latch.present = true)
    (hc : CommandEnds (.checksum c rp) s h code) :
    ∃ w, lastWrite h.trace = some w ∧ w.getLsbD s.hw.params.bitReq.val = false := by
  obtain ⟨r, h', hends, heq⟩ := ends_of_commandEnds (wrap := .checksum c rp) (k := .finish) (fun _ => nofun)
    (fun _ _ ht => blockStep_of_seq ht rfl) hs rfl (g := id) (fun _ => rfl) hc
  obtain ⟨fuel, hrun⟩ := runChecksum_of_ends hsound.params hsound.scr (legalPageSize_pos hsound.pageSize) hends
  exact reqClear_of_finish_eq heq (hends.same (stepChecksum_same c rp)) (runChecksum_reqClear hp hrun)

end

/-- Settles O47: every path through the three commands that open a session ends with a Release or with the write of a
timed-out Acquire. -/
theorem ownSessionEndsWithReqClear : Obligations.OwnSessionEndsWithReqClear := by
  intro i s h code hs hsound hi hp hc
  cases i with
  | erase c => exact erase_reqClear hs hp hc
  | unlock c => exact unlock_reqClear hs hp hc
  | checksum c rp => exact checksum_reqClear hs hsound hp hc
  | _ => cases hi

end Sys2Proof.Machine
end

section
/-! PROOFS. CHECKSUM (43_flash_ops.md R84): Acquire and the Dump into SCR, then the comparison and what follows from it.
Between the two RDATA is written, which no port event and no environment answer depends on. -/

namespace Sys2Proof.Machine

/-! ### SCR -/

theorem scrRef_add (a j : Nat) : (scrRef a).add j = scrRef (a + j) := by
  rw [scrRef, scrRef, Ref.add, BitVec.ofNat_add]

/-- A fill of all of SCR. -/
theorem Hw.Fills.scr_eq {s t : Hw} {bytes : List Byte} (h : s.Fills (scrRef 0) bytes t)
    (hlen : t.scr.length = bytes.length) (hle : bytes.length ≤ 2 ^ 32) : t.scr = bytes := by
  refine List.ext_getElem hlen fun j hj hj' => ?_
  have hstored := h.stored j hj'
  rw [scrRef_add, Nat.zero_add, memRead_scr t (by omega), List.getElem?_eq_getElem hj] at hstored
  exact Option.some.inj hstored

theorem memWrite_scr {s : Hw} {a : Nat} (ha : a < s.scr.length) (hle : s.scr.length ≤ 2 ^ 32) (v : Byte) :
    s.memWrite (scrRef a) v = some { s with scr := s.scr.set a v } := by
  have hmod : (scrRef a).addr.toNat = a := Nat.mod_eq_of_lt (by omega)
  exact (if_pos (show (scrRef a).addr.toNat < s.scr.length by rwa [hmod])).trans (by rw [hmod])

theorem set_set_eq_take_append {α : Type} {l : List α} {n : Nat} (h : l.length = 2 * (n + 1)) (a b : α) :
    (l.set (2 * n) a).set (2 * n + 1) b = l.take (2 * n) ++ [a, b] := by
  have htake : (l.take (2 * n)).length = 2 * n := List.length_take_of_le (by omega)
  obtain ⟨p, q, hdrop⟩ := List.length_eq_two.mp (show (l.drop (2 * n)).length = 2 by rw [List.length_drop]; omega)
  have hl : l = l.take (2 * n) ++ [p, q] := by rw [← hdrop, List.take_append_drop]
  calc (l.set (2 * n) a).set (2 * n + 1) b
    _ = ((l.take (2 * n) ++ [p, q]).set (2 * n) a).set (2 * n + 1) b := by rw [← hl]
    _ = l.take (2 * n) ++ [a, b] := by
      rw [List.set_append_right _ _ htake.le, htake, Nat.sub_self, List.set_append_right _ _ (by omega), htake,
        Nat.add_sub_cancel_left]
      rfl

/-- The second store to a word at the end of SCR, after the first one. -/
theorem memWrite_second {s : Hw} {k : Nat} (hlen : s.scr.length = 2 * (k + 1)) (hk : k ≤ 32766) (a b : Byte) :
    { s with scr := s.scr.set (2 * k) a }.memWrite (scrRef (2 * k + 1)) b =
      some { s with scr := s.scr.take (2 * k) ++ [a, b] } := by
  have hset : (s.scr.set (2 * k) a).length = 2 * (k + 1) := List.length_set.trans hlen
  rw [← set_set_eq_take_append hlen]
  exact memWrite_scr (s := { s with scr := s.scr.set (2 * k) a }) (hset ▸ by omega) (hset ▸ by omega) b

/-- The two bytes of the word that CHECKSUM's repair stores (43_flash_ops.md R84). -/
def repairBytes (p : Params) (x : ChecksumResult) : List Byte :=
  [firstByte p.wordOrder x.computed, secondByte p.wordOrder x.computed]

/-- SCR with the word k replaced (43_flash_ops.md R84). -/
def repairedScr (p : Params) (x : ChecksumResult) (bytes : List Byte) : List Byte :=
  bytes.take (2 * p.checksumIndex) ++ repairBytes p x

section

variable {c rp : Bool} {s t u : Hw} {ws : List Word} {n : Nat} {ev : List Event} {x : ChecksumResult} {fix : ProgramAnswers}
  {v : Word}

theorem runRepair_of_runProgram {fuel : Nat} (hp : s.params.wellFormed = true)
    (hscr : s.scr.length = 2 * (s.params.checksumIndex + 1))
    (h : runProgram fuel c (repairSpan s.params) { s with scr := repairedScr s.params x s.scr } = some (t, .ok)) :
    runRepair fuel c x s = some (runRelease t, .repaired) := by
  have hle := Params.index_le hp
  rw [runRepair, memWrite_scr (by omega) (by omega), Option.bind_some]
  simp only [memWrite_second hscr hle, Option.bind_some]
  rw [← repairBytes, ← repairedScr, h]
  rfl

/-- The two bytes of the word k, in the repaired SCR. -/
theorem holds_repairedScr (hp : s.params.wellFormed = true) (hscr : s.scr.length = 2 * (s.params.checksumIndex + 1)) :
    { s with scr := repairedScr s.params x s.scr }.Holds (repairSpan s.params).buf
      (repairBytes s.params x) := fun j hj => by
  have hle := Params.index_le hp
  have htake : (s.scr.take (2 * s.params.checksumIndex)).length = 2 * s.params.checksumIndex :=
    List.length_take_of_le (by omega)
  have hj2 : j < 2 := hj
  rw [repairSpan, scrRef_add, memRead_scr _ (by omega)]
  show (repairedScr s.params x s.scr)[2 * s.params.checksumIndex + j]? = _
  rw [repairedScr, List.getElem?_append_right (by omega), htake, Nat.add_sub_cancel_left]
  exact List.getElem?_eq_getElem _

theorem Hw.Moves.programEvents_eq (h : s.Moves c t ws n ev) (off : Half) (bytes : List Byte) (a : ProgramAnswers) :
    programEvents t c off bytes a = programEvents s c off bytes a := by
  rw [programEvents, programEvents, h.writeStatusEvents_eq, h.programBytesEvents_eq, h.pollEvents_eq, h.params]

/-- CHECKSUM's repair from its PROGRAM on, and the Release after it (43_flash_ops.md R84). -/
theorem runProgram_runRelease_playsOut {span : Span} {bytes : List Byte} (hbuf : span.buf.space ≠ .opb)
    (hlen : span.len = bytes.length) (hbytes : s.Holds span.buf bytes) (hm : s.mem.wf = true)
    (hfits : fix.fits s.params bytes.length)
    (hf : s.Feeds c (fix.words s.latch.present ++ releaseWords s.latch.present v)
      (programEvents s c span.off bytes fix ++ releasePart s v)) :
    ∃ u, (∃ fuel t, runProgram fuel c span s = some (t, .ok) ∧ u = runRelease t) ∧
      s.PlaysOut c u (fix.words s.latch.present ++ releaseWords s.latch.present v)
        (programEvents s c span.off bytes fix ++ releasePart s v) := by
  obtain ⟨t, ⟨fuel, hrun⟩, h0⟩ := runProgram_playsOut hbuf hlen hbytes hm hfits hf.left
  obtain ⟨u, hu, h1⟩ := h0.andThen (releaseWords · v) (releasePart · v) (congrFun h0.releasePart_eq v)
    runRelease_playsOut hf
  exact ⟨u, ⟨fuel, t, hrun, hu⟩, h1⟩

/-- CHECKSUM's repair, from its stores to SCR to its Release (43_flash_ops.md R84). -/
theorem runRepair_plays (hp : s.params.wellFormed = true) (hm : s.mem.wf = true)
    (hscr : s.scr.length = 2 * (s.params.checksumIndex + 1)) (hfix : fix.fits s.params 2)
    (hf : s.Feeds c (fix.words s.latch.present ++ releaseWords s.latch.present v)
      (programEvents s c (repairSpan s.params).off (repairBytes s.params x) fix ++ releasePart s v)) :
    ∃ t, ((∃ fuel, runRepair fuel c x s = some (t, .repaired)) ∧ t.mem = s.mem ∧
        t.scr = repairedScr s.params x s.scr) ∧
      s.Plays c t (fix.words s.latch.present ++ releaseWords s.latch.present v)
        (programEvents s c (repairSpan s.params).off (repairBytes s.params x) fix ++ releasePart s v) := by
  have hstores : s.Plays c { s with scr := repairedScr s.params x s.scr } [] [] :=
    ⟨rfl, rfl, fun _ => rfl, (List.append_nil _).symm⟩
  refine Hw.Moves.andThen hstores (fun present => fix.words present ++ releaseWords present v)
    (fun s => programEvents s c (repairSpan s.params).off (repairBytes s.params x) fix ++ releasePart s v)
    (by rw [Hw.Moves.programEvents_eq hstores, Hw.Moves.releasePart_eq hstores]) (fun hf => ?_) hf
  obtain ⟨_, ⟨fuel, t, hrun, rfl⟩, hplays⟩ := runProgram_runRelease_playsOut (span := repairSpan s.params) nofun rfl
    (holds_repairedScr hp hscr) hm hfix hf
  exact ⟨_, ⟨⟨fuel, runRepair_of_runProgram hp hscr hrun⟩, hplays.mem, hplays.scr⟩, hplays.toMoves⟩

/-! ### The comparison -/

/-- The result code of CHECKSUM for what its engine answered (43_flash_ops.md R84). -/
def checksumCode (x : ChecksumResult) (rp : Bool) : RCode :=
  if x.computed = x.stored then .valid else if rp = true then .repaired else .invalid

/-- What CHECKSUM reads after its dump. -/
def compareWords (x : ChecksumResult) (rp : Bool) (fix : ProgramAnswers) (v : Word) (present : Bool) : List Word :=
  (if x.computed ≠ x.stored ∧ rp = true then fix.words present else []) ++ releaseWords present v

/-- CHECKSUM's port events after its dump. -/
def compareEvents (x : ChecksumResult) (c rp : Bool) (fix : ProgramAnswers) (v : Word) (s : Hw) : List Event :=
  (if x.computed ≠ x.stored ∧ rp = true then
    programEvents s c (repairSpan s.params).off (repairBytes s.params x) fix
  else []) ++ releasePart s v

/-- What CHECKSUM leaves in SCR, from what its dump put there. -/
def comparedScr (p : Params) (x : ChecksumResult) (rp : Bool) (bytes : List Byte) : List Byte :=
  bytes.take (2 * p.checksumIndex) ++
    (if x.computed ≠ x.stored ∧ rp = true then repairBytes p x else bytes.drop (2 * p.checksumIndex))

theorem comparedScr_of_repair {p : Params} {bytes : List Byte} (h : x.computed ≠ x.stored ∧ rp = true) :
    comparedScr p x rp bytes = repairedScr p x bytes := by
  rw [comparedScr, if_pos h, repairedScr]

theorem comparedScr_of_noRepair {p : Params} {bytes : List Byte} (h : ¬(x.computed ≠ x.stored ∧ rp = true)) :
    comparedScr p x rp bytes = bytes := by
  rw [comparedScr, if_neg h, List.take_append_drop]

theorem agrees_iff : x.agrees = true ↔ x.computed = x.stored := beq_iff_eq

theorem runCompare_of_noRepair (fuel : Nat) (hx : scrChecksum s = some x) (h : ¬(x.computed ≠ x.stored ∧ rp = true)) :
    runCompare fuel c rp s = some (runRelease (s.setRdata (checksumData x)), checksumCode x rp) := by
  rw [runCompare, hx, Option.bind_some, checksumCode]
  by_cases hag : x.computed = x.stored
  · rw [if_pos hag, if_pos (agrees_iff.mpr hag)]
  · have hrp : ¬rp = true := fun hrp => h ⟨hag, hrp⟩
    rw [if_neg hag, if_neg (hag ∘ agrees_iff.mp), if_neg hrp, if_neg hrp]

theorem runCompare_of_repair (fuel : Nat) (hx : scrChecksum s = some x) (h : x.computed ≠ x.stored ∧ rp = true) :
    runCompare fuel c rp s = runRepair fuel c x (s.setRdata (checksumData x)) := by
  rw [runCompare, hx, Option.bind_some, if_neg (h.1 ∘ agrees_iff.mp), if_pos h.2]

/-- CHECKSUM after its Dump (43_flash_ops.md R84). -/
theorem runCompare_plays (hx : scrChecksum s = some x) (hp : s.params.wellFormed = true) (hm : s.mem.wf = true)
    (hscr : s.scr.length = 2 * (s.params.checksumIndex + 1)) (hfix : fix.fits s.params 2)
    (hf : (s.setRdata (checksumData x)).Feeds c (compareWords x rp fix v s.latch.present)
      (compareEvents x c rp fix v (s.setRdata (checksumData x)))) :
    ∃ t, ((∃ fuel, runCompare fuel c rp s = some (t, checksumCode x rp)) ∧ t.mem = s.mem ∧
        t.scr = comparedScr s.params x rp s.scr) ∧
      (s.setRdata (checksumData x)).Plays c t (compareWords x rp fix v s.latch.present)
        (compareEvents x c rp fix v (s.setRdata (checksumData x))) := by
  by_cases h : x.computed ≠ x.stored ∧ rp = true
  · have hcode : checksumCode x rp = .repaired := (if_neg h.1).trans (if_pos h.2)
    rw [compareWords, compareEvents, if_pos h, if_pos h] at hf ⊢
    simp only [comparedScr_of_repair h, hcode, runCompare_of_repair _ hx h]
    exact runRepair_plays (s := s.setRdata (checksumData x)) hp hm hscr hfix hf
  · rw [compareWords, compareEvents, if_neg h, if_neg h] at hf ⊢
    obtain ⟨_, rfl, hrelease⟩ := runRelease_playsOut hf
    have hscr' := hrelease.scr.trans (comparedScr_of_noRepair (p := s.params) h).symm
    exact ⟨_, ⟨⟨0, runCompare_of_noRepair 0 hx h⟩, hrelease.mem, hscr'⟩, hrelease.toMoves⟩

/-! ### The dump, and the whole run -/

theorem Hw.Moves.setRdata (h : s.Moves c t ws n ev) (v : Word) : (s.setRdata v).Moves c (t.setRdata v) ws n ev :=
  ⟨congrArg (Hw.setRdata · v) h.port, h.reads, h.cancels, h.trace⟩

/-- CHECKSUM's port events up to its comparison. -/
def checksumDumpEvents (s : Hw) (c : Bool) (q : AcquireAnswers) (a : PollAnswers) (pages : List PageAnswers) : List Event :=
  acquireEvents s q ++ (pollEvents s c a ++
    dumpPagesEvents s c (dumpPages s.latch.ps.toNat (checksumSpan s.params).len (checksumSpan s.params)) pages)

/-- CHECKSUM's answers up to its comparison. -/
def checksumDumpWords (present : Bool) (q : AcquireAnswers) (a : PollAnswers) (pages : List PageAnswers) : List Word :=
  q.words present ++ (a.words present ++ pages.flatMap (PageAnswers.words present))

/-- CHECKSUM up to its comparison (43_flash_ops.md R84). -/
theorem runAcquire_runDump_plays {q : AcquireAnswers} {a : PollAnswers} {pages : List PageAnswers} (hs : s.Sound)
    (hq : s.latch.present = true → q.granted s.params) (hafits : a.fits s.params)
    (hfits : pagesFit (dumpPages s.latch.ps.toNat (checksumSpan s.params).len (checksumSpan s.params)) pages)
    (hf : s.Feeds c (checksumDumpWords s.latch.present q a pages) (checksumDumpEvents s c q a pages)) :
    ∃ t u, (runAcquire s = (t, .ok) ∧ (∃ fuel, runDump fuel c (checksumSpan s.params) t = some (u, .ok)) ∧
        u.mem = s.mem ∧
        u.scr = sampledBytes s.params (checksumSpan s.params).len (pages.flatMap PageAnswers.payload)) ∧
      s.Plays c u (checksumDumpWords s.latch.present q a pages) (checksumDumpEvents s c q a pages) := by
  have hle : (checksumSpan s.params).len ≤ 2 ^ 32 := by
    have hk := Params.index_le hs.params
    show 2 * (s.params.checksumIndex + 1) ≤ 2 ^ 32
    omega
  obtain ⟨t, hacquire, h0⟩ := runAcquire_playsOut hq hf.left
  have hlegal : (checksumSpan s.params).legal t.scr.length = true :=
    checksumSpan_legal _ _ (by rw [h0.scr]; exact hs.scr)
  obtain ⟨u, ⟨hdump, hfills⟩, h1⟩ := Hw.Moves.andThen h0.toMoves
    (fun present => a.words present ++ pages.flatMap (PageAnswers.words present))
    (fun t => pollEvents t c a ++
      dumpPagesEvents t c (dumpPages t.latch.ps.toNat (checksumSpan s.params).len (checksumSpan s.params)) pages)
    (P := fun u => (∃ fuel, runDump fuel c (checksumSpan s.params) t = some (u, .ok)) ∧
      t.Fills (scrRef 0) (sampledBytes t.params (checksumSpan s.params).len (pages.flatMap PageAnswers.payload)) u)
    (by rw [h0.pollEvents_eq, h0.dumpPagesEvents_eq, h0.latch])
    (fun hf => by
      obtain ⟨u, hdump, hfills, h1⟩ := runDump_plays (v := checksumSpan s.params)
        (by rw [h0.latch]; exact legalPageSize_pos hs.pageSize) nofun hle hlegal (by rw [h0.mem]; exact hs.mem)
        (by rwa [h0.params]) (by rwa [h0.latch]) hf
      exact ⟨u, ⟨hdump, hfills⟩, h1⟩) hf
  rw [h0.params] at hfills
  obtain ⟨fuel, hrun⟩ := hdump
  refine ⟨t, u, ⟨hacquire, ⟨fuel, hrun⟩, (hfills.mem nofun).trans h0.mem, hfills.scr_eq ?_ ?_⟩, h1⟩
  · rw [(runDump_same hrun).scrLength, h0.scr, hs.scr, sampledBytes_length]
    rfl
  · rwa [sampledBytes_length]

theorem Hw.Moves.compareEvents_eq (h : s.Moves c t ws n ev) :
    compareEvents x c rp fix v t = compareEvents x c rp fix v s := by
  rw [compareEvents, compareEvents, h.programEvents_eq, h.releasePart_eq, h.params]

theorem programBytesEvents_setRdata (s : Hw) (w : Word) (off : Half) (bytes : List Byte) (answers : List ByteAnswers) :
    programBytesEvents (s.setRdata w) c off bytes answers = programBytesEvents s c off bytes answers := by
  induction bytes generalizing off answers with
  | nil => rfl
  | cons b bytes ih =>
    cases answers with
    | nil => rfl
    | cons a rest =>
      rw [programBytesEvents, programBytesEvents, ih]
      rfl

theorem compareEvents_setRdata (s : Hw) (w : Word) :
    compareEvents x c rp fix v (s.setRdata w) = compareEvents x c rp fix v s := by
  rw [compareEvents, compareEvents, programEvents, programEvents, programBytesEvents_setRdata]
  rfl

theorem runChecksum_of_ok {m k : Nat} {y : Hw × RCode} (hacquire : runAcquire s = (t, .ok))
    (hdump : runDump m c (checksumSpan s.params) t = some (u, .ok)) (hcompare : runCompare k c rp u = some y) :
    runChecksum (max m k) c rp s = some y := by
  simp only [runChecksum, hacquire, runDump_mono (Nat.le_max_left m k) hdump, Option.bind_some]
  exact runCompare_mono (Nat.le_max_right m k) hcompare

/-- CHECKSUM (43_flash_ops.md R84). -/
theorem runChecksum_plays {q : AcquireAnswers} {a : PollAnswers} {pages : List PageAnswers} {bytes : List Byte}
    (hs : s.Sound) (hq : s.latch.present = true → q.granted s.params) (hafits : a.fits s.params)
    (hfits : pagesFit (dumpPages s.latch.ps.toNat (checksumSpan s.params).len (checksumSpan s.params)) pages)
    (hfix : fix.fits s.params 2)
    (hbytes : bytes = sampledBytes s.params (checksumSpan s.params).len (pages.flatMap PageAnswers.payload))
    (hx : checksumEval s.params.wordOrder bytes s.params.checksumIndex s.latch.dat = some x)
    (hf : s.Feeds c (checksumDumpWords s.latch.present q a pages ++ compareWords x rp fix v s.latch.present)
      (checksumDumpEvents s c q a pages ++ compareEvents x c rp fix v s)) :
    ∃ t, ((∃ fuel, runChecksum fuel c rp s = some (t, checksumCode x rp)) ∧ t.mem = s.mem ∧
        t.scr = comparedScr s.params x rp bytes) ∧
      (s.setRdata (checksumData x)).Plays c t
        (checksumDumpWords s.latch.present q a pages ++ compareWords x rp fix v s.latch.present)
        (checksumDumpEvents s c q a pages ++ compareEvents x c rp fix v s) := by
  obtain ⟨t, u, ⟨hacquire, ⟨m, hdump⟩, hmem, hscr⟩, h0⟩ := runAcquire_runDump_plays hs hq hafits hfits hf.left
  rw [← hbytes] at hscr
  have hparams : u.params = s.params := Hw.Moves.params h0
  have hxu : scrChecksum u = some x := by rw [scrChecksum, hparams, hscr, Hw.Moves.latch h0, hx]
  have hlen : u.scr.length = 2 * (u.params.checksumIndex + 1) := by
    rw [hscr, hbytes, sampledBytes_length, hparams]
    rfl
  have h1 : (s.setRdata (checksumData x)).Plays c (u.setRdata (checksumData x)) _ _ := Hw.Moves.setRdata h0 _
  rw [← compareEvents_setRdata s (checksumData x)] at hf ⊢
  refine Hw.Moves.andThen h1 (compareWords x rp fix v) (compareEvents x c rp fix v) (Hw.Moves.compareEvents_eq h1)
    (fun hf => ?_) ⟨hf.answers, hf.uncancelled⟩
  obtain ⟨h, ⟨⟨k, hcompare⟩, hmem', hscr'⟩, h2⟩ := runCompare_plays hxu (hparams ▸ hs.params) (hmem ▸ hs.mem) hlen
    (hparams ▸ hfix) hf
  rw [hparams, hscr] at hscr'
  exact ⟨h, ⟨⟨max m k, runChecksum_of_ok hacquire hdump hcompare⟩, hmem'.trans hmem, hscr'⟩, h2⟩

end

/-! ### The command -/

theorem checksum_ends {c rp : Bool} {s : State} {h : Hw} {r : RCode} {fuel : Nat} (hs : s.Accepted)
    (hsound : s.hw.Sound) (hr : runChecksum fuel c rp s.hw = some (h, r)) : CommandEnds (.checksum c rp) s h r :=
  commandEnds_of_ends (wrap := .checksum c rp) (k := .finish) (fun _ => nofun) (fun _ _ ht => blockStep_of_seq ht rfl) hs
    rfl (stepChecksum_ends (Params.index_le hsound.params) hr) (reaches_finish s hs.quiet.turns h _)

/-- Settles O40: Acquire, the dump into SCR, the comparison with its two words in RDATA, and where it asks for one the
repair. -/
theorem checksumComparesAndRepairs : Obligations.ChecksumComparesAndRepairs := by
  rintro s c rp q a pages fix v split bytes x ev hs hsound hq rfl hafits hfits hfix hbytes hx ha rfl hc
  have hf : s.hw.Feeds c
      (checksumDumpWords s.hw.latch.present q a pages ++ compareWords x rp fix v s.hw.latch.present)
      (checksumDumpEvents s.hw c q a pages ++ compareEvents x c rp fix v s.hw) :=
    ⟨by simpa only [checksumDumpWords, compareWords, List.append_assoc] using ha,
      by simpa only [checksumDumpEvents, compareEvents, checksumSpan, repairSpan, repairBytes, List.append_assoc] using hc⟩
  obtain ⟨h, ⟨⟨fuel, hrun⟩, hmem, hscr⟩, hplays⟩ := runChecksum_plays hsound hq hafits hfits hfix hbytes hx hf
  have hport := Hw.Moves.port hplays
  have hrdata : h.rdata = checksumData x := congrArg Hw.rdata hport
  rw [hmem] at hport
  refine ⟨h, checksum_ends hs hsound hrun, ?_, ?_, ?_, ?_, hscr⟩
  · have htrace := Hw.Moves.trace hplays
    simpa only [Hw.setRdata_trace, checksumDumpEvents, compareEvents, checksumSpan, repairSpan, repairBytes,
      List.append_assoc] using htrace
  · rw [hrdata]
    exact hport
  · rw [hrdata]
    exact BitVec.extractLsb'_append_eq_right
  · rw [hrdata]
    exact BitVec.extractLsb'_append_eq_left

end Sys2Proof.Machine
end

section
/-! PROOFS. What the machine's steps do to STATUS (60_exceptions.md R86, R93, R95): a step of the block changes none of BUSY,
RCODE and OVERRUN but at `finish`, and OVERRUN is set and cleared by stores to CMD alone. -/

namespace Sys2Proof.Machine

/-! ### Steps of the block -/

theorem advance_same {π ρ : Type} {s t : State} {x : Hw × Res π ρ} {wrap : π → Seq} {k : ρ → Seq}
    (h : s.advance x wrap k = .next t) (hx : s.hw.SameRegs x.1) : s.hw.SameRegs t.hw := by
  obtain ⟨u, p | r | e⟩ := x <;> cases h <;> exact hx

/-- A step of the block other than `finish` leaves the host's registers, the latch, BUSY, RCODE and OVERRUN alone. -/
theorem blockStep_same {s t : State} (h : blockStep s = .next t) (hf : ∀ code, s.seq ≠ .finish code) :
    s.hw.SameRegs t.hw := by
  obtain ⟨q, hw, host⟩ := s
  cases q with
  | idle => cases h; exact .refl _
  | transfer a p => exact advance_same h (stepXfer_same a p hw).1
  | acquire p => exact advance_same h (stepAcquire_same p hw).1
  | release p => exact advance_same h (stepRelease_same p hw).1
  | standby p => exact advance_same h (stepStandby_same p hw).1
  | enableWrite c p => exact advance_same h (stepEnableWrite_same c p hw).1
  | writeStatus st c p => exact advance_same h (stepWriteStatus_same st c p hw).1
  | readStatus c p => exact advance_same h (stepReadStatus_same c p hw).1
  | writePage v c p => exact advance_same h (stepPage_same _ _ _ c p hw).1
  | readPage v c p => exact advance_same h (stepPage_same _ _ _ c p hw).1
  | pollReady c p => exact advance_same h (stepPollReady_same c p hw).1
  | clearBp c p => exact advance_same h (stepWriteStatus_same _ c p hw).1
  | dump c p => exact advance_same h (stepDump_same c p hw).1
  | program c p => exact advance_same h (stepProgram_same c p hw).1
  | erase c p => exact advance_same h (stepErase_same c p hw).1
  | unlock c p => exact advance_same h (stepUnlock_same c p hw).1
  | checksum c rp p => exact advance_same h (stepChecksum_same c rp p hw)
  | statusResult st => cases h; exact .setRdata ..
  | finish code => exact (hf code rfl).elim

theorem blockStep_finish {s : State} {code : RCode} (h : s.seq = .finish code) : blockStep s = .next (s.finish code) := by
  simp only [blockStep, h]

/-- Settles O13: `finish` is one step, and every other step of the block leaves RCODE and BUSY alone. -/
theorem finishRecordsTheResult : Obligations.FinishRecordsTheResult :=
  ⟨fun _ _ h => blockStep_finish h, fun _ _ h hf => ⟨(blockStep_same h hf).rcode, (blockStep_same h hf).busy⟩⟩

/-- No step of the block changes OVERRUN. -/
theorem blockStep_overrun {s t : State} (h : blockStep s = .next t) : t.hw.status.overrun = s.hw.status.overrun := by
  by_cases hf : ∃ code, s.seq = .finish code
  · obtain ⟨code, hf⟩ := hf
    rw [blockStep_finish hf] at h
    cases h
    rfl
  · exact (blockStep_same h fun code hc => hf ⟨code, hc⟩).overrun

/-! ### OVERRUN -/

theorem windowStore_status (s : Hw) (off : Nat) (v : Word) : (s.windowStore off v).status = s.status := by
  simp only [Hw.windowStore]
  split <;> rfl

/-- A store that clears OVERRUN reaches CMD while BUSY = 0 (10_state.md R17; 60_exceptions.md R95). -/
theorem arriveStore_clears_overrun {off : Nat} {v : Word} {s t : State} (h : arriveStore off v s = .next t)
    (hs : s.hw.status.overrun = true) (ht : t.hw.status.overrun = false) : off = 0 ∧ s.hw.status.busy = false := by
  simp only [arriveStore] at h
  split at h
  · refine ⟨‹_›, ?_⟩
    obtain ⟨-, rfl⟩ | ⟨hbusy, -⟩ := storeCmd_cases h
    · cases ht
    · exact hbusy
  · cases h
    rw [windowStore_status, hs] at ht
    cases ht

/-- The host's operation that clears OVERRUN is a store to CMD that arrives at once. -/
theorem hostOp_clears_overrun {o : HostOp} {s t : State} (h : hostOp o s = .next t) (hs : s.hw.status.overrun = true)
    (ht : t.hw.status.overrun = false) :
    s.hw.status.busy = false ∧ s.hw.params.storeOrder = .program ∧ s.admitted = true ∧
      ∃ v, o = .store (wordAccess s.hw.params 0x00) v := by
  have hkept : t.hw.status ≠ s.hw.status := fun heq => by rw [heq, hs] at ht; cases ht
  cases o with
  | store a v =>
    obtain ⟨hnone, ⟨hprogram, harrive⟩ | ⟨-, rfl⟩⟩ := hostStore_cases h
    · obtain ⟨hoff, hbusy⟩ := arriveStore_clears_overrun harrive hs ht
      obtain ⟨haccess, -, -, hadmitted⟩ := State.refusal_eq_none.mp hnone
      rw [hoff] at haccess
      exact ⟨hbusy, hprogram, hadmitted, v, by rw [haccess]; rfl⟩
    · exact (hkept rfl).elim
  | load a =>
    simp only [hostOp, hostLoad] at h
    split at h <;> cases h
    exact (hkept rfl).elim
  | bufStore a v | bufLoad a => cases h; exact (hkept rfl).elim
  | wait | skipUnless code n | skipIf code n =>
    obtain rfl := hostStatus_eq h
    refine (hkept ?_).elim
    split <;> rfl

/-- A step that clears OVERRUN is a block reset, or brings a store to CMD while BUSY = 0. -/
theorem step_clears_overrun {s t : State} (h : step s = .next t) (hs : s.hw.status.overrun = true)
    (ht : t.hw.status.overrun = false) :
    s.mover = .reset ∨ (s.hw.status.busy = false ∧ ∃ w u, s.Delivers w u) := by
  cases hm : s.mover with
  | reset => exact .inl rfl
  | block =>
    simp only [step, hm] at h
    have hover := blockStep_overrun h
    rw [State.popTurn_hw, hs, ht] at hover
    cases hover
  | host =>
    simp only [step, hm, hostStep, State.popTurn_ops] at h
    split at h
    · cases h
      rw [State.popTurn_hw, hs] at ht
      cases ht
    · next o rest ho =>
      obtain ⟨hbusy, hprogram, hadmitted, v, rfl⟩ := hostOp_clears_overrun h hs ht
      exact .inr ⟨hbusy, v, _, .host hm ho hprogram hadmitted⟩
  | bus k =>
    simp only [step, hm] at h
    obtain rfl | ⟨⟨off, v⟩, hx, harrive⟩ := busStep_cases h
    · rw [State.popTurn_hw, hs] at ht
      cases ht
    · obtain ⟨rfl, hbusy⟩ := arriveStore_clears_overrun harrive hs ht
      exact .inr ⟨hbusy, v, _, .bus hm hx⟩

theorem storeCmd_of_busy {w : Word} {s : State} (h : s.hw.status.busy = true) :
    storeCmd w s = .next { s with hw := s.hw.markOverrun } := if_pos h

theorem State.Delivers.hw {s u : State} {w : Word} (h : s.Delivers w u) : u.hw = s.hw := by
  cases h <;> rfl

theorem State.Delivers.seq {s u : State} {w : Word} (h : s.Delivers w u) : u.seq = s.seq := by
  cases h <;> rfl

/-- Settles O9: a delivered store to CMD is that store, and of all steps only such a store and the reset clear OVERRUN. -/
theorem busyCommandStoreSetsOverrun : Obligations.BusyCommandStoreSetsOverrun := by
  refine ⟨fun s u w hd hb => ?_, fun s t => step_clears_overrun⟩
  rw [← hd.hw] at hb ⊢
  exact (step_of_delivers hd).trans (storeCmd_of_busy hb)

/-! ### Illegal commands -/

/-- An illegal word is accepted, and goes to its `finish` (30_encoding.md R55; 60_exceptions.md R86). -/
theorem storeCmd_of_illegal {w : Word} {s : State} (hb : s.hw.status.busy = false) (hw : ∀ i, decode w ≠ .ok i) :
    storeCmd w s = .next ((s.accept w).at (.finish .illegal)) := by
  rw [storeCmd, if_neg (Bool.eq_false_iff.mp hb)]
  split
  · exact (hw _ ‹_›).elim
  · rfl

/-- So does a page or loop command with LENGTH[31:16] ≠ 0 (30_encoding.md R54). -/
theorem storeCmd_of_tooLong {w : Word} {i : Instr} {s : State} (hb : s.hw.status.busy = false) (hw : decode w = .ok i)
    (hi : i.hasByteCount = true) (hlen : s.hw.length.extractLsb' 16 16 ≠ 0#16) :
    storeCmd w s = .next ((s.accept w).at (.finish .illegal)) := by
  simp only [storeCmd, hb, hw, Bool.false_eq_true, if_false]
  exact lengthWidths.1 i (s.accept w) hi hlen

theorem run_two {s t u : State} (h : step s = .next t) (h' : step t = .next u) :
    Host.Core.run Sys2Proof.core 2 s = .next u :=
  (run_succ (M := Sys2Proof.core) h 1).trans (run_succ (M := Sys2Proof.core) h' 0)

/-- Settles O14: the store brings the block to `finish(ILLEGAL)`, and that is the next step. -/
theorem illegalCommandEndsAtOnce : Obligations.IllegalCommandEndsAtOnce := by
  intro s u w hd hidle hb hturns hw
  rw [← hd.seq] at hidle
  rw [← hd.hw] at hb hw ⊢
  have hstore : storeCmd w u = .next ((u.accept w).at (.finish .illegal)) := by
    obtain hw | ⟨i, hw, hi, hlen⟩ := hw
    · exact storeCmd_of_illegal hb hw
    · exact storeCmd_of_tooLong hb hw hi hlen
  refine run_two ((step_of_delivers hd).trans hstore) ?_
  rw [step_eq_blockStep (by exact hturns) (by exact nofun), blockStep_finish rfl, hidle]
  rfl

end Sys2Proof.Machine
end

section
/-! PROOFS. A whole command and its pseudocode run straight through (Machine/Pseudocode.lean, `runCommand`): a command ends where
its pseudocode does, and a command that ends has run its pseudocode. With it the commands that always come to an end
(60_exceptions.md R99). -/

namespace Sys2Proof.Machine

/-! ### From the pseudocode to the command -/

/-- A run of a procedure and the result code of its outcome. -/
theorem exists_of_map {ρ : Type} {run : Option (Hw × ρ)} {g : ρ → RCode} {h : Hw} {code : RCode}
    (hr : (run.map fun x => (x.1, g x.2)) = some (h, code)) : ∃ r, run = some (h, r) ∧ code = g r := by
  simp only [Option.map_eq_some_iff, Prod.mk.injEq, Prod.exists] at hr
  obtain ⟨h', r, hrun, rfl, rfl⟩ := hr
  exact ⟨r, hrun, rfl⟩

/-- What the operand check of a page or loop command leaves (30_encoding.md R54). -/
theorem checked_cases {s h : Hw} {code : RCode} {run : Option (Hw × RCode)} (hr : checked s run = some (h, code)) :
    (lengthFits s.latch = true ∧ run = some (h, code)) ∨ (lengthFits s.latch = false ∧ h = s ∧ code = .illegal) := by
  rw [checked] at hr
  split at hr
  · exact .inl ⟨‹_›, hr⟩
  · cases hr
    exact .inr ⟨Bool.eq_false_iff.mpr ‹_›, rfl, rfl⟩

/-- A command ends as its pseudocode does (10_state.md R16). -/
theorem commandEnds_of_runCommand {i : Instr} {s : State} {h : Hw} {code : RCode} {fuel : Nat} (hs : s.Accepted)
    (hsound : s.hw.Sound) (hr : runCommand fuel i s.hw = some (h, code)) : CommandEnds i s h code := by
  have illegal : i.hasByteCount = true → lengthFits s.hw.latch = false → h = s.hw ∧ code = .illegal →
      CommandEnds i s h code := by
    rintro hi hl ⟨rfl, rfl⟩
    exact commandEnds_of_illegal hs (exec_too_long hi hl)
  cases i with
  | transfer c sf df => obtain ⟨r, hrun, rfl⟩ := exists_of_map hr; exact transfer_ends hs hrun
  | acquire => cases hr; exact acquire_ends hs rfl
  | release => cases hr; exact release_ends hs
  | standby => cases hr; exact standby_ends hs
  | enableWrite c => obtain ⟨r, hrun, rfl⟩ := exists_of_map hr; exact enableWrite_ends hs hrun
  | writeStatus c => obtain ⟨r, hrun, rfl⟩ := exists_of_map hr; exact writeStatus_ends hs hrun
  | readStatus c =>
    obtain ⟨⟨t, x⟩, hrun, hx⟩ := Option.map_eq_some_iff.mp hr
    have hends := readStatus_ends hs hrun
    rwa [hx] at hends
  | writePage c =>
    obtain ⟨hl, hr⟩ | ⟨hl, hr⟩ := checked_cases hr
    · obtain ⟨r, hrun, rfl⟩ := exists_of_map hr; exact writePage_ends hs hl hrun
    · exact illegal rfl hl hr
  | readPage c =>
    obtain ⟨hl, hr⟩ | ⟨hl, hr⟩ := checked_cases hr
    · obtain ⟨r, hrun, rfl⟩ := exists_of_map hr; exact readPage_ends hs hl hrun
    · exact illegal rfl hl hr
  | pollReady c =>
    obtain ⟨⟨t, x⟩, hrun, hx⟩ := Option.map_eq_some_iff.mp hr
    have hends := pollReady_ends hs hrun
    rwa [hx] at hends
  | clearBp c => obtain ⟨r, hrun, rfl⟩ := exists_of_map hr; exact clearBp_ends hs hrun
  | dump c =>
    obtain ⟨hl, hr⟩ | ⟨hl, hr⟩ := checked_cases hr
    · obtain ⟨r, hrun, rfl⟩ := exists_of_map hr; exact dump_ends hs hl hrun
    · exact illegal rfl hl hr
  | program c =>
    obtain ⟨hl, hr⟩ | ⟨hl, hr⟩ := checked_cases hr
    · obtain ⟨r, hrun, rfl⟩ := exists_of_map hr; exact program_ends hs hl hrun
    · exact illegal rfl hl hr
  | erase c => obtain ⟨r, hrun, rfl⟩ := exists_of_map hr; exact erase_ends hs hrun
  | unlock c => obtain ⟨r, hrun, rfl⟩ := exists_of_map hr; exact unlock_ends hs hrun
  | checksum c rp => exact checksum_ends hs hsound hr

/-! ### And back -/

/-- What the command ends with is what its pseudocode leaves, and BUSY, RCODE and SEQ as `finish` writes them. -/
def RunsPseudocode (i : Instr) (s : State) (h : Hw) (code : RCode) : Prop :=
  ∃ fuel h', runCommand fuel i s.hw = some (h', code) ∧
    State.finish { s with hw := h } code = State.finish { s with hw := h' } code

section

variable {i : Instr} {s : State} {h : Hw} {code : RCode}

/-- A command whose run comes to `finish` at a state that its pseudocode gives. -/
theorem runsPseudocode_of_finish {fuel : Nat} {x : Hw × RCode} (hx : runCommand fuel i s.hw = some x)
    (heq : State.finish { s with hw := h } code = State.finish { s with hw := x.1 } x.2) : RunsPseudocode i s h code := by
  have hcode : code = x.2 := congrArg (fun u : State => u.hw.status.rcode) heq
  subst hcode
  exact ⟨fuel, x.1, hx, heq⟩

/-- A command that enters a procedure: its pseudocode is the procedure's, and then its ending `e`. -/
theorem runsPseudocode_of_ends {π ρ : Type} {f : π → Hw → Hw × Res π ρ} {wrap : π → Seq} {k : ρ → Seq}
    (hidle : ∀ p, wrap p ≠ .idle)
    (hb : ∀ (p : π) (s : State), s.seq = wrap p → blockStep s = s.advance (f p s.hw) wrap k) {x : Res π ρ}
    (hs : s.Accepted) (he : exec i s = s.enter x wrap k) {e : Hw × ρ → Hw × RCode}
    (hk : ∀ t r, Reaches { s with hw := t, seq := k r } (State.finish { s with hw := h } code) →
      State.finish { s with hw := h } code = State.finish { s with hw := (e (t, r)).1 } (e (t, r)).2)
    (hrun : ∀ t r, ResEnds f x s.hw r t → ∃ fuel, runCommand fuel i s.hw = some (e (t, r)))
    (hc : CommandEnds i s h code) : RunsPseudocode i s h code := by
  obtain ⟨r, t, hends, hreach⟩ := ends_of_reaches hidle hb hs he rfl hc
  obtain ⟨fuel, hx⟩ := hrun t r hends
  exact runsPseudocode_of_finish hx (hk t r hreach)

/-- The same where the ending is `finish` with the code of the outcome. -/
theorem runsPseudocode_of_outcome {π ρ : Type} {f : π → Hw → Hw × Res π ρ} {wrap : π → Seq} {k : ρ → Seq}
    (hidle : ∀ p, wrap p ≠ .idle)
    (hb : ∀ (p : π) (s : State), s.seq = wrap p → blockStep s = s.advance (f p s.hw) wrap k) {x : Res π ρ}
    (hs : s.Accepted) (he : exec i s = s.enter x wrap k) {g : ρ → RCode} (hk : ∀ r, k r = .finish (g r))
    (hrun : ∀ t r, ResEnds f x s.hw r t → ∃ fuel, runCommand fuel i s.hw = some (t, g r))
    (hc : CommandEnds i s h code) : RunsPseudocode i s h code :=
  runsPseudocode_of_ends hidle hb hs he (e := fun y => (y.1, g y.2))
    (fun t r hreach => eq_of_reaches_finish hs.quiet t (g r) rfl (hk r ▸ hreach)) hrun hc

theorem finish_eq_of_tooLong (hs : s.Accepted) (hi : i.hasByteCount = true) (hl : lengthFits s.hw.latch = false)
    (hc : CommandEnds i s h code) : State.finish { s with hw := h } code = State.finish { s with hw := s.hw } .illegal := by
  obtain ⟨t, ht, hreach⟩ := hc
  obtain rfl := Host.Outcome.next.inj ((exec_too_long hi hl).symm.trans ht)
  exact eq_of_reaches_finish hs.quiet s.hw .illegal rfl hreach

/-- A page or loop command, illegal or with its procedure. -/
theorem runsPseudocode_of_checked (hs : s.Accepted) (hi : i.hasByteCount = true) {run : Nat → Option (Hw × RCode)}
    (hrun : ∀ fuel, runCommand fuel i s.hw = checked s.hw (run fuel))
    (hfits : lengthFits s.hw.latch = true → RunsPseudocode i s h code) (hc : CommandEnds i s h code) :
    RunsPseudocode i s h code := by
  cases hl : lengthFits s.hw.latch with
  | true => exact hfits hl
  | false =>
    exact runsPseudocode_of_finish (fuel := 0) ((hrun 0).trans (if_neg (Bool.eq_false_iff.mp hl)))
      (finish_eq_of_tooLong hs hi hl hc)

end

/-- A command that ends has run its pseudocode (10_state.md R16). -/
theorem runsPseudocode_of_commandEnds {i : Instr} {s : State} {h : Hw} {code : RCode} (hs : s.Accepted)
    (hsound : s.hw.Sound) (hc : CommandEnds i s h code) : RunsPseudocode i s h code := by
  cases i with
  | transfer c sf df =>
    refine runsPseudocode_of_outcome (wrap := .transfer (transferArgs s.hw.latch c sf df)) (k := endTransfer)
      (x := .goto .seed) (fun _ => nofun) (fun _ _ ht => blockStep_of_seq ht rfl) hs rfl (fun _ => rfl)
      (fun t r hends => ⟨0, ?_⟩) hc
    exact congrArg (Option.map _) (run_of_ends (runXfer_total (transferArgs_legal ..)) (fun _ _ => stepXfer_ends) hends)
  | acquire =>
    refine runsPseudocode_of_outcome (wrap := .acquire) (k := endAcquire) (fun _ => nofun)
      (fun _ _ ht => blockStep_of_seq ht rfl) hs rfl (fun _ => rfl) (fun t r hends => ⟨0, ?_⟩) hc
    obtain ⟨rfl, rfl⟩ := ResEnds.det (stepAcquire_ends s.hw) hends
    rfl
  | release =>
    refine runsPseudocode_of_outcome (wrap := .release) (k := endRelease) (fun _ => nofun)
      (fun _ _ ht => blockStep_of_seq ht rfl) hs rfl (g := fun _ => .ok) (fun _ => rfl) (fun t r hends => ⟨0, ?_⟩) hc
    rw [← runRelease_of_ends hends]
    rfl
  | standby =>
    refine runsPseudocode_of_outcome (wrap := .standby) (k := endStandby) (fun _ => nofun)
      (fun _ _ ht => blockStep_of_seq ht rfl) hs rfl (g := fun _ => .ok) (fun _ => rfl) (fun t r hends => ⟨0, ?_⟩) hc
    obtain ⟨rfl, rfl⟩ := ResEnds.det (stepStandby_ends s.hw) hends
    rfl
  | enableWrite c =>
    refine runsPseudocode_of_outcome (wrap := .enableWrite c) (k := endFlashCommand) (fun _ => nofun)
      (fun _ _ ht => blockStep_of_seq ht rfl) hs rfl (fun _ => rfl) (fun t r hends => ⟨0, ?_⟩) hc
    exact congrArg (Option.map _) (runEnableWrite_of_ends hends)
  | writeStatus c =>
    refine runsPseudocode_of_outcome (wrap := .writeStatus (statusOperand s.hw.latch) c) (k := endFlashCommand)
      (fun _ => nofun) (fun _ _ ht => blockStep_of_seq ht rfl) hs rfl (fun _ => rfl) (fun t r hends => ⟨0, ?_⟩) hc
    exact congrArg (Option.map _) (run_of_ends (runWriteStatus_total ..) (fun _ _ => stepWriteStatus_ends) hends)
  | readStatus c =>
    refine runsPseudocode_of_ends (wrap := .readStatus c) (k := endStatusCommand) (fun _ => nofun)
      (fun _ _ ht => blockStep_of_seq ht rfl) hs rfl (e := statusEnding)
      (fun t r => eq_of_reaches_endStatus hs.quiet t r rfl) (fun t r hends => ⟨0, ?_⟩) hc
    exact congrArg (Option.map _) (runReadStatus_of_ends hends)
  | writePage c =>
    refine runsPseudocode_of_checked hs rfl (fun _ => rfl) (fun hl => ?_) hc
    refine runsPseudocode_of_outcome (wrap := .writePage (sourceSpan s.hw.latch) c) (k := endFlashCommand)
      (fun _ => nofun) (fun _ _ ht => blockStep_of_seq ht rfl) hs (if_pos hl) (fun _ => rfl)
      (fun t r hends => ⟨0, (if_pos hl).trans ?_⟩) hc
    exact congrArg (Option.map _) (run_of_ends (runWritePage_total c rfl) (fun _ _ => stepWritePage_ends) hends)
  | readPage c =>
    refine runsPseudocode_of_checked hs rfl (fun _ => rfl) (fun hl => ?_) hc
    refine runsPseudocode_of_outcome (wrap := .readPage (destSpan s.hw.latch) c) (k := endFlashCommand)
      (fun _ => nofun) (fun _ _ ht => blockStep_of_seq ht rfl) hs (if_pos hl) (fun _ => rfl)
      (fun t r hends => ⟨0, (if_pos hl).trans ?_⟩) hc
    exact congrArg (Option.map _) (run_of_ends (runReadPage_total c rfl) (fun _ _ => stepReadPage_ends) hends)
  | pollReady c =>
    refine runsPseudocode_of_ends (wrap := .pollReady c) (k := endStatusCommand) (fun _ => nofun)
      (fun _ _ ht => blockStep_of_seq ht rfl) hs rfl (e := statusEnding)
      (fun t r => eq_of_reaches_endStatus hs.quiet t r rfl) (fun t r hends => ?_) hc
    obtain ⟨fuel, hrun⟩ := runPollReady_of_ends hends
    exact ⟨fuel, congrArg (Option.map _) hrun⟩
  | clearBp c =>
    refine runsPseudocode_of_outcome (wrap := .clearBp c) (k := endFlashCommand) (fun _ => nofun)
      (fun _ _ ht => blockStep_of_seq ht rfl) hs rfl (fun _ => rfl) (fun t r hends => ⟨0, ?_⟩) hc
    exact congrArg (Option.map _) (runClearBp_of_ends hends)
  | dump c =>
    refine runsPseudocode_of_checked hs rfl (fun _ => rfl) (fun hl => ?_) hc
    refine runsPseudocode_of_outcome (wrap := .dump c) (k := endDump) (fun _ => nofun)
      (fun _ _ ht => blockStep_of_seq ht rfl) hs (if_pos hl) (fun _ => rfl) (fun t r hends => ?_) hc
    obtain ⟨fuel, hrun⟩ := runDump_of_ends rfl (legalPageSize_pos hsound.pageSize) hends
    exact ⟨fuel, (if_pos hl).trans (congrArg (Option.map _) hrun)⟩
  | program c =>
    refine runsPseudocode_of_checked hs rfl (fun _ => rfl) (fun hl => ?_) hc
    refine runsPseudocode_of_outcome (wrap := .program c) (k := endByOutcome) (fun _ => nofun)
      (fun _ _ ht => blockStep_of_seq ht rfl) hs (if_pos hl) (fun _ => rfl) (fun t r hends => ?_) hc
    obtain ⟨fuel, hrun⟩ := runProgram_of_ends rfl hends
    exact ⟨fuel, (if_pos hl).trans (congrArg (Option.map _) hrun)⟩
  | erase c =>
    refine runsPseudocode_of_outcome (wrap := .erase c) (k := endByOutcome) (fun _ => nofun)
      (fun _ _ ht => blockStep_of_seq ht rfl) hs rfl (fun _ => rfl) (fun t r hends => ⟨0, ?_⟩) hc
    exact congrArg (Option.map _) (run_of_ends (runErase_total c s.hw) (fun _ _ => stepErase_ends) hends)
  | unlock c =>
    refine runsPseudocode_of_outcome (wrap := .unlock c) (k := endByOutcome) (fun _ => nofun)
      (fun _ _ ht => blockStep_of_seq ht rfl) hs rfl (fun _ => rfl) (fun t r hends => ⟨0, ?_⟩) hc
    exact congrArg (Option.map _) (run_of_ends (runUnlock_total c s.hw) (fun _ _ => stepUnlock_ends) hends)
  | checksum c rp =>
    refine runsPseudocode_of_outcome (wrap := .checksum c rp) (k := .finish) (fun _ => nofun)
      (fun _ _ ht => blockStep_of_seq ht rfl) hs rfl (g := id) (fun _ => rfl) (fun t r hends => ?_) hc
    exact runChecksum_of_ends hsound.params hsound.scr (legalPageSize_pos hsound.pageSize) hends

/-! ### The commands that always end -/

section

variable {c : Bool} {s : Hw}

/-- Where no status bit is masked no status is busy, so PollReady ends with its first status read (42_flash_commands.md
R76). -/
theorem runPollReady_total (hmask : s.params.statusBusyMask = 0#8) : ∃ x, runPollReady 1 c s = some x := by
  obtain ⟨⟨t, r⟩, hrun⟩ := runReadStatus_total c s
  rw [runPollReady_succ hrun]
  cases r with
  | cancelled => exact ⟨_, rfl⟩
  | ok st =>
    have hready : statusBusy t.params st = false := by
      rw [statusBusy, (runReadStatus_same hrun).params, hmask, BitVec.and_zero]
      rfl
    exact ⟨_, if_neg (Bool.eq_false_iff.mp hready)⟩

theorem runDump_total {v : Span} (hmask : s.params.statusBusyMask = 0#8) (hv : v.legal s.scr.length = true)
    (hps : 0 < s.latch.ps.toNat) : ∃ x, runDump 1 c v s = some x := by
  obtain ⟨⟨t, r⟩, hpoll⟩ := runPollReady_total (c := c) hmask
  have hsame := runPollReady_same hpoll
  simp only [runDump, hpoll, Option.bind_some]
  cases r with
  | ok st => exact runDumpLoop_total v.len (Nat.le_refl _) (hsame.scrLength ▸ hv) (hsame.latch ▸ hps)
  | cancelled => exact ⟨_, rfl⟩

theorem runProgramByte_total {v : Span} (hmask : s.params.statusBusyMask = 0#8) (hv : v.legal s.scr.length = true)
    (hlen : v.len ≠ 0) : ∃ x, runProgramByte 1 c v s = some x := by
  obtain ⟨⟨t, r⟩, hpoll⟩ := runPollReady_total (c := c) hmask
  simp only [runProgramByte, hpoll, Option.bind_some]
  cases r with
  | cancelled => exact ⟨_, rfl⟩
  | ok st =>
    obtain ⟨⟨u, r⟩, henable⟩ := runEnableWrite_total c t
    simp only [henable, Option.bind_some]
    cases r with
    | ok =>
      have hsame := (runPollReady_same hpoll).trans (runEnableWrite_same henable)
      exact runWritePage_total c (hsame.scrLength ▸ programByte_legal hv hlen)
    | cancelled | arbitrationTimeout | protectedRegion => exact ⟨_, rfl⟩

theorem runProgramByte_same {fuel : Nat} {v : Span} {t : Hw} {r : SubOutcome}
    (h : runProgramByte fuel c v s = some (t, r)) : s.SameRegs t := by
  simp only [runProgramByte, Option.bind_eq_some_iff, Prod.exists] at h
  obtain ⟨u, x, hpoll, h⟩ := h
  refine (runPollReady_same hpoll).trans ?_
  cases x with
  | cancelled => cases h; exact .refl _
  | ok st =>
    simp only [Option.bind_eq_some_iff, Prod.exists] at h
    obtain ⟨u', y, henable, h⟩ := h
    refine (runEnableWrite_same henable).trans ?_
    cases y with
    | ok => exact runWritePage_same h
    | cancelled | arbitrationTimeout | protectedRegion => cases h; exact .refl _

theorem runProgramLoop_total (left : Nat) {v : Span} {s : Hw} (hmask : s.params.statusBusyMask = 0#8)
    (hv : v.legal s.scr.length = true) (hlen : v.len = left) : ∃ x, runProgramLoop 1 c left v s = some x := by
  induction left generalizing v s with
  | zero =>
    obtain ⟨x, hpoll⟩ := runPollReady_total (c := c) hmask
    exact ⟨_, congrArg (Option.map _) hpoll⟩
  | succ left ih =>
    obtain ⟨⟨t, r⟩, hbyte⟩ := runProgramByte_total (c := c) hmask hv (by omega)
    have hsame := runProgramByte_same hbyte
    simp only [runProgramLoop, hbyte, Option.bind_some]
    cases r with
    | ok =>
      exact ih (v := v.advance 1) (hsame.params ▸ hmask) (hsame.scrLength ▸ Span.advance_legal hv (by omega))
        (by simp only [Span.advance, hlen, Nat.add_sub_cancel])
    | cancelled | arbitrationTimeout | protectedRegion => exact ⟨_, rfl⟩

theorem runProgram_total {v : Span} (hmask : s.params.statusBusyMask = 0#8) (hv : v.legal s.scr.length = true) :
    ∃ x, runProgram 1 c v s = some x := by
  obtain ⟨⟨t, r⟩, hclear⟩ := runClearBp_total c s
  have hsame := runClearBp_same hclear
  simp only [runProgram, hclear, Option.bind_some]
  cases r with
  | ok => exact runProgramLoop_total v.len (hsame.params ▸ hmask) (hsame.scrLength ▸ hv) rfl
  | cancelled | arbitrationTimeout | protectedRegion => exact ⟨_, rfl⟩

theorem runRepair_total {x : ChecksumResult} (hmask : s.params.statusBusyMask = 0#8)
    (hp : s.params.wellFormed = true) (hscr : s.scr.length = 2 * (s.params.checksumIndex + 1)) :
    ∃ y, runRepair 1 c x s = some y := by
  obtain ⟨t, hlow⟩ := memWrite_scr_total (s := s) (a := 2 * s.params.checksumIndex) (by omega)
    (firstByte s.params.wordOrder x.computed)
  have ht := Hw.SameRegs.memWrite hlow
  obtain ⟨u, hhigh⟩ := memWrite_scr_total (s := t) (a := 2 * t.params.checksumIndex + 1)
    (by rw [ht.scrLength, ht.params]; omega) (secondByte t.params.wordOrder x.computed)
  have hu := ht.trans (Hw.SameRegs.memWrite hhigh)
  obtain ⟨y, hprogram⟩ := runProgram_total (c := c) (s := u) (v := repairSpan u.params) (hu.params ▸ hmask)
    (repairSpan_legal _ (hu.params ▸ hp) _ (by rw [hu.scrLength, hu.params]; exact hscr))
  simp only [runRepair, hlow, hhigh, hprogram, Option.bind_some, Option.map_some]
  exact ⟨_, rfl⟩

theorem runCompare_total {rp : Bool} (hmask : s.params.statusBusyMask = 0#8)
    (hp : s.params.wellFormed = true) (hscr : s.scr.length = 2 * (s.params.checksumIndex + 1)) :
    ∃ y, runCompare 1 c rp s = some y := by
  obtain ⟨x, hx⟩ : ∃ x, scrChecksum s = some x := checksumEval_total _ _ _ _ (by omega)
  by_cases hrepair : x.computed ≠ x.stored ∧ rp = true
  · rw [runCompare_of_repair 1 hx hrepair]
    exact runRepair_total (s := s.setRdata (checksumData x)) hmask hp hscr
  · exact ⟨_, runCompare_of_noRepair 1 hx hrepair⟩

theorem runChecksum_total {rp : Bool} (hmask : s.params.statusBusyMask = 0#8) (hs : s.Sound) :
    ∃ y, runChecksum 1 c rp s = some y := by
  have hsame := runAcquire_same s
  simp only [runChecksum]
  obtain ho | ho := runAcquire_outcome s <;> simp only [ho]
  · obtain ⟨⟨t, r⟩, hdump⟩ := runDump_total (c := c) (s := (runAcquire s).1) (v := checksumSpan s.params)
      (hsame.params ▸ hmask) (checksumSpan_legal _ _ (hsame.scrLength.trans hs.scr))
      (hsame.latch ▸ legalPageSize_pos hs.pageSize)
    have ht := hsame.trans (runDump_same hdump)
    simp only [hdump, Option.bind_some]
    cases r with
    | ok =>
      exact runCompare_total (ht.params ▸ hmask) (ht.params ▸ hs.params) (by rw [ht.scrLength, ht.params]; exact hs.scr)
    | cancelled | arbitrationTimeout | protectedRegion => exact ⟨_, rfl⟩
  · exact ⟨_, rfl⟩

theorem checked_total {run : Option (Hw × RCode)} (h : ∃ x, run = some x) : ∃ x, checked s run = some x := by
  rw [checked]
  split
  · exact h
  · exact ⟨_, rfl⟩

theorem map_total {ρ σ : Type} {run : Option ρ} (h : ∃ x, run = some x) (g : ρ → σ) : ∃ y, run.map g = some y := by
  obtain ⟨x, hx⟩ := h
  exact ⟨g x, congrArg (Option.map g) hx⟩

/-- The pseudocode of a command ends where its loops are bounded, or no status is busy (60_exceptions.md R99). -/
theorem runCommand_total {i : Instr} (hs : s.Sound) (h : i.bounded = true ∨ s.params.statusBusyMask = 0#8) :
    ∃ x, runCommand 1 i s = some x := by
  have hmask : i.bounded = false → s.params.statusBusyMask = 0#8 := fun hb => h.resolve_left (Bool.eq_false_iff.mp hb)
  cases i with
  | transfer c sf df => exact map_total (runXfer_total (transferArgs_legal ..)) _
  | acquire | release | standby => exact ⟨_, rfl⟩
  | enableWrite c => exact map_total (runEnableWrite_total c s) _
  | writeStatus c => exact map_total (runWriteStatus_total _ c s) _
  | readStatus c => exact map_total (runReadStatus_total c s) _
  | writePage c => exact checked_total (map_total (runWritePage_total c rfl) _)
  | readPage c => exact checked_total (map_total (runReadPage_total c rfl) _)
  | pollReady c => exact map_total (runPollReady_total (hmask rfl)) _
  | clearBp c => exact map_total (runClearBp_total c s) _
  | dump c => exact checked_total (map_total (runDump_total (hmask rfl) rfl (legalPageSize_pos hs.pageSize)) _)
  | program c => exact checked_total (map_total (runProgram_total (hmask rfl) rfl) _)
  | erase c => exact map_total (runErase_total c s) _
  | unlock c => exact map_total (runUnlock_total c s) _
  | checksum c rp => exact runChecksum_total (hmask rfl) hs

end

/-- Settles O59: the pseudocode comes to an end, and the command with it. -/
theorem boundedCommandsComplete : Obligations.BoundedCommandsComplete := by
  intro i s hs hsound hi
  obtain ⟨⟨h, code⟩, hrun⟩ := runCommand_total hsound hi
  exact ⟨h, code, commandEnds_of_runCommand hs hsound hrun⟩

end Sys2Proof.Machine
end

section
/-! PROOFS. Cancellation (60_exceptions.md R87, R88): from one point of the pseudocode to a later one either no sample saw a
cancellation (`Hw.Clean`), or the last one did and the run stops there (`Hw.Cut`). One lemma per procedure says which of the
two its outcome means, and how many samples there were. -/

namespace Sys2Proof.Machine

/-! ### Runs with and without a cancellation -/

/-- From s to t no sample saw a cancellation; n samples were taken where c = 1, and none where c = 0. -/
structure Hw.Clean (c : Bool) (s t : Hw) (n : Nat) : Prop where
  same : s.SameRegs t
  seen : t.status.cancelSeen = s.status.cancelSeen
  cancels : c = false → t.cancels = s.cancels
  trace : ∃ ev, t.trace = s.trace ++ ev ∧ cancelSamples ev = (if c then n else 0) ∧ ∀ b, Event.cp b ∈ ev → b = false

/-- From s to t the last sample, and it alone, saw a cancellation, after m samples that saw none. -/
structure Hw.Cut (c : Bool) (s t : Hw) (m : Nat) : Prop where
  flag : c = true
  same : s.SameRegs t
  seen : t.status.cancelSeen = true
  trace : ∃ ev, t.trace = s.trace ++ ev ++ [.cp true] ∧ cancelSamples ev = m ∧ ∀ b, Event.cp b ∈ ev → b = false

theorem cp_notMem_of_cancelSamples {ev : List Event} (h : cancelSamples ev = 0) (b : Bool) : Event.cp b ∉ ev := by
  intro hb
  rw [cancelSamples, List.length_eq_zero_iff, List.filter_eq_nil_iff] at h
  exact h _ hb rfl

section

variable {c : Bool} {s t u : Hw} {m n : Nat} {r : SubOutcome}

/-- A run that does not sample. -/
theorem Hw.Clean.of_events {ev : List Event} (same : s.SameRegs t) (seen : t.status.cancelSeen = s.status.cancelSeen)
    (cancels : t.cancels = s.cancels) (trace : t.trace = s.trace ++ ev) (hev : cancelSamples ev = 0) : s.Clean c t 0 :=
  ⟨same, seen, fun _ => cancels, ev, trace, by rw [hev, ite_self],
    fun b hb => (cp_notMem_of_cancelSamples hev b hb).elim⟩

/-- A run without events. -/
theorem Hw.Clean.of_trace_eq (same : s.SameRegs t) (seen : t.status.cancelSeen = s.status.cancelSeen)
    (cancels : t.cancels = s.cancels) (trace : t.trace = s.trace) : s.Clean c t 0 :=
  .of_events same seen cancels (trace.trans (List.append_nil _).symm) rfl

theorem Hw.Clean.refl (c : Bool) (s : Hw) : s.Clean c s 0 := .of_trace_eq (.refl s) rfl rfl rfl

theorem Hw.Clean.trans (h : s.Clean c t m) (h' : t.Clean c u n) : s.Clean c u (m + n) := by
  obtain ⟨ev, htrace, hcount, hev⟩ := h.trace
  obtain ⟨ev', htrace', hcount', hev'⟩ := h'.trace
  refine ⟨h.same.trans h'.same, h'.seen.trans h.seen, fun hc => (h'.cancels hc).trans (h.cancels hc), ev ++ ev', ?_, ?_, ?_⟩
  · rw [htrace', htrace, List.append_assoc]
  · rw [cancelSamples_append, hcount, hcount']
    cases c <;> rfl
  · exact fun b hb => (List.mem_append.mp hb).elim (hev b) (hev' b)

theorem Hw.Clean.cut (h : s.Clean c t m) (h' : t.Cut c u n) : s.Cut c u (m + n) := by
  obtain ⟨ev, htrace, hcount, hev⟩ := h.trace
  obtain ⟨ev', htrace', hcount', hev'⟩ := h'.trace
  refine ⟨h'.flag, h.same.trans h'.same, h'.seen, ev ++ ev', ?_, ?_, ?_⟩
  · rw [htrace', htrace, ← List.append_assoc]
  · rw [cancelSamples_append, hcount, hcount', if_pos h'.flag]
  · exact fun b hb => (List.mem_append.mp hb).elim (hev b) (hev' b)

/-- Where c = 0 there is nothing to count. -/
theorem Hw.Clean.of_not_cancellable (h : s.Clean false t m) (n : Nat) : s.Clean false t n :=
  ⟨h.same, h.seen, h.cancels, h.trace⟩

/-- A run whose outcome is Ok without a cancellation and Cancelled at one (40_bitclock_transfer.md R65), with n samples where
nothing cuts it short. -/
inductive Hw.Sampling (c : Bool) (n : Nat) (s t : Hw) : SubOutcome → Prop where
  | ok (h : s.Clean c t n) : Hw.Sampling c n s t .ok
  | cancelled {m : Nat} (hm : m < n) (h : s.Cut c t m) : Hw.Sampling c n s t .cancelled

theorem Hw.Sampling.after (h : t.Sampling c n u r) (h' : s.Clean c t m) : s.Sampling c (m + n) u r := by
  cases h with
  | ok h => exact .ok (h'.trans h)
  | cancelled hm h => exact .cancelled (by omega) (h'.cut h)

/-! ### Xfer -/

theorem memWrite_clean {x : Ref} {v : Byte} (h : s.memWrite x v = some t) : s.Clean c t 0 := by
  have same := Hw.SameRegs.memWrite h
  obtain ⟨-, rfl⟩ | ⟨-, -, rfl⟩ | ⟨-, o, -, rfl⟩ := memWrite_cases h <;> exact .of_trace_eq same rfl rfl rfl

theorem runDrive_clean (s : Hw) : s.Clean c (runDrive s) 0 :=
  .of_events (runDrive_same s) rfl rfl (congrArg Hw.trace (runDrive_eq s)) rfl

theorem regRead_clean (s : Hw) : s.Clean c s.regRead 0 := .of_events (.regRead s) rfl rfl (Hw.regRead_trace s) rfl

theorem setLs_clean (s : Hw) (v : Word) : s.Clean c (s.setLs v) 0 := .of_trace_eq (.setLs s v) rfl rfl rfl

theorem clearLs_clean (s : Hw) (v : Word) : s.Clean c (s.clearLs v) 0 := .of_trace_eq (.clearLs s v) rfl rfl rfl

theorem putSi_clean (b : Bool) (s : Hw) : s.Clean c (putSi b s) 0 := by
  cases b
  · exact clearLs_clean s _
  · exact setLs_clean s _

theorem captureBit_clean {a : XferArgs} {i : Nat} (h : captureBit a i s = some t) : s.Clean c t 0 := by
  simp only [captureBit] at h
  split at h
  · simp only [Option.bind_eq_some_iff] at h
    obtain ⟨v, -, h⟩ := h
    exact memWrite_clean h
  · cases h
    exact .refl c s

/-- Steps 2 to 5 of a bit do not sample (40_bitclock_transfer.md R65). -/
theorem runBit_clean {a : XferArgs} {i : Nat} (h : runBit a i s = some t) : s.Clean c t 0 := by
  simp only [runBit, Option.bind_eq_some_iff, Option.map_eq_some_iff] at h
  obtain ⟨b, -, u, hcapture, rfl⟩ := h
  have hsetup := (putSi_clean (c := c) b s).trans (runDrive_clean _)
  have hrise := (setLs_clean (c := c) (runDrive (putSi b s)) (bitMask (runDrive (putSi b s)).params.bitSk)).trans
    (runDrive_clean _)
  have hfall := (clearLs_clean (c := c) u (bitMask u.params.bitSk)).trans (runDrive_clean _)
  exact (hsetup.trans hrise).trans ((regRead_clean _).trans ((captureBit_clean hcapture).trans hfall))

theorem runTail_clean {a : XferArgs} (h : runTail a s = some t) : s.Clean c t 0 := by
  simp only [runTail] at h
  split at h
  · split at h
    · simp only [Option.bind_eq_some_iff] at h
      obtain ⟨v, -, h⟩ := h
      exact memWrite_clean h
    · cases h
      exact .refl c s
  · cases h
    exact .refl c s

/-- A sample that sees no cancellation. -/
theorem cancelPending_clean (h : s.cancelAnswer = false) : s.Clean true s.cancelPending 1 := by
  refine ⟨.cancelPending s, rfl, nofun, [.cp s.cancelAnswer], rfl, rfl, fun b hb => ?_⟩
  cases List.mem_singleton.mp hb
  exact h

/-- A sample that sees one. -/
theorem cancelPending_cut (h : s.cancelAnswer = true) : s.Cut true s.cancelPending.markCancelled 0 := by
  refine ⟨rfl, (Hw.SameRegs.cancelPending s).trans (.markCancelled _), rfl, [], ?_, rfl, nofun⟩
  rw [List.append_nil, ← h]
  rfl

/-- The bit loop samples once per bit, before it, where c = 1 (40_bitclock_transfer.md R65). -/
theorem runBits_sampling {a : XferArgs} {left : Nat} {s : Hw} (h : runBits a left s = some (t, r)) :
    s.Sampling a.c left t r := by
  induction left generalizing s with
  | zero =>
    simp only [runBits, Option.map_eq_some_iff, Prod.mk.injEq] at h
    obtain ⟨u, htail, rfl, rfl⟩ := h
    exact .ok (runTail_clean htail)
  | succ left ih =>
    have body : ∀ {s : Hw}, (runBit a (a.n - (left + 1)) s).bind (runBits a left) = some (t, r) →
        s.Sampling a.c (0 + left) t r := fun {s} hbody => by
      obtain ⟨u, hbit, hrest⟩ := Option.bind_eq_some_iff.mp hbody
      exact (ih hrest).after (runBit_clean hbit)
    rw [runBits] at h
    generalize a.c = c at h body
    cases c with
    | false =>
      cases body h with
      | ok hclean => exact .ok (hclean.of_not_cancellable _)
      | cancelled _ hcut => cases hcut.flag
    | true =>
      cases hcancel : s.cancelAnswer with
      | true =>
        simp only [hcancel, if_true, Option.some.injEq, Prod.mk.injEq] at h
        obtain ⟨rfl, rfl⟩ := h
        exact .cancelled (Nat.succ_pos _) (cancelPending_cut hcancel)
      | false =>
        simp only [hcancel, if_true, Bool.false_eq_true, if_false] at h
        have hrest := (body h).after (cancelPending_clean hcancel)
        rwa [Nat.zero_add, Nat.add_comm] at hrest

/-- Xfer (40_bitclock_transfer.md R65). -/
theorem runXfer_sampling {a : XferArgs} (h : runXfer a s = some (t, r)) : s.Sampling a.c a.n t r := by
  have hsampling := (runBits_sampling h).after (regRead_clean s)
  rwa [Nat.zero_add] at hsampling

/-! ### The arbiter -/

theorem runStandby_clean (s : Hw) : s.Clean c (runStandby s) 0 := by
  cases hp : s.latch.present with
  | false => rw [runStandby_of_absent hp]; exact .refl c s
  | true =>
    have same := runStandby_same s
    rw [runStandby_of_present hp] at same ⊢
    exact .of_events same rfl rfl rfl rfl

theorem runRelease_clean (s : Hw) : s.Clean c (runRelease s) 0 := by
  cases hp : s.latch.present with
  | false => rw [runRelease_of_absent hp]; exact .refl c s
  | true =>
    have same := runRelease_same s
    rw [runRelease_of_present hp] at same ⊢
    exact .of_events same rfl rfl rfl rfl

theorem runRelease_trace (s : Hw) : (runRelease s).trace = s.trace ++ releasePart s s.readAnswer := by
  cases hp : s.latch.present with
  | false =>
    rw [runRelease_of_absent hp, releasePart, if_neg (Bool.eq_false_iff.mp hp), List.append_nil]
  | true => rw [runRelease_of_present hp, releasePart, if_pos hp]

/-- The polls of Acquire from its first on, whatever they answer: all but the last see no GNT, and the last sees it or is the
last one allowed (41_arbiter.md R67). -/
theorem exists_polls (n : Nat) (s : Hw) : ∃ (polls : List Word) (last : Word) (rest : List Word),
    runPoll n s.regRead =
        { s with
          ls := last
          ctrl := last
          reads := rest
          draws := s.draws + (polls.length + 1)
          trace := s.trace ++ ((polls.flatMap fun v => [.rd v, .dl s.params.grantPollUs]) ++ [.rd last]) } ∧
      polls.length ≤ n ∧ (∀ v ∈ polls, v.getLsbD s.params.bitGnt.val = false) ∧
      (last.getLsbD s.params.bitGnt.val = true ∨ polls.length = n) := by
  induction n generalizing s with
  | zero => exact ⟨[], s.readAnswer, s.reads.tail, rfl, Nat.le_refl _, nofun, .inr rfl⟩
  | succ n ih =>
    cases hgnt : s.regRead.granted with
    | true => exact ⟨[], s.readAnswer, s.reads.tail, if_pos hgnt, Nat.zero_le _, nofun, .inl hgnt⟩
    | false =>
      obtain ⟨polls, last, rest, hrun, hn, hpolls, hstop⟩ := ih (s.regRead.delay s.params.grantPollUs)
      refine ⟨s.readAnswer :: polls, last, rest, ?_, Nat.succ_le_succ hn, List.forall_mem_cons.mpr ⟨hgnt, hpolls⟩,
        hstop.imp_right (congrArg Nat.succ)⟩
      refine (if_neg (Bool.eq_false_iff.mp hgnt)).trans (hrun.trans ?_)
      simp only [Hw.regRead, Hw.delay, Hw.emit, List.length_cons, List.flatMap_cons, List.append_assoc, List.cons_append,
        List.nil_append, Nat.add_assoc, Nat.add_comm 1]

/-- Acquire up to its last poll, whatever it reads (41_arbiter.md R67). -/
theorem exists_handshake (hp : s.latch.present = true) : ∃ (a : AcquireAnswers) (rest : List Word),
    runAcquire s = runGrant (s.afterHandshake a rest) ∧ a.polls.length ≤ s.params.grantAttempts ∧
      (∀ v ∈ a.polls, v.getLsbD s.params.bitGnt.val = false) ∧
      (a.last.getLsbD s.params.bitGnt.val = true ∨ a.polls.length = s.params.grantAttempts) := by
  obtain ⟨polls, last, rest, hrun, hn, hpolls, hstop⟩ :=
    exists_polls s.params.grantAttempts (s.regRead.setLs (bitMask s.params.bitReq)).regWrite
  refine ⟨⟨s.readAnswer, polls, last⟩, rest, ?_, hn, hpolls, hstop⟩
  rw [runAcquire, if_pos hp, hrun]
  simp only [Hw.afterHandshake, handshakeEvents, Hw.regWrite, Hw.setLs, Hw.regRead, List.append_assoc, List.cons_append,
    List.nil_append]

theorem cancelSamples_timeoutEvents (s : Hw) (a : AcquireAnswers) : cancelSamples (timeoutEvents s a) = 0 := by
  have hpolls : ∀ l : List Word, cancelSamples (l.flatMap fun v => [Event.rd v, .dl s.params.grantPollUs]) = 0 := by
    intro l
    induction l with
    | nil => rfl
    | cons v l ih => exact ih
  rw [timeoutEvents, handshakeEvents, cancelSamples_append, cancelSamples_append, cancelSamples_append, hpolls]
  rfl

/-- Acquire does not sample, granted or timed out (60_exceptions.md R87). -/
theorem runAcquire_clean (s : Hw) : s.Clean c (runAcquire s).1 0 := by
  cases hp : s.latch.present with
  | false => rw [runAcquire_of_absent hp]; exact .refl c s
  | true =>
    have same := runAcquire_same s
    obtain ⟨a, rest, hrun, -⟩ := exists_handshake hp
    rw [hrun, runGrant] at same ⊢
    split at same
    · rw [if_pos ‹_›]
      refine .of_events (ev := acquireEvents s a) same rfl rfl ?_ (cancelSamples_acquireEvents s a)
      rw [acquireEvents, if_pos hp, ← List.append_assoc]
      exact List.append_assoc ..
    · rw [if_neg ‹_›]
      exact .of_events (ev := timeoutEvents s a) same rfl rfl (List.append_assoc ..) (cancelSamples_timeoutEvents s a)

/-- Acquire times out only where no poll saw GNT (60_exceptions.md R89). -/
theorem exists_timedOut (h : (runAcquire s).2 = .arbitrationTimeout) :
    s.latch.present = true ∧ ∃ a : AcquireAnswers, a.timedOut s.params ∧
      (runAcquire s).1.trace = s.trace ++ timeoutEvents s a := by
  cases hp : s.latch.present with
  | false => rw [runAcquire_of_absent hp] at h; cases h
  | true =>
    obtain ⟨a, rest, hrun, -, hpolls, hstop⟩ := exists_handshake hp
    rw [hrun, runGrant] at h ⊢
    split at h
    · cases h
    · next hgnt =>
      rw [if_neg hgnt]
      exact ⟨rfl, a, ⟨hstop.resolve_left hgnt, hpolls, Bool.eq_false_iff.mpr hgnt⟩, List.append_assoc ..⟩

/-! ### The FLASH commands -/

theorem setOpb0_clean (s : Hw) (v : Byte) : s.Clean c (s.setOpb0 v) 0 := .of_trace_eq (.setOpb0 s v) rfl rfl rfl

theorem setOpb1_clean (s : Hw) (v : Byte) : s.Clean c (s.setOpb1 v) 0 := .of_trace_eq (.setOpb1 s v) rfl rfl rfl

theorem runEnableWrite_sampling (h : runEnableWrite c s = some (t, r)) : s.Sampling c 8 t r :=
  (runXfer_sampling h).after ((runStandby_clean s).trans (setOpb0_clean _ _))

theorem runStatusFrame_sampling {st : Byte} (h : runStatusFrame st c s = some (t, r)) : s.Sampling c 16 t r :=
  (runXfer_sampling h).after ((runStandby_clean s).trans ((setOpb0_clean _ _).trans (setOpb1_clean _ _)))

theorem runWriteStatus_sampling {st : Byte} (h : runWriteStatus st c s = some (t, r)) : s.Sampling c 24 t r := by
  simp only [runWriteStatus, Option.bind_eq_some_iff, Prod.exists] at h
  obtain ⟨u, r', henable, h⟩ := h
  cases runEnableWrite_sampling henable with
  | ok hclean => exact (runStatusFrame_sampling h).after hclean
  | cancelled hm hcut =>
    cases h
    exact .cancelled (by omega) hcut

theorem runClearBp_sampling (h : runClearBp c s = some (t, r)) : s.Sampling c 24 t r := runWriteStatus_sampling h

theorem runReadStatus_sampling {x : StatusOutcome} (h : runReadStatus c s = some (t, x)) :
    s.Sampling c 16 t (programEnd x) := by
  simp only [runReadStatus, Option.map_eq_some_iff, Prod.mk.injEq, Prod.exists] at h
  obtain ⟨t, r, hxfer, rfl, rfl⟩ := h
  have hsampling := (runXfer_sampling hxfer).after
    ((runStandby_clean s).trans ((setOpb0_clean _ _).trans (setOpb1_clean _ _)))
  cases hsampling with
  | ok hclean => exact .ok hclean
  | cancelled hm hcut => exact .cancelled hm hcut

theorem putHeader_clean (op : Byte) (off : Half) (s : Hw) : s.Clean c (putHeader op off s) 0 :=
  .of_trace_eq (putHeader_same op off s) rfl rfl rfl

theorem runPage_sampling {op : Byte} {off : Half} {pay : XferArgs} (hc : pay.c = c)
    (h : runPage op off pay c s = some (t, r)) : s.Sampling c (32 + pay.n) t r := by
  simp only [runPage, Option.bind_eq_some_iff, Prod.exists] at h
  obtain ⟨u, r', hheader, h⟩ := h
  have hsampling : s.Sampling c 32 u r' :=
    (runXfer_sampling hheader).after ((runStandby_clean s).trans (putHeader_clean op off _))
  cases hsampling with
  | ok hclean =>
    subst hc
    exact (runXfer_sampling h).after hclean
  | cancelled hm hcut =>
    cases h
    exact .cancelled (by omega) hcut

theorem runPollReady_sampling {fuel : Nat} {x : StatusOutcome} {s : Hw} (h : runPollReady fuel c s = some (t, x)) :
    ∃ n, s.Sampling c n t (programEnd x) := by
  induction fuel generalizing s with
  | zero => cases h
  | succ fuel ih =>
    obtain ⟨⟨u, y⟩, hread⟩ := runReadStatus_total c s
    have hsampling := runReadStatus_sampling hread
    rw [runPollReady_succ hread] at h
    cases y with
    | cancelled =>
      cases h
      exact ⟨_, hsampling⟩
    | ok st =>
      simp only [pollRest] at h
      split at h
      · obtain ⟨n, hrest⟩ := ih h
        cases hsampling with
        | ok hclean => exact ⟨_, hrest.after hclean⟩
      · cases h
        exact ⟨_, hsampling⟩

/-! ### Dump and Program -/

theorem runDumpLoop_sampling {rounds : Nat} {v : Span} {s : Hw} (h : runDumpLoop c rounds v s = some (t, r)) :
    ∃ n, s.Sampling c n t r := by
  induction rounds generalizing v s with
  | zero =>
    rw [runDumpLoop] at h
    split at h
    · cases h
      exact ⟨_, .ok (.refl c _)⟩
    · cases h
  | succ rounds ih =>
    rw [runDumpLoop] at h
    split at h
    · cases h
      exact ⟨_, .ok (.refl c _)⟩
    · simp only [Option.bind_eq_some_iff, Prod.exists] at h
      obtain ⟨u, r', hpage, h⟩ := h
      cases runPage_sampling (c := c) rfl hpage with
      | ok hclean =>
        obtain ⟨n, hrest⟩ := ih h
        exact ⟨_, hrest.after hclean⟩
      | cancelled hm hcut =>
        cases h
        exact ⟨_, .cancelled hm hcut⟩

theorem runDump_sampling {fuel : Nat} {v : Span} (h : runDump fuel c v s = some (t, r)) : ∃ n, s.Sampling c n t r := by
  simp only [runDump, Option.bind_eq_some_iff, Prod.exists] at h
  obtain ⟨u, x, hpoll, h⟩ := h
  obtain ⟨n, hsampling⟩ := runPollReady_sampling hpoll
  cases x with
  | cancelled =>
    cases h
    exact ⟨n, hsampling⟩
  | ok st =>
    obtain ⟨n', hrest⟩ := runDumpLoop_sampling h
    cases hsampling with
    | ok hclean => exact ⟨_, hrest.after hclean⟩

theorem runProgramByte_sampling {fuel : Nat} {v : Span} (h : runProgramByte fuel c v s = some (t, r)) :
    ∃ n, s.Sampling c n t r := by
  simp only [runProgramByte, Option.bind_eq_some_iff, Prod.exists] at h
  obtain ⟨u, x, hpoll, h⟩ := h
  obtain ⟨n, hsampling⟩ := runPollReady_sampling hpoll
  cases x with
  | cancelled =>
    cases h
    exact ⟨n, hsampling⟩
  | ok st =>
    simp only [Option.bind_eq_some_iff, Prod.exists] at h
    obtain ⟨u', r', henable, h⟩ := h
    cases hsampling with
    | ok hclean =>
      cases runEnableWrite_sampling henable with
      | ok hclean' => exact ⟨_, (runPage_sampling rfl h).after (hclean.trans hclean')⟩
      | cancelled hm hcut =>
        cases h
        exact ⟨_, (Hw.Sampling.cancelled hm hcut).after hclean⟩

theorem runProgramLoop_sampling {fuel left : Nat} {v : Span} {s : Hw} (h : runProgramLoop fuel c left v s = some (t, r)) :
    ∃ n, s.Sampling c n t r := by
  induction left generalizing v s with
  | zero =>
    simp only [runProgramLoop, Option.map_eq_some_iff, Prod.mk.injEq, Prod.exists] at h
    obtain ⟨t, x, hpoll, rfl, rfl⟩ := h
    exact runPollReady_sampling hpoll
  | succ left ih =>
    simp only [runProgramLoop, Option.bind_eq_some_iff, Prod.exists] at h
    obtain ⟨u, r', hbyte, h⟩ := h
    obtain ⟨n, hsampling⟩ := runProgramByte_sampling hbyte
    cases hsampling with
    | ok hclean =>
      obtain ⟨n', hrest⟩ := ih h
      exact ⟨_, hrest.after hclean⟩
    | cancelled hm hcut =>
      cases h
      exact ⟨_, .cancelled hm hcut⟩

end

end Sys2Proof.Machine
end

section
/-! PROOFS. How a command's run concludes (60_exceptions.md R85 to R92): it is done, or its Acquire timed out, or a sample saw a
cancellation and stopped it, with at most one Release after. `Hw.Concludes` says it once for every command, and the statements
about outcomes, cancellation and timeouts follow. -/

namespace Sys2Proof.Machine

/-! ### The commands with a session, and PROGRAM -/

section

variable {c rp : Bool} {s t u : Hw} {k n : Nat} {r : SubOutcome} {code : RCode} {fuel : Nat}

/-- Program (43_flash_ops.md R80): a cancellation within the 24 samples of its ClearBP is followed by a Release and gives
ProtectedRegion. -/
inductive Hw.ProgramRuns (c : Bool) (s : Hw) : Hw → SubOutcome → Prop where
  | ok {t : Hw} {n : Nat} (h : s.Clean c t n) : Hw.ProgramRuns c s t .ok
  | cancelled {t : Hw} {m : Nat} (hm : 24 ≤ m) (h : s.Cut c t m) : Hw.ProgramRuns c s t .cancelled
  | protectedRegion {u : Hw} {m : Nat} (hm : m < 24) (h : s.Cut c u m) :
      Hw.ProgramRuns c s (runRelease u) .protectedRegion

theorem runProgram_runs {v : Span} (h : runProgram fuel c v s = some (t, r)) : s.ProgramRuns c t r := by
  simp only [runProgram, Option.bind_eq_some_iff, Prod.exists] at h
  obtain ⟨u, r', hclear, h⟩ := h
  cases runClearBp_sampling hclear with
  | ok hclean =>
    obtain ⟨n, hloop⟩ := runProgramLoop_sampling h
    cases hloop with
    | ok hrest => exact .ok (hclean.trans hrest)
    | cancelled _ hcut => exact .cancelled (Nat.le_add_right _ _) (hclean.cut hcut)
  | cancelled hm hcut =>
    cases h
    exact .protectedRegion hm hcut

/-- The code of a cancellation seen after m samples, where the first 24 are ClearBP's (60_exceptions.md R90). -/
def clearBpCode (m : Nat) : RCode := if m < 24 then .protectedRegion else .cancelled

/-- A run that ends with a Release: done after n samples, or cut short. -/
inductive Hw.Releases (c : Bool) (n : Nat) (s : Hw) : Hw → RCode → Prop where
  | ok {u : Hw} (h : s.Clean c u n) : Hw.Releases c n s (runRelease u) .ok
  | cut {u : Hw} {m : Nat} (hm : m < n) (h : s.Cut c u m) : Hw.Releases c n s (runRelease u) (clearBpCode m)

theorem clearBpCode_of_lt (h : k < 24) : clearBpCode k = .protectedRegion := if_pos h

theorem clearBpCode_of_le (h : 24 ≤ k) : clearBpCode k = .cancelled := if_neg (Nat.not_lt.mpr h)

theorem Hw.Releases.after (h : t.Releases c n u code) (h' : s.Clean c t 0) : s.Releases c n u code := by
  cases h with
  | ok h =>
    have hclean := h'.trans h
    rw [Nat.zero_add] at hclean
    exact .ok hclean
  | cut hm h =>
    have hcut := h'.cut h
    rw [Nat.zero_add] at hcut
    exact .cut hm hcut

/-- Erase's last frame, 8 samples, and its Release (43_flash_ops.md R81). -/
theorem runEraseFrame_runs (h : runEraseFrame c s = some (t, r)) : ∃ u, s.Sampling c 8 u r ∧ t = runRelease u := by
  simp only [runEraseFrame, Option.map_eq_some_iff, Prod.exists] at h
  obtain ⟨u, r', hxfer, h⟩ := h
  have hsampling : s.Sampling c 8 u r' :=
    (runXfer_sampling hxfer).after ((runStandby_clean s).trans (setOpb0_clean _ _))
  cases hsampling with
  | ok hclean =>
    cases h
    exact ⟨u, .ok hclean, rfl⟩
  | cancelled hm hcut =>
    cases h
    exact ⟨u, .cancelled hm hcut, rfl⟩

/-- Erase after its first Standby: ClearBP, WREN and the chip-erase byte have 40 samples (43_flash_ops.md R81). -/
theorem runEraseBody_runs (h : runEraseBody c s = some (t, r)) : s.Releases c 40 t r.rcode := by
  have late : ∀ {u : Hw} {m : Nat}, m < 16 → s.Cut c u (24 + m) →
      s.Releases c 40 (runRelease u) .cancelled := fun {u m} hm hcut => by
    rw [← clearBpCode_of_le (Nat.le_add_right 24 m)]
    exact .cut (by omega) hcut
  simp only [runEraseBody, Option.bind_eq_some_iff, Prod.exists] at h
  obtain ⟨u, r', hclear, h⟩ := h
  cases runClearBp_sampling hclear with
  | ok hclean =>
    simp only [Option.bind_eq_some_iff, Prod.exists] at h
    obtain ⟨u', r'', henable, h⟩ := h
    cases runEnableWrite_sampling henable with
    | ok hclean' =>
      obtain ⟨_, hframe, rfl⟩ := runEraseFrame_runs h
      cases hframe with
      | ok hclean'' => exact .ok ((hclean.trans hclean').trans hclean'')
      | cancelled hm hcut => exact late (by omega) (hclean.cut (hclean'.cut hcut))
    | cancelled hm hcut =>
      cases h
      exact late (by omega) (hclean.cut hcut)
  | cancelled hm hcut =>
    cases h
    rw [SubOutcome.rcode, ← clearBpCode_of_lt hm]
    exact .cut (by omega) hcut

theorem runErase_runs (h : runErase c s = some (t, r)) :
    ((runAcquire s).2 = .arbitrationTimeout ∧ t = (runAcquire s).1 ∧ r = .arbitrationTimeout) ∨
      s.Releases c 40 t r.rcode := by
  rw [runErase] at h
  obtain ho | ho := runAcquire_outcome s <;> simp only [ho] at h
  · exact .inr ((runEraseBody_runs h).after ((runAcquire_clean s).trans (runStandby_clean _)))
  · cases h
    exact .inl ⟨ho, rfl, rfl⟩

/-- Unlock has the 24 samples of ClearBP (43_flash_ops.md R82). -/
theorem runUnlock_runs (h : runUnlock c s = some (t, r)) :
    ((runAcquire s).2 = .arbitrationTimeout ∧ t = (runAcquire s).1 ∧ r = .arbitrationTimeout) ∨
      s.Releases c 24 t r.rcode := by
  rw [runUnlock] at h
  obtain ho | ho := runAcquire_outcome s <;> simp only [ho] at h
  · simp only [Option.map_eq_some_iff, Prod.exists] at h
    obtain ⟨u, r', hclear, h⟩ := h
    refine .inr (Hw.Releases.after ?_ ((runAcquire_clean s).trans (runStandby_clean _)))
    cases runClearBp_sampling hclear with
    | ok hclean =>
      cases h
      exact .ok hclean
    | cancelled hm hcut =>
      cases h
      rw [SubOutcome.rcode, ← clearBpCode_of_lt hm]
      exact .cut hm hcut
  · cases h
    exact .inl ⟨ho, rfl, rfl⟩

/-! ### CHECKSUM -/

/-- The two words that CHECKSUM left in RDATA differ (10_state.md R18). -/
def Hw.Mismatch (s : Hw) : Prop := s.rdata.extractLsb' 0 16 ≠ s.rdata.extractLsb' 16 16

/-- CHECKSUM after its Acquire (43_flash_ops.md R84): done, or stopped by a cancellation before its Release; ProtectedRegion
comes from a repair alone. -/
inductive Hw.ChecksumRuns (c rp : Bool) (s : Hw) : Hw → RCode → Prop where
  | done {t : Hw} {n : Nat} {code : RCode} (hcode : code ∈ [RCode.valid, .invalid, .repaired]) (h : s.Clean c t n) :
      Hw.ChecksumRuns c rp s t code
  | cut {u : Hw} {m : Nat} {code : RCode}
      (hcode : code = .cancelled ∨ (code = .protectedRegion ∧ rp = true ∧ (runRelease u).Mismatch)) (h : s.Cut c u m) :
      Hw.ChecksumRuns c rp s (runRelease u) code

theorem Hw.ChecksumRuns.after (h : t.ChecksumRuns c rp u code) (h' : s.Clean c t n) : s.ChecksumRuns c rp u code := by
  cases h with
  | done hcode h => exact .done hcode (h'.trans h)
  | cut hcode h => exact .cut hcode (h'.cut h)

theorem runProgram_rdata {v : Span} (h : runProgram fuel c v s = some (t, r)) : t.rdata = s.rdata := by
  have keeps : ∀ (p : ProgramPt) (u : Hw), u.rdata = s.rdata → (stepProgram c p u).1.rdata = s.rdata :=
    fun p u hu => (stepProgram_same c p u).2.trans hu
  have hends := stepProgram_ends h
  generalize enterProgram s v = x at hends
  cases x with
  | goto p => exact Ends.keeps keeps hends rfl
  | ret r0 => rw [hends.2]
  | fault e => exact hends.elim

/-- The repair (43_flash_ops.md R84). -/
theorem runRepair_runs {x : ChecksumResult} (hs : s.Mismatch) (h : runRepair fuel c x s = some (t, code)) :
    s.ChecksumRuns c true t code := by
  simp only [runRepair, Option.bind_eq_some_iff, Option.map_eq_some_iff, Prod.exists] at h
  obtain ⟨s1, hlow, s2, hhigh, u, r, hprogram, h⟩ := h
  have hdata : u.rdata = s.rdata :=
    (runProgram_rdata hprogram).trans ((memWrite_rdata hhigh).trans (memWrite_rdata hlow))
  have hstores : s.Clean c s2 0 := (memWrite_clean hlow).trans (memWrite_clean hhigh)
  refine Hw.ChecksumRuns.after ?_ hstores
  cases runProgram_runs hprogram with
  | ok hclean =>
    cases h
    exact .done (by decide) (hclean.trans (runRelease_clean _))
  | cancelled hm hcut =>
    cases h
    exact .cut (.inl rfl) hcut
  | protectedRegion hm hcut =>
    cases h
    refine .cut (.inr ⟨rfl, rfl, ?_⟩) hcut
    rwa [Hw.Mismatch, hdata]

theorem mismatch_setRdata {x : ChecksumResult} (h : ¬x.agrees = true) : (s.setRdata (checksumData x)).Mismatch := by
  have hlow : (checksumData x).extractLsb' 0 16 = x.computed := BitVec.extractLsb'_append_eq_right
  have hhigh : (checksumData x).extractLsb' 16 16 = x.stored := BitVec.extractLsb'_append_eq_left
  rw [Hw.Mismatch, Hw.setRdata_rdata, hlow, hhigh]
  exact h ∘ agrees_iff.mpr

theorem setRdata_clean (s : Hw) (v : Word) : s.Clean c (s.setRdata v) 0 := .of_trace_eq (.setRdata s v) rfl rfl rfl

theorem runCompare_runs (h : runCompare fuel c rp s = some (t, code)) : s.ChecksumRuns c rp t code := by
  simp only [runCompare, Option.bind_eq_some_iff] at h
  obtain ⟨x, -, h⟩ := h
  refine Hw.ChecksumRuns.after ?_ (setRdata_clean s (checksumData x))
  split at h
  · cases h
    exact .done (by decide) (runRelease_clean _)
  · split at h
    · next hmatch hrp =>
      rw [hrp]
      exact runRepair_runs (mismatch_setRdata hmatch) h
    · cases h
      exact .done (by decide) (runRelease_clean _)

theorem runChecksum_runs (h : runChecksum fuel c rp s = some (t, code)) :
    ((runAcquire s).2 = .arbitrationTimeout ∧ t = (runAcquire s).1 ∧ code = .arbTimeout) ∨
      s.ChecksumRuns c rp t code := by
  rw [runChecksum] at h
  obtain ho | ho := runAcquire_outcome s <;> simp only [ho] at h
  · simp only [Option.bind_eq_some_iff, Prod.exists] at h
    obtain ⟨u, r, hdump, h⟩ := h
    refine .inr (Hw.ChecksumRuns.after ?_ (runAcquire_clean s))
    obtain ⟨n, hsampling⟩ := runDump_sampling hdump
    cases hsampling with
    | ok hclean => exact (runCompare_runs h).after hclean
    | cancelled hm hcut =>
      cases h
      exact .cut (.inl rfl) hcut
  · cases h
    exact .inl ⟨ho, rfl, rfl⟩

end

/-! ### Every command -/

/-- The code of a command that a cancellation stops after m samples that saw none, at its end in the state h
(60_exceptions.md R88, R90). -/
def StopsWith (i : Instr) (m : Nat) (h : Hw) (code : RCode) : Prop :=
  match i with
  | .program _ => code = clearBpCode m
  | .erase _ => code = clearBpCode m
  | .unlock _ => m < 24 ∧ code = .protectedRegion
  | .checksum _ rp => code = .cancelled ∨ (code = .protectedRegion ∧ rp = true ∧ h.Mismatch)
  | _ => code = .cancelled

/-- What follows the sample that stops a command (60_exceptions.md R88, R90): one Release, where the command opened the session
itself or the code is PROTECTED_REGION. -/
def afterCut (i : Instr) (code : RCode) (u : Hw) : Hw :=
  if i.ownsSession = true ∨ code = .protectedRegion then runRelease u else u

/-- The result codes of a failure after decode (60_exceptions.md R85). -/
def failureCodes : List RCode := [.arbTimeout, .cancelled, .protectedRegion]

/-- How a command's run from s concludes, in the state h and with the given code (60_exceptions.md R85 to R92). -/
inductive Hw.Concludes (i : Instr) (s h : Hw) (code : RCode) : Prop where
  | done {n : Nat} (hmem : code ∈ i.codes) (hcode : code ∉ failureCodes) (hn : ∀ c, i = .unlock c → n ≤ 24)
      (hclean : s.Clean i.flags.c h n)
  | timedOut (hi : i = .acquire ∨ i.ownsSession = true) (ho : (runAcquire s).2 = .arbitrationTimeout)
      (hh : h = (runAcquire s).1) (hcode : code = .arbTimeout)
  | stopped {u : Hw} {m : Nat} (hcode : StopsWith i m h code) (hh : h = afterCut i code u)
      (hcut : s.Cut i.flags.c u m)

section

variable {i : Instr} {s t : Hw} {n : Nat} {r : SubOutcome} {code : RCode}

theorem afterCut_of_owns (hi : i.ownsSession = true) (code : RCode) (u : Hw) : afterCut i code u = runRelease u :=
  if_pos (.inl hi)

theorem afterCut_cancelled (hi : i.ownsSession = false) (u : Hw) : afterCut i .cancelled u = u :=
  if_neg (by simp [hi])

/-- A command that runs one procedure, which ends Ok or Cancelled. -/
theorem concludes_of_sampling (h : s.Sampling i.flags.c n t r) (hok : RCode.ok ∈ i.codes)
    (hstop : ∀ m h, StopsWith i m h .cancelled) (hi : i.ownsSession = false) : s.Concludes i t r.okOrCancelled := by
  cases h with
  | ok h =>
    refine .done hok (by decide) (fun c hc => ?_) h
    subst hc
    cases hi
  | cancelled hm h => exact .stopped (hstop _ _) (afterCut_cancelled hi t).symm h

/-- A page or loop command that is illegal (60_exceptions.md R86). -/
theorem concludes_illegal (hi : i.hasByteCount = true) : s.Concludes i s .illegal := by
  refine .done ?_ (by decide) (fun c hc => ?_) (.refl _ s)
  · cases i with
    | writePage c | readPage c | dump c | program c => simp [Instr.codes]
    | _ => cases hi
  · subst hc
    cases hi

/-- READ_STATUS and POLL_READY (42_flash_commands.md R73, R76). -/
theorem concludes_statusEnding {x : StatusOutcome} (h : s.Sampling i.flags.c n t (programEnd x)) (hok : RCode.ok ∈ i.codes)
    (hstop : ∀ m h, StopsWith i m h .cancelled) (hi : i.ownsSession = false) :
    s.Concludes i (statusEnding (t, x)).1 (statusEnding (t, x)).2 := by
  cases x with
  | ok st =>
    cases h with
    | ok h => exact concludes_of_sampling (.ok (h.trans (setRdata_clean t _))) hok hstop hi
  | cancelled => exact concludes_of_sampling h hok hstop hi

theorem concludes_of_releases (h : s.Releases i.flags.c n t code) (hok : RCode.ok ∈ i.codes) (hn : ∀ c, i = .unlock c → n ≤ 24)
    (hstop : ∀ m h, m < n → StopsWith i m h (clearBpCode m)) (hi : i.ownsSession = true) : s.Concludes i t code := by
  cases h with
  | ok h => exact .done hok (by decide) hn (h.trans (runRelease_clean _))
  | cut hm h => exact .stopped (hstop _ _ hm) (afterCut_of_owns hi _ _).symm h

theorem runCommand_concludes {fuel : Nat} (h : runCommand fuel i s = some (t, code)) : s.Concludes i t code := by
  cases i with
  | transfer c sf df =>
    obtain ⟨r, hrun, rfl⟩ := exists_of_map h
    exact concludes_of_sampling (runXfer_sampling hrun) (by simp [Instr.codes]) (fun _ _ => rfl) rfl
  | acquire =>
    cases h
    obtain ho | ho := runAcquire_outcome s
    · rw [ho]
      exact .done (by simp [Instr.codes, SubOutcome.okOrTimeout]) (by decide) nofun (runAcquire_clean s)
    · exact .timedOut (.inl rfl) ho rfl (by rw [ho]; rfl)
  | release => cases h; exact .done (by decide) (by decide) nofun (runRelease_clean s)
  | standby => cases h; exact .done (by decide) (by decide) nofun (runStandby_clean s)
  | enableWrite c =>
    obtain ⟨r, hrun, rfl⟩ := exists_of_map h
    exact concludes_of_sampling (runEnableWrite_sampling hrun) (by simp [Instr.codes]) (fun _ _ => rfl) rfl
  | writeStatus c =>
    obtain ⟨r, hrun, rfl⟩ := exists_of_map h
    exact concludes_of_sampling (runWriteStatus_sampling hrun) (by simp [Instr.codes]) (fun _ _ => rfl) rfl
  | readStatus c =>
    obtain ⟨⟨u, x⟩, hrun, hx⟩ := Option.map_eq_some_iff.mp h
    have hend := concludes_statusEnding (i := .readStatus c) (runReadStatus_sampling hrun) (by simp [Instr.codes])
      (fun _ _ => rfl) rfl
    rwa [hx] at hend
  | writePage c =>
    obtain ⟨-, h⟩ | ⟨-, rfl, rfl⟩ := checked_cases h
    · obtain ⟨r, hrun, rfl⟩ := exists_of_map h
      exact concludes_of_sampling (runPage_sampling rfl hrun) (by simp [Instr.codes]) (fun _ _ => rfl) rfl
    · exact concludes_illegal rfl
  | readPage c =>
    obtain ⟨-, h⟩ | ⟨-, rfl, rfl⟩ := checked_cases h
    · obtain ⟨r, hrun, rfl⟩ := exists_of_map h
      exact concludes_of_sampling (runPage_sampling rfl hrun) (by simp [Instr.codes]) (fun _ _ => rfl) rfl
    · exact concludes_illegal rfl
  | pollReady c =>
    obtain ⟨⟨u, x⟩, hrun, hx⟩ := Option.map_eq_some_iff.mp h
    obtain ⟨n, hsampling⟩ := runPollReady_sampling hrun
    have hend := concludes_statusEnding (i := .pollReady c) hsampling (by simp [Instr.codes]) (fun _ _ => rfl) rfl
    rwa [hx] at hend
  | clearBp c =>
    obtain ⟨r, hrun, rfl⟩ := exists_of_map h
    exact concludes_of_sampling (runClearBp_sampling hrun) (by simp [Instr.codes]) (fun _ _ => rfl) rfl
  | dump c =>
    obtain ⟨-, h⟩ | ⟨-, rfl, rfl⟩ := checked_cases h
    · obtain ⟨r, hrun, rfl⟩ := exists_of_map h
      obtain ⟨n, hsampling⟩ := runDump_sampling hrun
      exact concludes_of_sampling hsampling (by simp [Instr.codes]) (fun _ _ => rfl) rfl
    · exact concludes_illegal rfl
  | program c =>
    obtain ⟨-, h⟩ | ⟨-, rfl, rfl⟩ := checked_cases h
    · obtain ⟨r, hrun, rfl⟩ := exists_of_map h
      cases runProgram_runs hrun with
      | ok hclean => exact .done (by simp [Instr.codes, SubOutcome.rcode]) (by decide) nofun hclean
      | cancelled hm hcut => exact .stopped (clearBpCode_of_le hm).symm (afterCut_cancelled rfl _).symm hcut
      | protectedRegion hm hcut => exact .stopped (clearBpCode_of_lt hm).symm (if_pos (.inr rfl)).symm hcut
    · exact concludes_illegal rfl
  | erase c =>
    obtain ⟨r, hrun, rfl⟩ := exists_of_map h
    obtain ⟨ho, rfl, rfl⟩ | hrel := runErase_runs hrun
    · exact .timedOut (.inr rfl) ho rfl rfl
    · exact concludes_of_releases hrel (by simp [Instr.codes]) nofun (fun _ _ _ => rfl) rfl
  | unlock c =>
    obtain ⟨r, hrun, rfl⟩ := exists_of_map h
    obtain ⟨ho, rfl, rfl⟩ | hrel := runUnlock_runs hrun
    · exact .timedOut (.inr rfl) ho rfl rfl
    · exact concludes_of_releases hrel (by simp [Instr.codes]) (fun _ _ => Nat.le_refl _)
        (fun _ _ hm => ⟨hm, clearBpCode_of_lt hm⟩) rfl
  | checksum c rp =>
    obtain ⟨ho, rfl, rfl⟩ | hruns := runChecksum_runs h
    · exact .timedOut (.inr rfl) ho rfl rfl
    · cases hruns with
      | done hcode hclean =>
        simp only [List.mem_cons, List.not_mem_nil, or_false] at hcode
        obtain rfl | rfl | rfl := hcode <;> exact .done (by simp [Instr.codes]) (by decide) nofun hclean
      | cut hcode hcut => exact .stopped hcode (afterCut_of_owns rfl _ _).symm hcut

/-! ### What follows from it -/

/-- Only the listed codes (60_exceptions.md R85). -/
theorem Hw.Concludes.mem_codes (h : s.Concludes i t code) : code ∈ i.codes := by
  cases h with
  | done hmem => exact hmem
  | timedOut hi _ _ hcode =>
    subst hcode
    cases i with
    | acquire | erase c | unlock c | checksum c rp => simp [Instr.codes]
    | _ => obtain hi | hi := hi <;> cases hi
  | stopped hcode _ hcut =>
    cases i with
    | acquire | release | standby => cases hcut.flag
    | program c | erase c =>
      rw [StopsWith, clearBpCode] at hcode
      split at hcode <;> (subst hcode; simp [Instr.codes])
    | unlock c =>
      obtain ⟨-, rfl⟩ := hcode
      simp [Instr.codes]
    | checksum c rp => obtain rfl | ⟨rfl, -⟩ := hcode <;> simp [Instr.codes]
    | _ =>
      cases hcode
      simp [Instr.codes]

/-- A cancellation gives one of two codes (60_exceptions.md R88, R90). -/
theorem StopsWith.code_eq {m : Nat} {h : Hw} (hstop : StopsWith i m h code) : code = .cancelled ∨ code = .protectedRegion := by
  cases i with
  | program c | erase c =>
    rw [StopsWith, clearBpCode] at hstop
    split at hstop
    · exact .inr hstop
    · exact .inl hstop
  | unlock c => exact .inr hstop.2
  | checksum c rp => exact hstop.imp_right And.left
  | _ => exact .inl hstop

/-- And those two come from a cancellation alone. -/
theorem Hw.Concludes.exists_cut (h : s.Concludes i t code) (hcode : code = .cancelled ∨ code = .protectedRegion) :
    ∃ u m, StopsWith i m t code ∧ t = afterCut i code u ∧ s.Cut i.flags.c u m := by
  cases h with
  | done _ hne => obtain rfl | rfl := hcode <;> exact (hne (by decide)).elim
  | timedOut _ _ _ htimeout => obtain rfl | rfl := hcode <;> cases htimeout
  | stopped hstop hh hcut => exact ⟨_, _, hstop, hh, hcut⟩

theorem afterCut_seen (i : Instr) (code : RCode) (u : Hw) : (afterCut i code u).status.cancelSeen = u.status.cancelSeen := by
  rw [afterCut]
  split
  · exact (runRelease_clean (c := false) u).seen
  · rfl

/-- The events of that Release, as the state that the command started from gives them. -/
theorem Hw.Cut.afterCut_trace {c : Bool} {u : Hw} {m : Nat} (h : s.Cut c u m) (i : Instr) (code : RCode) :
    (afterCut i code u).trace =
      u.trace ++ (if i.ownsSession = true ∨ code = .protectedRegion then releasePart s u.readAnswer else []) := by
  have hpart : releasePart u u.readAnswer = releasePart s u.readAnswer := by
    rw [releasePart, releasePart, h.same.params, h.same.latch]
  rw [afterCut]
  split
  · rw [runRelease_trace, hpart]
  · rw [List.append_nil]

end

/-- Two hardware states agree on all that `finish` leaves alone and the statements about outcomes speak of. -/
structure Hw.SameEnd (s t : Hw) : Prop where
  trace : t.trace = s.trace
  cancels : t.cancels = s.cancels
  seen : t.status.cancelSeen = s.status.cancelSeen
  rdata : t.rdata = s.rdata

/-- A command that ends has concluded in one of the three ways. -/
theorem concludes_of_commandEnds {i : Instr} {s : State} {h : Hw} {code : RCode} (hs : s.Accepted) (hsound : s.hw.Sound)
    (hc : CommandEnds i s h code) : ∃ t, s.hw.Concludes i t code ∧ t.SameEnd h := by
  obtain ⟨fuel, t, hrun, heq⟩ := runsPseudocode_of_commandEnds hs hsound hc
  exact ⟨t, runCommand_concludes hrun, congrArg (fun u : State => u.hw.trace) heq,
    congrArg (fun u : State => u.hw.cancels) heq, congrArg (fun u : State => u.hw.status.cancelSeen) heq,
    congrArg (fun u : State => u.hw.rdata) heq⟩

/-! ### The statements -/

/-- Settles O41: by how the command's run concludes. -/
theorem eachCommandProducesItsCodes : Obligations.EachCommandProducesItsCodes := by
  intro i s h code hs hsound hc
  obtain ⟨t, hconcludes, -⟩ := concludes_of_commandEnds hs hsound hc
  exact hconcludes.mem_codes

/-- Settles O43: the run is cut at its last sample, and what follows is `afterCut`. -/
theorem cancelledCommandStopsAtOnce : Obligations.CancelledCommandStopsAtOnce := by
  intro i s h code hs hsound hc hcode
  obtain ⟨_, hconcludes, hend⟩ := concludes_of_commandEnds hs hsound hc
  obtain ⟨u, m, -, rfl, hcut⟩ := hconcludes.exists_cut hcode
  obtain ⟨ev, htrace, -, hev⟩ := hcut.trace
  refine ⟨?_, ev, u.readAnswer, hev, ?_⟩
  · rw [hend.seen, afterCut_seen, hcut.seen]
  · rw [hend.trace, hcut.afterCut_trace, htrace]

/-- Settles O45: where C = 0 nothing cuts the run, and neither a clean run nor an Acquire samples. -/
theorem cancellationIsSampledOnlyUnderC : Obligations.CancellationIsSampledOnlyUnderC := by
  intro i s h code hs hsound hflag hc
  obtain ⟨t, hconcludes, hend⟩ := concludes_of_commandEnds hs hsound hc
  rw [hend.cancels, hend.seen, hend.trace]
  obtain ⟨n, hclean⟩ : ∃ n, s.hw.Clean false t n := by
    cases hconcludes with
    | done _ _ _ hclean => exact ⟨_, hflag ▸ hclean⟩
    | timedOut _ _ hh _ => exact ⟨0, hh ▸ runAcquire_clean s.hw⟩
    | stopped _ _ hcut => cases hflag.symm.trans hcut.flag
  obtain ⟨ev, htrace, hcount, -⟩ := hclean.trace
  exact ⟨hclean.cancels rfl, hclean.seen, ev, htrace, cp_notMem_of_cancelSamples hcount⟩

theorem Hw.Concludes.timeout {i : Instr} {s t : Hw} (h : s.Concludes i t .arbTimeout) :
    (i = .acquire ∨ i.ownsSession = true) ∧ (runAcquire s).2 = .arbitrationTimeout ∧ t = (runAcquire s).1 := by
  cases h with
  | done _ hne => exact (hne (by decide)).elim
  | timedOut hi ho hh => exact ⟨hi, ho, hh⟩
  | stopped hstop => obtain hcode | hcode := hstop.code_eq <;> cases hcode

/-- The commands that begin with an Acquire end where it times out (60_exceptions.md R89). -/
theorem runCommand_of_timeout {i : Instr} {s t : Hw} (hi : i = .acquire ∨ i.ownsSession = true)
    (h : runAcquire s = (t, .arbitrationTimeout)) : runCommand 0 i s = some (t, .arbTimeout) := by
  cases i with
  | acquire => simp only [runCommand, h]; rfl
  | erase c => simp only [runCommand, runErase, h]; rfl
  | unlock c => simp only [runCommand, runUnlock, h]; rfl
  | checksum c rp => simp only [runCommand, runChecksum, h]
  | _ => obtain hi | hi := hi <;> cases hi

/-- Settles O46: a timeout is that of the command's Acquire, whose answers are read off its run; and back, such answers make
it time out. -/
theorem timeoutHappensOnlyInAcquire : Obligations.TimeoutHappensOnlyInAcquire := by
  refine ⟨fun i s h hs hsound hc => ?_, fun i s a hs hsound hi hp ⟨hn, hpolls, hgnt⟩ ⟨rest, hr⟩ => ?_⟩
  · obtain ⟨_, hconcludes, hend⟩ := concludes_of_commandEnds hs hsound hc
    obtain ⟨hi, ho, rfl⟩ := hconcludes.timeout
    rw [hend.trace]
    exact ⟨hi, exists_timedOut ho⟩
  · have hrun := (runAcquire_eq_runGrant hp hr hpolls hn.le (.inr hn)).trans (if_neg (Bool.eq_false_iff.mp hgnt))
    exact ⟨_, commandEnds_of_runCommand hs hsound (runCommand_of_timeout hi hrun), rfl, List.append_assoc ..⟩

end Sys2Proof.Machine
end

section
/-! PROOFS. One step of the block as one primitive (20_memory.md R42), seen from the host's side: whatever the operand registers,
OVERRUN and the answers of the cancellation input are, the step is the same, but for the answer that a sample brings. So OVERRUN
changes nothing (60_exceptions.md R95), and a run replays with other cancellation answers (R87, R88). -/

namespace Sys2Proof.Machine

/-- The state s with what the block does not look at between acceptance and `finish` taken from x (CMD, the operand registers,
DEVCFG, DEVSIZE and OVERRUN), and with the given answers of the cancellation input. -/
def Hw.graft (s x : Hw) (cs : List Bool) : Hw :=
  { s with
    cmd := x.cmd
    offset := x.offset
    length := x.length
    src := x.src
    dst := x.dst
    data := x.data
    devcfg := x.devcfg
    devsize := x.devsize
    status := { s.status with overrun := x.status.overrun }
    cancels := cs }

/-- What one step can be, at the state s: a sample of the cancellation input, whose answer decides the next point, or a step
with at most one other event, which a graft does not change. -/
inductive Hw.Primitive {π ρ : Type} (g : Hw → Hw × Res π ρ) (s : Hw) : Prop where
  | sample (k : Bool → π)
      (h : ∀ x cs, g (s.graft x cs) = ((s.graft x cs).cancelPending, .goto (k (s.graft x cs).cancelAnswer)))
  | silent (trace : (g s).1.trace = s.trace) (h : ∀ x cs, g (s.graft x cs) = ((g s).1.graft x cs, (g s).2))
  | event {e : Event} (he : ∀ b, e ≠ .cp b) (trace : (g s).1.trace = s.trace ++ [e])
      (h : ∀ x cs, g (s.graft x cs) = ((g s).1.graft x cs, (g s).2))

namespace Hw.Primitive

variable {π ρ π' ρ' : Type} {g : Hw → Hw × Res π ρ} {s : Hw}

/-- A step of a called procedure, as a step f of its caller. -/
theorem chain {f : Hw → Hw × Res π' ρ'} {wrap : π → π'} {k : Hw → ρ → Res π' ρ'} (h : Hw.Primitive g s)
    (hf : ∀ x cs, f (s.graft x cs) = chainStep (g (s.graft x cs)) wrap k)
    (hk : ∀ t x cs r, k (Hw.graft t x cs) r = k t r := by intros; rfl) : Hw.Primitive f s := by
  have hs : f s = chainStep (g s) wrap k := hf s s.cancels
  have graft : ∀ {x : Hw} {cs : List Bool}, g (s.graft x cs) = ((g s).1.graft x cs, (g s).2) →
      f (s.graft x cs) = ((f s).1.graft x cs, (f s).2) := fun {x cs} hg => by
    simp only [hf, hs, chainStep, hg, funext (hk (g s).1 x cs)]
  cases h with
  | sample next h => exact .sample (fun b => wrap (next b)) fun x cs => by rw [hf, h]; rfl
  | silent trace h => exact .silent (by rw [hs, chainStep_fst, trace]) fun x cs => graft (h x cs)
  | event he trace h => exact .event he (by rw [hs, chainStep_fst, trace]) fun x cs => graft (h x cs)

/-- The same where the caller's next part does not look at the state. -/
theorem call {f : Hw → Hw × Res π' ρ'} {wrap : π → π'} {k : ρ → Res π' ρ'} (h : Hw.Primitive g s)
    (hf : ∀ x cs, f (s.graft x cs) = chainStep (g (s.graft x cs)) wrap fun _ r => k r) : Hw.Primitive f s :=
  h.chain hf

/-- A procedure with an argument that the state gives. -/
theorem of_eq {g' : Hw → Hw × Res π ρ} (h : Hw.Primitive g s) (hg : ∀ x cs, g' (s.graft x cs) = g (s.graft x cs)) :
    Hw.Primitive g' s := by
  have hs : g' s = g s := hg s s.cancels
  cases h with
  | sample k h => exact .sample k fun x cs => (hg x cs).trans (h x cs)
  | silent trace h => exact .silent (by rw [hs, trace]) fun x cs => by rw [hg, h, hs]
  | event he trace h => exact .event he (by rw [hs, trace]) fun x cs => by rw [hg, h, hs]

end Hw.Primitive

/-! ### One lemma per step function -/

section

variable (s : Hw)

theorem memWrite_graft {r : Ref} {v : Byte} (x : Hw) (cs : List Bool) :
    (s.graft x cs).memWrite r v = (s.memWrite r v).map fun t => t.graft x cs := by
  obtain ⟨space, addr⟩ := r
  cases space with
  | buf => rfl
  | scr => simp only [Hw.memWrite, show (s.graft x cs).scr = s.scr from rfl]; split <;> rfl
  | opb => simp only [Hw.memWrite, show (s.graft x cs).opb = s.opb from rfl]; split <;> rfl

theorem stepDrive_primitive (p : DrivePt) : Hw.Primitive (stepDrive p) s := by
  cases p with
  | write => exact .event (e := .wr _) nofun rfl fun _ _ => rfl
  | flush => exact .event (e := .fl) nofun rfl fun _ _ => rfl
  | delay => exact .event (e := .dl _) nofun rfl fun _ _ => rfl

theorem stepRaise_primitive (p : ClockPt) : Hw.Primitive (stepRaise p) s := by
  cases p with
  | change => exact .silent rfl fun _ _ => rfl
  | drive p => exact (stepDrive_primitive s p).call fun _ _ => rfl

theorem stepLower_primitive (p : ClockPt) : Hw.Primitive (stepLower p) s := by
  cases p with
  | change => exact .silent rfl fun _ _ => rfl
  | drive p => exact (stepDrive_primitive s p).call fun _ _ => rfl

/-- A step that reads one byte, or faults (00_scope.md R6). -/
theorem load_primitive {π ρ : Type} {g : Hw → Hw × Res π ρ} {r : Ref} {next : Byte → Res π ρ} {fault : Fault}
    (hg : ∀ x cs, g (s.graft x cs) =
      match s.memRead r with | some v => (s.graft x cs, next v) | none => (s.graft x cs, .fault fault)) :
    Hw.Primitive g s := by
  have hs : g s = match s.memRead r with | some v => (s, next v) | none => (s, .fault fault) := hg s s.cancels
  refine .silent ?_ fun x cs => ?_
  · rw [hs]
    split <;> rfl
  · rw [hg, hs]
    split <;> rfl

/-- A step that stores one byte, or faults (00_scope.md R6). -/
theorem store_primitive {π ρ : Type} {g : Hw → Hw × Res π ρ} {r : Ref} {v : Byte} {next : Hw → Res π ρ} {fault : Fault}
    (hnext : ∀ t x cs, next (Hw.graft t x cs) = next t)
    (hg : ∀ x cs, g (s.graft x cs) =
      match (s.graft x cs).memWrite r v with | some t => (t, next t) | none => (s.graft x cs, .fault fault)) :
    Hw.Primitive g s := by
  have hs : g s = match s.memWrite r v with | some t => (t, next t) | none => (s, .fault fault) := hg s s.cancels
  refine .silent ?_ fun x cs => ?_
  · rw [hs]
    split
    · next hw => obtain ⟨-, rfl⟩ | ⟨-, -, rfl⟩ | ⟨-, o, -, rfl⟩ := memWrite_cases hw <;> rfl
    · rfl
  · rw [hg, hs, memWrite_graft]
    cases s.memWrite r v with
    | some t => simp only [Option.map_some, hnext]
    | none => rfl

theorem stepXfer_primitive (a : XferArgs) (p : XferPt) : Hw.Primitive (stepXfer a p) s := by
  cases p with
  | seed => exact .event (e := .rd _) nofun rfl fun _ _ => rfl
  | check i => exact .sample (fun b => if b then .markCancelled else a.bitSource i) fun _ _ => rfl
  | markCancelled => exact .silent rfl fun _ _ => rfl
  | fetch i r => exact load_primitive s fun _ _ => rfl
  | present i b => cases b <;> exact .silent rfl fun _ _ => rfl
  | setup i p => exact (stepDrive_primitive s p).call fun _ _ => rfl
  | rise i p => exact (stepRaise_primitive s p).call fun _ _ => rfl
  | sample i => exact .event (e := .rd _) nofun rfl fun _ _ => rfl
  | load i r => exact load_primitive s fun _ _ => rfl
  | store i r v => exact store_primitive s (v := setBit v i s.sampledBit) (fun _ _ _ => rfl) fun _ _ => rfl
  | fall i p => exact (stepLower_primitive s p).call fun _ _ => rfl
  | loadTail r => exact load_primitive s fun _ _ => rfl
  | storeTail r v => exact store_primitive s (fun _ _ _ => rfl) fun _ _ => rfl

theorem stepAcquire_primitive (p : AcquirePt) : Hw.Primitive (stepAcquire p) s := by
  cases p with
  | seed | poll a => exact .event (e := .rd _) nofun rfl fun _ _ => rfl
  | writeReq | writeTimeout | writeBaseline => exact .event (e := .wr _) nofun rfl fun _ _ => rfl
  | pollDelay a | delayBaseline => exact .event (e := .dl _) nofun rfl fun _ _ => rfl
  | setReq | clearReq | baseline => exact .silent rfl fun _ _ => rfl

theorem stepRelease_primitive (p : ReleasePt) : Hw.Primitive (stepRelease p) s := by
  cases p with
  | seed => exact .event (e := .rd _) nofun rfl fun _ _ => rfl
  | writeDeselect | writeReq => exact .event (e := .wr _) nofun rfl fun _ _ => rfl
  | delayDeselect => exact .event (e := .dl _) nofun rfl fun _ _ => rfl
  | deselect | clearReq => exact .silent rfl fun _ _ => rfl

theorem stepStandby_primitive (p : StandbyPt) : Hw.Primitive (stepStandby p) s := by
  cases p with
  | seed => exact .event (e := .rd _) nofun rfl fun _ _ => rfl
  | setCen | clearCen => exact .silent rfl fun _ _ => rfl
  | driveHigh p | driveLow p => exact (stepDrive_primitive s p).call fun _ _ => rfl

theorem stepEnableWrite_primitive (c : Bool) (p : EnableWritePt) : Hw.Primitive (stepEnableWrite c p) s := by
  cases p with
  | standby p => exact (stepStandby_primitive s p).call fun _ _ => rfl
  | opcode => exact .silent rfl fun _ _ => rfl
  | xfer p => exact (stepXfer_primitive s _ p).call fun _ _ => rfl

theorem stepWriteStatus_primitive (st : Byte) (c : Bool) (p : WriteStatusPt) : Hw.Primitive (stepWriteStatus st c p) s := by
  cases p with
  | enable p => exact (stepEnableWrite_primitive s c p).chain fun _ _ => rfl
  | standby p => exact (stepStandby_primitive s p).call fun _ _ => rfl
  | opcode | status => exact .silent rfl fun _ _ => rfl
  | xfer p => exact (stepXfer_primitive s _ p).call fun _ _ => rfl

theorem stepClearBp_primitive (c : Bool) (p : WriteStatusPt) : Hw.Primitive (stepClearBp c p) s :=
  (stepWriteStatus_primitive s (clearBpByte s.params) c p).of_eq fun _ _ => rfl

theorem stepReadStatus_primitive (c : Bool) (p : ReadStatusPt) : Hw.Primitive (stepReadStatus c p) s := by
  cases p with
  | standby p => exact (stepStandby_primitive s p).call fun _ _ => rfl
  | opcode | zero => exact .silent rfl fun _ _ => rfl
  | xfer p => exact (stepXfer_primitive s _ p).chain (k := fun t r => .ret (statusResult t r)) fun _ _ => rfl

theorem stepPollReady_primitive (c : Bool) (p : ReadStatusPt) : Hw.Primitive (stepPollReady c p) s :=
  (stepReadStatus_primitive s c p).chain fun _ _ => rfl

theorem stepPage_primitive (op : Byte) (off : Half) (payload : XferArgs) (c : Bool) (p : PagePt) :
    Hw.Primitive (stepPage op off payload c p) s := by
  cases p with
  | standby p => exact (stepStandby_primitive s p).call fun _ _ => rfl
  | opcode | addrHigh | addrMid | addrLow => exact .silent rfl fun _ _ => rfl
  | header p | payload p => exact (stepXfer_primitive s _ p).call fun _ _ => rfl

theorem stepWritePage_primitive (v : Span) (c : Bool) (p : PagePt) : Hw.Primitive (stepWritePage v c p) s :=
  (stepPage_primitive s s.params.opWrite v.off (payloadOut v c) c p).of_eq fun _ _ => rfl

theorem stepReadPage_primitive (v : Span) (c : Bool) (p : PagePt) : Hw.Primitive (stepReadPage v c p) s :=
  (stepPage_primitive s s.params.opRead v.off (payloadIn v c) c p).of_eq fun _ _ => rfl

theorem stepDump_primitive (c : Bool) (p : DumpPt) : Hw.Primitive (stepDump c p) s := by
  cases p with
  | poll v p => exact (stepPollReady_primitive s c p).chain fun _ _ => rfl
  | page v p =>
    exact (stepReadPage_primitive s (dumpPage s.latch.ps.toNat v) c p).chain fun _ _ => rfl

theorem stepProgram_primitive (c : Bool) (p : ProgramPt) : Hw.Primitive (stepProgram c p) s := by
  cases p with
  | clearBp v p => exact (stepClearBp_primitive s c p).chain fun _ _ => rfl
  | release p => exact (stepRelease_primitive s p).call fun _ _ => rfl
  | poll v p => exact (stepPollReady_primitive s c p).chain fun _ _ => rfl
  | enable v p => exact (stepEnableWrite_primitive s c p).chain fun _ _ => rfl
  | write v p => exact (stepWritePage_primitive s _ c p).chain fun _ _ => rfl
  | finalPoll p => exact (stepPollReady_primitive s c p).call fun _ _ => rfl

theorem stepErase_primitive (c : Bool) (p : ErasePt) : Hw.Primitive (stepErase c p) s := by
  cases p with
  | acquire p => exact (stepAcquire_primitive s p).chain fun _ _ => rfl
  | standby p => exact (stepStandby_primitive s p).chain (k := fun t _ => eraseClear t) fun _ _ => rfl
  | standby2 p => exact (stepStandby_primitive s p).call fun _ _ => rfl
  | clearBp p => exact (stepClearBp_primitive s c p).chain fun _ _ => rfl
  | enable p => exact (stepEnableWrite_primitive s c p).chain fun _ _ => rfl
  | opcode => exact .silent rfl fun _ _ => rfl
  | xfer p => exact (stepXfer_primitive s _ p).chain fun _ _ => rfl
  | release r p => exact (stepRelease_primitive s p).call fun _ _ => rfl

theorem stepUnlock_primitive (c : Bool) (p : UnlockPt) : Hw.Primitive (stepUnlock c p) s := by
  cases p with
  | acquire p => exact (stepAcquire_primitive s p).chain fun _ _ => rfl
  | standby p => exact (stepStandby_primitive s p).chain (k := fun t _ => unlockClear t) fun _ _ => rfl
  | clearBp p => exact (stepClearBp_primitive s c p).chain fun _ _ => rfl
  | release r p => exact (stepRelease_primitive s p).call fun _ _ => rfl

theorem loadScr_primitive (a : Nat) (next : Byte → ChecksumPt) : Hw.Primitive (fun u => loadScr u a next) s :=
  load_primitive s (r := scrRef a) (next := fun v => .goto (next v)) (fault := .noSuchByte (scrRef a)) fun _ _ => rfl

theorem storeScr_primitive (a : Nat) (v : Byte) {next : Hw → Res ChecksumPt RCode}
    (hnext : ∀ t x cs, next (Hw.graft t x cs) = next t) : Hw.Primitive (fun u => storeScr u a v next) s :=
  store_primitive s hnext fun _ _ => rfl

theorem stepChecksum_primitive (c rp : Bool) (p : ChecksumPt) : Hw.Primitive (stepChecksum c rp p) s := by
  cases p with
  | acquire p => exact (stepAcquire_primitive s p).chain fun _ _ => rfl
  | dump p => exact (stepDump_primitive s c p).chain fun _ _ => rfl
  | evalFirst j t => exact loadScr_primitive s (2 * j) (.evalSecond j t)
  | evalSecond j t v =>
    exact (loadScr_primitive s (2 * j + 1) fun w => checksumWord s j t (joinWord s.params.wordOrder v w)).of_eq
      fun _ _ => rfl
  | result x y => exact .silent rfl fun _ _ => rfl
  | scrLow x =>
    exact (storeScr_primitive s (2 * s.params.checksumIndex) (firstByte s.params.wordOrder x) (next := fun _ => _)
      fun _ _ _ => rfl).of_eq fun _ _ => rfl
  | scrHigh x =>
    exact (storeScr_primitive s (2 * s.params.checksumIndex + 1) (secondByte s.params.wordOrder x) (next := checksumRepair)
      fun _ _ _ => rfl).of_eq fun _ _ => rfl
  | program p => exact (stepProgram_primitive s c p).chain fun _ _ => rfl
  | release r p => exact (stepRelease_primitive s p).call fun _ _ => rfl

end

/-! ### The block's step -/

/-- What a step of the block can be, at the state s: a sample of the cancellation input, whose answer decides SEQ, or a step
with at most one other event, which a graft does not change. -/
inductive State.Primitive (s : State) : Prop where
  | sample (k : Bool → Seq)
      (h : ∀ x cs, blockStep { s with hw := s.hw.graft x cs } =
        .next { s with hw := (s.hw.graft x cs).cancelPending, seq := k (s.hw.graft x cs).cancelAnswer })
  | other
      (keeps : ∀ t, blockStep s = .next t →
        t.host = s.host ∧ (t.hw.trace = s.hw.trace ∨ ∃ e, (∀ b, e ≠ .cp b) ∧ t.hw.trace = s.hw.trace ++ [e]))
      (h : ∀ x cs t, blockStep s = .next t →
        blockStep { s with hw := s.hw.graft x cs } = .next { t with hw := t.hw.graft x cs })

section

variable {π ρ : Type} {q : Seq} {hw : Hw} {host : HostSide}

theorem advance_keeps {s t : State} {x : Hw × Res π ρ} {wrap : π → Seq} {k : ρ → Seq} (h : s.advance x wrap k = .next t) :
    t.host = s.host ∧ t.hw = x.1 := by
  obtain ⟨u, p | r | e⟩ := x <;> cases h <;> exact ⟨rfl, rfl⟩

theorem advance_graft {s t : State} {y : Hw × Res π ρ} {wrap : π → Seq} {k : ρ → Seq} (h : s.advance y wrap k = .next t)
    (x : Hw) (cs : List Bool) :
    State.advance { s with hw := s.hw.graft x cs } (y.1.graft x cs, y.2) wrap k = .next { t with hw := t.hw.graft x cs } := by
  obtain ⟨u, p | r | e⟩ := y <;> cases h <;> rfl

/-- A step of the command's procedure. -/
theorem advance_primitive {g : Hw → Hw × Res π ρ} {wrap : π → Seq} {k : ρ → Seq} (hg : Hw.Primitive g hw)
    (hb : ∀ u, blockStep ⟨q, u, host⟩ = State.advance ⟨q, u, host⟩ (g u) wrap k) : State.Primitive ⟨q, hw, host⟩ := by
  have graft : ∀ {x : Hw} {cs : List Bool} {t : State}, g (hw.graft x cs) = ((g hw).1.graft x cs, (g hw).2) →
      blockStep ⟨q, hw, host⟩ = .next t →
      blockStep ⟨q, hw.graft x cs, host⟩ = .next { t with hw := t.hw.graft x cs } := fun {x cs t} hx ht => by
    rw [hb, hx]
    exact advance_graft ((hb hw).symm.trans ht) x cs
  cases hg with
  | sample next h => exact .sample (fun b => wrap (next b)) fun x cs => by simp only [hb, h, State.advance]
  | silent trace h =>
    refine .other (fun t ht => ?_) fun x cs t => graft (h x cs)
    obtain ⟨hhost, hhw⟩ := advance_keeps ((hb hw).symm.trans ht)
    exact ⟨hhost, .inl (by rw [hhw, trace])⟩
  | event he trace h =>
    refine .other (fun t ht => ?_) fun x cs t => graft (h x cs)
    obtain ⟨hhost, hhw⟩ := advance_keeps ((hb hw).symm.trans ht)
    exact ⟨hhost, .inr ⟨_, he, by rw [hhw, trace]⟩⟩

end

theorem blockStep_primitive (s : State) : s.Primitive := by
  obtain ⟨q, hw, host⟩ := s
  cases q with
  | idle => exact .other (fun t h => by cases h; exact ⟨rfl, .inl rfl⟩) fun _ _ t h => by cases h; rfl
  | transfer a p => exact advance_primitive (stepXfer_primitive hw a p) fun _ => rfl
  | acquire p => exact advance_primitive (stepAcquire_primitive hw p) fun _ => rfl
  | release p => exact advance_primitive (stepRelease_primitive hw p) fun _ => rfl
  | standby p => exact advance_primitive (stepStandby_primitive hw p) fun _ => rfl
  | enableWrite c p => exact advance_primitive (stepEnableWrite_primitive hw c p) fun _ => rfl
  | writeStatus st c p => exact advance_primitive (stepWriteStatus_primitive hw st c p) fun _ => rfl
  | readStatus c p => exact advance_primitive (stepReadStatus_primitive hw c p) fun _ => rfl
  | writePage v c p => exact advance_primitive (stepWritePage_primitive hw v c p) fun _ => rfl
  | readPage v c p => exact advance_primitive (stepReadPage_primitive hw v c p) fun _ => rfl
  | pollReady c p => exact advance_primitive (stepPollReady_primitive hw c p) fun _ => rfl
  | clearBp c p => exact advance_primitive (stepClearBp_primitive hw c p) fun _ => rfl
  | dump c p => exact advance_primitive (stepDump_primitive hw c p) fun _ => rfl
  | program c p => exact advance_primitive (stepProgram_primitive hw c p) fun _ => rfl
  | erase c p => exact advance_primitive (stepErase_primitive hw c p) fun _ => rfl
  | unlock c p => exact advance_primitive (stepUnlock_primitive hw c p) fun _ => rfl
  | checksum c rp p => exact advance_primitive (stepChecksum_primitive hw c rp p) fun _ => rfl
  | statusResult st | finish code => exact .other (fun t h => by cases h; exact ⟨rfl, .inl rfl⟩) fun _ _ t h => by cases h; rfl

/-- A step that a graft does not change keeps what a graft replaces. -/
theorem eq_graft_self {s t : State}
    (hg : ∀ x cs t, blockStep s = .next t → blockStep { s with hw := s.hw.graft x cs } = .next { t with hw := t.hw.graft x cs })
    (h : blockStep s = .next t) : t = { t with hw := t.hw.graft s.hw s.hw.cancels } :=
  Host.Outcome.next.inj (h.symm.trans (hg s.hw s.hw.cancels t h))

/-- OVERRUN changes nothing that the block does (60_exceptions.md R95). -/
theorem blockStep_markOverrun {s t : State} (h : blockStep s = .next t) :
    blockStep { s with hw := s.hw.markOverrun } = .next { t with hw := t.hw.markOverrun } := by
  cases blockStep_primitive s with
  | sample k hk =>
    obtain rfl := Host.Outcome.next.inj (h.symm.trans (hk s.hw s.hw.cancels))
    exact hk s.hw.markOverrun s.hw.cancels
  | other _ hg =>
    rw [eq_graft_self hg h]
    exact hg s.hw.markOverrun s.hw.cancels t h

/-! ### Replaying a run with other cancellation answers -/

/-- The state with other answers of the cancellation input. -/
def State.withCancels (s : State) (cs : List Bool) : State := { s with hw := { s.hw with cancels := cs } }

/-- A command's entry changes SEQ alone, and it is entered alike whatever those answers are (30_encoding.md R52). -/
theorem exec_withCancels {i : Instr} {s t : State} (h : exec i s = .next t) (cs : List Bool) :
    t = s.at t.seq ∧ exec i (s.withCancels cs) = .next (t.withCancels cs) := by
  have enter : ∀ {π ρ : Type} {x : Res π ρ} {wrap : π → Seq} {k : ρ → Seq}, s.enter x wrap k = .next t →
      t = s.at t.seq ∧ (s.withCancels cs).enter x wrap k = .next (t.withCancels cs) := fun {π ρ x wrap k} h => by
    cases x <;> cases h <;> exact ⟨rfl, rfl⟩
  have enterIfFits : ∀ {π : Type} {x : Res π SubOutcome} {wrap : π → Seq} {k : SubOutcome → Seq},
      (if lengthFits s.hw.latch then s.enter x wrap k else .next (s.at (.finish .illegal))) = .next t →
      t = s.at t.seq ∧ (if lengthFits s.hw.latch then (s.withCancels cs).enter x wrap k
        else .next ((s.withCancels cs).at (.finish .illegal))) = .next (t.withCancels cs) := fun {π x wrap k} h => by
    split at h
    · rw [if_pos ‹_›]
      exact enter h
    · cases h
      exact ⟨rfl, if_neg ‹_›⟩
  cases i with
  | transfer c sf df => cases h; exact ⟨rfl, rfl⟩
  | writePage c | readPage c | dump c | program c => exact enterIfFits h
  | acquire | release | standby | enableWrite c | writeStatus c | readStatus c | pollReady c | clearBp c | erase c
  | unlock c | checksum c rp => exact enter h

/-- A step of the block leaves the host's side alone, and has at most one event. -/
theorem blockStep_extends {s t : State} (h : blockStep s = .next t) :
    t.host = s.host ∧ ∃ ev, ev.length ≤ 1 ∧ t.hw.trace = s.hw.trace ++ ev := by
  cases blockStep_primitive s with
  | sample k hk =>
    obtain rfl := Host.Outcome.next.inj (h.symm.trans (hk s.hw s.hw.cancels))
    exact ⟨rfl, [_], Nat.le_refl 1, rfl⟩
  | other keeps _ =>
    obtain ⟨hhost, htrace | ⟨e, -, htrace⟩⟩ := keeps t h
    · exact ⟨hhost, [], Nat.zero_le 1, by rw [htrace, List.append_nil]⟩
    · exact ⟨hhost, [e], Nat.le_refl 1, htrace⟩

/-- A run of a quiet machine: the machine is idle and stays as it is, or the block takes a step. -/
theorem run_quiet_cases {n : Nat} {s u : State} (hq : s.Quiet) (h : Host.Core.run Sys2Proof.core (n + 1) s = .next u) :
    u = s ∨ ∃ t, s.seq ≠ .idle ∧ blockStep s = .next t ∧ t.Quiet ∧ Host.Core.run Sys2Proof.core n t = .next u := by
  by_cases hidle : s.seq = .idle
  · exact .inl (Host.Outcome.next.inj (h.symm.trans (idle_stays hidle hq (n + 1))))
  · cases hstep : step s with
    | next t =>
      have hblock := (step_eq_blockStep hq.turns hidle).symm.trans hstep
      have hquiet : t.Quiet := by
        obtain ⟨hops, hposted, hturns⟩ := hq
        rw [← (blockStep_extends hblock).1] at hops hposted hturns
        exact ⟨hops, hposted, hturns⟩
      exact .inr ⟨t, hidle, hblock, hquiet, run_step hstep h⟩
    | fault e | refused e =>
      have hcore : (Sys2Proof.core).step s = _ := hstep
      simp [Host.Core.run, hcore] at h

theorem run_extends {n : Nat} {s u : State} (hq : s.Quiet) (h : Host.Core.run Sys2Proof.core n s = .next u) :
    ∃ ev, u.hw.trace = s.hw.trace ++ ev := by
  induction n generalizing s with
  | zero => cases h; exact ⟨[], (List.append_nil _).symm⟩
  | succ n ih =>
    obtain rfl | ⟨t, -, hstep, ht, hrest⟩ := run_quiet_cases hq h
    · exact ⟨[], (List.append_nil _).symm⟩
    · obtain ⟨ev, htrace⟩ := ih ht hrest
      obtain ⟨-, e, -, he⟩ := blockStep_extends hstep
      exact ⟨e ++ ev, by rw [htrace, he, List.append_assoc]⟩

theorem cancelSamples_cons_of_ne {e : Event} (he : ∀ b, e ≠ .cp b) (ev : List Event) :
    cancelSamples (e :: ev) = cancelSamples ev := by
  cases e with
  | cp b => exact (he b rfl).elim
  | rd | wr | fl | dl => rfl

theorem cancelSamples_cons_cp (b : Bool) (ev : List Event) : cancelSamples (.cp b :: ev) = cancelSamples ev + 1 := rfl

/-- Where a step with the event e begins a run whose events are ev and then x, e is x or the first of ev. -/
theorem events_of_step {S T U ev rest after : List Event} {e x : Event} (hT : T = S ++ [e]) (hU : U = T ++ rest)
    (h : U = S ++ ev ++ x :: after) : (ev = [] ∧ e = x) ∨ ∃ ev', ev = e :: ev' ∧ U = T ++ ev' ++ x :: after := by
  subst hT
  have hsplit : e :: rest = ev ++ x :: after :=
    List.append_cancel_left (as := S) (by rw [← List.append_assoc, ← h, hU, List.append_cons])
  cases ev with
  | nil => exact .inl ⟨rfl, (List.cons_eq_cons.mp hsplit).1⟩
  | cons e' ev =>
    obtain ⟨rfl, rfl⟩ := List.cons_eq_cons.mp hsplit
    exact .inr ⟨ev, rfl, by rw [hU, List.append_eq, List.append_assoc (_ ++ _)]⟩

/-- Up to the sample that saw the cancellation, a run with the input deasserted does the same at the port (60_exceptions.md R87,
R88). -/
theorem run_deasserted {n : Nat} {s u : State} {ev after : List Event} (later : List Bool) (hq : s.Quiet)
    (h : Host.Core.run Sys2Proof.core n s = .next u) (htrace : u.hw.trace = s.hw.trace ++ ev ++ .cp true :: after)
    (hev : ∀ b, Event.cp b ∈ ev → b = false) :
    ∃ m v, Host.Core.run Sys2Proof.core m (s.withCancels (List.replicate (cancelSamples ev + 1) false ++ later)) = .next v ∧
      v.hw.trace = s.hw.trace ++ ev ++ [.cp false] := by
  induction n generalizing s ev with
  | zero =>
    cases h
    simp at htrace
  | succ n ih =>
    obtain rfl | ⟨t, hrun, hstep, ht, hrest⟩ := run_quiet_cases hq h
    · simp at htrace
    have head : ∀ {cs : List Bool} {t' : State}, blockStep (s.withCancels cs) = .next t' →
        ∀ m, Host.Core.run Sys2Proof.core (m + 1) (s.withCancels cs) = Host.Core.run Sys2Proof.core m t' :=
      fun hb => run_succ (M := Sys2Proof.core) ((step_eq_blockStep (by exact hq.turns) (by exact hrun)).trans hb)
    obtain ⟨rest, hu⟩ := run_extends ht hrest
    cases blockStep_primitive s with
    | sample k hk =>
      have hsample := Host.Outcome.next.inj (hstep.symm.trans (hk s.hw s.hw.cancels))
      have hevent : t.hw.trace = s.hw.trace ++ [.cp s.hw.cancelAnswer] := by rw [hsample]; rfl
      obtain ⟨rfl, -⟩ | ⟨ev', rfl, htrace'⟩ := events_of_step hevent hu htrace
      · refine ⟨1, _, head (hk s.hw _) 0, ?_⟩
        rw [List.append_nil]
        rfl
      · have hfalse : s.hw.cancelAnswer = false := hev _ (List.mem_cons_self ..)
        have hreplay : ∀ cs, blockStep (s.withCancels (false :: cs)) = .next (t.withCancels cs) := fun cs => by
          rw [← hfalse, hsample]
          exact hk s.hw (s.hw.cancelAnswer :: cs)
        obtain ⟨m, v, hv, hvtrace⟩ := ih ht hrest htrace' fun b hb => hev b (List.mem_cons_of_mem _ hb)
        rw [cancelSamples_cons_cp, List.replicate_succ, List.cons_append, List.append_cons s.hw.trace, ← hevent]
        exact ⟨m + 1, v, (head (hreplay _) m).trans hv, hvtrace⟩
    | other keeps hg =>
      have hreplay : ∀ cs, blockStep (s.withCancels cs) = .next (t.withCancels cs) := fun cs => by
        rw [eq_graft_self hg hstep]
        exact hg s.hw cs t hstep
      obtain ⟨-, hsilent | ⟨e, he, hevent⟩⟩ := keeps t hstep
      · rw [← hsilent] at htrace ⊢
        obtain ⟨m, v, hv, hvtrace⟩ := ih ht hrest htrace hev
        exact ⟨m + 1, v, (head (hreplay _) m).trans hv, hvtrace⟩
      · obtain ⟨-, rfl⟩ | ⟨ev', rfl, htrace'⟩ := events_of_step hevent hu htrace
        · exact (he true rfl).elim
        · obtain ⟨m, v, hv, hvtrace⟩ := ih ht hrest htrace' fun b hb => hev b (List.mem_cons_of_mem _ hb)
          rw [cancelSamples_cons_of_ne he, List.append_cons s.hw.trace, ← hevent]
          exact ⟨m + 1, v, (head (hreplay _) m).trans hv, hvtrace⟩

/-- A command that a cancellation stops has one sample that saw it: what comes before it saw none. -/
theorem cp_before_cut {i : Instr} {s : State} {h : Hw} {code : RCode} {ev after : List Event} (hs : s.Accepted)
    (hsound : s.hw.Sound) (hc : CommandEnds i s h code) (hcode : code = .cancelled ∨ code = .protectedRegion)
    (htrace : h.trace = s.hw.trace ++ ev ++ .cp true :: after) : ∀ b, Event.cp b ∈ ev → b = false := by
  obtain ⟨-, ev', v, hev', htrace'⟩ := cancelledCommandStopsAtOnce i s h code hs hsound hc hcode
  have hrelease : Event.cp true ∉ (if i.ownsSession = true ∨ code = .protectedRegion then releasePart s.hw v else []) := by
    split
    · exact cp_notMem_of_cancelSamples (cancelSamples_releasePart s.hw v) true
    · exact List.not_mem_nil
  have hsplit := htrace'.symm.trans htrace
  rw [List.append_assoc, List.append_assoc, List.append_assoc] at hsplit
  obtain ⟨rfl, -, -⟩ := (List.append_cons_inj_of_notMem (fun hmem => Bool.noConfusion (hev' true hmem)) hrelease).mp
    (List.append_cancel_left hsplit)
  exact hev'

/-- Settles O44: the run is replayed with the input deasserted, up to its last sample. -/
theorem cancellationOnlyCutsTheRun : Obligations.CancellationOnlyCutsTheRun := by
  intro i s h code ev after later hs hsound hc hcode htrace
  have hev := cp_before_cut hs hsound hc hcode htrace
  obtain ⟨t, hexec, n, hn⟩ := hc
  obtain ⟨ht, hexec'⟩ := exec_withCancels hexec (List.replicate (cancelSamples ev + 1) false ++ later)
  rw [ht] at hn
  have hquiet : (s.at t.seq).Quiet := ⟨hs.quiet.ops, hs.quiet.posted, hs.quiet.turns⟩
  obtain ⟨m, u, hm, hu⟩ := run_deasserted later hquiet hn htrace hev
  rw [← ht] at hm
  exact ⟨m, _, u, hexec', hm, hu⟩

end Sys2Proof.Machine
end

section
/-! PROOFS. The first failure decides the outcome (60_exceptions.md R92): a command has one code, and the events of its run say
which. -/

namespace Sys2Proof.Machine

/-! ### A command ends with one code -/

/-- A run that has come to an idle, quiet state is over. -/
theorem run_add_of_idle {n : Nat} {s u : State} (hu : u.seq = .idle) (hq : u.Quiet)
    (h : Host.Core.run Sys2Proof.core n s = .next u) (k : Nat) : Host.Core.run Sys2Proof.core (n + k) s = .next u := by
  induction n generalizing s with
  | zero =>
    cases h
    exact idle_stays hu hq _
  | succ n ih =>
    rw [Nat.add_right_comm]
    cases hstep : step s with
    | next t => exact (run_succ (M := Sys2Proof.core) hstep (n + k)).trans (ih (run_step hstep h))
    | fault e | refused e =>
      have hcore : (Sys2Proof.core).step s = _ := hstep
      simp [Host.Core.run, hcore] at h

theorem reaches_idle_unique {s u u' : State} (hu : u.seq = .idle) (hq : u.Quiet) (hu' : u'.seq = .idle) (hq' : u'.Quiet)
    (h : Reaches s u) (h' : Reaches s u') : u = u' := by
  obtain ⟨n, hn⟩ := h
  obtain ⟨n', hn'⟩ := h'
  have hlate := run_add_of_idle hu' hq' hn' n
  rw [Nat.add_comm] at hlate
  exact Host.Outcome.next.inj ((run_add_of_idle hu hq hn n').symm.trans hlate)

theorem commandEnds_code_unique {i : Instr} {s : State} {h h' : Hw} {code code' : RCode} (hs : s.Accepted)
    (hc : CommandEnds i s h code) (hc' : CommandEnds i s h' code') : code = code' := by
  obtain ⟨t, ht, hr⟩ := hc
  obtain ⟨t', ht', hr'⟩ := hc'
  obtain rfl := Host.Outcome.next.inj (ht.symm.trans ht')
  have quiet : ∀ (g : Hw) (c : RCode), (State.finish { s with hw := g } c).Quiet := fun _ _ =>
    ⟨hs.quiet.ops, hs.quiet.posted, hs.quiet.turns⟩
  exact congrArg (fun u : State => u.hw.status.rcode) (reaches_idle_unique rfl (quiet h code) rfl (quiet h' code') hr hr')

/-! ### The events of a command that ends -/

/-- The code of a cancelled command by the number of its samples, and by RDATA for CHECKSUM (60_exceptions.md R90). -/
def EndsWithin (i : Instr) (samples : Nat) (rdata : Word) (code : RCode) : Prop :=
  match i with
  | .program _ => (code = .protectedRegion → samples ≤ 24) ∧ (code = .cancelled → 24 < samples)
  | .erase _ => (code = .protectedRegion → samples ≤ 24) ∧ (code = .cancelled → 24 < samples)
  | .unlock _ => code ≠ .cancelled ∧ samples ≤ 24
  | .checksum _ rp => code = .protectedRegion → rp = true ∧ rdata.extractLsb' 0 16 ≠ rdata.extractLsb' 16 16
  | _ => code ≠ .protectedRegion

/-- The events ev of a command's run from s to t, by its code (60_exceptions.md R92). -/
structure Hw.EndsBy (i : Instr) (s t : Hw) (code : RCode) (ev : List Event) : Prop where
  trace : t.trace = s.trace ++ ev
  cut : Event.cp true ∈ ev ↔ code = .cancelled ∨ code = .protectedRegion
  seen : t.status.cancelSeen = true ↔ s.status.cancelSeen = true ∨ Event.cp true ∈ ev
  release : ∀ before after, ev = before ++ .cp true :: after → after = [] ∨ ∃ v, after = releasePart s v
  timeout : code = .arbTimeout → ∃ a : AcquireAnswers, a.timedOut s.params ∧ ev = timeoutEvents s a
  within : EndsWithin i (cancelSamples ev) t.rdata code

section

variable {i : Instr} {s t : Hw} {code : RCode} {ev : List Event}

theorem EndsWithin.of_uncut {samples : Nat} {rdata : Word} (hcode : ¬ (code = .cancelled ∨ code = .protectedRegion))
    (hn : ∀ c, i = .unlock c → samples ≤ 24) : EndsWithin i samples rdata code := by
  obtain ⟨hcancelled, hprotected⟩ := not_or.mp hcode
  cases i with
  | program c | erase c => exact ⟨fun h => (hprotected h).elim, fun h => (hcancelled h).elim⟩
  | unlock c => exact ⟨hcancelled, hn c rfl⟩
  | checksum c rp => exact fun h => (hprotected h).elim
  | _ => exact hprotected

/-- A command that a cancellation stops after m samples has m + 1 with the one that saw it. -/
theorem StopsWith.within {m : Nat} (h : StopsWith i m t code) : EndsWithin i (m + 1) t.rdata code := by
  cases i with
  | program c | erase c =>
    rw [StopsWith, clearBpCode] at h
    split at h <;> subst h
    · exact ⟨fun _ => by omega, nofun⟩
    · exact ⟨nofun, fun _ => by omega⟩
  | unlock c =>
    obtain ⟨hm, rfl⟩ := h
    exact ⟨nofun, hm⟩
  | checksum c rp =>
    obtain rfl | ⟨-, hrepair⟩ := h
    · exact nofun
    · exact fun _ => hrepair
  | _ =>
    cases h
    exact nofun

/-- A run that no cancellation stopped. -/
theorem Hw.EndsBy.of_uncut (trace : t.trace = s.trace ++ ev) (hcp : Event.cp true ∉ ev)
    (seen : t.status.cancelSeen = s.status.cancelSeen) (hcode : ¬ (code = .cancelled ∨ code = .protectedRegion))
    (timeout : code = .arbTimeout → ∃ a : AcquireAnswers, a.timedOut s.params ∧ ev = timeoutEvents s a)
    (hn : ∀ c, i = .unlock c → cancelSamples ev ≤ 24) : s.EndsBy i t code ev where
  trace := trace
  cut := iff_of_false hcp hcode
  seen := by rw [seen, or_iff_left hcp]
  release := fun before after h => (hcp (by simp [h])).elim
  timeout := timeout
  within := .of_uncut hcode hn

/-- A run that a cancellation stopped (60_exceptions.md R88, R90). -/
theorem Hw.exists_endsBy_of_cut {c : Bool} {u : Hw} {m : Nat} (hstop : StopsWith i m t code) (hh : t = afterCut i code u)
    (hcut : s.Cut c u m) : ∃ ev, s.EndsBy i t code ev := by
  obtain ⟨ev, htrace, hcount, hev⟩ := hcut.trace
  have hbefore : Event.cp true ∉ ev := fun hmem => Bool.noConfusion (hev true hmem)
  have hrelease : ∃ rel, t.trace = s.trace ++ ev ++ [.cp true] ++ rel ∧ cancelSamples rel = 0 ∧
      (rel = [] ∨ ∃ v, rel = releasePart s v) := by
    have hafter := hcut.afterCut_trace i code
    rw [← hh, htrace] at hafter
    refine ⟨_, hafter, ?_⟩
    split
    · exact ⟨cancelSamples_releasePart s _, .inr ⟨_, rfl⟩⟩
    · exact ⟨rfl, .inl rfl⟩
  obtain ⟨rel, hrel, hsamples, hrelease⟩ := hrelease
  have hmem : Event.cp true ∈ ev ++ .cp true :: rel := by simp
  refine ⟨ev ++ .cp true :: rel, ?_, iff_of_true hmem hstop.code_eq, ?_, fun before after h => ?_, fun h => ?_, ?_⟩
  · rw [hrel]
    simp
  · exact iff_of_true (by rw [hh, afterCut_seen, hcut.seen]) (.inr hmem)
  · obtain ⟨-, -, rfl⟩ := (List.append_cons_inj_of_notMem hbefore (cp_notMem_of_cancelSamples hsamples true)).mp h
    exact hrelease
  · obtain hcode | hcode := hstop.code_eq <;> cases hcode.symm.trans h
  · rw [cancelSamples_append, cancelSamples_cons_cp, hsamples, hcount]
    exact hstop.within

theorem Hw.Concludes.endsBy (h : s.Concludes i t code) : ∃ ev, s.EndsBy i t code ev := by
  cases h with
  | done _ hcode hn hclean =>
    obtain ⟨ev, htrace, hcount, hev⟩ := hclean.trace
    refine ⟨ev, .of_uncut htrace (fun hmem => Bool.noConfusion (hev true hmem)) hclean.seen ?_ (fun h => ?_) fun c hc => ?_⟩
    · rintro (rfl | rfl) <;> exact hcode (by decide)
    · exact (hcode (by rw [h]; decide)).elim
    · have hle := hn c hc
      rw [hcount]
      split <;> omega
  | timedOut _ ho hh hcode =>
    obtain ⟨-, a, hout, htrace⟩ := exists_timedOut ho
    subst hcode hh
    have hsamples := cancelSamples_timeoutEvents s a
    exact ⟨_, .of_uncut htrace (cp_notMem_of_cancelSamples hsamples true) (runAcquire_clean (c := false) s).seen (by decide)
      (fun _ => ⟨a, hout, rfl⟩) fun _ _ => by omega⟩
  | stopped hstop hh hcut => exact Hw.exists_endsBy_of_cut hstop hh hcut

theorem Hw.EndsBy.of_sameEnd {h : Hw} (ht : s.EndsBy i t code ev) (hend : t.SameEnd h) : s.EndsBy i h code ev where
  trace := hend.trace.trans ht.trace
  cut := ht.cut
  seen := by rw [hend.seen, ht.seen]
  release := ht.release
  timeout := ht.timeout
  within := by rw [hend.rdata]; exact ht.within

end

/-- Settles O42: by how the command's run concludes; the illegal commands end where they are accepted, and OVERRUN is not
looked at. -/
theorem firstFailureDecidesTheOutcome : Obligations.FirstFailureDecidesTheOutcome := by
  refine ⟨fun i s h h' code code' hs => commandEnds_code_unique hs, fun s u w hd hb hw => ?_,
    fun i s h code hs hc ⟨hi, hlen⟩ => ?_, fun i s h code hs hsound hc => ?_, fun s t => blockStep_markOverrun⟩
  · rw [← hd.hw] at hb ⊢
    exact (step_of_delivers hd).trans (storeCmd_of_illegal hb hw)
  · have hl : lengthFits s.hw.latch = false := Bool.eq_false_iff.mpr (mt (lengthFits_iff s.hw.latch).mp hlen)
    have hfinish := finish_eq_of_tooLong hs hi hl hc
    exact ⟨congrArg (fun u : State => u.hw.status.rcode) hfinish, hfinish⟩
  · obtain ⟨t, hconcludes, hend⟩ := concludes_of_commandEnds hs hsound hc
    obtain ⟨ev, hev⟩ := hconcludes.endsBy
    obtain ⟨htrace, hcut, hseen, hrelease, htimeout, hwithin⟩ := hev.of_sameEnd hend
    exact ⟨ev, htrace, hcut, hseen, hrelease, htimeout, hwithin⟩

end Sys2Proof.Machine
end

section
/-! PROOFS. The poll loop has no bound (60_exceptions.md R99): a command whose run has more than n events is still running after n
steps, because a step has at most one event; and the answers can make a poll as long as one likes. -/

namespace Sys2Proof.Machine

/-! ### A long run -/

/-- A run with more than n events is not over after n steps. -/
theorem run_long {N : Nat} {s U : State} (hq : s.Quiet) (hb : s.hw.status.busy = true)
    (h : Host.Core.run Sys2Proof.core N s = .next U) (n : Nat) (hn : s.hw.trace.length + n < U.hw.trace.length) :
    ∃ u, Host.Core.run Sys2Proof.core n s = .next u ∧ u.seq ≠ .idle ∧ u.hw.status.busy = true := by
  induction n generalizing N s with
  | zero =>
    refine ⟨s, rfl, fun hidle => ?_, hb⟩
    obtain rfl := Host.Outcome.next.inj ((idle_stays hidle hq N).symm.trans h)
    omega
  | succ n ih =>
    cases N with
    | zero =>
      cases h
      omega
    | succ N =>
      obtain rfl | ⟨t, hrun, hstep, ht, hrest⟩ := run_quiet_cases hq h
      · omega
      obtain ⟨-, ev, hev, htrace⟩ := blockStep_extends hstep
      have hlength := congrArg List.length htrace
      rw [List.length_append] at hlength
      have hfinish : ∀ code, s.seq ≠ .finish code := by
        intro code hcode
        obtain rfl := Host.Outcome.next.inj ((blockStep_finish hcode).symm.trans hstep)
        obtain rfl := Host.Outcome.next.inj ((idle_stays rfl ht N).symm.trans hrest)
        simp at hn
      obtain ⟨u, hu, hseq, hbusy⟩ := ih ht ((blockStep_same hstep hfinish).busy.trans hb) hrest (by omega)
      exact ⟨u, (run_succ (M := Sys2Proof.core) ((step_eq_blockStep hq.turns hrun).trans hstep) n).trans hu, hseq, hbusy⟩

/-- A command with more than n events is not over after n steps. -/
theorem command_long {i : Instr} {s : State} {h : Hw} {code : RCode} {ev : List Event} {n : Nat} (hs : s.Accepted)
    (hc : CommandEnds i s h code) (htrace : h.trace = s.hw.trace ++ ev) (hn : n < ev.length) :
    ∃ t u, exec i s = .next t ∧ Host.Core.run Sys2Proof.core n t = .next u ∧ u.seq ≠ .idle ∧ u.hw.status.busy = true := by
  obtain ⟨t, ht, N, hN⟩ := hc
  obtain ⟨hat, -⟩ := exec_withCancels ht []
  rw [hat] at hN ht
  obtain ⟨u, hu⟩ := run_long (s := s.at t.seq) ⟨hs.quiet.ops, hs.quiet.posted, hs.quiet.turns⟩ hs.busy hN n (by
    simp only [State.finish, State.at, htrace, List.length_append]
    omega)
  exact ⟨_, u, ht, hu⟩

/-! ### Answers that keep a poll busy -/

/-- A frame of n bits that all read w. -/
def frameOf (n : Nat) (w : Word) : FrameAnswers := ⟨0#32, 0#32, List.replicate n w⟩

/-- A poll that reads busy n times: every bit of the status is 1, and then 0. -/
def pollOf (n : Nat) : PollAnswers := ⟨List.replicate n (frameOf 16 (BitVec.allOnes 32)), frameOf 16 0#32⟩

/-- A page frame of len bytes. -/
def pageOf (len : Nat) : PageAnswers := ⟨frameOf 32 0#32, 0#32, List.replicate (8 * len) 0#32⟩

/-- The page frames of a page split. -/
def pagesOf (split : List Span) : List PageAnswers := split.map fun v => pageOf v.len

/-- PROGRAM of len bytes, with n busy frames in its last poll. -/
def programOf (len n : Nat) : ProgramAnswers :=
  ⟨⟨frameOf 8 0#32, frameOf 16 0#32⟩, List.replicate len ⟨pollOf 0, frameOf 8 0#32, pageOf 1⟩, pollOf n⟩

/-- Acquire, granted at the first poll. -/
def acquireAtOnce : AcquireAnswers := ⟨0#32, [], BitVec.allOnes 32⟩

/-- The status of a frame whose bits all read alike. -/
theorem status_frameOf (p : Params) (w : Word) : (frameOf 16 w).status p = if soBit p w then 0xFF#8 else 0x00#8 := by
  have hsamples : (frameOf 16 w).status p = (List.range 8).foldl (fun acc i => setBit acc i (soBit p w)) 0#8 := rfl
  rw [hsamples]
  cases soBit p w <;> rfl

theorem pollOf_fits {p : Params} (n : Nat) (hmask : p.statusBusyMask ≠ 0#8) : (pollOf n).fits p := by
  refine ⟨fun f hf => ?_, List.length_replicate, ?_⟩
  · obtain rfl := List.eq_of_mem_replicate hf
    have hbit : soBit p (BitVec.allOnes 32) = true := by
      rw [soBit, BitVec.getLsbD_allOnes]
      exact decide_eq_true p.bitSo.isLt
    refine ⟨List.length_replicate, ?_⟩
    rw [status_frameOf, if_pos hbit]
    exact fun h => hmask ((BitVec.allOnes_and (x := p.statusBusyMask)).symm.trans h)
  · rw [pollOf, status_frameOf, if_neg (by simp [soBit]), BitVec.zero_and]

theorem programOf_fits {p : Params} (len n : Nat) (hmask : p.statusBusyMask ≠ 0#8) : (programOf len n).fits p len := by
  refine ⟨⟨List.length_replicate, List.length_replicate⟩, List.length_replicate, fun b hb => ?_, pollOf_fits n hmask⟩
  obtain rfl := List.eq_of_mem_replicate hb
  exact ⟨pollOf_fits 0 hmask, List.length_replicate, List.length_replicate, List.length_replicate⟩

theorem acquireAtOnce_granted (p : Params) : acquireAtOnce.granted p := by
  refine ⟨Nat.zero_le _, nofun, ?_⟩
  rw [acquireAtOnce, BitVec.getLsbD_allOnes]
  exact decide_eq_true p.bitGnt.isLt

theorem pagesOf_fit (split : List Span) : pagesFit split (pagesOf split) := by
  induction split with
  | nil => trivial
  | cons v split ih => exact ⟨⟨List.length_replicate, List.length_replicate⟩, ih⟩

/-- Every status frame has an event. -/
theorem length_pollEvents (s : Hw) (c : Bool) (a : PollAnswers) : a.busy.length < (pollEvents s c a).length := by
  have hframe : ∀ f : FrameAnswers, 0 < (statusEvents s c f).length := fun f => by
    rw [statusEvents, frameEvents, List.length_append, xferEvents, List.length_cons]
    omega
  have hsum : ∀ l : List FrameAnswers, l.length ≤ (l.flatMap (statusEvents s c)).length := fun l => by
    induction l with
    | nil => exact Nat.le_refl 0
    | cons f l ih =>
      rw [List.flatMap_cons, List.length_append, List.length_cons]
      have := hframe f
      omega
  have hall := hsum (a.busy ++ [a.ready])
  rwa [List.length_append] at hall

/-! ### The four commands -/

section

variable {s : State} {n : Nat}

/-- The state with other answers of the environment. -/
def State.withAnswers (s : State) (reads : List Word) (cancels : List Bool) : State :=
  { s with hw := { s.hw with reads := reads, cancels := cancels } }

/-- The events of a command do not depend on the answers still to come but through the answers they show. -/
theorem dumpPagesEvents_withAnswers (reads : List Word) (cancels : List Bool) (c : Bool) (split : List Span)
    (pages : List PageAnswers) :
    dumpPagesEvents (s.withAnswers reads cancels).hw c split pages = dumpPagesEvents s.hw c split pages := by
  induction split generalizing pages with
  | nil => rfl
  | cons v split ih =>
    cases pages with
    | nil => rfl
    | cons a pages => exact congrArg (pageEvents s.hw c _ _ _ a ++ ·) (ih pages)

theorem programBytesEvents_withAnswers (reads : List Word) (cancels : List Bool) (c : Bool) (off : Half) (bytes : List Byte)
    (a : List ByteAnswers) :
    programBytesEvents (s.withAnswers reads cancels).hw c off bytes a = programBytesEvents s.hw c off bytes a := by
  induction bytes generalizing off a with
  | nil => rfl
  | cons v bytes ih =>
    cases a with
    | nil => rfl
    | cons b a => exact congrArg (programByteEvents s.hw c off v b ++ ·) (ih (off + 1#16) a)

theorem programEvents_withAnswers (reads : List Word) (cancels : List Bool) (c : Bool) (off : Half) (bytes : List Byte)
    (a : ProgramAnswers) : programEvents (s.withAnswers reads cancels).hw c off bytes a = programEvents s.hw c off bytes a := by
  rw [programEvents, programBytesEvents_withAnswers]
  rfl

/-- There are answers under which the command is still running after n steps. -/
def State.RunsLong (s : State) (i : Instr) (n : Nat) : Prop :=
  ∃ (reads : List Word) (cancels : List Bool) (t u : State), exec i (s.withAnswers reads cancels) = .next t ∧
    Host.Core.run Sys2Proof.core n t = .next u ∧ u.seq ≠ .idle ∧ u.hw.status.busy = true

/-- From a command that ends with more than n events when the reads give `words` and none of its samples sees a
cancellation. -/
theorem State.RunsLong.of_ends {i : Instr} {words : List Word} {ev : List Event} (hs : s.Accepted) (hsound : s.hw.Sound)
    (hn : n < ev.length)
    (hends : ∀ s' : State, s' = s.withAnswers words (List.replicate (cancelSamples ev) false) → s'.Accepted → s'.hw.Sound →
      s'.hw.Answers words → (∀ c, s'.hw.Uncancelled c (cancelSamples ev)) →
      ∃ h code, CommandEnds i s' h code ∧ h.trace = s'.hw.trace ++ ev) : s.RunsLong i n := by
  have hs' : (s.withAnswers words (List.replicate (cancelSamples ev) false)).Accepted :=
    ⟨hs.seq, hs.busy, hs.quiet.ops, hs.quiet.posted, hs.quiet.turns⟩
  obtain ⟨h, code, hc, htrace⟩ := hends _ rfl hs' ⟨hsound.params, hsound.mem, hsound.scr, hsound.pageSize⟩
    ⟨[], (List.append_nil _).symm⟩ fun c _ => ⟨[], (List.append_nil _).symm⟩
  obtain ⟨t, u, ht, hu⟩ := command_long hs' hc htrace hn
  exact ⟨_, _, t, u, ht, hu⟩

theorem length_pollEvents_pollOf (s : Hw) (c : Bool) (n : Nat) : n < (pollEvents s c (pollOf n)).length := by
  have hlength := length_pollEvents s c (pollOf n)
  rwa [pollOf, List.length_replicate] at hlength

theorem pollReady_runsLong (c : Bool) (n : Nat) (hs : s.Accepted) (hsound : s.hw.Sound)
    (hmask : s.hw.params.statusBusyMask ≠ 0#8) : s.RunsLong (.pollReady c) n := by
  refine .of_ends (words := (pollOf n).words s.hw.latch.present) hs hsound (length_pollEvents_pollOf s.hw c n) ?_
  rintro _ rfl hs' hsound' ha hc
  obtain ⟨h, hends, -, htrace⟩ := pollReadyRepeatsUntilReady _ c (pollOf n) hs' hsound' (pollOf_fits n hmask) ha (by
    rintro rfl
    rw [← cancelSamples_pollEvents (s := s.hw) (pollOf_fits n hmask)]
    exact hc true rfl)
  exact ⟨h, .ok, hends, htrace⟩

/-- DUMP polls first (43_flash_ops.md R79). -/
theorem dump_runsLong (c : Bool) (n : Nat) (hs : s.Accepted) (hsound : s.hw.Sound)
    (hmask : s.hw.params.statusBusyMask ≠ 0#8) (hl : s.hw.latch.len.extractLsb' 16 16 = 0#16) :
    s.RunsLong (.dump c) n := by
  obtain ⟨split, hsplit⟩ : ∃ split, split = dumpPages s.hw.latch.ps.toNat s.hw.latch.len.toNat
    ⟨bufRef s.hw.latch.dsta, s.hw.latch.off, s.hw.latch.len.toNat⟩ := ⟨_, rfl⟩
  refine .of_ends (ev := pollEvents s.hw c (pollOf n) ++ dumpPagesEvents s.hw c split (pagesOf split))
    (words := (pollOf n).words s.hw.latch.present ++ (pagesOf split).flatMap (PageAnswers.words s.hw.latch.present))
    hs hsound ?_ ?_
  · rw [List.length_append]
    exact Nat.lt_add_right _ (length_pollEvents_pollOf s.hw c n)
  · rintro _ rfl hs' hsound' ha hc
    obtain ⟨h, hends, -, htrace, -⟩ := dumpReadsPageByPage _ c (pollOf n) (pagesOf split) split _ hs' hsound' hl hsplit
      (pollOf_fits n hmask) (pagesOf_fit split) ha (by rw [dumpPagesEvents_withAnswers]; rfl) (hc c)
    exact ⟨h, .ok, hends, htrace⟩

/-- PROGRAM polls last (43_flash_ops.md R80). -/
theorem program_runsLong (c : Bool) (n : Nat) (hs : s.Accepted) (hsound : s.hw.Sound)
    (hmask : s.hw.params.statusBusyMask ≠ 0#8) (hl : s.hw.latch.len.extractLsb' 16 16 = 0#16) :
    s.RunsLong (.program c) n := by
  obtain ⟨bytes, hbytes⟩ : ∃ bytes, bytes = ((List.range s.hw.latch.len.toNat).map fun j =>
    s.hw.mem.read (s.hw.latch.srca + BitVec.ofNat 32 j).toNat) := ⟨_, rfl⟩
  refine .of_ends (words := (programOf s.hw.latch.len.toNat n).words s.hw.latch.present)
    (ev := programEvents s.hw c s.hw.latch.off bytes (programOf s.hw.latch.len.toNat n)) hs hsound ?_ ?_
  · rw [programEvents, List.length_append]
    exact Nat.lt_add_left _ (length_pollEvents_pollOf s.hw c n)
  · rintro _ rfl hs' hsound' ha hc
    obtain ⟨h, hends, -, htrace⟩ := programWritesByteByByte _ c _ bytes _ hs' hsound' hl hbytes (programOf_fits _ n hmask)
      ha (programEvents_withAnswers ..).symm (hc c)
    exact ⟨h, .ok, hends, htrace⟩

/-- CHECKSUM polls in its Dump (43_flash_ops.md R84). -/
theorem checksum_runsLong (c rp : Bool) (n : Nat) (hs : s.Accepted) (hsound : s.hw.Sound)
    (hmask : s.hw.params.statusBusyMask ≠ 0#8) : s.RunsLong (.checksum c rp) n := by
  obtain ⟨split, hsplit⟩ : ∃ split, split = dumpPages s.hw.latch.ps.toNat (2 * (s.hw.params.checksumIndex + 1))
    ⟨scrRef 0, 0#16, 2 * (s.hw.params.checksumIndex + 1)⟩ := ⟨_, rfl⟩
  obtain ⟨bytes, hbytes⟩ : ∃ bytes, bytes = sampledBytes s.hw.params (2 * (s.hw.params.checksumIndex + 1))
    ((pagesOf split).flatMap PageAnswers.payload) := ⟨_, rfl⟩
  obtain ⟨x, hx⟩ : ∃ x, checksumEval s.hw.params.wordOrder bytes s.hw.params.checksumIndex s.hw.latch.dat = some x :=
    checksumEval_total _ _ _ _ (by rw [hbytes, sampledBytes, List.length_map, List.length_range])
  refine .of_ends
    (words := acquireAtOnce.words s.hw.latch.present ++ (pollOf n).words s.hw.latch.present ++
      (pagesOf split).flatMap (PageAnswers.words s.hw.latch.present) ++
      (if x.computed ≠ x.stored ∧ rp = true then (programOf 2 0).words s.hw.latch.present else []) ++
      releaseWords s.hw.latch.present 0#32)
    (ev := acquireEvents s.hw acquireAtOnce ++ pollEvents s.hw c (pollOf n) ++
      dumpPagesEvents s.hw c split (pagesOf split) ++
      (if x.computed ≠ x.stored ∧ rp = true then
        programEvents s.hw c (BitVec.ofNat 16 (2 * s.hw.params.checksumIndex))
          [firstByte s.hw.params.wordOrder x.computed, secondByte s.hw.params.wordOrder x.computed] (programOf 2 0)
        else []) ++ releasePart s.hw 0#32) hs hsound ?_ ?_
  · simp only [List.length_append, Nat.add_assoc]
    exact Nat.lt_add_left _ (Nat.lt_add_right _ (length_pollEvents_pollOf s.hw c n))
  · rintro _ rfl hs' hsound' ha hc
    obtain ⟨h, hends, htrace, -⟩ := checksumComparesAndRepairs _ c rp acquireAtOnce (pollOf n) (pagesOf split) (programOf 2 0)
      0#32 split bytes x _ hs' hsound' (fun _ => acquireAtOnce_granted _) hsplit (pollOf_fits n hmask) (pagesOf_fit split)
      (programOf_fits 2 0 hmask) hbytes hx ha
      (by rw [dumpPagesEvents_withAnswers, programEvents_withAnswers]; rfl) (hc c)
    exact ⟨h, _, hends, htrace⟩

end

/-- Settles O33: a busy status keeps the poll going, for as many frames as one likes, and each frame takes steps. -/
theorem pollingHasNoBound : Obligations.PollingHasNoBound := by
  intro i s n hs hsound hmask hi
  obtain ⟨c, rfl⟩ | ⟨c, rp, rfl⟩ | ⟨⟨c, rfl | rfl⟩, hl⟩ := hi
  · exact pollReady_runsLong c n hs hsound hmask
  · exact checksum_runsLong c rp n hs hsound hmask
  · exact dump_runsLong c n hs hsound hmask hl
  · exact program_runsLong c n hs hsound hmask hl

end Sys2Proof.Machine
end

section
/-! PROOFS. Block reset (70_reset_and_hazards.md R100): what every offset of the window reads after it, and the step that takes
it. -/

namespace Sys2Proof.Machine

/-- Every register of the window holds 0 after a block reset, and the other offsets read as 0 at any time (10_state.md R14,
R30). -/
theorem windowLoad_blockReset (s : Hw) (off : Nat) : s.blockReset.windowLoad off = 0#32 := by
  have hstatus : (Status.mk false .ok false false).word = 0#32 := by decide
  have hdevcfg : (DevCfg.mk false 0#4 0#16).word = 0#32 := by decide
  unfold Hw.windowLoad
  simp only [Hw.blockReset, hstatus, hdevcfg]
  split <;> rfl

/-- Block reset gives SCR a byte for each of its addresses (20_memory.md R36). -/
theorem blockReset_scrLength (s : Hw) : s.blockReset.scr.length = 2 * (s.params.checksumIndex + 1) := by
  rw [Hw.blockReset, List.length_map, List.length_range]

theorem step_of_reset {s : State} (h : s.mover = .reset) : step s = .next s.popTurn.blockReset := by
  simp only [step, h]

/-- Settles O17: the step is `State.blockReset`, and the window reads 0 after it. -/
theorem blockResetValues : Obligations.BlockResetValues := fun s hm =>
  ⟨s.popTurn.blockReset, step_of_reset hm, rfl, fun off _ => windowLoad_blockReset s.hw off, rfl, rfl, rfl, rfl, rfl,
    blockReset_scrLength s.hw, rfl, rfl⟩

end Sys2Proof.Machine
end

section
/-! PROOFS. The port events of the sub-operations, counted (70_reset_and_hazards.md R111). What a procedure that is not cancelled
costs at the port does not depend on what it reads: `Hw.Costs` says how many Standbys, other events and other delay units a run
takes, and a procedure's costs are the sums of its parts'. Acquire and Release are counted from their event lists. -/

namespace Sys2Proof.Machine

/-! ### The counts of an event list -/

/-- 1 with a FLASH attached, else 0: `st` of R111's table. -/
def Hw.attached (s : Hw) : Nat := if s.latch.present then 1 else 0

theorem delayTotal_append (t t' : List Event) : delayTotal (t ++ t') = delayTotal t + delayTotal t' := by
  simp only [delayTotal, List.map_append, List.sum_append]

/-- How often a trace reads CTRL (70_reset_and_hazards.md R111: the poll index counts reads). -/
def portReads (t : List Event) : Nat := (t.filter fun e => match e with | .rd _ => true | _ => false).length

theorem portReads_append (t t' : List Event) : portReads (t ++ t') = portReads t + portReads t' := by
  simp only [portReads, List.filter_append, List.length_append]

/-- The polls of Acquire that do not see GNT: a read and a delay each (41_arbiter.md R67). -/
theorem polls_counts (gp : Nat) (polls : List Word) :
    (polls.flatMap fun v => [Event.rd v, .dl gp]).length = 2 * polls.length ∧
      delayTotal (polls.flatMap fun v => [Event.rd v, .dl gp]) = polls.length * gp ∧
      portReads (polls.flatMap fun v => [Event.rd v, .dl gp]) = polls.length := by
  induction polls with
  | nil => exact ⟨rfl, (Nat.zero_mul gp).symm, rfl⟩
  | cons v polls ih =>
    obtain ⟨hlen, hdelay, hreads⟩ := ih
    have htwo : [Event.rd v, .dl gp].length = 2 := rfl
    have hwait : delayTotal [.rd v, .dl gp] = gp := Nat.zero_add gp
    have hread : portReads [.rd v, .dl gp] = 1 := rfl
    rw [List.flatMap_cons, List.length_append, delayTotal_append, portReads_append, hlen, hdelay, hreads, htwo, hwait, hread,
      List.length_cons, Nat.succ_mul polls.length]
    exact ⟨Nat.add_comm .., Nat.add_comm .., Nat.add_comm ..⟩

/-- The REQ write and the polls, of which the last is not followed by a delay (41_arbiter.md R67). -/
theorem handshakeEvents_counts (s : Hw) (a : AcquireAnswers) :
    (handshakeEvents s a).length = 3 + 2 * a.polls.length ∧
      delayTotal (handshakeEvents s a) = a.polls.length * s.params.grantPollUs ∧
      portReads (handshakeEvents s a) = a.polls.length + 2 := by
  obtain ⟨hlen, hdelay, hreads⟩ := polls_counts s.params.grantPollUs a.polls
  rw [handshakeEvents, List.length_append, List.length_append, delayTotal_append, delayTotal_append, portReads_append,
    portReads_append, hlen, hdelay, hreads]
  refine ⟨?_, Nat.zero_add _, ?_⟩
  · simp only [List.length_cons, List.length_nil]
    omega
  · change 1 + a.polls.length + 1 = a.polls.length + 2
    omega

theorem timeoutEvents_counts (s : Hw) (a : AcquireAnswers) :
    (timeoutEvents s a).length = 4 + 2 * a.polls.length ∧
      delayTotal (timeoutEvents s a) = a.polls.length * s.params.grantPollUs := by
  obtain ⟨hlen, hdelay, -⟩ := handshakeEvents_counts s a
  rw [timeoutEvents, List.length_append, delayTotal_append, hlen, hdelay]
  exact ⟨by rw [List.length_singleton]; omega, rfl⟩

theorem acquireEvents_counts {s : Hw} (hp : s.latch.present = true) (a : AcquireAnswers) :
    (acquireEvents s a).length = 5 + 2 * a.polls.length ∧
      delayTotal (acquireEvents s a) = a.polls.length * s.params.grantPollUs + s.latch.du.toNat ∧
      portReads (acquireEvents s a) = a.polls.length + 2 := by
  obtain ⟨hlen, hdelay, hreads⟩ := handshakeEvents_counts s a
  have htail : delayTotal [.wr (baseline s.params a.last), .dl s.latch.du.toNat] = s.latch.du.toNat := Nat.zero_add _
  rw [acquireEvents, if_pos hp, List.length_append, delayTotal_append, portReads_append, hlen, hdelay, hreads, htail]
  exact ⟨by simp only [List.length_cons, List.length_nil]; omega, rfl, rfl⟩

theorem releasePart_counts (s : Hw) (v : Word) :
    (releasePart s v).length = 4 * s.attached ∧
      delayTotal (releasePart s v) = s.latch.du.toNat * s.attached := by
  rw [releasePart, Hw.attached]
  split
  · exact ⟨rfl, by simp [releaseEvents, delayTotal]⟩
  · exact ⟨rfl, rfl⟩

/-- Acquire that is granted stops at its last poll, after at most GRANT_ATTEMPTS others (41_arbiter.md R67). -/
theorem exists_granted {s : Hw} (hp : s.latch.present = true) (h : (runAcquire s).2 = .ok) : ∃ a : AcquireAnswers,
    a.polls.length ≤ s.params.grantAttempts ∧ (runAcquire s).1.trace = s.trace ++ acquireEvents s a := by
  obtain ⟨a, rest, hrun, hn, -⟩ := exists_handshake hp
  rw [hrun, runGrant] at h ⊢
  split at h
  · refine ⟨a, hn, ?_⟩
    rw [if_pos ‹_›, acquireEvents, if_pos hp, ← List.append_assoc]
    exact List.append_assoc ..
  · cases h

/-! ### The costs of a run -/

/-- From s to t there were `standbys` runs of Standby and, besides, `events` port events and `units` delay units
(70_reset_and_hazards.md R111); with no FLASH attached a Standby has no event (41_arbiter.md R69). -/
structure Hw.Costs (s t : Hw) (standbys events units : Nat) : Prop where
  latch : t.latch = s.latch
  trace : ∃ ev, t.trace = s.trace ++ ev ∧ ev.length = 7 * (standbys * s.attached) + events ∧
    delayTotal ev = (2 * (standbys * s.attached) + units) * s.latch.du.toNat

section

variable {s t u : Hw} {a : XferArgs} {c : Bool} {i k n d k' n' d' : Nat}

/-- A run of those events, in which no Standby is counted. -/
theorem Hw.Costs.of_events {ev : List Event} (latch : t.latch = s.latch) (trace : t.trace = s.trace ++ ev)
    (hlen : ev.length = n) (hdelay : delayTotal ev = d * s.latch.du.toNat) : s.Costs t 0 n d :=
  ⟨latch, ev, trace, by simpa using hlen, by simpa using hdelay⟩

theorem Hw.Costs.of_trace_eq (latch : t.latch = s.latch) (trace : t.trace = s.trace) : s.Costs t 0 0 0 :=
  .of_events latch (trace.trans (List.append_nil _).symm) rfl (Nat.zero_mul _).symm

theorem Hw.Costs.trans (h : s.Costs t k n d) (h' : t.Costs u k' n' d') : s.Costs u (k + k') (n + n') (d + d') := by
  obtain ⟨ev, htrace, hlen, hdelay⟩ := h.trace
  obtain ⟨ev', htrace', hlen', hdelay'⟩ := h'.trace
  rw [Hw.attached, h.latch, ← Hw.attached] at hlen' hdelay'
  refine ⟨h'.latch.trans h.latch, ev ++ ev', ?_, ?_, ?_⟩
  · rw [htrace', htrace, List.append_assoc]
  · rw [List.length_append, hlen, hlen']
    ring
  · rw [delayTotal_append, hdelay, hdelay']
    ring

/-! ### Xfer -/

theorem regRead_costs (s : Hw) : s.Costs s.regRead 0 1 0 :=
  .of_events (ev := [.rd s.readAnswer]) rfl rfl rfl (Nat.zero_mul _).symm

theorem cancelPending_costs (s : Hw) : s.Costs s.cancelPending 0 1 0 :=
  .of_events (ev := [.cp s.cancelAnswer]) rfl rfl rfl (Nat.zero_mul _).symm

theorem runDrive_costs (s : Hw) : s.Costs (runDrive s) 0 3 1 := by
  rw [runDrive_eq]
  exact .of_events (ev := [.wr s.ls, .fl, .dl s.latch.du.toNat]) rfl rfl rfl (by simp [delayTotal])

theorem setLs_costs (s : Hw) (v : Word) : s.Costs (s.setLs v) 0 0 0 := .of_trace_eq rfl rfl

theorem clearLs_costs (s : Hw) (v : Word) : s.Costs (s.clearLs v) 0 0 0 := .of_trace_eq rfl rfl

theorem runRaise_costs (s : Hw) : s.Costs (runRaise s) 0 3 1 := (setLs_costs s _).trans (runDrive_costs _)

theorem runLower_costs (s : Hw) : s.Costs (runLower s) 0 3 1 := (clearLs_costs s _).trans (runDrive_costs _)

theorem putSi_costs (b : Bool) (s : Hw) : s.Costs (putSi b s) 0 0 0 := by
  cases b
  · exact clearLs_costs s _
  · exact setLs_costs s _

theorem memWrite_costs {x : Ref} {v : Byte} (h : s.memWrite x v = some t) : s.Costs t 0 0 0 := by
  obtain ⟨-, rfl⟩ | ⟨-, -, rfl⟩ | ⟨-, o, -, rfl⟩ := memWrite_cases h <;> exact .of_trace_eq rfl rfl

theorem captureBit_costs (h : captureBit a i s = some t) : s.Costs t 0 0 0 := by
  simp only [captureBit] at h
  split at h
  · simp only [Option.bind_eq_some_iff] at h
    obtain ⟨v, -, h⟩ := h
    exact memWrite_costs h
  · cases h
    exact .of_trace_eq rfl rfl

theorem runTail_costs (h : runTail a s = some t) : s.Costs t 0 0 0 := by
  simp only [runTail] at h
  split at h
  · split at h
    · simp only [Option.bind_eq_some_iff] at h
      obtain ⟨v, -, h⟩ := h
      exact memWrite_costs h
    · cases h
      exact .of_trace_eq rfl rfl
  · cases h
    exact .of_trace_eq rfl rfl

/-- Steps 2 to 5 of a bit: three driven line states and the sample (40_bitclock_transfer.md R65). -/
theorem runBit_costs (h : runBit a i s = some t) : s.Costs t 0 10 3 := by
  simp only [runBit, Option.bind_eq_some_iff, Option.map_eq_some_iff] at h
  obtain ⟨b, -, u, hcapture, rfl⟩ := h
  have hsetup := (putSi_costs b s).trans (runDrive_costs _)
  have hsample := (runRaise_costs (runDrive (putSi b s))).trans (regRead_costs _)
  have hfall := (captureBit_costs hcapture).trans (runLower_costs u)
  exact (hsetup.trans hsample).trans hfall

/-- The port events of one bit, with the sample of the cancellation input before it (40_bitclock_transfer.md R65). -/
def bitCost (c : Bool) : Nat := 10 + (if c then 1 else 0)

/-- A bit that no cancellation precedes. -/
theorem runBits_succ_costs {left : Nat} (h : runBits a (left + 1) s = some (t, .ok)) :
    ∃ u, s.Costs u 0 (bitCost a.c) 3 ∧ runBits a left u = some (t, .ok) := by
  rw [runBits] at h
  cases hc : a.c with
  | true =>
    simp only [hc, if_true] at h
    split at h
    · cases h
    · obtain ⟨u, hbit, hrest⟩ := Option.bind_eq_some_iff.mp h
      exact ⟨u, (cancelPending_costs s).trans (runBit_costs hbit), hrest⟩
  | false =>
    simp only [hc, Bool.false_eq_true, if_false] at h
    obtain ⟨u, hbit, hrest⟩ := Option.bind_eq_some_iff.mp h
    exact ⟨u, runBit_costs hbit, hrest⟩

theorem runBits_costs {left : Nat} {s : Hw} (h : runBits a left s = some (t, .ok)) :
    s.Costs t 0 (left * bitCost a.c) (3 * left) := by
  induction left generalizing s with
  | zero =>
    simp only [runBits, Option.map_eq_some_iff, Prod.mk.injEq, and_true, exists_eq_right] at h
    rw [Nat.zero_mul]
    exact runTail_costs h
  | succ left ih =>
    obtain ⟨u, hbit, hrest⟩ := runBits_succ_costs h
    rw [Nat.succ_mul, Nat.mul_succ, Nat.add_comm _ (bitCost a.c), Nat.add_comm _ 3]
    exact hbit.trans (ih hrest)

/-- Xfer: the seeding read and its bits (40_bitclock_transfer.md R65). -/
theorem runXfer_costs (h : runXfer a s = some (t, .ok)) : s.Costs t 0 (1 + a.n * bitCost a.c) (3 * a.n) := by
  have hcosts := (regRead_costs s).trans (runBits_costs h)
  rwa [Nat.zero_add, Nat.zero_add] at hcosts

/-! ### The FLASH commands -/

/-- Standby: its events, or none with no FLASH attached (41_arbiter.md R69). -/
theorem runStandby_costs (s : Hw) : s.Costs (runStandby s) 1 0 0 := by
  cases hp : s.latch.present with
  | false =>
    rw [runStandby_of_absent hp]
    exact ⟨rfl, [], (List.append_nil _).symm, by simp [Hw.attached, hp], by simp [Hw.attached, hp, delayTotal]⟩
  | true =>
    rw [runStandby_of_present hp]
    exact ⟨rfl, _, rfl, by simp [Hw.attached, hp, standbyEvents],
      by simp [Hw.attached, hp, standbyEvents, delayTotal, Nat.two_mul]⟩

/-- A frame: Standby, bytes of OPB, one transfer (42_flash_commands.md R71 to R75). -/
theorem frame_costs {src dst : Option Ref} (h : runXfer ⟨n, src, dst, c⟩ u = some (t, .ok))
    (hlatch : u.latch = (runStandby s).latch) (htrace : u.trace = (runStandby s).trace) :
    s.Costs t 1 (1 + n * bitCost c) (3 * n) := by
  have hcosts := ((runStandby_costs s).trans (.of_trace_eq hlatch htrace)).trans (runXfer_costs h)
  rwa [Nat.zero_add, Nat.zero_add] at hcosts

theorem runEnableWrite_costs (h : runEnableWrite c s = some (t, .ok)) : s.Costs t 1 (1 + 8 * bitCost c) 24 :=
  frame_costs (n := 8) h rfl rfl

theorem runStatusFrame_costs {st : Byte} (h : runStatusFrame st c s = some (t, .ok)) :
    s.Costs t 1 (1 + 16 * bitCost c) 48 :=
  frame_costs (n := 16) h rfl rfl

theorem runWriteStatus_costs {st : Byte} (h : runWriteStatus st c s = some (t, .ok)) :
    s.Costs t 2 ((1 + 8 * bitCost c) + (1 + 16 * bitCost c)) 72 := by
  simp only [runWriteStatus, Option.bind_eq_some_iff, Prod.exists] at h
  obtain ⟨u, r, henable, h⟩ := h
  split at h
  · exact (runEnableWrite_costs henable).trans (runStatusFrame_costs h)
  · cases h

theorem runReadStatus_costs {st : Byte} (h : runReadStatus c s = some (t, .ok st)) :
    s.Costs t 1 (1 + 16 * bitCost c) 48 := by
  simp only [runReadStatus, Option.map_eq_some_iff, Prod.mk.injEq, Prod.exists] at h
  obtain ⟨t, r, hxfer, rfl, hr⟩ := h
  cases r with
  | ok => exact frame_costs (n := 16) hxfer rfl rfl
  | _ => cases hr

theorem putHeader_trace (op : Byte) (off : Half) (s : Hw) : (putHeader op off s).trace = s.trace := rfl

/-- The header's 32 bits and the payload (42_flash_commands.md R74, R75). -/
theorem runPage_costs {op : Byte} {off : Half} {pay : XferArgs} (h : runPage op off pay c s = some (t, .ok)) :
    s.Costs t 1 ((1 + 32 * bitCost c) + (1 + pay.n * bitCost pay.c)) (96 + 3 * pay.n) := by
  simp only [runPage, Option.bind_eq_some_iff, Prod.exists] at h
  obtain ⟨u, r, hheader, h⟩ := h
  split at h
  · have hframe : s.Costs u 1 (1 + 32 * bitCost c) 96 :=
      frame_costs (n := 32) hheader (putHeader_same ..).latch (putHeader_trace ..)
    exact hframe.trans (runXfer_costs h)
  · cases h

/-! ### The table -/

/-- Costs as the table gives them: with `st` for the FLASH attached and `du` for the delay unit. -/
theorem Hw.Costs.counts {st du len delay : Nat} (h : s.Costs t k n d) (hst : st = s.attached)
    (hdu : du = s.latch.du.toNat) (hlen : 7 * (k * st) + n = len) (hdelay : (2 * (k * st) + d) * du = delay) :
    ∃ ev, t.trace = s.trace ++ ev ∧ ev.length = len ∧ delayTotal ev = delay := by
  subst hst hdu hlen hdelay
  exact h.trace

/-- Acquire, for whatever reads (41_arbiter.md R67). -/
theorem runAcquire_counts (s : Hw) : ∃ ev, (runAcquire s).1.trace = s.trace ++ ev ∧
    if s.latch.present = false then ev = []
    else if (runAcquire s).2.okOrTimeout = .arbTimeout then
      ev.length = 4 + 2 * s.params.grantAttempts ∧ delayTotal ev = s.params.grantAttempts * s.params.grantPollUs
    else ∃ p, p ≤ s.params.grantAttempts ∧ portReads ev = p + 2 ∧ ev.length = 5 + 2 * p ∧
      delayTotal ev = p * s.params.grantPollUs + s.latch.du.toNat := by
  cases hp : s.latch.present with
  | false =>
    rw [runAcquire_of_absent hp]
    exact ⟨[], (List.append_nil _).symm, rfl⟩
  | true =>
    obtain ho | ho := runAcquire_outcome s
    · obtain ⟨a, hn, htrace⟩ := exists_granted hp ho
      obtain ⟨hlen, hdelay, hreads⟩ := acquireEvents_counts hp a
      rw [ho]
      exact ⟨_, htrace, a.polls.length, hn, hreads, hlen, hdelay⟩
    · obtain ⟨-, a, ⟨hn, -⟩, htrace⟩ := exists_timedOut ho
      rw [ho, ← hn]
      exact ⟨_, htrace, timeoutEvents_counts s a⟩

/-- Of the outcomes that a procedure other than Acquire gives, Ok alone ends the command OK (60_exceptions.md R85). -/
theorem run_ok_of_map {run : Option (Hw × SubOutcome)} {code : RCode}
    (h : (run.map fun x => (x.1, x.2.okOrCancelled)) = some (t, code)) (hcode : code = .ok ∨ code = .arbTimeout) :
    run = some (t, .ok) := by
  obtain ⟨r, hrun, rfl⟩ := exists_of_map h
  cases r with
  | ok => exact hrun
  | _ => obtain hcode | hcode := hcode <;> cases hcode

/-- A page command that ends OK has a byte count (30_encoding.md R54), and its procedure has run to Ok. -/
theorem page_ok_of_checked {run : Option (Hw × SubOutcome)} {code : RCode}
    (h : checked s (run.map fun x => (x.1, x.2.okOrCancelled)) = some (t, code))
    (hcode : code = .ok ∨ code = .arbTimeout) : byteCount s.latch = s.latch.len.toNat ∧ run = some (t, .ok) := by
  obtain ⟨hfits, h⟩ | ⟨-, -, rfl⟩ := checked_cases h
  · exact ⟨byteCount_eq ((lengthFits_iff _).mp hfits), run_ok_of_map h hcode⟩
  · obtain hcode | hcode := hcode <;> cases hcode

/-- A page command's costs, for a payload of its byte count (42_flash_commands.md R74, R75). -/
theorem pageCommand_costs {op : Byte} {off : Half} {src dst : Option Ref}
    (h : runPage op off ⟨8 * byteCount s.latch, src, dst, c⟩ c s = some (t, .ok))
    (hlen : byteCount s.latch = s.latch.len.toNat) :
    s.Costs t 1 (2 + (32 + 8 * s.latch.len.toNat) * bitCost c) (96 + 24 * s.latch.len.toNat) := by
  have hcosts := runPage_costs h
  rw [hlen] at hcosts
  convert hcosts using 1 <;> ring

theorem setRdata_costs (s : Hw) (v : Word) : s.Costs (s.setRdata v) 0 0 0 := .of_trace_eq rfl rfl

/-- READ_STATUS, with its step that writes RDATA (42_flash_commands.md R73). -/
theorem readStatusCommand_costs {code : RCode} (h : (runReadStatus c s).map statusEnding = some (t, code))
    (hcode : code = .ok ∨ code = .arbTimeout) : s.Costs t 1 (1 + 16 * bitCost c) 48 := by
  obtain ⟨⟨u, x⟩, hrun, hend⟩ := Option.map_eq_some_iff.mp h
  cases x with
  | ok st =>
    cases hend
    exact (runReadStatus_costs hrun).trans (setRdata_costs u _)
  | cancelled =>
    cases hend
    obtain hcode | hcode := hcode <;> cases hcode

end

/-- Settles O60: each sub-operation's costs are read off the run of its pseudocode, and those of Acquire and Release off
their events. -/
theorem eventCounts : Obligations.EventCounts := by
  intro i s h code c n len st du gp ga hs hsound hends hcode hc hn hlen hst hdu hgp hga
  obtain ⟨fuel, t, hrun, heq⟩ := runsPseudocode_of_commandEnds hs hsound hends
  have hbit : bitCost i.flags.c = 10 + c := congrArg (10 + ·) hc.symm
  rw [show h.trace = t.trace from congrArg (fun u : State => u.hw.trace) heq]
  cases i with
  | transfer c' sf df =>
    change bitCost c' = 10 + c at hbit
    refine (runXfer_costs (run_ok_of_map hrun hcode)).counts hst hdu ?_ ?_
    · simp only [transferArgs, hbit, hn]
      ring
    · simp only [transferArgs, hn]
      ring
  | acquire =>
    cases hrun
    subst hgp hga hdu
    exact runAcquire_counts s.hw
  | release =>
    cases hrun
    subst hst hdu
    exact ⟨_, runRelease_trace s.hw, releasePart_counts s.hw _⟩
  | standby =>
    cases hrun
    exact (runStandby_costs s.hw).counts hst hdu (by ring) (by ring)
  | enableWrite c' =>
    change bitCost c' = 10 + c at hbit
    exact (runEnableWrite_costs (run_ok_of_map hrun hcode)).counts hst hdu (by rw [hbit]; ring) (by ring)
  | writeStatus c' | clearBp c' =>
    change bitCost c' = 10 + c at hbit
    exact (runWriteStatus_costs (run_ok_of_map hrun hcode)).counts hst hdu (by rw [hbit]; ring) (by ring)
  | readStatus c' =>
    change bitCost c' = 10 + c at hbit
    exact (readStatusCommand_costs hrun hcode).counts hst hdu (by rw [hbit]; ring) (by ring)
  | writePage c' | readPage c' =>
    change bitCost c' = 10 + c at hbit
    obtain ⟨hbytes, hpage⟩ := page_ok_of_checked hrun hcode
    exact (pageCommand_costs hpage hbytes).counts hst hdu (by rw [hbit, hlen]; ring) (by rw [hlen]; ring)
  | pollReady c' | dump c' | program c' | erase c' | unlock c' | checksum c' rp =>
    obtain ⟨ev, hev⟩ := (runCommand_concludes hrun).endsBy
    exact ⟨ev, hev.trace, trivial⟩

end Sys2Proof.Machine
end

section
/-! PROOFS. The invariant (10_state.md R16, R17, R26 to R28, R36). Laws/Legal.lean says of each procedure that a step from a
legal point does not fault and comes to a legal point; here that is carried to a command's entry and to the block's step, and
the host, its bus and the reset input are followed through their operations. -/

namespace Sys2Proof.Machine

/-! ### A command's entry -/

/-- A position of a running command, with the references of the invariant: SCR has m bytes, the page size is ps. -/
def Seq.Running (m ps : Nat) (q : Seq) : Prop := q ≠ .idle ∧ q.legal m ps = true

theorem Seq.running_finish (m ps : Nat) (code : RCode) : (Seq.finish code).Running m ps := ⟨nofun, rfl⟩

theorem endStatusCommand_running (m ps : Nat) (r : StatusOutcome) : (endStatusCommand r).Running m ps := by
  cases r <;> exact ⟨nofun, rfl⟩

section

variable {π ρ : Type} {P : π → Bool} {m ps : Nat} {s : State} {x : Res π ρ} {wrap : π → Seq} {k : ρ → Seq}

/-- Entering a command changes SEQ alone, to a position of a running command. -/
theorem enter_running (hx : x.Legal P) (hw : ∀ p, P p = true → (wrap p).Running m ps) (hk : ∀ r, (k r).Running m ps) :
    ∃ q : Seq, q.Running m ps ∧ s.enter x wrap k = .next (s.at q) := by
  cases x with
  | goto p => exact ⟨wrap p, hw p hx, rfl⟩
  | ret r => exact ⟨k r, hk r, rfl⟩
  | fault e => exact hx.elim

/-- The same for a page or loop command, which may be illegal (30_encoding.md R54). -/
theorem enterIfFits_running (hx : x.Legal P) (hw : ∀ p, P p = true → (wrap p).Running m ps)
    (hk : ∀ r, (k r).Running m ps) :
    ∃ q : Seq, q.Running m ps ∧
      (if lengthFits s.hw.latch then s.enter x wrap k else .next (s.at (.finish .illegal))) = .next (s.at q) := by
  split
  · exact enter_running hx hw hk
  · exact ⟨.finish .illegal, Seq.running_finish .., rfl⟩

end

/-- Every command is entered, at a legal position (30_encoding.md R52). -/
theorem exec_running (i : Instr) (s : State) {m : Nat} (ps : Nat) (hm : m = 2 * (s.hw.params.checksumIndex + 1)) :
    ∃ q : Seq, q.Running m ps ∧ exec i s = .next (s.at q) := by
  have spanLegal : ∀ {v : Span} {p : PagePt}, v.legal m = true → p.legal m v.len = true →
      (v.legal m && p.legal m v.len) = true := fun hv hp => by rw [hv, hp]; rfl
  cases i with
  | transfer c sf df =>
    exact ⟨.transfer (transferArgs s.hw.latch c sf df) .seed,
      ⟨nofun, Bool.and_eq_true_iff.mpr ⟨transferArgs_legal m s.hw.latch c sf df, rfl⟩⟩, rfl⟩
  | acquire => exact enter_running (enterAcquire_legal _) (fun _ _ => ⟨nofun, rfl⟩) fun _ => Seq.running_finish ..
  | release => exact enter_running (enterRelease_legal _) (fun _ _ => ⟨nofun, rfl⟩) fun _ => Seq.running_finish ..
  | standby => exact enter_running (enterStandby_legal _) (fun _ _ => ⟨nofun, rfl⟩) fun _ => Seq.running_finish ..
  | enableWrite c => exact enter_running (enterEnableWrite_legal _ m) (fun _ h => ⟨nofun, h⟩) fun _ => Seq.running_finish ..
  | writeStatus c => exact enter_running (enterWriteStatus_legal _ m) (fun _ h => ⟨nofun, h⟩) fun _ => Seq.running_finish ..
  | readStatus c => exact enter_running (enterReadStatus_legal _ m) (fun _ h => ⟨nofun, h⟩) (endStatusCommand_running m ps)
  | writePage c =>
    exact enterIfFits_running (enterPage_legal _ m (sourceSpan s.hw.latch).len)
      (fun _ h => ⟨nofun, spanLegal (bufSpan_legal ..) h⟩) fun _ => Seq.running_finish ..
  | readPage c =>
    exact enterIfFits_running (enterPage_legal _ m (destSpan s.hw.latch).len)
      (fun _ h => ⟨nofun, spanLegal (bufSpan_legal ..) h⟩) fun _ => Seq.running_finish ..
  | pollReady c => exact enter_running (enterReadStatus_legal _ m) (fun _ h => ⟨nofun, h⟩) (endStatusCommand_running m ps)
  | clearBp c => exact enter_running (enterWriteStatus_legal _ m) (fun _ h => ⟨nofun, h⟩) fun _ => Seq.running_finish ..
  | dump c =>
    exact enterIfFits_running (enterDump_legal ps (bufSpan_legal m ..) _) (fun _ h => ⟨nofun, h⟩)
      fun _ => Seq.running_finish ..
  | program c =>
    exact enterIfFits_running (enterProgram_legal (bufSpan_legal m ..) _) (fun _ h => ⟨nofun, h⟩)
      fun _ => Seq.running_finish ..
  | erase c => exact enter_running (enterErase_legal _ m) (fun _ h => ⟨nofun, h⟩) fun _ => Seq.running_finish ..
  | unlock c => exact enter_running (enterUnlock_legal _ m) (fun _ h => ⟨nofun, h⟩) fun _ => Seq.running_finish ..
  | checksum c rp => exact enter_running (enterChecksum_legal _ ps hm) (fun _ h => ⟨nofun, h⟩) (Seq.running_finish m ps)

/-- Settles O16: every command has an entry, at a position of a running command. -/
theorem everyCommandLeavesIdle : Obligations.EveryCommandLeavesIdle := fun i s =>
  let ⟨q, hq, hexec⟩ := exec_running i s 0 rfl
  ⟨q, hq.1, hexec⟩

/-! ### The block's step -/

/-- The invariant of a running command, from the invariant before a step of it. -/
theorem State.Inv.keepsRunning {s t : State} (hs : s.Inv) (hrun : s.seq ≠ .idle) (same : s.hw.SameRegs t.hw)
    (hmem : t.hw.mem.wf = true) (hq : t.seq.Running s.hw.scr.length s.hw.latch.ps.toNat) : t.Inv where
  params := same.params ▸ hs.params
  mem := hmem
  scr := by rw [same.scrLength, same.params]; exact hs.scr
  busy := ⟨fun _ => hq.1, fun _ => same.busy.trans (hs.busy.mpr hrun)⟩
  pageSize _ := same.latch ▸ hs.pageSize hrun
  seq := by rw [same.scrLength, same.latch]; exact hq.2

section

variable {π ρ : Type} {P : π → Bool} {s : State} {x : Hw × Res π ρ} {wrap : π → Seq} {k : ρ → Seq}

/-- A step of a running command's procedure, from a legal point. -/
theorem advance_inv (hs : s.Inv) (hrun : s.seq ≠ .idle) (same : s.hw.SameRegs x.1) (hmem : x.1.mem.wf = true)
    (hx : x.2.Legal P) (hw : ∀ p, P p = true → (wrap p).Running s.hw.scr.length s.hw.latch.ps.toNat)
    (hk : ∀ r, (k r).Running s.hw.scr.length s.hw.latch.ps.toNat) : ∃ t, s.advance x wrap k = .next t ∧ t.Inv := by
  obtain ⟨u, p | r | e⟩ := x
  · exact ⟨_, rfl, hs.keepsRunning hrun same hmem (hw p hx)⟩
  · exact ⟨_, rfl, hs.keepsRunning hrun same hmem (hk r)⟩
  · exact hx.elim

end

/-- From an invariant state the block's step is one, and keeps the invariant. -/
theorem blockStep_inv {s : State} (hs : s.Inv) : ∃ t, blockStep s = .next t ∧ t.Inv := by
  obtain ⟨q, hw, host⟩ := s
  have legal : q.legal hw.scr.length hw.latch.ps.toNat = true := hs.seq
  have mem : hw.mem.wf = true := hs.mem
  cases q with
  | idle => exact ⟨_, rfl, hs⟩
  | transfer a p =>
    obtain ⟨ha, hp⟩ := Bool.and_eq_true_iff.mp legal
    exact advance_inv hs nofun (stepXfer_same a p hw).1 (stepXfer_wf a p mem) (stepXfer_legal ha hp)
      (fun _ h => ⟨nofun, Bool.and_eq_true_iff.mpr ⟨ha, h⟩⟩) fun _ => Seq.running_finish ..
  | acquire p =>
    exact advance_inv hs nofun (stepAcquire_same p hw).1 (stepAcquire_wf p mem) (stepAcquire_legal p hw)
      (fun _ _ => ⟨nofun, rfl⟩) fun _ => Seq.running_finish ..
  | release p =>
    exact advance_inv hs nofun (stepRelease_same p hw).1 (stepRelease_wf p mem) (stepRelease_legal p hw)
      (fun _ _ => ⟨nofun, rfl⟩) fun _ => Seq.running_finish ..
  | standby p =>
    exact advance_inv hs nofun (stepStandby_same p hw).1 (stepStandby_wf p mem) (stepStandby_legal p hw)
      (fun _ _ => ⟨nofun, rfl⟩) fun _ => Seq.running_finish ..
  | enableWrite c p =>
    exact advance_inv hs nofun (stepEnableWrite_same c p hw).1 (stepEnableWrite_wf c p mem) (stepEnableWrite_legal legal)
      (fun _ h => ⟨nofun, h⟩) fun _ => Seq.running_finish ..
  | writeStatus st c p =>
    exact advance_inv hs nofun (stepWriteStatus_same st c p hw).1 (stepWriteStatus_wf st c p mem)
      (stepWriteStatus_legal legal) (fun _ h => ⟨nofun, h⟩) fun _ => Seq.running_finish ..
  | readStatus c p =>
    exact advance_inv hs nofun (stepReadStatus_same c p hw).1 (stepReadStatus_wf c p mem) (stepReadStatus_legal legal)
      (fun _ h => ⟨nofun, h⟩) (endStatusCommand_running _ _)
  | writePage v c p =>
    obtain ⟨hv, hp⟩ := Bool.and_eq_true_iff.mp legal
    exact advance_inv hs nofun (stepPage_same _ _ _ c p hw).1 (stepPage_wf _ _ _ c p mem) (stepWritePage_legal hv hp)
      (fun _ h => ⟨nofun, Bool.and_eq_true_iff.mpr ⟨hv, h⟩⟩) fun _ => Seq.running_finish ..
  | readPage v c p =>
    obtain ⟨hv, hp⟩ := Bool.and_eq_true_iff.mp legal
    exact advance_inv hs nofun (stepPage_same _ _ _ c p hw).1 (stepPage_wf _ _ _ c p mem) (stepReadPage_legal hv hp)
      (fun _ h => ⟨nofun, Bool.and_eq_true_iff.mpr ⟨hv, h⟩⟩) fun _ => Seq.running_finish ..
  | pollReady c p =>
    exact advance_inv hs nofun (stepPollReady_same c p hw).1 (stepReadStatus_wf c p mem) (stepPollReady_legal legal)
      (fun _ h => ⟨nofun, h⟩) (endStatusCommand_running _ _)
  | clearBp c p =>
    exact advance_inv hs nofun (stepWriteStatus_same _ c p hw).1 (stepWriteStatus_wf _ c p mem) (stepClearBp_legal legal)
      (fun _ h => ⟨nofun, h⟩) fun _ => Seq.running_finish ..
  | dump c p =>
    exact advance_inv hs nofun (stepDump_same c p hw).1 (stepDump_wf c p mem) (stepDump_legal legal)
      (fun _ h => ⟨nofun, h⟩) fun _ => Seq.running_finish ..
  | program c p =>
    exact advance_inv hs nofun (stepProgram_same c p hw).1 (stepProgram_wf c p mem) (stepProgram_legal legal)
      (fun _ h => ⟨nofun, h⟩) fun _ => Seq.running_finish ..
  | erase c p =>
    exact advance_inv hs nofun (stepErase_same c p hw).1 (stepErase_wf c p mem) (stepErase_legal legal)
      (fun _ h => ⟨nofun, h⟩) fun _ => Seq.running_finish ..
  | unlock c p =>
    exact advance_inv hs nofun (stepUnlock_same c p hw).1 (stepUnlock_wf c p mem) (stepUnlock_legal legal)
      (fun _ h => ⟨nofun, h⟩) fun _ => Seq.running_finish ..
  | checksum c rp p =>
    exact advance_inv hs nofun (stepChecksum_same c rp p hw) (stepChecksum_wf c rp p mem)
      (stepChecksum_legal hs.params hs.scr legal) (fun _ h => ⟨nofun, h⟩) (Seq.running_finish _ _)
  | statusResult st => exact ⟨_, rfl, hs.keepsRunning nofun (.setRdata ..) mem (Seq.running_finish ..)⟩
  | finish code =>
    exact ⟨_, rfl, hs.params, mem, hs.scr, ⟨Bool.noConfusion, fun h => (h rfl).elim⟩, fun h => (h rfl).elim, rfl⟩

/-! ### The host, its bus and the reset input -/

/-- The invariant does not look at the host's side. -/
theorem State.Inv.congr {s t : State} (hs : s.Inv) (seq : t.seq = s.seq) (hw : t.hw = s.hw) : t.Inv := by
  obtain ⟨q, h, host⟩ := t
  cases seq
  cases hw
  exact ⟨hs.params, hs.mem, hs.scr, hs.busy, hs.pageSize, hs.seq⟩

/-- An accepted command's entry meets the invariant. -/
theorem accept_at_inv {s : State} (hs : s.Inv) (w : Word) {q : Seq}
    (hq : q.Running (s.accept w).hw.scr.length (s.accept w).hw.latch.ps.toNat) : ((s.accept w).at q).Inv where
  params := hs.params
  mem := hs.mem
  scr := hs.scr
  busy := ⟨fun _ => hq.1, fun _ => rfl⟩
  pageSize _ := (accept_sound hs w).pageSize
  seq := hq.2

theorem storeCmd_inv {s : State} (hs : s.Inv) (w : Word) : ∃ t, storeCmd w s = .next t ∧ t.Inv := by
  rw [storeCmd]
  split
  · exact ⟨_, rfl, hs.params, hs.mem, hs.scr, hs.busy, hs.pageSize, hs.seq⟩
  · split
    · next i _ =>
      obtain ⟨q, hq, hexec⟩ := exec_running i (s.accept w) (s.accept w).hw.latch.ps.toNat hs.scr
      exact ⟨_, hexec, accept_at_inv hs w hq⟩
    · exact ⟨_, rfl, accept_at_inv hs w (Seq.running_finish ..)⟩

/-- A store to an operand register, to DEVCFG or to DEVSIZE touches nothing that the invariant speaks of. -/
theorem windowStore_inv {s : State} (hs : s.Inv) (off : Nat) (v : Word) :
    State.Inv { s with hw := s.hw.windowStore off v } := by
  simp only [Hw.windowStore]
  split <;> exact ⟨hs.params, hs.mem, hs.scr, hs.busy, hs.pageSize, hs.seq⟩

theorem arriveStore_inv {s : State} (hs : s.Inv) (off : Nat) (v : Word) : ∃ t, arriveStore off v s = .next t ∧ t.Inv := by
  rw [arriveStore]
  split
  · exact storeCmd_inv hs v
  · exact ⟨_, rfl, windowStore_inv hs off v⟩

theorem busStep_inv {s : State} (hs : s.Inv) (k : Nat) : ∃ t, busStep k s = .next t ∧ t.Inv := by
  rw [busStep]
  split
  · exact arriveStore_inv (s := s.unpost k) (hs.congr rfl rfl) ..
  · exact ⟨_, rfl, hs⟩

theorem blockReset_inv {s : State} (hs : s.Inv) : s.blockReset.Inv where
  params := hs.params
  mem := hs.mem
  scr := blockReset_scrLength s.hw
  busy := ⟨Bool.noConfusion, fun h => (h rfl).elim⟩
  pageSize h := (h rfl).elim
  seq := rfl

/-- The host operations that the model refuses in the state s: a window access of the wrong shape or place (20_memory.md R37,
R40), or any access to the window of a host that is not admitted (60_exceptions.md R96). -/
def State.Refuses (s : State) (o : HostOp) : Prop :=
  (s.admitted = false ∧ (∀ a v, o ≠ .bufStore a v) ∧ ∀ a, o ≠ .bufLoad a) ∨
    ∃ a : Access, (o = .load a ∨ ∃ v, o = .store a v) ∧
      (a.bytes ≠ 4 ∨ a.addr < s.hw.params.windowBase ∨ s.hw.params.windowBase + 0x40 ≤ a.addr ∨
        (a.addr - s.hw.params.windowBase) % 4 ≠ 0)

/-- A refused load or store is one that the model refuses. -/
theorem refuses_of_refusal {s : State} {o : HostOp} {a : Access} {e : Refusal} (ho : o = .load a ∨ ∃ v, o = .store a v)
    (h : s.refusal a = some e) : s.Refuses o := by
  have hbad := State.refusal_isSome_iff.mp ⟨e, h⟩
  rw [← or_assoc, ← or_assoc, ← or_assoc] at hbad
  obtain hbad | hadmitted := hbad
  · exact .inr ⟨a, ho, by rwa [or_assoc, or_assoc] at hbad⟩
  · refine .inl ⟨hadmitted, ?_⟩
    obtain rfl | ⟨v, rfl⟩ := ho <;> exact ⟨nofun, nofun⟩

/-- A load of STATUS goes through where the host is admitted. -/
theorem hostStatus_inv {s after : State} (hs : s.Inv) (seq : after.seq = s.seq) (hw : after.hw = s.hw) {o : HostOp}
    (ho : (∀ a v, o ≠ .bufStore a v) ∧ ∀ a, o ≠ .bufLoad a) :
    (∃ t, hostStatus s after = .next t ∧ t.Inv) ∨ ((∃ e, hostStatus s after = .refused e) ∧ s.Refuses o) := by
  rw [hostStatus]
  split
  · exact .inl ⟨_, rfl, hs.congr seq hw⟩
  · exact .inr ⟨⟨_, rfl⟩, .inl ⟨Bool.eq_false_iff.mpr ‹_›, ho⟩⟩

/-- Everything a host operation can do in an invariant state: it keeps the invariant, or it is refused as it must be. -/
theorem hostOp_inv {s : State} (hs : s.Inv) (o : HostOp) :
    (∃ t, hostOp o s = .next t ∧ t.Inv) ∨ ((∃ e, hostOp o s = .refused e) ∧ s.Refuses o) := by
  have hpop : s.popOp.Inv := hs.congr rfl rfl
  cases o with
  | store a v =>
    cases hr : s.popOp.refusal a with
    | some e => exact .inr ⟨⟨e, hostStore_of_refusal hr⟩, refuses_of_refusal (.inr ⟨v, rfl⟩) hr⟩
    | none =>
      refine .inl ?_
      simp only [hostOp, hostStore, hr]
      split
      · exact arriveStore_inv hpop ..
      · exact ⟨_, rfl, hpop.congr rfl rfl⟩
  | load a =>
    cases hr : s.popOp.refusal a with
    | some e => exact .inr ⟨⟨e, hostLoad_of_refusal hr⟩, refuses_of_refusal (.inl rfl) hr⟩
    | none =>
      refine .inl ?_
      simp only [hostOp, hostLoad, hr]
      exact ⟨_, rfl, hpop.congr rfl rfl⟩
  | bufStore a v =>
    exact .inl ⟨_, rfl, hs.params, Memory.wf_write hs.mem a.isLt, hs.scr, hs.busy, hs.pageSize, hs.seq⟩
  | bufLoad a => exact .inl ⟨_, rfl, hpop.congr rfl rfl⟩
  | wait => refine hostStatus_inv hs ?_ ?_ ⟨nofun, nofun⟩ <;> split <;> rfl
  | skipUnless code n => refine hostStatus_inv hs ?_ ?_ ⟨nofun, nofun⟩ <;> split <;> rfl
  | skipIf code n => refine hostStatus_inv hs ?_ ?_ ⟨nofun, nofun⟩ <;> split <;> rfl

/-! ### Steps of the machine -/

/-- Everything a step can do in an invariant state: it keeps the invariant, or it is a host operation refused as it must be. -/
theorem step_inv {s : State} (hs : s.Inv) :
    (∃ t, step s = .next t ∧ t.Inv) ∨
      ((∃ e, step s = .refused e) ∧ s.mover = .host ∧ ∃ o rest, s.host.ops = o :: rest ∧ s.Refuses o) := by
  have hpop : s.popTurn.Inv := hs.congr rfl rfl
  cases hm : s.mover with
  | block => simp only [step, hm]; exact .inl (blockStep_inv hpop)
  | bus k => simp only [step, hm]; exact .inl (busStep_inv hpop k)
  | reset => exact .inl ⟨_, step_of_reset hm, blockReset_inv hpop⟩
  | host =>
    cases ho : s.host.ops with
    | nil =>
      simp only [step, hm, hostStep, State.popTurn_ops, ho]
      exact .inl ⟨_, rfl, hpop⟩
    | cons o rest =>
      rw [step_of_hostOp hm ho]
      obtain hnext | ⟨hrefused, hbad⟩ := hostOp_inv hpop o
      · exact .inl hnext
      · exact .inr ⟨hrefused, rfl, o, rest, rfl, hbad⟩

/-- Settles O49: a next step of any agent keeps the invariant. -/
theorem stepKeepsInv : Obligations.StepKeepsInv := by
  intro s t hs hstep
  obtain ⟨t', hnext, ht'⟩ | ⟨⟨e, hrefused⟩, -⟩ := step_inv hs
  · cases hnext.symm.trans hstep
    exact ht'
  · cases hrefused.symm.trans hstep

/-- Settles O50: a step of any agent is a next step, or a host operation refused as it must be. -/
theorem stepNeverFaults : Obligations.StepNeverFaults := by
  intro s hs
  obtain ⟨t, hnext, -⟩ | ⟨⟨e, hrefused⟩, hbad⟩ := step_inv hs
  · rw [hnext]
    exact ⟨nofun, nofun⟩
  · rw [hrefused]
    exact ⟨nofun, fun _ _ => hbad⟩

end Sys2Proof.Machine
end

section
/-! PROOFS. The register window (10_state.md R14 to R22; 20_memory.md R37, R40): where the fields of STATUS and DEVCFG stand, what
a load reads after a store, and which accesses are refused. -/

namespace Sys2Proof.Machine

/-! ### Packed words -/

theorem flagAt_getLsbD (b : Bool) {n : Nat} (hn : n < 32) (k : Nat) : (flagAt b n).getLsbD k = (decide (k = n) && b) :=
  flagBit_getLsbD b hn k

/-- A field of w bits moved to bit n stands at the bits from n on. -/
theorem fieldBits_getLsbD {w : Nat} (x : BitVec w) {n : Nat} (hn : n + w ≤ 32) (k : Nat) :
    (x.setWidth 32 <<< n).getLsbD k = (decide (n ≤ k ∧ k < n + w) && x.getLsbD (k - n)) := by
  rw [BitVec.getLsbD_shiftLeft, BitVec.getLsbD_setWidth, Bool.eq_iff_iff]
  simp only [Bool.and_eq_true, Bool.not_eq_true', decide_eq_true_eq, decide_eq_false_iff_not]
  constructor
  · rintro ⟨⟨-, hle⟩, -, hx⟩
    have := BitVec.lt_of_getLsbD hx
    exact ⟨by omega, hx⟩
  · rintro ⟨hk, hx⟩
    exact ⟨⟨by omega, by omega⟩, by omega, hx⟩

/-- The bits of STATUS (10_state.md R17). -/
theorem statusWord_getLsbD (t : Status) (k : Nat) : t.word.getLsbD k =
    if k = 0 then t.busy
    else if 8 ≤ k ∧ k < 12 then t.rcode.bits.getLsbD (k - 8)
    else if k = 16 then t.cancelSeen
    else if k = 17 then t.overrun
    else false := by
  simp only [Status.word, BitVec.getLsbD_or, flagAt_getLsbD _ (show 0 < 32 by decide),
    flagAt_getLsbD _ (show 16 < 32 by decide), flagAt_getLsbD _ (show 17 < 32 by decide),
    fieldBits_getLsbD t.rcode.bits (show 8 + 4 ≤ 32 by decide)]
  split_ifs with h0 h8 h16 h17
  · subst h0; simp
  · simp [h0, h8, show k ≠ 16 by omega, show k ≠ 17 by omega]
  · subst h16; simp
  · subst h17; simp
  · simp [h0, h8, h16, h17]

/-- The bits of DEVCFG (10_state.md R21). -/
theorem devCfgWord_getLsbD (d : DevCfg) (k : Nat) : d.word.getLsbD k =
    if k = 0 then d.present
    else if 4 ≤ k ∧ k < 8 then d.pageLog2.getLsbD (k - 4)
    else if 16 ≤ k ∧ k < 32 then d.delayUs.getLsbD (k - 16)
    else false := by
  simp only [DevCfg.word, BitVec.getLsbD_or, flagAt_getLsbD _ (show 0 < 32 by decide),
    fieldBits_getLsbD d.pageLog2 (show 4 + 4 ≤ 32 by decide), fieldBits_getLsbD d.delayUs (show 16 + 16 ≤ 32 by decide)]
  split_ifs with h0 h4 h16
  · subst h0; simp
  · simp [h0, h4, show ¬ 16 ≤ k by omega]
  · simp [h0, h4, h16]
  · simp [h0, h4, h16]

/-- Settles O12: each field is moved to its place, and the places are disjoint. -/
theorem statusAndDescriptorLayout : Obligations.StatusAndDescriptorLayout :=
  ⟨statusWord_getLsbD, devCfgWord_getLsbD, rfl⟩

/-! ### What a load reads after a store -/

theorem lowHalf_eq_mask (v : Word) : (v.extractLsb' 0 16).setWidth 32 = v &&& 0x0000FFFF#32 := by
  have hmask : ∀ k < 32, (0x0000FFFF#32).getLsbD k = decide (k < 16) := by decide
  refine BitVec.eq_of_getLsbD_eq fun k hk => ?_
  simp only [BitVec.getLsbD_setWidth, BitVec.getLsbD_extractLsb', BitVec.getLsbD_and, hmask k hk, hk, decide_true,
    Bool.true_and, Nat.zero_add, Bool.and_comm]

/-- DEVCFG keeps the bits of its fields, and the others read 0 (10_state.md R21). -/
theorem devCfg_ofWord_word (v : Word) : (DevCfg.ofWord v).word = v &&& 0xFFFF00F1#32 := by
  have hmask : ∀ k < 32, (0xFFFF00F1#32).getLsbD k = decide (k = 0 ∨ (4 ≤ k ∧ k < 8) ∨ 16 ≤ k) := by decide
  refine BitVec.eq_of_getLsbD_eq fun k hk => ?_
  rw [devCfgWord_getLsbD, BitVec.getLsbD_and, hmask k hk]
  simp only [DevCfg.ofWord, BitVec.getLsbD_extractLsb']
  split_ifs with h0 h4 h16
  · subst h0; simp
  · simp [h4, show k - 4 < 4 by omega]
  · simp [h16, show k - 16 < 16 by omega]
  · simp [h0, h4, show ¬ 16 ≤ k by omega]

/-- STATUS, RDATA and the reserved offsets ignore stores (10_state.md R17, R18, R22). -/
theorem windowStore_of_readOnly {off : Nat} (h : writeMask off = none) (s : Hw) (v : Word) : s.windowStore off v = s := by
  simp only [Hw.windowStore]
  split
  case h_8 => rfl
  all_goals cases h

/-- A writable register is read back in its writable bits, and its other bits read 0 (10_state.md R19 to R21). -/
theorem windowLoad_windowStore_self {off : Nat} {m : Word} (h : writeMask off = some m) (s : Hw) (v : Word) :
    (s.windowStore off v).windowLoad off = v &&& m := by
  have hall : v = v &&& 0xFFFFFFFF#32 := (BitVec.and_allOnes (x := v)).symm
  simp only [writeMask] at h
  split at h <;> cases h
  case h_1 | h_5 | h_7 => exact lowHalf_eq_mask v
  case h_2 | h_3 | h_4 => exact hall
  case h_6 => exact devCfg_ofWord_word v

/-- A store leaves every other register of the window as it was. -/
theorem windowLoad_windowStore_ne {off off' : Nat} (hne : off' ≠ off) (s : Hw) (v : Word) :
    (s.windowStore off v).windowLoad off' = s.windowLoad off' := by
  simp only [Hw.windowStore]
  split
  case h_8 => rfl
  all_goals
    simp only [Hw.windowLoad]
    split <;> first | rfl | exact (hne rfl).elim

/-- A store changes operand registers, DEVCFG and DEVSIZE alone. -/
theorem windowStore_eq (s : Hw) (off : Nat) (v : Word) :
    s.windowStore off v =
      { s with
        offset := (s.windowStore off v).offset
        length := (s.windowStore off v).length
        src := (s.windowStore off v).src
        dst := (s.windowStore off v).dst
        data := (s.windowStore off v).data
        devcfg := (s.windowStore off v).devcfg
        devsize := (s.windowStore off v).devsize } := by
  simp only [Hw.windowStore]
  split <;> rfl

theorem windowOffset_aligned {off : Nat} (h : off ∈ windowOffsets) : off < 0x40 ∧ off % 4 = 0 := by
  obtain ⟨k, hk, rfl⟩ := List.mem_map.mp h
  have := List.mem_range.mp hk
  omega

theorem arriveStore_operand {off : Nat} (hoff : off ≠ 0x00) (v : Word) (s : State) :
    arriveStore off v s = .next { s with hw := s.hw.windowStore off v } := if_neg hoff

/-- Settles O11: an admitted host's accesses reach the window; a load sees the register, and a store changes it alone. -/
theorem windowRegistersReadBack : Obligations.WindowRegistersReadBack := by
  refine ⟨fun s off hoff ha => ?_, fun s => rfl, fun s off v _ hne => ?_, fun s off v hoff ha => ?_, fun s k off v hk => ?_⟩
  · obtain ⟨hlt, h4⟩ := windowOffset_aligned hoff
    exact hostLoad_word hlt h4 ha
  · refine ⟨s.hw.windowStore off v, arriveStore_operand hne v s, fun off' _ => ?_, windowStore_eq s.hw off v⟩
    cases hm : writeMask off with
    | none => rw [windowStore_of_readOnly hm]
    | some m =>
      by_cases heq : off' = off
      · subst heq
        simp only [if_true, windowLoad_windowStore_self hm]
      · simp only [if_neg heq, windowLoad_windowStore_ne heq]
  · obtain ⟨hlt, h4⟩ := windowOffset_aligned hoff
    exact ⟨hostStore_program v hlt h4 ha, hostStore_any v hlt h4 ha⟩
  · simp only [busStep, hk]
    rfl

/-! ### Refused accesses -/

theorem refused_of_refusal {s : State} {a : Access} (h : ∃ e, s.refusal a = some e) (v : Word) :
    ∃ e, hostLoad a s = .refused e ∧ hostStore a v s = .refused e := by
  obtain ⟨e, he⟩ := h
  exact ⟨e, hostLoad_of_refusal he, hostStore_of_refusal he⟩

theorem hostStatus_notAdmitted {s : State} (h : s.admitted = false) (after : State) :
    hostStatus s after = .refused .hostAccessNotAdmitted := if_neg (Bool.eq_false_iff.mp h)

/-- The reserved offsets (10_state.md R22). -/
theorem reservedOffset_cases {off : Nat} (h : off ∈ [0x28, 0x2C, 0x30, 0x34, 0x38, 0x3C]) :
    off ∈ windowOffsets ∧ off ≠ 0x00 ∧ writeMask off = none ∧ ∀ s : Hw, s.windowLoad off = 0#32 := by
  simp only [List.mem_cons, List.not_mem_nil, or_false] at h
  obtain rfl | rfl | rfl | rfl | rfl | rfl := h <;> exact ⟨by decide, by decide, rfl, fun _ => rfl⟩

/-- Settles O10: a reserved offset is aligned and in the window, but no register; and the refused accesses are those that
`State.refusal` answers for, with the loads of STATUS of a host that is kept out. -/
theorem reservedOffsetsAndRefusedAccesses : Obligations.ReservedOffsetsAndRefusedAccesses := by
  refine ⟨fun s off v hoff => ?_, fun s a v h => ?_, fun s a v h => ⟨?_, fun o rest ho hop => ?_⟩⟩
  · obtain ⟨hwin, hne, hmask, hload⟩ := reservedOffset_cases hoff
    obtain ⟨hlt, h4⟩ := windowOffset_aligned hwin
    have harrive : arriveStore off v s = .next s := by
      rw [arriveStore_operand hne, windowStore_of_readOnly hmask]
    refine ⟨harrive, fun ha => ⟨?_, fun hp => (hostStore_program v hlt h4 ha hp).trans harrive⟩⟩
    rw [hostLoad_word hlt h4 ha, hload]
  · refine refused_of_refusal (State.refusal_isSome_iff.mpr ?_) v
    obtain h | h | h | h := h
    · exact .inl h
    · exact .inr (.inl h)
    · exact .inr (.inr (.inl h))
    · exact .inr (.inr (.inr (.inl h)))
  · exact refused_of_refusal (State.refusal_isSome_iff.mpr (.inr (.inr (.inr (.inr h))))) v
  · rw [hostStep_of_ops ho]
    obtain rfl | ⟨code, n, rfl | rfl⟩ := hop <;> exact hostStatus_notAdmitted h _

/-! ### Reset -/

/-- Settles O18: the window's registers have the values that a block reset gives them. -/
theorem resetStateValues : Obligations.ResetStateValues := fun p =>
  ⟨rfl, rfl, fun off _ => windowLoad_blockReset (State.resetWith p).hw off, rfl, List.length_replicate, rfl⟩

end Sys2Proof.Machine
end

section
/-! PROOFS. Acceptance and the latch (10_state.md R15, R26), and the machine against its pseudocode (R16): what a delivered store
to CMD starts, what keeps the latch while a command runs, and why a store to an operand register makes no difference to it. -/

namespace Sys2Proof.Machine

/-- Settles O7: a delivered store to CMD is that store, which is accepted and decoded. -/
theorem stepRunsTheDecodedCommand : Obligations.StepRunsTheDecodedCommand := by
  intro s u w i hd hb hw
  rw [step_of_delivers hd]
  simp only [storeCmd, hd.hw, hb, hw, Bool.false_eq_true, if_false, State.accept]
  rfl

/-! ### The latch -/

/-- The page size of PAGE_LOG2 (10_state.md R21). -/
theorem pageSize_toNat (k : BitVec 4) : (pageSize k).toNat = 2 ^ k.toNat := by
  revert k
  decide

/-- No step of the block changes the latch. -/
theorem blockStep_latch {s t : State} (h : blockStep s = .next t) : t.hw.latch = s.hw.latch := by
  by_cases hf : ∃ code, s.seq = .finish code
  · obtain ⟨code, hf⟩ := hf
    rw [blockStep_finish hf] at h
    cases h
    rfl
  · exact (blockStep_same h fun code hc => hf ⟨code, hc⟩).latch

/-- A store that arrives while a command runs changes neither the latch nor SEQ. -/
theorem arriveStore_of_busy {off : Nat} {v : Word} {s t : State} (hb : s.hw.status.busy = true)
    (h : arriveStore off v s = .next t) : t.hw.latch = s.hw.latch ∧ t.seq = s.seq := by
  by_cases hoff : off = 0x00
  · rw [arriveStore, if_pos hoff, storeCmd_of_busy hb] at h
    cases h
    exact ⟨rfl, rfl⟩
  · rw [arriveStore_operand hoff] at h
    cases h
    exact ⟨(congrArg Hw.latch (windowStore_eq s.hw off v) :), rfl⟩

/-- Nor does any other operation of the host. -/
theorem hostOp_of_busy {o : HostOp} {s t : State} (hb : s.hw.status.busy = true) (h : hostOp o s = .next t) :
    t.hw.latch = s.hw.latch ∧ t.seq = s.seq := by
  cases o with
  | store a v =>
    obtain ⟨-, ⟨-, harrive⟩ | ⟨-, rfl⟩⟩ := hostStore_cases h
    · exact arriveStore_of_busy (s := s.popOp) hb harrive
    · exact ⟨rfl, rfl⟩
  | load a =>
    simp only [hostOp, hostLoad] at h
    split at h <;> cases h
    exact ⟨rfl, rfl⟩
  | bufStore a v | bufLoad a => cases h; exact ⟨rfl, rfl⟩
  | wait | skipUnless code n | skipIf code n =>
    obtain rfl := hostStatus_eq h
    split <;> exact ⟨rfl, rfl⟩

/-- While a command runs, no step but a reset changes the latch, and only the block's changes SEQ. -/
theorem step_of_busy {s t : State} (hb : s.hw.status.busy = true) (hm : s.mover ≠ .reset) (h : step s = .next t) :
    t.hw.latch = s.hw.latch ∧ (s.mover ≠ .block → t.seq = s.seq) := by
  cases hmover : s.mover with
  | reset => exact (hm hmover).elim
  | block =>
    simp only [step, hmover] at h
    exact ⟨blockStep_latch (s := s.popTurn) h, fun hne => (hne rfl).elim⟩
  | host =>
    simp only [step, hmover, hostStep, State.popTurn_ops] at h
    split at h
    · cases h
      exact ⟨rfl, fun _ => rfl⟩
    · obtain ⟨hlatch, hseq⟩ := hostOp_of_busy (s := s.popTurn) hb h
      exact ⟨hlatch, fun _ => hseq⟩
  | bus k =>
    simp only [step, hmover] at h
    obtain rfl | ⟨x, -, harrive⟩ := busStep_cases h
    · exact ⟨rfl, fun _ => rfl⟩
    · obtain ⟨hlatch, hseq⟩ := arriveStore_of_busy (s := s.popTurn.unpost k) hb harrive
      exact ⟨hlatch, fun _ => hseq⟩

/-- Settles O8: acceptance loads each field, and the steps of every agent keep it while a command runs. -/
theorem latchIsLoadedAndKept : Obligations.LatchIsLoadedAndKept :=
  ⟨fun s _ => ⟨rfl, rfl, rfl, rfl, rfl, rfl, rfl, rfl, rfl, rfl, rfl, pageSize_toNat s.devcfg.pageLog2, rfl⟩,
    fun _ _ h => blockStep_latch h, fun _ _ hb hm h => step_of_busy hb hm h⟩

/-! ### Stores while a command runs -/

/-- A store to an operand register, to DEVCFG or to DEVSIZE as a graft of what it leaves there. -/
theorem windowStore_eq_graft (s : Hw) (off : Nat) (v : Word) :
    s.windowStore off v = s.graft (s.windowStore off v) s.cancels := by
  simp only [Hw.windowStore]
  split <;> rfl

/-- The same store on a state with the same operand registers. -/
theorem windowStore_graft_self (t s : Hw) (cs : List Bool) (off : Nat) (v : Word) :
    (t.graft s cs).windowStore off v = t.graft (s.windowStore off v) cs := by
  simp only [Hw.windowStore]
  split <;> rfl

/-- Settles O56: the block's step is the same, whatever is grafted into the registers that it does not look at. -/
theorem operandStoreCommutesWithTheBlock : Obligations.OperandStoreCommutesWithTheBlock := by
  intro s t off v _ h
  cases blockStep_primitive s with
  | sample k hk =>
    obtain rfl := Host.Outcome.next.inj (h.symm.trans (hk s.hw s.hw.cancels))
    rw [windowStore_eq_graft s.hw, hk]
    simp only [Hw.windowStore]
    split <;> rfl
  | other _ hg =>
    rw [eq_graft_self hg h, windowStore_graft_self, windowStore_eq_graft s.hw]
    exact hg _ s.hw.cancels t h

/-! ### The pseudocode -/

/-- Settles O58: a run of the machine and a run of the pseudocode are found from each other. -/
theorem machineRunsThePseudocode : Obligations.MachineRunsThePseudocode := by
  intro i s u code hs hsound
  constructor
  · rintro ⟨h, hends, rfl⟩
    exact runsPseudocode_of_commandEnds hs hsound hends
  · rintro ⟨fuel, h, hrun, rfl⟩
    exact ⟨h, commandEnds_of_runCommand hs hsound hrun, rfl⟩

end Sys2Proof.Machine
end

section
/-! PROOFS. A step of the block is one primitive (10_state.md R16; 00_scope.md R5, R6, R10): `Hw.OneStep` lists them, with the byte
that a store writes, and one lemma per procedure says that a step which does not fault makes one of them. -/

namespace Sys2Proof.Machine

/-- One primitive from the state s: a MemWrite to the byte given, or, where none is given, at most one event or one update of LS
(00_scope.md R10) or of CANCEL_SEEN. -/
inductive Hw.OneStep (s : Hw) : Option Ref → Hw → Prop where
  | store {r : Ref} {v : Byte} {t : Hw} (h : s.memWrite r v = some t) : OneStep s (some r) t
  | skip : OneStep s none s
  | regRead : OneStep s none s.regRead
  | regWrite : OneStep s none s.regWrite
  | flush : OneStep s none s.flush
  | delayUnit : OneStep s none s.delayUnit
  | grantDelay : OneStep s none (s.delay s.params.grantPollUs)
  | cancelPending : OneStep s none s.cancelPending
  | markCancelled : OneStep s none s.markCancelled
  | lines (v : Word) (h : v &&& keptMask s.params = s.ls &&& keptMask s.params) : OneStep s none { s with ls := v }

namespace Hw.OneStep

variable {s t : Hw} {target : Option Ref}

theorem setLs {m : Word} (h : m &&& keptMask s.params = 0#32) : s.OneStep none (s.setLs m) :=
  .lines _ (or_and_of_disjoint h _)

theorem clearLs {m : Word} (h : m &&& keptMask s.params = 0#32) : s.OneStep none (s.clearLs m) :=
  .lines _ (andNot_and_of_disjoint h _)

/-- A primitive that is no store leaves the three memories alone. -/
theorem memories (h : s.OneStep none t) : t.mem = s.mem ∧ t.scr = s.scr ∧ t.opb = s.opb := by
  cases h <;> exact ⟨rfl, rfl, rfl⟩

/-- A primitive writes no byte but the one given (00_scope.md R6). -/
theorem memRead (h : s.OneStep target t) {x : Ref} (hx : target ≠ some x) : t.memRead x = s.memRead x := by
  cases h with
  | store hw => exact memRead_memWrite_ne hw fun heq => hx (congrArg some heq)
  | _ => rfl

/-- None of them writes RDATA. -/
theorem rdata (h : s.OneStep target t) : t.rdata = s.rdata := by
  cases h with
  | store hw => exact memWrite_rdata hw
  | _ => rfl

end Hw.OneStep

/-- A step of a procedure, at a point whose innermost procedure stands at `leaf`: unless it faults, it is one primitive, a store
only where the point names one (checksum index k). -/
def Hw.Takes {π ρ : Type} (k : Nat) (leaf : Leaf) (s : Hw) (x : Hw × Res π ρ) : Prop :=
  (∀ e, x.2 ≠ .fault e) → s.OneStep (leaf.storesTo k) x.1

/-- A step of a called procedure, as a step of its caller. -/
theorem Hw.Takes.chain {π ρ π' ρ' : Type} {k : Nat} {leaf : Leaf} {s : Hw} {x : Hw × Res π ρ} {wrap : π → π'}
    {next : Hw → ρ → Res π' ρ'} (h : s.Takes k leaf x) : s.Takes k leaf (chainStep x wrap next) := fun hf =>
  h fun e he => hf e (by rw [chainStep, he, Res.chain_fault])

/-! ### The procedures that drive the lines -/

theorem stepDrive_oneStep (p : DrivePt) (s : Hw) : s.OneStep none (stepDrive p s).1 := by
  cases p with
  | write => exact .regWrite
  | flush => exact .flush
  | delay => exact .delayUnit

theorem stepRaise_oneStep (p : ClockPt) (s : Hw) : s.OneStep none (stepRaise p s).1 := by
  cases p with
  | change => exact .setLs (bitMask_and_keptMask (.inl rfl))
  | drive p => exact stepDrive_oneStep p s

theorem stepLower_oneStep (p : ClockPt) (s : Hw) : s.OneStep none (stepLower p s).1 := by
  cases p with
  | change => exact .clearLs (bitMask_and_keptMask (.inl rfl))
  | drive p => exact stepDrive_oneStep p s

/-- A step that reads one byte, or faults. -/
theorem load_takes {π ρ : Type} (k : Nat) {leaf : Leaf} (hleaf : leaf.storesTo k = none) (s : Hw) (r : Ref)
    (next : Byte → Res π ρ) :
    s.Takes k leaf (match s.memRead r with | some v => (s, next v) | none => (s, .fault (.noSuchByte r))) := by
  intro _
  rw [hleaf]
  split <;> exact .skip

/-- A step that stores one byte, or faults. -/
theorem store_takes {π ρ : Type} (k : Nat) {leaf : Leaf} {r : Ref} (hleaf : leaf.storesTo k = some r) (s : Hw) (v : Byte)
    (next : Hw → Res π ρ) :
    s.Takes k leaf (match s.memWrite r v with | some t => (t, next t) | none => (s, .fault (.noSuchByte r))) := by
  intro hf
  rw [hleaf]
  split
  · exact .store ‹_›
  · next hnone => simp only [hnone] at hf; exact (hf _ rfl).elim

theorem stepXfer_takes (k : Nat) (a : XferArgs) (p : XferPt) (s : Hw) : s.Takes k (.xfer p) (stepXfer a p s) := by
  cases p with
  | seed | sample i => exact fun _ => .regRead
  | check i => exact fun _ => .cancelPending
  | markCancelled => exact fun _ => .markCancelled
  | fetch i r => exact load_takes k rfl s r _
  | load i r => exact load_takes k rfl s r _
  | loadTail r => exact load_takes k rfl s r _
  | present i b =>
    have hm : bitMask s.params.bitSi &&& keptMask s.params = 0#32 := bitMask_and_keptMask (.inr (.inl rfl))
    cases b with
    | true => exact fun _ => .setLs hm
    | false => exact fun _ => .clearLs hm
  | setup i p => exact fun _ => stepDrive_oneStep p s
  | rise i p => exact fun _ => stepRaise_oneStep p s
  | fall i p => exact fun _ => stepLower_oneStep p s
  | store i r v => exact store_takes k rfl s (setBit v i s.sampledBit) fun _ => _
  | storeTail r v => exact store_takes k rfl s (keepTop v a.n) fun _ => _

theorem stepAcquire_oneStep (p : AcquirePt) (s : Hw) : s.OneStep none (stepAcquire p s).1 := by
  have hreq : bitMask s.params.bitReq &&& keptMask s.params = 0#32 := bitMask_and_keptMask (.inr (.inr (.inr rfl)))
  cases p with
  | seed | poll a => exact .regRead
  | writeReq | writeTimeout | writeBaseline => exact .regWrite
  | pollDelay a => exact .grantDelay
  | delayBaseline => exact .delayUnit
  | setReq => exact .setLs hreq
  | clearReq => exact .clearLs hreq
  | baseline =>
    have hsi : bitMask s.params.bitSi &&& keptMask s.params = 0#32 := bitMask_and_keptMask (.inr (.inl rfl))
    have hcen : bitMask s.params.bitCen &&& keptMask s.params = 0#32 := bitMask_and_keptMask (.inr (.inr (.inl rfl)))
    have hsk : bitMask s.params.bitSk &&& keptMask s.params = 0#32 := bitMask_and_keptMask (.inl rfl)
    exact .clearLs ((or_and_of_disjoint hsk _).trans ((or_and_of_disjoint hcen _).trans hsi))

theorem stepRelease_oneStep (p : ReleasePt) (s : Hw) : s.OneStep none (stepRelease p s).1 := by
  have hcen : bitMask s.params.bitCen &&& keptMask s.params = 0#32 := bitMask_and_keptMask (.inr (.inr (.inl rfl)))
  have hsk : bitMask s.params.bitSk &&& keptMask s.params = 0#32 := bitMask_and_keptMask (.inl rfl)
  cases p with
  | seed => exact .regRead
  | deselect => exact .lines _ ((andNot_and_of_disjoint hsk _).trans (or_and_of_disjoint hcen _))
  | writeDeselect | writeReq => exact .regWrite
  | delayDeselect => exact .delayUnit
  | clearReq => exact .clearLs (bitMask_and_keptMask (.inr (.inr (.inr rfl))))

theorem stepStandby_oneStep (p : StandbyPt) (s : Hw) : s.OneStep none (stepStandby p s).1 := by
  have hcen : bitMask s.params.bitCen &&& keptMask s.params = 0#32 := bitMask_and_keptMask (.inr (.inr (.inl rfl)))
  cases p with
  | seed => exact .regRead
  | setCen => exact .setLs hcen
  | clearCen => exact .clearLs hcen
  | driveHigh p | driveLow p => exact stepDrive_oneStep p s

/-! ### Their callers -/

section

variable (k : Nat) (c : Bool) (s : Hw)

theorem stepEnableWrite_takes (p : EnableWritePt) : s.Takes k p.leaf (stepEnableWrite c p s) := by
  cases p with
  | standby p => exact fun _ => stepStandby_oneStep p s
  | opcode => exact fun _ => .store rfl
  | xfer p => exact (stepXfer_takes k _ p s).chain

theorem stepWriteStatus_takes (st : Byte) (p : WriteStatusPt) : s.Takes k p.leaf (stepWriteStatus st c p s) := by
  cases p with
  | enable p => exact (stepEnableWrite_takes k c s p).chain
  | standby p => exact fun _ => stepStandby_oneStep p s
  | opcode | status => exact fun _ => .store rfl
  | xfer p => exact (stepXfer_takes k _ p s).chain

theorem stepReadStatus_takes (p : ReadStatusPt) : s.Takes k p.leaf (stepReadStatus c p s) := by
  cases p with
  | standby p => exact fun _ => stepStandby_oneStep p s
  | opcode | zero => exact fun _ => .store rfl
  | xfer p => exact (stepXfer_takes k _ p s).chain

theorem stepPollReady_takes (p : ReadStatusPt) : s.Takes k p.leaf (stepPollReady c p s) :=
  (stepReadStatus_takes k c s p).chain

theorem stepPage_takes (op : Byte) (off : Half) (payload : XferArgs) (p : PagePt) :
    s.Takes k p.leaf (stepPage op off payload c p s) := by
  cases p with
  | standby p => exact fun _ => stepStandby_oneStep p s
  | opcode | addrHigh | addrMid | addrLow => exact fun _ => .store rfl
  | header p | payload p => exact (stepXfer_takes k _ p s).chain

theorem stepDump_takes (p : DumpPt) : s.Takes k p.leaf (stepDump c p s) := by
  cases p with
  | poll v p => exact (stepPollReady_takes k c s p).chain
  | page v p => exact (stepPage_takes k c s _ _ _ p).chain

theorem stepProgram_takes (p : ProgramPt) : s.Takes k p.leaf (stepProgram c p s) := by
  cases p with
  | clearBp v p => exact (stepWriteStatus_takes k c s _ p).chain
  | release p => exact fun _ => stepRelease_oneStep p s
  | poll v p | finalPoll p => exact (stepPollReady_takes k c s p).chain
  | enable v p => exact (stepEnableWrite_takes k c s p).chain
  | write v p => exact (stepPage_takes k c s _ _ _ p).chain

theorem stepErase_takes (p : ErasePt) : s.Takes k p.leaf (stepErase c p s) := by
  cases p with
  | acquire p => exact fun _ => stepAcquire_oneStep p s
  | standby p | standby2 p => exact fun _ => stepStandby_oneStep p s
  | clearBp p => exact (stepWriteStatus_takes k c s _ p).chain
  | enable p => exact (stepEnableWrite_takes k c s p).chain
  | opcode => exact fun _ => .store rfl
  | xfer p => exact (stepXfer_takes k _ p s).chain
  | release r p => exact fun _ => stepRelease_oneStep p s

theorem stepUnlock_takes (p : UnlockPt) : s.Takes k p.leaf (stepUnlock c p s) := by
  cases p with
  | acquire p => exact fun _ => stepAcquire_oneStep p s
  | standby p => exact fun _ => stepStandby_oneStep p s
  | clearBp p => exact (stepWriteStatus_takes k c s _ p).chain
  | release r p => exact fun _ => stepRelease_oneStep p s

/-- CHECKSUM's steps but the one that writes RDATA. -/
theorem stepChecksum_takes (rp : Bool) {p : ChecksumPt} (hp : ∀ x y, p ≠ .result x y) :
    s.Takes s.params.checksumIndex p.leaf (stepChecksum c rp p s) := by
  cases p with
  | acquire p => exact fun _ => stepAcquire_oneStep p s
  | dump p => exact (stepDump_takes _ c s p).chain
  | evalFirst j t => exact load_takes _ rfl s (scrRef (2 * j)) _
  | evalSecond j t v => exact load_takes _ rfl s (scrRef (2 * j + 1)) _
  | result x y => exact (hp x y rfl).elim
  | scrLow x => exact store_takes _ rfl s (firstByte s.params.wordOrder x) fun _ => _
  | scrHigh x => exact store_takes _ rfl s (secondByte s.params.wordOrder x) checksumRepair
  | program p => exact (stepProgram_takes _ c s p).chain
  | release r p => exact fun _ => stepRelease_oneStep p s

end

/-! ### The block's step -/

/-- What a step of the block leaves in the hardware: one primitive, or the register update of a result step or of `finish`
(10_state.md R18; 60_exceptions.md R93). -/
inductive State.OneStep (s : State) : Hw → Prop where
  | primitive {h : Hw} (hp : s.hw.OneStep (s.seq.leaf.storesTo s.hw.params.checksumIndex) h) : OneStep s h
  | statusResult {st : Byte} (hq : s.seq = .statusResult st) : OneStep s (s.hw.setRdata (st.setWidth 32))
  | checksumResult {c rp : Bool} {x y : Half} (hq : s.seq = .checksum c rp (.result x y)) :
      OneStep s (s.hw.setRdata (checksumData ⟨x, y⟩))
  | finish {code : RCode} (hq : s.seq = .finish code) : OneStep s (s.finish code).hw

theorem advance_oneStep {π ρ : Type} {s t : State} {x : Hw × Res π ρ} {wrap : π → Seq} {k : ρ → Seq} {leaf : Leaf}
    (h : s.advance x wrap k = .next t) (hx : s.hw.Takes s.hw.params.checksumIndex leaf x) (hl : s.seq.leaf = leaf) :
    s.OneStep t.hw := by
  subst hl
  obtain ⟨u, p | r | e⟩ := x <;> cases h <;> exact .primitive (hx nofun)

theorem blockStep_oneStep {s t : State} (h : blockStep s = .next t) : s.OneStep t.hw := by
  obtain ⟨q, hw, host⟩ := s
  cases q with
  | idle => cases h; exact .primitive .skip
  | transfer a p => exact advance_oneStep h (stepXfer_takes _ a p hw) rfl
  | acquire p => exact advance_oneStep h (leaf := .acquire p) (fun _ => stepAcquire_oneStep p hw) rfl
  | release p => exact advance_oneStep h (leaf := .release p) (fun _ => stepRelease_oneStep p hw) rfl
  | standby p => exact advance_oneStep h (leaf := .standby p) (fun _ => stepStandby_oneStep p hw) rfl
  | enableWrite c p => exact advance_oneStep h (stepEnableWrite_takes _ c hw p) rfl
  | writeStatus st c p => exact advance_oneStep h (stepWriteStatus_takes _ c hw st p) rfl
  | readStatus c p => exact advance_oneStep h (stepReadStatus_takes _ c hw p) rfl
  | writePage v c p => exact advance_oneStep h (stepPage_takes _ c hw _ _ _ p) rfl
  | readPage v c p => exact advance_oneStep h (stepPage_takes _ c hw _ _ _ p) rfl
  | pollReady c p => exact advance_oneStep h (stepPollReady_takes _ c hw p) rfl
  | clearBp c p => exact advance_oneStep h (stepWriteStatus_takes _ c hw _ p) rfl
  | dump c p => exact advance_oneStep h (stepDump_takes _ c hw p) rfl
  | program c p => exact advance_oneStep h (stepProgram_takes _ c hw p) rfl
  | erase c p => exact advance_oneStep h (stepErase_takes _ c hw p) rfl
  | unlock c p => exact advance_oneStep h (stepUnlock_takes _ c hw p) rfl
  | checksum c rp p =>
    by_cases hp : ∃ x y, p = .result x y
    · obtain ⟨x, y, rfl⟩ := hp
      rw [(advance_keeps h).2]
      exact .checksumResult rfl
    · exact advance_oneStep h (stepChecksum_takes c hw rp fun x y he => hp ⟨x, y, he⟩) rfl
  | statusResult st => cases h; exact .statusResult rfl
  | finish code => cases h; exact .finish rfl

/-- A step of the block leaves every byte alone but the one that its point names. -/
theorem State.OneStep.memRead {s : State} {h : Hw} (hs : s.OneStep h) {x : Ref}
    (hx : s.seq.leaf.storesTo s.hw.params.checksumIndex ≠ some x) : h.memRead x = s.hw.memRead x := by
  cases hs with
  | primitive hp => exact hp.memRead hx
  | _ => rfl

/-- Settles O51: the primitives one by one. -/
theorem blockStepIsOnePrimitive : Obligations.BlockStepIsOnePrimitive := by
  intro s t h
  have hone := blockStep_oneStep h
  refine ⟨(blockStep_extends h).1, fun x => hone.memRead, ?_⟩
  generalize t.hw = u at hone
  cases hone with
  | primitive hp =>
    generalize s.seq.leaf.storesTo s.hw.params.checksumIndex = target at hp
    cases target with
    | some r => cases hp with | store hw => exact ⟨_, hw⟩
    | none =>
      obtain ⟨hmem, hscr, hopb⟩ := hp.memories
      refine ⟨hmem, hscr, hopb, ?_⟩
      cases hp with
      | skip => exact .inl rfl
      | regRead => exact .inr (.inl rfl)
      | regWrite => exact .inr (.inr (.inl rfl))
      | flush => exact .inr (.inr (.inr (.inl rfl)))
      | delayUnit => exact .inr (.inr (.inr (.inr (.inl rfl))))
      | grantDelay => exact .inr (.inr (.inr (.inr (.inr (.inl rfl)))))
      | cancelPending => exact .inr (.inr (.inr (.inr (.inr (.inr (.inl rfl))))))
      | markCancelled => exact .inr (.inr (.inr (.inr (.inr (.inr (.inr (.inl rfl)))))))
      | lines v hv => exact .inr (.inr (.inr (.inr (.inr (.inr (.inr (.inr (.inl ⟨v, hv, rfl⟩))))))))
  | statusResult hq =>
    rw [hq]
    exact ⟨rfl, rfl, rfl, .inr (.inr (.inr (.inr (.inr (.inr (.inr (.inr (.inr (.inl ⟨_, rfl, rfl⟩)))))))))⟩
  | checksumResult hq =>
    rw [hq]
    exact ⟨rfl, rfl, rfl, .inr (.inr (.inr (.inr (.inr (.inr (.inr (.inr (.inr (.inr (.inl ⟨_, _, _, _, rfl, rfl⟩))))))))))⟩
  | finish hq =>
    rw [hq]
    exact ⟨rfl, rfl, rfl, .inr (.inr (.inr (.inr (.inr (.inr (.inr (.inr (.inr (.inr (.inr ⟨_, rfl, rfl⟩))))))))))⟩

/-! ### The host's registers -/

/-- The registers that only the host writes, and OVERRUN (10_state.md R13, R23). -/
theorem blockStep_hostRegisters {s t : State} (h : blockStep s = .next t) :
    t.hw.cmd = s.hw.cmd ∧ t.hw.offset = s.hw.offset ∧ t.hw.length = s.hw.length ∧ t.hw.src = s.hw.src ∧
      t.hw.dst = s.hw.dst ∧ t.hw.data = s.hw.data ∧ t.hw.devcfg = s.hw.devcfg ∧ t.hw.devsize = s.hw.devsize ∧
      t.hw.params = s.hw.params := by
  by_cases hf : ∃ code, s.seq = .finish code
  · obtain ⟨code, hf⟩ := hf
    rw [blockStep_finish hf] at h
    cases h
    exact ⟨rfl, rfl, rfl, rfl, rfl, rfl, rfl, rfl, rfl⟩
  · have same := blockStep_same h fun code hc => hf ⟨code, hc⟩
    exact ⟨same.cmd, same.offset, same.length, same.src, same.dst, same.data, same.devcfg, same.devsize, same.params⟩

/-- A step of the block that changes RDATA is a result step (10_state.md R18). -/
theorem blockStep_rdata {s t : State} (h : blockStep s = .next t) (hne : t.hw.rdata ≠ s.hw.rdata) :
    (∃ st, s.seq = .statusResult st) ∨ ∃ c rp x y, s.seq = .checksum c rp (.result x y) := by
  have hone := blockStep_oneStep h
  generalize t.hw = u at hone hne
  cases hone with
  | primitive hp => exact (hne hp.rdata).elim
  | statusResult hq => exact .inl ⟨_, hq⟩
  | checksumResult hq => exact .inr ⟨_, _, _, _, hq⟩
  | finish hq => exact (hne rfl).elim

/-- Settles O52: by what the block's one primitive can be; in IDLE it makes none. -/
theorem blockStepKeepsHostRegisters : Obligations.BlockStepKeepsHostRegisters := by
  intro s t h
  obtain ⟨hcmd, hoffset, hlength, hsrc, hdst, hdata, hdevcfg, hdevsize, hparams⟩ := blockStep_hostRegisters h
  refine ⟨hcmd, hoffset, hlength, hsrc, hdst, hdata, hdevcfg, hdevsize, hparams, blockStep_overrun h, blockStep_rdata h,
    fun hidle => ?_⟩
  simp only [blockStep, hidle] at h
  exact (Host.Outcome.next.inj h).symm

end Sys2Proof.Machine
end

section
/-! PROOFS. The frame of a command (10_state.md R18, R28; 20_memory.md R46, R47): `Hw.Writes` says which bytes of BUF and SCR a run
may have written and whether it may have written RDATA, with one lemma per procedure. -/

namespace Sys2Proof.Machine

/-- From s to t the bytes of BUF and SCR outside D read as before, and RDATA is unchanged but where rd holds. -/
structure Hw.Writes (D : Ref → Prop) (rd : Prop) (s t : Hw) : Prop where
  bytes : ∀ x : Ref, x.space ≠ .opb → ¬D x → t.memRead x = s.memRead x
  rdata : ¬rd → t.rdata = s.rdata

/-- The bytes of BUF or SCR that a transfer captures into are in D. -/
def XferArgs.CapturesIn (D : Ref → Prop) (a : XferArgs) : Prop :=
  ∀ r, a.dst = some r → r.space ≠ .opb → ∀ j < (a.n + 7) / 8, D (r.add j)

/-- The bytes of a page read's or a dump's buffer are in D. -/
def Span.BytesIn (D : Ref → Prop) (v : Span) : Prop := ∀ j < v.len, D (v.buf.add j)

section

variable {D : Ref → Prop} {rd : Prop} {c rp : Bool} {s t u : Hw} {r : SubOutcome} {fuel : Nat} {v : Span} {a : XferArgs}

namespace Hw.Writes

theorem of_memories (hmem : t.mem = s.mem) (hscr : t.scr = s.scr) (hrdata : t.rdata = s.rdata) : s.Writes D rd t :=
  ⟨fun _ hx _ => memRead_eq_of_ne_opb hmem hscr hx, fun _ => hrdata⟩

theorem refl (s : Hw) : s.Writes D rd s := .of_memories rfl rfl rfl

theorem trans (h : s.Writes D rd t) (h' : t.Writes D rd u) : s.Writes D rd u :=
  ⟨fun x hx hD => (h'.bytes x hx hD).trans (h.bytes x hx hD), fun hr => (h'.rdata hr).trans (h.rdata hr)⟩

theorem memWrite {x : Ref} {b : Byte} (h : s.memWrite x b = some t) (hx : x.space ≠ .opb → D x) : s.Writes D rd t where
  bytes _ hy hD := memRead_memWrite_ne h fun heq => hD (heq ▸ hx (heq.symm ▸ hy))
  rdata _ := memWrite_rdata h

theorem setRdata (hrd : rd) (w : Word) : s.Writes D rd (s.setRdata w) :=
  ⟨fun _ hx _ => memRead_eq_of_ne_opb rfl rfl hx, fun h => (h hrd).elim⟩

end Hw.Writes

/-! ### The primitives that leave the memories alone -/

theorem regRead_writes (s : Hw) : s.Writes D rd s.regRead := .of_memories rfl rfl rfl

theorem regWrite_writes (s : Hw) : s.Writes D rd s.regWrite := .of_memories rfl rfl rfl

theorem flush_writes (s : Hw) : s.Writes D rd s.flush := .of_memories rfl rfl rfl

theorem delay_writes (s : Hw) (us : Nat) : s.Writes D rd (s.delay us) := .of_memories rfl rfl rfl

theorem delayUnit_writes (s : Hw) : s.Writes D rd s.delayUnit := .of_memories rfl rfl rfl

theorem setLs_writes (s : Hw) (m : Word) : s.Writes D rd (s.setLs m) := .of_memories rfl rfl rfl

theorem clearLs_writes (s : Hw) (m : Word) : s.Writes D rd (s.clearLs m) := .of_memories rfl rfl rfl

theorem deselectLs_writes (s : Hw) : s.Writes D rd (deselectLs s) := .of_memories rfl rfl rfl

theorem cancelPending_writes (s : Hw) : s.Writes D rd s.cancelPending := .of_memories rfl rfl rfl

theorem markCancelled_writes (s : Hw) : s.Writes D rd s.markCancelled := .of_memories rfl rfl rfl

theorem setOpb0_writes (s : Hw) (b : Byte) : s.Writes D rd (s.setOpb0 b) := .of_memories rfl rfl rfl

theorem setOpb1_writes (s : Hw) (b : Byte) : s.Writes D rd (s.setOpb1 b) := .of_memories rfl rfl rfl

theorem putHeader_writes (op : Byte) (off : Half) (s : Hw) : s.Writes D rd (putHeader op off s) := .of_memories rfl rfl rfl

theorem runDrive_writes (s : Hw) : s.Writes D rd (runDrive s) :=
  ((regWrite_writes s).trans (flush_writes _)).trans (delayUnit_writes _)

theorem runRaise_writes (s : Hw) : s.Writes D rd (runRaise s) := (setLs_writes s _).trans (runDrive_writes _)

theorem runLower_writes (s : Hw) : s.Writes D rd (runLower s) := (clearLs_writes s _).trans (runDrive_writes _)

/-! ### Xfer -/

theorem captureBit_writes {i : Nat} (ha : a.CapturesIn D) (hi : i < a.n) (h : captureBit a i s = some t) :
    s.Writes D rd t := by
  simp only [captureBit] at h
  split at h
  · next q hq =>
    obtain ⟨b, -, h⟩ := Option.bind_eq_some_iff.mp h
    exact .memWrite h fun hspace => ha q hq hspace _ (by omega)
  · cases h
    exact .refl s

theorem putSi_writes (b : Bool) (s : Hw) : s.Writes D rd (putSi b s) := by
  cases b
  · exact clearLs_writes s _
  · exact setLs_writes s _

theorem runBit_writes {i : Nat} (ha : a.CapturesIn D) (hi : i < a.n) (h : runBit a i s = some t) : s.Writes D rd t := by
  simp only [runBit, Option.bind_eq_some_iff, Option.map_eq_some_iff] at h
  obtain ⟨b, -, u, hcapture, rfl⟩ := h
  have hsetup := (putSi_writes (D := D) (rd := rd) b s).trans (runDrive_writes _)
  have hsample := (hsetup.trans (runRaise_writes _)).trans (regRead_writes _)
  exact (hsample.trans (captureBit_writes ha hi hcapture)).trans (runLower_writes u)

theorem runTail_writes (ha : a.CapturesIn D) (h : runTail a s = some t) : s.Writes D rd t := by
  simp only [runTail] at h
  split at h
  · next q hq =>
    split at h
    · obtain ⟨b, -, h⟩ := Option.bind_eq_some_iff.mp h
      exact .memWrite h fun hspace => ha q hq hspace _ (by omega)
    · cases h
      exact .refl s
  · cases h
    exact .refl s

theorem runBits_writes {left : Nat} (ha : a.CapturesIn D) (hn : left ≤ a.n) (h : runBits a left s = some (t, r)) :
    s.Writes D rd t := by
  induction left generalizing s with
  | zero =>
    simp only [runBits, Option.map_eq_some_iff, Prod.mk.injEq] at h
    obtain ⟨u, htail, rfl, -⟩ := h
    exact runTail_writes ha htail
  | succ left ih =>
    have body : ∀ {s : Hw}, (runBit a (a.n - (left + 1)) s).bind (runBits a left) = some (t, r) →
        s.Writes D rd t := fun {s} hbody => by
      obtain ⟨u, hbit, hrest⟩ := Option.bind_eq_some_iff.mp hbody
      exact (runBit_writes ha (by omega) hbit).trans (ih (by omega) hrest)
    rw [runBits] at h
    split at h
    · split at h
      · cases h
        exact (cancelPending_writes s).trans (markCancelled_writes _)
      · exact (cancelPending_writes s).trans (body h)
    · exact body h

theorem runXfer_writes (ha : a.CapturesIn D) (h : runXfer a s = some (t, r)) : s.Writes D rd t :=
  (regRead_writes s).trans (runBits_writes ha (Nat.le_refl _) h)

theorem opcodeArgs_capturesIn (n : Nat) (c : Bool) : (opcodeArgs n c).CapturesIn D := nofun

theorem payloadOut_capturesIn (v : Span) (c : Bool) : (payloadOut v c).CapturesIn D := nofun

theorem statusArgs_capturesIn (c : Bool) : (statusArgs c).CapturesIn D := fun q hq hspace => by
  cases hq
  exact (hspace rfl).elim

theorem payloadIn_capturesIn (hv : v.BytesIn D) (c : Bool) : (payloadIn v c).CapturesIn D := fun q hq _ j hj => by
  cases hq
  exact hv j (by simp only [payloadIn] at hj; omega)

/-! ### The arbiter and the FLASH commands -/

theorem runPoll_writes (n : Nat) (s : Hw) : s.Writes D rd (runPoll n s) := by
  induction n generalizing s with
  | zero => exact .refl s
  | succ n ih =>
    rw [runPoll]
    split
    · exact .refl s
    · exact ((delay_writes s _).trans (regRead_writes _)).trans (ih _)

theorem runGrant_writes (s : Hw) : s.Writes D rd (runGrant s).1 := by
  rw [runGrant]
  split
  · exact ((clearLs_writes s _).trans (regWrite_writes _)).trans (delayUnit_writes _)
  · exact (clearLs_writes s _).trans (regWrite_writes _)

theorem runAcquire_writes (s : Hw) : s.Writes D rd (runAcquire s).1 := by
  rw [runAcquire]
  split
  · have hrequest := (((regRead_writes (D := D) (rd := rd) s).trans (setLs_writes _ (bitMask s.params.bitReq))).trans
      (regWrite_writes _)).trans (regRead_writes _)
    exact (hrequest.trans (runPoll_writes _ _)).trans (runGrant_writes _)
  · exact .refl s

theorem runRelease_writes (s : Hw) : s.Writes D rd (runRelease s) := by
  rw [runRelease]
  split
  · have hdeselect := (((regRead_writes (D := D) (rd := rd) s).trans (deselectLs_writes _)).trans (regWrite_writes _)).trans
      (delayUnit_writes _)
    exact (hdeselect.trans (clearLs_writes _ _)).trans (regWrite_writes _)
  · exact .refl s

theorem runStandby_writes (s : Hw) : s.Writes D rd (runStandby s) := by
  rw [runStandby]
  split
  · have hhigh := ((regRead_writes (D := D) (rd := rd) s).trans (setLs_writes _ (bitMask s.params.bitCen))).trans
      (runDrive_writes _)
    exact (hhigh.trans (clearLs_writes _ _)).trans (runDrive_writes _)
  · exact .refl s

theorem runEnableWrite_writes (h : runEnableWrite c s = some (t, r)) : s.Writes D rd t :=
  ((runStandby_writes s).trans (setOpb0_writes _ _)).trans (runXfer_writes (opcodeArgs_capturesIn 8 c) h)

theorem runStatusFrame_writes {st : Byte} (h : runStatusFrame st c s = some (t, r)) : s.Writes D rd t :=
  (((runStandby_writes s).trans (setOpb0_writes _ _)).trans (setOpb1_writes _ _)).trans
    (runXfer_writes (opcodeArgs_capturesIn 16 c) h)

theorem runWriteStatus_writes {st : Byte} (h : runWriteStatus st c s = some (t, r)) : s.Writes D rd t := by
  simp only [runWriteStatus, Option.bind_eq_some_iff, Prod.exists] at h
  obtain ⟨u, r', henable, h⟩ := h
  have hwrites := runEnableWrite_writes (D := D) (rd := rd) henable
  split at h
  · exact hwrites.trans (runStatusFrame_writes h)
  · cases h
    exact hwrites

theorem runClearBp_writes (h : runClearBp c s = some (t, r)) : s.Writes D rd t := runWriteStatus_writes h

theorem runReadStatus_writes {x : StatusOutcome} (h : runReadStatus c s = some (t, x)) : s.Writes D rd t := by
  simp only [runReadStatus, Option.map_eq_some_iff, Prod.mk.injEq, Prod.exists] at h
  obtain ⟨t, r, hxfer, rfl, -⟩ := h
  exact (((runStandby_writes s).trans (setOpb0_writes _ _)).trans (setOpb1_writes _ _)).trans
    (runXfer_writes (statusArgs_capturesIn c) hxfer)

theorem runPage_writes {op : Byte} {off : Half} {pay : XferArgs} (hpay : pay.CapturesIn D)
    (h : runPage op off pay c s = some (t, r)) : s.Writes D rd t := by
  simp only [runPage, Option.bind_eq_some_iff, Prod.exists] at h
  obtain ⟨u, r', hheader, h⟩ := h
  have hwrites := ((runStandby_writes s).trans (putHeader_writes op off _)).trans
    (runXfer_writes (D := D) (rd := rd) (opcodeArgs_capturesIn 32 c) hheader)
  split at h
  · exact hwrites.trans (runXfer_writes hpay h)
  · cases h
    exact hwrites

theorem runWritePage_writes (h : runWritePage v c s = some (t, r)) : s.Writes D rd t :=
  runPage_writes (payloadOut_capturesIn v c) h

theorem runReadPage_writes (hv : v.BytesIn D) (h : runReadPage v c s = some (t, r)) : s.Writes D rd t :=
  runPage_writes (payloadIn_capturesIn hv c) h

theorem runPollReady_writes {x : StatusOutcome} (h : runPollReady fuel c s = some (t, x)) : s.Writes D rd t := by
  induction fuel generalizing s with
  | zero => cases h
  | succ fuel ih =>
    simp only [runPollReady, Option.bind_eq_some_iff, Prod.exists] at h
    obtain ⟨u, y, hread, h⟩ := h
    have hwrites := runReadStatus_writes (D := D) (rd := rd) hread
    split at h
    · split at h
      · exact hwrites.trans (ih h)
      · cases h
        exact hwrites
    · cases h
      exact hwrites

/-! ### Dump and Program -/

theorem Span.BytesIn.page (hv : v.BytesIn D) (ps : Nat) : (dumpPage ps v).BytesIn D := fun j hj =>
  hv j (Nat.lt_of_lt_of_le hj (Nat.min_le_right _ _))

theorem Span.BytesIn.advance (hv : v.BytesIn D) (k : Nat) : (v.advance k).BytesIn D := fun j hj => by
  simp only [Span.advance] at hj ⊢
  rw [Ref.add_add]
  exact hv _ (by omega)

theorem runDumpLoop_writes {rounds : Nat} (hv : v.BytesIn D) (h : runDumpLoop c rounds v s = some (t, r)) :
    s.Writes D rd t := by
  induction rounds generalizing v s with
  | zero =>
    rw [runDumpLoop] at h
    split at h
    · cases h
      exact .refl _
    · cases h
  | succ rounds ih =>
    rw [runDumpLoop] at h
    split at h
    · cases h
      exact .refl _
    · simp only [Option.bind_eq_some_iff, Prod.exists] at h
      obtain ⟨u, r', hpage, h⟩ := h
      have hwrites := runReadPage_writes (rd := rd) (hv.page _) hpage
      split at h
      · exact hwrites.trans (ih (hv.advance _) h)
      · cases h
        exact hwrites

theorem runDump_writes (hv : v.BytesIn D) (h : runDump fuel c v s = some (t, r)) : s.Writes D rd t := by
  simp only [runDump, Option.bind_eq_some_iff, Prod.exists] at h
  obtain ⟨u, x, hpoll, h⟩ := h
  have hwrites := runPollReady_writes (D := D) (rd := rd) hpoll
  split at h
  · exact hwrites.trans (runDumpLoop_writes hv h)
  · cases h
    exact hwrites

theorem runProgramByte_writes (h : runProgramByte fuel c v s = some (t, r)) : s.Writes D rd t := by
  simp only [runProgramByte, Option.bind_eq_some_iff, Prod.exists] at h
  obtain ⟨u, x, hpoll, h⟩ := h
  have hwrites := runPollReady_writes (D := D) (rd := rd) hpoll
  split at h
  · simp only [Option.bind_eq_some_iff, Prod.exists] at h
    obtain ⟨u', r', henable, h⟩ := h
    have henabled := hwrites.trans (runEnableWrite_writes henable)
    split at h
    · exact henabled.trans (runWritePage_writes h)
    · cases h
      exact henabled
  · cases h
    exact hwrites

theorem runProgramLoop_writes {left : Nat} (h : runProgramLoop fuel c left v s = some (t, r)) : s.Writes D rd t := by
  induction left generalizing v s with
  | zero =>
    simp only [runProgramLoop, Option.map_eq_some_iff, Prod.mk.injEq, Prod.exists] at h
    obtain ⟨t, x, hpoll, rfl, -⟩ := h
    exact runPollReady_writes hpoll
  | succ left ih =>
    simp only [runProgramLoop, Option.bind_eq_some_iff, Prod.exists] at h
    obtain ⟨u, r', hbyte, h⟩ := h
    have hwrites := runProgramByte_writes (D := D) (rd := rd) hbyte
    split at h
    · exact hwrites.trans (ih h)
    · cases h
      exact hwrites

theorem runProgram_writes (h : runProgram fuel c v s = some (t, r)) : s.Writes D rd t := by
  simp only [runProgram, Option.bind_eq_some_iff, Prod.exists] at h
  obtain ⟨u, r', hclear, h⟩ := h
  have hwrites := runClearBp_writes (D := D) (rd := rd) hclear
  split at h
  · exact hwrites.trans (runProgramLoop_writes h)
  · cases h
    exact hwrites.trans (runRelease_writes u)

/-! ### The commands with a session -/

theorem runEraseFrame_writes (h : runEraseFrame c s = some (t, r)) : s.Writes D rd t := by
  simp only [runEraseFrame, Option.map_eq_some_iff, Prod.exists] at h
  obtain ⟨u, r', hxfer, h⟩ := h
  have hwrites := ((runStandby_writes s).trans (setOpb0_writes _ _)).trans
    (runXfer_writes (D := D) (rd := rd) (opcodeArgs_capturesIn 8 c) hxfer)
  split at h <;> cases h <;> exact hwrites.trans (runRelease_writes u)

theorem runEraseBody_writes (h : runEraseBody c s = some (t, r)) : s.Writes D rd t := by
  simp only [runEraseBody, Option.bind_eq_some_iff, Prod.exists] at h
  obtain ⟨u, r', hclear, h⟩ := h
  have hwrites := runClearBp_writes (D := D) (rd := rd) hclear
  split at h
  · simp only [Option.bind_eq_some_iff, Prod.exists] at h
    obtain ⟨u', r'', henable, h⟩ := h
    have henabled := hwrites.trans (runEnableWrite_writes henable)
    split at h
    · exact henabled.trans (runEraseFrame_writes h)
    · cases h
      exact henabled.trans (runRelease_writes u')
  · cases h
    exact hwrites.trans (runRelease_writes u)

theorem runErase_writes (h : runErase c s = some (t, r)) : s.Writes D rd t := by
  have hacquire := runAcquire_writes (D := D) (rd := rd) s
  rw [runErase] at h
  split at h
  · exact (hacquire.trans (runStandby_writes _)).trans (runEraseBody_writes h)
  · cases h
    exact hacquire

theorem runUnlock_writes (h : runUnlock c s = some (t, r)) : s.Writes D rd t := by
  have hacquire := runAcquire_writes (D := D) (rd := rd) s
  rw [runUnlock] at h
  split at h
  · simp only [Option.map_eq_some_iff, Prod.exists] at h
    obtain ⟨u, r', hclear, h⟩ := h
    have hwrites := (hacquire.trans (runStandby_writes _)).trans (runClearBp_writes hclear)
    split at h <;> cases h <;> exact hwrites.trans (runRelease_writes u)
  · cases h
    exact hacquire

section

variable {code : RCode} (hD : ∀ x : Ref, x.space = .scr → D x)

include hD

/-- CHECKSUM's repair stores to SCR alone (43_flash_ops.md R84). -/
theorem runRepair_writes {x : ChecksumResult} (h : runRepair fuel c x s = some (t, code)) : s.Writes D rd t := by
  simp only [runRepair, Option.bind_eq_some_iff, Option.map_eq_some_iff, Prod.exists] at h
  obtain ⟨s1, hlow, s2, hhigh, u, r, hprogram, h⟩ := h
  have hstores : s.Writes D rd s2 := (Hw.Writes.memWrite hlow fun _ => hD _ rfl).trans (.memWrite hhigh fun _ => hD _ rfl)
  have hwrites := hstores.trans (runProgram_writes hprogram)
  split at h <;> cases h
  · exact hwrites.trans (runRelease_writes u)
  · exact hwrites
  · exact hwrites.trans (runRelease_writes u)

theorem runCompare_writes (hrd : rd) (h : runCompare fuel c rp s = some (t, code)) : s.Writes D rd t := by
  simp only [runCompare, Option.bind_eq_some_iff] at h
  obtain ⟨x, -, h⟩ := h
  have hset : s.Writes D rd (s.setRdata (checksumData x)) := .setRdata hrd _
  refine hset.trans ?_
  split at h
  · cases h
    exact runRelease_writes _
  · split at h
    · exact runRepair_writes hD h
    · cases h
      exact runRelease_writes _

theorem runChecksum_writes (hrd : rd) (h : runChecksum fuel c rp s = some (t, code)) : s.Writes D rd t := by
  have hacquire := runAcquire_writes (D := D) (rd := rd) s
  rw [runChecksum] at h
  split at h
  · simp only [Option.bind_eq_some_iff, Prod.exists] at h
    obtain ⟨u, r, hdump, h⟩ := h
    have hwrites := hacquire.trans (runDump_writes (fun j _ => hD _ rfl) hdump)
    split at h
    · exact hwrites.trans (runCompare_writes hD hrd h)
    · cases h
      exact hwrites.trans (runRelease_writes u)
  · cases h
    exact hacquire

end

end

/-! ### Every command -/

/-- The bytes of BUF and SCR that a command with the latch l may store to (10_state.md R28; 20_memory.md R46). -/
def CommandStores (i : Instr) (l : Latch) (x : Ref) : Prop :=
  (x.space = .scr ∧ i.usesScr = true) ∨ (x.space = .buf ∧ i.storesTo l x.addr)

theorem transferArgs_capturesIn (l : Latch) (c sf df : Bool) :
    (transferArgs l c sf df).CapturesIn (CommandStores (.transfer c sf df) l) := fun q hq _ j hj => by
  cases df with
  | false => cases hq
  | true =>
    cases hq
    exact .inr ⟨rfl, j, hj, rfl⟩

theorem readPage_bytesIn (l : Latch) (c : Bool) : (destSpan l).BytesIn (CommandStores (.readPage c) l) := fun j hj =>
  .inr ⟨rfl, j, hj, rfl⟩

theorem dump_bytesIn (l : Latch) (c : Bool) : (destSpan l).BytesIn (CommandStores (.dump c) l) := fun j hj =>
  .inr ⟨rfl, j, hj, rfl⟩

section

variable {D : Ref → Prop} {rd : Prop} {s t : Hw} {code : RCode}

/-- A command that runs one procedure. -/
theorem writes_of_map {ρ : Type} {run : Option (Hw × ρ)} {g : ρ → RCode} (hr : (run.map fun x => (x.1, g x.2)) = some (t, code))
    (hrun : ∀ r, run = some (t, r) → s.Writes D rd t) : s.Writes D rd t := by
  obtain ⟨r, hr, -⟩ := exists_of_map hr
  exact hrun r hr

/-- A command with an operand check (30_encoding.md R54). -/
theorem writes_of_checked {run : Option (Hw × RCode)} (hr : checked s run = some (t, code))
    (hrun : run = some (t, code) → s.Writes D rd t) : s.Writes D rd t := by
  obtain ⟨-, hr⟩ | ⟨-, rfl, -⟩ := checked_cases hr
  · exact hrun hr
  · exact .refl t

theorem writes_of_statusEnding {run : Option (Hw × StatusOutcome)} (hrd : rd) (hr : run.map statusEnding = some (t, code))
    (hrun : ∀ u x, run = some (u, x) → s.Writes D rd u) : s.Writes D rd t := by
  obtain ⟨⟨u, x⟩, hu, hend⟩ := Option.map_eq_some_iff.mp hr
  cases x with
  | ok st =>
    cases hend
    exact (hrun u _ hu).trans (.setRdata hrd _)
  | cancelled =>
    cases hend
    exact hrun u _ hu

end

theorem runCommand_writes {fuel : Nat} {i : Instr} {s t : Hw} {code : RCode} (h : runCommand fuel i s = some (t, code)) :
    s.Writes (CommandStores i s.latch) (i.writesRdata = true) t := by
  cases i with
  | transfer c sf df => exact writes_of_map h fun _ => runXfer_writes (transferArgs_capturesIn s.latch c sf df)
  | acquire => cases h; exact runAcquire_writes s
  | release => cases h; exact runRelease_writes s
  | standby => cases h; exact runStandby_writes s
  | enableWrite c => exact writes_of_map h fun _ => runEnableWrite_writes
  | writeStatus c => exact writes_of_map h fun _ => runWriteStatus_writes
  | readStatus c => exact writes_of_statusEnding rfl h fun _ _ => runReadStatus_writes
  | writePage c => exact writes_of_checked h fun h => writes_of_map h fun _ => runWritePage_writes
  | readPage c => exact writes_of_checked h fun h => writes_of_map h fun _ => runReadPage_writes (readPage_bytesIn s.latch c)
  | pollReady c => exact writes_of_statusEnding rfl h fun _ _ => runPollReady_writes
  | clearBp c => exact writes_of_map h fun _ => runClearBp_writes
  | dump c => exact writes_of_checked h fun h => writes_of_map h fun _ => runDump_writes (dump_bytesIn s.latch c)
  | program c => exact writes_of_checked h fun h => writes_of_map h fun _ => runProgram_writes
  | erase c => exact writes_of_map h fun _ => runErase_writes
  | unlock c => exact writes_of_map h fun _ => runUnlock_writes
  | checksum c rp => exact runChecksum_writes (fun _ hx => .inl ⟨hx, rfl⟩) rfl h

theorem afterCut_same (i : Instr) (code : RCode) (u : Hw) : u.SameRegs (afterCut i code u) := by
  rw [afterCut]
  split
  · exact runRelease_same u
  · exact .refl u

theorem Hw.Concludes.same {i : Instr} {s t : Hw} {code : RCode} (h : s.Concludes i t code) : s.SameRegs t := by
  cases h with
  | done _ _ _ hclean => exact hclean.same
  | timedOut _ _ hh _ => exact hh ▸ runAcquire_same s
  | stopped _ hh hcut => exact hh ▸ hcut.same.trans (afterCut_same i code _)

/-- SCR is as before where every byte of it reads as before. -/
theorem scr_eq_of_memRead {s t : Hw} (hs : s.Sound) (hlen : t.scr.length = s.scr.length)
    (h : ∀ x : Ref, x.space = .scr → t.memRead x = s.memRead x) : t.scr = s.scr := by
  refine List.ext_getElem? fun a => ?_
  have hle := Params.index_le hs.params
  have hsize := hs.scr
  by_cases ha : a < s.scr.length
  · have hbyte := h (scrRef a) rfl
    rwa [memRead_scr t (by omega), memRead_scr s (by omega)] at hbyte
  · rw [List.getElem?_eq_none (by omega), List.getElem?_eq_none (by omega)]

/-- BUF reads as before where the byte does. -/
theorem mem_read_of_memRead {s t : Hw} {x : Word} (h : t.memRead (bufRef x) = s.memRead (bufRef x)) :
    t.mem.read x.toNat = s.mem.read x.toNat := Option.some.inj h

/-- States that finish alike differ in BUSY and RCODE alone, which `finish` writes (60_exceptions.md R93). -/
theorem eq_of_finish_eq {s : State} {h h' : Hw} {code : RCode}
    (heq : State.finish { s with hw := h } code = State.finish { s with hw := h' } code) :
    h = { h' with status := { h'.status with busy := h.status.busy, rcode := h.status.rcode } } := by
  have hhw := congrArg (fun u : State =>
    { u.hw with status := { u.hw.status with busy := h.status.busy, rcode := h.status.rcode } }) heq
  exact hhw

/-- Settles O53: a run writes only what `Hw.Writes` says, and `finish` none of it. -/
theorem commandFrame : Obligations.CommandFrame := by
  intro i s h code hs hsound hc
  obtain ⟨fuel, t, hrun, heq⟩ := runsPseudocode_of_commandEnds hs hsound hc
  have same := (runCommand_concludes hrun).same
  have hwrites := runCommand_writes hrun
  obtain ⟨ev, hends⟩ := (runCommand_concludes hrun).endsBy
  rw [eq_of_finish_eq heq]
  refine ⟨same.cmd, same.offset, same.length, same.src, same.dst, same.data, same.devcfg, same.devsize, same.latch,
    same.params, same.overrun, fun hr => hwrites.rdata (Bool.eq_false_iff.mp hr), fun hscr => ?_, fun x hx => ?_, ev,
    hends.trace⟩
  · refine scr_eq_of_memRead (t := t) hsound same.scrLength fun x hx => hwrites.bytes x (by rw [hx]; nofun) ?_
    rintro (⟨-, huses⟩ | ⟨hbuf, -⟩)
    · rw [hscr] at huses
      cases huses
    · cases hx.symm.trans hbuf
  · refine mem_read_of_memRead (t := t) (hwrites.bytes (bufRef x) nofun ?_)
    rintro (⟨hspace, -⟩ | ⟨-, hstores⟩)
    · cases hspace
    · exact hx hstores

end Sys2Proof.Machine
end

section
/-! PROOFS. LS and OPB are scratch (10_state.md R25, R27): every RegWrite follows a RegRead of the same procedure, and every frame
first assigns the bytes of OPB that it shifts out. `Hw.Alike` relates two states that differ in scratch alone, `Hw.SameRun` two runs
that end alike, and each procedure takes the one to the other. -/

namespace Sys2Proof.Machine

/-! ### Related options -/

section

variable {α β γ δ : Type} {R S : α → β → Prop} {T : γ → δ → Prop} {x : Option α} {y : Option β}

theorem rel_bind {f : α → Option γ} {g : β → Option δ} (h : Option.Rel R x y)
    (hk : ∀ a b, R a b → Option.Rel T (f a) (g b)) : Option.Rel T (x.bind f) (y.bind g) := by
  cases h with
  | some h => exact hk _ _ h
  | none => exact .none

theorem rel_map {f : α → γ} {g : β → δ} (h : Option.Rel R x y) (hk : ∀ a b, R a b → T (f a) (g b)) :
    Option.Rel T (x.map f) (y.map g) := by
  cases h with
  | some h => exact .some (hk _ _ h)
  | none => exact .none

theorem rel_mono (h : Option.Rel R x y) (hk : ∀ a b, R a b → S a b) : Option.Rel S x y := by
  cases h with
  | some h => exact .some (hk _ _ h)
  | none => exact .none

end

/-! ### States alike -/

/-- t is s but for LS, where it is not live, and the bytes of OPB from index n on. -/
inductive Hw.Alike (live : Prop) (n : Nat) (s : Hw) : Hw → Prop where
  | mk (ls : Word) (opb : Opb) (hls : live → ls = s.ls) (hopb : ∀ i < n, opb.get i = s.opb.get i) :
      Alike live n s { s with ls := ls, opb := opb }

/-- Two ends of a procedure: states alike, with the same outcome. -/
inductive Hw.AlikeEnd {ρ : Type} (live : Prop) (n : Nat) : Hw × ρ → Hw × ρ → Prop where
  | mk {s t : Hw} (h : s.Alike live n t) (r : ρ) : AlikeEnd live n (s, r) (t, r)

/-- Two runs that end with the same outcome in states that differ in scratch alone, or both do not end. -/
abbrev Hw.SameRun {ρ : Type} (x y : Option (Hw × ρ)) : Prop := Option.Rel (Hw.AlikeEnd False 0) x y

/-- The step f does not depend on OPB, and leaves it alone. -/
def KeepsOpb (f : Hw → Hw) : Prop := ∀ s o, f { s with opb := o } = { f s with opb := o }

/-- A reference to OPB is to one of its first n bytes. -/
def Ref.Known (n : Nat) (r : Ref) : Prop := r.space = .opb → r.addr.toNat < n

/-- The bytes of a transfer's buffers are known. -/
def XferArgs.Known (n : Nat) (a : XferArgs) : Prop :=
  ∀ r, a.src = some r ∨ a.dst = some r → ∀ j < (a.n + 7) / 8, (r.add j).Known n

/-- Bytes of OPB that agree still agree after the same store to both, and then so does the byte stored. -/
theorem opb_get_eq_of_set {o p o' p' : Opb} {v : Byte} {n k i : Nat} (h : ∀ i < n, p.get i = o.get i)
    (ho : o.set v k = some o') (hp : p.set v k = some p') (hi : i < n ∨ k = i) : p'.get i = o'.get i := by
  by_cases hik : k = i
  · subst hik
    rw [Opb.get_set ho, Opb.get_set hp]
  · rw [Opb.get_set_ne ho hik, Opb.get_set_ne hp hik]
    exact h i (hi.resolve_right hik)

section

variable {live : Prop} {n : Nat} {s t : Hw}

namespace Hw.Alike

theorem params (h : s.Alike live n t) : t.params = s.params := by cases h; rfl

theorem latch (h : s.Alike live n t) : t.latch = s.latch := by cases h; rfl

theorem drop (h : s.Alike live n t) : s.Alike False 0 t := by
  cases h with
  | mk ls opb hls hopb => exact .mk ls opb nofun nofun

theorem regRead (h : s.Alike live n t) : s.regRead.Alike True n t.regRead := by
  cases h with
  | mk ls opb hls hopb => exact .mk (s := s.regRead) _ opb (fun _ => rfl) hopb

/-- While LS is live, every step that leaves OPB alone keeps the states alike. -/
theorem keeps {f : Hw → Hw} (hf : KeepsOpb f) (h : s.Alike True n t) : (f s).Alike True n (f t) := by
  cases h with
  | mk ls opb hls hopb =>
    cases hls trivial
    have hopb' : (f s).opb = s.opb := by
      have hkept := congrArg Hw.opb (hf s s.opb)
      exact hkept
    have heq : f { s with ls := s.ls, opb := opb } = { f s with ls := (f s).ls, opb := opb } := hf s opb
    rw [heq]
    exact .mk _ _ (fun _ => rfl) (hopb' ▸ hopb)

theorem setRdata (h : s.Alike live n t) (w : Word) : (s.setRdata w).Alike live n (t.setRdata w) := by
  cases h with
  | mk ls opb hls hopb => exact .mk (s := s.setRdata w) ls opb hls hopb

theorem setOpb0 (h : s.Alike live 0 t) (v : Byte) : (s.setOpb0 v).Alike live 1 (t.setOpb0 v) := by
  cases h with
  | mk ls opb hls hopb => exact .mk (s := s.setOpb0 v) ls _ hls fun _ hi => opb_get_eq_of_set (k := 0) hopb rfl rfl (by omega)

theorem setOpb1 (h : s.Alike live 1 t) (v : Byte) : (s.setOpb1 v).Alike live 2 (t.setOpb1 v) := by
  cases h with
  | mk ls opb hls hopb => exact .mk (s := s.setOpb1 v) ls _ hls fun _ hi => opb_get_eq_of_set (k := 1) hopb rfl rfl (by omega)

theorem setOpb2 (h : s.Alike live 2 t) (v : Byte) : (s.setOpb2 v).Alike live 3 (t.setOpb2 v) := by
  cases h with
  | mk ls opb hls hopb => exact .mk (s := s.setOpb2 v) ls _ hls fun _ hi => opb_get_eq_of_set (k := 2) hopb rfl rfl (by omega)

theorem setOpb3 (h : s.Alike live 3 t) (v : Byte) : (s.setOpb3 v).Alike live 4 (t.setOpb3 v) := by
  cases h with
  | mk ls opb hls hopb => exact .mk (s := s.setOpb3 v) ls _ hls fun _ hi => opb_get_eq_of_set (k := 3) hopb rfl rfl (by omega)

theorem memRead (h : s.Alike live n t) {r : Ref} (hr : r.Known n) : t.memRead r = s.memRead r := by
  cases h with
  | mk ls opb hls hopb =>
    obtain ⟨space, addr⟩ := r
    cases space with
    | buf | scr => rfl
    | opb => exact hopb _ (hr rfl)

end Hw.Alike

/-- Two stores to the same byte of OPB. -/
theorem opb_set_rel {o p : Opb} (h : ∀ i < n, p.get i = o.get i) (v : Byte) (k : Nat) :
    Option.Rel (fun o' p' : Opb => ∀ i < n, p'.get i = o'.get i) (o.set v k) (p.set v k) := by
  have agree : ∀ {o' p' : Opb}, o.set v k = some o' → p.set v k = some p' → ∀ i < n, p'.get i = o'.get i :=
    fun ho hp _ hi => opb_get_eq_of_set h ho hp (.inl hi)
  rcases k with _ | _ | _ | _ | k
  · exact .some (agree rfl rfl)
  · exact .some (agree rfl rfl)
  · exact .some (agree rfl rfl)
  · exact .some (agree rfl rfl)
  · exact .none

theorem memWrite_alike (h : s.Alike live n t) (r : Ref) (v : Byte) :
    Option.Rel (Hw.Alike live n) (s.memWrite r v) (t.memWrite r v) := by
  cases h with
  | mk ls opb hls hopb =>
    obtain ⟨space, addr⟩ := r
    cases space with
    | buf => exact .some (.mk (s := { s with mem := s.mem.write addr.toNat v }) ls opb hls hopb)
    | scr =>
      simp only [Hw.memWrite]
      split
      · exact .some (.mk (s := { s with scr := s.scr.set addr.toNat v }) ls opb hls hopb)
      · exact .none
    | opb =>
      have hset := opb_set_rel hopb v addr.toNat
      simp only [Hw.memWrite]
      generalize s.opb.set v addr.toNat = x at hset
      generalize opb.set v addr.toNat = y at hset
      cases hset with
      | some hagree => exact .some (.mk (s := { s with opb := _ }) ls _ hls hagree)
      | none => exact .none

/-! ### Xfer -/

theorem runDrive_keepsOpb : KeepsOpb runDrive := fun _ _ => rfl

theorem setLs_keepsOpb (m : Word) : KeepsOpb fun s => s.setLs m := fun _ _ => rfl

theorem clearLs_keepsOpb (m : Word) : KeepsOpb fun s => s.clearLs m := fun _ _ => rfl

theorem runRaise_keepsOpb : KeepsOpb runRaise := fun _ _ => rfl

theorem runLower_keepsOpb : KeepsOpb runLower := fun _ _ => rfl

theorem putSi_keepsOpb (b : Bool) : KeepsOpb (putSi b) := by
  cases b <;> exact fun _ _ => rfl

variable {a : XferArgs} {i : Nat}

theorem XferArgs.Known.bit (ha : a.Known n) {r : Ref} (hr : a.src = some r ∨ a.dst = some r) (hi : i < a.n) :
    (bitByte r i).Known n := ha r hr _ (by omega)

theorem sourceBit_alike (ha : a.Known n) (hi : i < a.n) (h : s.Alike live n t) : sourceBit a i t = sourceBit a i s := by
  simp only [sourceBit]
  split
  · next r hr => rw [h.memRead (ha.bit (.inl hr) hi)]
  · rfl

theorem captureBit_alike (ha : a.Known n) (hi : i < a.n) (h : s.Alike True n t) :
    Option.Rel (Hw.Alike True n) (captureBit a i s) (captureBit a i t) := by
  have hsample : t.sampledBit = s.sampledBit := by
    cases h with
    | mk ls opb hls hopb => cases hls trivial; rfl
  simp only [captureBit]
  split
  · next r hr =>
    rw [h.memRead (ha.bit (.inr hr) hi), hsample]
    cases s.memRead (bitByte r i) with
    | some v => exact memWrite_alike h _ _
    | none => exact .none
  · exact .some h

theorem runBit_alike (ha : a.Known n) (hi : i < a.n) (h : s.Alike True n t) :
    Option.Rel (Hw.Alike True n) (runBit a i s) (runBit a i t) := by
  simp only [runBit]
  rw [sourceBit_alike ha hi h]
  cases sourceBit a i s with
  | some b =>
    have hraised := ((h.keeps (putSi_keepsOpb b)).keeps runDrive_keepsOpb).keeps runRaise_keepsOpb
    exact rel_map (captureBit_alike ha hi hraised.regRead) fun _ _ hab => hab.keeps runLower_keepsOpb
  | none => exact .none

theorem runTail_alike (ha : a.Known n) (h : s.Alike True n t) :
    Option.Rel (Hw.Alike True n) (runTail a s) (runTail a t) := by
  simp only [runTail]
  split
  · next r hr =>
    split
    · rw [h.memRead (ha r (.inr hr) _ (by omega))]
      cases s.memRead (r.add (a.n / 8)) with
      | some v => exact memWrite_alike h _ _
      | none => exact .none
    · exact .some h
  · exact .some h

theorem runBits_alike {left : Nat} (ha : a.Known n) (hn : left ≤ a.n) (h : s.Alike True n t) :
    Option.Rel (Hw.AlikeEnd True n) (runBits a left s) (runBits a left t) := by
  induction left generalizing s t with
  | zero => exact rel_map (runTail_alike ha h) fun _ _ hab => .mk hab _
  | succ left ih =>
    have body : ∀ {s t : Hw}, s.Alike True n t →
        Option.Rel (Hw.AlikeEnd True n) ((runBit a (a.n - (left + 1)) s).bind (runBits a left))
          ((runBit a (a.n - (left + 1)) t).bind (runBits a left)) :=
      fun h => rel_bind (runBit_alike ha (by omega) h) fun _ _ hab => ih (by omega) hab
    have hsampled : s.cancelPending.Alike True n t.cancelPending := h.keeps fun _ _ => rfl
    have hanswer : t.cancelAnswer = s.cancelAnswer := by cases h; rfl
    rw [runBits, runBits, hanswer]
    split
    · split
      · exact .some (.mk (hsampled.keeps (f := Hw.markCancelled) fun _ _ => rfl) _)
      · exact body hsampled
    · exact body h

theorem runXfer_alike (ha : a.Known n) (h : s.Alike live n t) :
    Option.Rel (Hw.AlikeEnd True n) (runXfer a s) (runXfer a t) := runBits_alike ha (Nat.le_refl _) h.regRead

theorem Hw.AlikeEnd.drop {ρ : Type} {x y : Hw × ρ} (h : Hw.AlikeEnd live n x y) : Hw.AlikeEnd False 0 x y := by
  cases h with
  | mk h r => exact .mk h.drop r

theorem runXfer_sameRun (ha : a.Known n) (h : s.Alike live n t) : Hw.SameRun (runXfer a s) (runXfer a t) :=
  rel_mono (runXfer_alike ha h) fun _ _ => Hw.AlikeEnd.drop

theorem opbRef_known {k j : Nat} (hj : j < k) : (opbRef.add j).Known k := fun _ =>
  Nat.lt_of_le_of_lt (add_toNat_le 0#32 j) (by simpa using hj)

theorem opcodeArgs_known {k : Nat} (hk : (k + 7) / 8 ≤ n) (c : Bool) : (opcodeArgs k c).Known n := by
  rintro r (hr | hr) j hj
  · cases hr
    exact opbRef_known (Nat.lt_of_lt_of_le hj hk)
  · cases hr

theorem statusArgs_known (c : Bool) : (statusArgs c).Known 2 := by
  rintro r (hr | hr) j hj <;> cases hr <;> exact opbRef_known (by simpa [statusArgs] using hj)

theorem payloadOut_known {v : Span} (hv : v.buf.space ≠ .opb) (c : Bool) : (payloadOut v c).Known 0 := by
  rintro r (hr | hr) j _ hspace
  · cases hr
    exact (hv hspace).elim
  · cases hr

theorem payloadIn_known {v : Span} (hv : v.buf.space ≠ .opb) (c : Bool) : (payloadIn v c).Known 0 := by
  rintro r (hr | hr) j _ hspace
  · cases hr
  · cases hr
    exact (hv hspace).elim

theorem transferArgs_known (l : Latch) (c sf df : Bool) : (transferArgs l c sf df).Known 0 := by
  rintro r (hr | hr) j _ hspace
  · cases sf <;> cases hr
    cases hspace
  · cases df <;> cases hr
    cases hspace

/-! ### The arbiter -/

theorem granted_alike (h : s.Alike True n t) : t.granted = s.granted := by
  cases h with
  | mk ls opb hls hopb => cases hls trivial; rfl

theorem runPoll_alike {left : Nat} (h : s.Alike True n t) : (runPoll left s).Alike True n (runPoll left t) := by
  induction left generalizing s t with
  | zero => exact h
  | succ left ih =>
    rw [runPoll, runPoll, granted_alike h, h.params]
    split
    · exact h
    · exact ih (h.keeps (f := fun x => x.delay s.params.grantPollUs) fun _ _ => rfl).regRead

theorem runGrant_alike (h : s.Alike True n t) : Hw.AlikeEnd True n (runGrant s) (runGrant t) := by
  rw [runGrant, runGrant, granted_alike h, h.params]
  split
  · exact .mk ((h.keeps (clearLs_keepsOpb _)).keeps (f := fun x => x.regWrite.delayUnit) fun _ _ => rfl) _
  · exact .mk ((h.keeps (clearLs_keepsOpb _)).keeps (f := Hw.regWrite) fun _ _ => rfl) _

theorem runAcquire_alike (h : s.Alike False 0 t) : Hw.AlikeEnd False 0 (runAcquire s) (runAcquire t) := by
  rw [runAcquire, runAcquire, h.latch, h.params]
  split
  · have hrequested := (h.regRead.keeps (setLs_keepsOpb (bitMask s.params.bitReq))).keeps (f := Hw.regWrite) fun _ _ => rfl
    exact (runGrant_alike (runPoll_alike hrequested.regRead)).drop
  · exact .mk h _

theorem exists_runAcquire_alike (h : s.Alike False 0 t) :
    ∃ u w r, runAcquire s = (u, r) ∧ runAcquire t = (w, r) ∧ u.Alike False 0 w := by
  have hend := runAcquire_alike h
  generalize runAcquire s = x at hend
  generalize runAcquire t = y at hend
  obtain ⟨h, r⟩ := hend
  exact ⟨_, _, r, rfl, rfl, h⟩

theorem runRelease_alike (h : s.Alike False 0 t) : (runRelease s).Alike False 0 (runRelease t) := by
  rw [runRelease, runRelease, h.latch, h.params]
  split
  · have hdeselected := h.regRead.keeps (f := fun x => (deselectLs x).regWrite.delayUnit) fun _ _ => rfl
    exact ((hdeselected.keeps (clearLs_keepsOpb _)).keeps (f := Hw.regWrite) fun _ _ => rfl).drop
  · exact h

theorem runStandby_alike (h : s.Alike False 0 t) : (runStandby s).Alike False 0 (runStandby t) := by
  rw [runStandby, runStandby, h.latch, h.params]
  split
  · have hraised := (h.regRead.keeps (setLs_keepsOpb (bitMask s.params.bitCen))).keeps runDrive_keepsOpb
    exact ((hraised.keeps (clearLs_keepsOpb _)).keeps runDrive_keepsOpb).drop
  · exact h

/-! ### The FLASH commands -/

variable {c : Bool} {v : Span}

theorem runEnableWrite_sameRun (h : s.Alike False 0 t) : Hw.SameRun (runEnableWrite c s) (runEnableWrite c t) := by
  rw [runEnableWrite, runEnableWrite, h.params]
  exact runXfer_sameRun (opcodeArgs_known (by decide) c) ((runStandby_alike h).setOpb0 _)

theorem runStatusFrame_sameRun {st : Byte} (h : s.Alike False 0 t) :
    Hw.SameRun (runStatusFrame st c s) (runStatusFrame st c t) := by
  rw [runStatusFrame, runStatusFrame, h.params]
  exact runXfer_sameRun (opcodeArgs_known (by decide) c) (((runStandby_alike h).setOpb0 _).setOpb1 _)

theorem runWriteStatus_sameRun {st : Byte} (h : s.Alike False 0 t) :
    Hw.SameRun (runWriteStatus st c s) (runWriteStatus st c t) :=
  rel_bind (runEnableWrite_sameRun h) fun _ _ ⟨h, r⟩ => by
    cases r with
    | ok => exact runStatusFrame_sameRun h
    | _ => exact .some (.mk h _)

theorem runClearBp_sameRun (h : s.Alike False 0 t) : Hw.SameRun (runClearBp c s) (runClearBp c t) := by
  rw [runClearBp, runClearBp, h.params]
  exact runWriteStatus_sameRun h

theorem statusResult_alike (h : s.Alike True 2 t) (r : SubOutcome) : statusResult t r = statusResult s r := by
  have hb1 : t.opb.b1 = s.opb.b1 := by
    cases h with
    | mk ls opb hls hopb => exact Option.some.inj (hopb 1 (by decide))
  cases r with
  | ok => exact congrArg StatusOutcome.ok hb1
  | _ => rfl

theorem runReadStatus_sameRun (h : s.Alike False 0 t) : Hw.SameRun (runReadStatus c s) (runReadStatus c t) := by
  rw [runReadStatus, runReadStatus, h.params]
  refine rel_map (runXfer_alike (statusArgs_known c) (((runStandby_alike h).setOpb0 _).setOpb1 _)) fun _ _ ⟨h, r⟩ => ?_
  rw [statusResult_alike h r]
  exact .mk h.drop _

theorem runPage_sameRun {op : Byte} {off : Half} {pay : XferArgs} (hpay : pay.Known 0) (h : s.Alike False 0 t) :
    Hw.SameRun (runPage op off pay c s) (runPage op off pay c t) := by
  have hheader := ((((runStandby_alike h).setOpb0 op).setOpb1 (addrHighByte off)).setOpb2 (addrMidByte off)).setOpb3
    (addrLowByte off)
  refine rel_bind (runXfer_sameRun (opcodeArgs_known (by decide) c) hheader) fun _ _ ⟨h, r⟩ => ?_
  cases r with
  | ok => exact runXfer_sameRun hpay h
  | _ => exact .some (.mk h _)

theorem runWritePage_sameRun (hv : v.buf.space ≠ .opb) (h : s.Alike False 0 t) :
    Hw.SameRun (runWritePage v c s) (runWritePage v c t) := by
  rw [runWritePage, runWritePage, h.params]
  exact runPage_sameRun (payloadOut_known hv c) h

theorem runReadPage_sameRun (hv : v.buf.space ≠ .opb) (h : s.Alike False 0 t) :
    Hw.SameRun (runReadPage v c s) (runReadPage v c t) := by
  rw [runReadPage, runReadPage, h.params]
  exact runPage_sameRun (payloadIn_known hv c) h

variable {fuel : Nat}

theorem runPollReady_sameRun (h : s.Alike False 0 t) : Hw.SameRun (runPollReady fuel c s) (runPollReady fuel c t) := by
  induction fuel generalizing s t with
  | zero => exact .none
  | succ fuel ih =>
    refine rel_bind (runReadStatus_sameRun h) fun _ _ ⟨h, r⟩ => ?_
    cases r with
    | ok st =>
      simp only [h.params]
      split
      · exact ih h
      · exact .some (.mk h _)
    | cancelled => exact .some (.mk h _)

/-! ### Dump and Program -/

theorem runDumpLoop_sameRun {rounds : Nat} (hv : v.buf.space ≠ .opb) (h : s.Alike False 0 t) :
    Hw.SameRun (runDumpLoop c rounds v s) (runDumpLoop c rounds v t) := by
  induction rounds generalizing v s t with
  | zero =>
    rw [runDumpLoop, runDumpLoop]
    split
    · exact .some (.mk h _)
    · exact .none
  | succ rounds ih =>
    rw [runDumpLoop, runDumpLoop, h.latch]
    split
    · exact .some (.mk h _)
    · refine rel_bind (runReadPage_sameRun hv h) fun _ _ ⟨h, r⟩ => ?_
      cases r with
      | ok =>
        simp only [h.latch]
        exact ih hv h
      | _ => exact .some (.mk h _)

theorem runDump_sameRun (hv : v.buf.space ≠ .opb) (h : s.Alike False 0 t) :
    Hw.SameRun (runDump fuel c v s) (runDump fuel c v t) :=
  rel_bind (runPollReady_sameRun h) fun _ _ ⟨h, r⟩ => by
    cases r with
    | ok st => exact runDumpLoop_sameRun hv h
    | cancelled => exact .some (.mk h _)

theorem runProgramByte_sameRun (hv : v.buf.space ≠ .opb) (h : s.Alike False 0 t) :
    Hw.SameRun (runProgramByte fuel c v s) (runProgramByte fuel c v t) :=
  rel_bind (runPollReady_sameRun h) fun _ _ ⟨h, r⟩ => by
    cases r with
    | ok st =>
      refine rel_bind (runEnableWrite_sameRun h) fun _ _ ⟨h, r⟩ => ?_
      cases r with
      | ok => exact runWritePage_sameRun hv h
      | _ => exact .some (.mk h _)
    | cancelled => exact .some (.mk h _)

theorem runProgramLoop_sameRun {left : Nat} (hv : v.buf.space ≠ .opb) (h : s.Alike False 0 t) :
    Hw.SameRun (runProgramLoop fuel c left v s) (runProgramLoop fuel c left v t) := by
  induction left generalizing v s t with
  | zero => exact rel_map (runPollReady_sameRun h) fun _ _ ⟨h, r⟩ => .mk h _
  | succ left ih =>
    refine rel_bind (runProgramByte_sameRun hv h) fun _ _ ⟨h, r⟩ => ?_
    cases r with
    | ok => exact ih hv h
    | _ => exact .some (.mk h _)

theorem runProgram_sameRun (hv : v.buf.space ≠ .opb) (h : s.Alike False 0 t) :
    Hw.SameRun (runProgram fuel c v s) (runProgram fuel c v t) :=
  rel_bind (runClearBp_sameRun h) fun _ _ ⟨h, r⟩ => by
    cases r with
    | ok => exact runProgramLoop_sameRun hv h
    | _ => exact .some (.mk (runRelease_alike h) _)

/-! ### The commands with a session -/

theorem runEraseFrame_sameRun (h : s.Alike False 0 t) : Hw.SameRun (runEraseFrame c s) (runEraseFrame c t) := by
  rw [runEraseFrame, runEraseFrame, h.params]
  refine rel_map (runXfer_sameRun (opcodeArgs_known (by decide) c) ((runStandby_alike h).setOpb0 _)) fun _ _ ⟨h, r⟩ => ?_
  cases r <;> exact .mk (runRelease_alike h) _

theorem runEraseBody_sameRun (h : s.Alike False 0 t) : Hw.SameRun (runEraseBody c s) (runEraseBody c t) :=
  rel_bind (runClearBp_sameRun h) fun _ _ ⟨h, r⟩ => by
    cases r with
    | ok =>
      refine rel_bind (runEnableWrite_sameRun h) fun _ _ ⟨h, r⟩ => ?_
      cases r with
      | ok => exact runEraseFrame_sameRun h
      | _ => exact .some (.mk (runRelease_alike h) _)
    | _ => exact .some (.mk (runRelease_alike h) _)

theorem runErase_sameRun (h : s.Alike False 0 t) : Hw.SameRun (runErase c s) (runErase c t) := by
  obtain ⟨u, w, r, hs, ht, hacquired⟩ := exists_runAcquire_alike h
  rw [runErase, runErase, hs, ht]
  cases r with
  | ok => exact runEraseBody_sameRun (runStandby_alike hacquired)
  | _ => exact .some (.mk hacquired _)

theorem runUnlock_sameRun (h : s.Alike False 0 t) : Hw.SameRun (runUnlock c s) (runUnlock c t) := by
  obtain ⟨u, w, r, hs, ht, hacquired⟩ := exists_runAcquire_alike h
  rw [runUnlock, runUnlock, hs, ht]
  cases r with
  | ok =>
    refine rel_map (runClearBp_sameRun (runStandby_alike hacquired)) fun _ _ ⟨h, r⟩ => ?_
    cases r <;> exact .mk (runRelease_alike h) _
  | _ => exact .some (.mk hacquired _)

variable {rp : Bool}

theorem runRepair_sameRun {x : ChecksumResult} (h : s.Alike False 0 t) :
    Hw.SameRun (runRepair fuel c x s) (runRepair fuel c x t) := by
  rw [runRepair, runRepair, h.params]
  refine rel_bind (memWrite_alike h _ _) fun _ _ h => ?_
  rw [h.params]
  refine rel_bind (memWrite_alike h _ _) fun _ _ h => ?_
  rw [h.params]
  refine rel_map (runProgram_sameRun nofun h) fun _ _ ⟨h, r⟩ => ?_
  cases r with
  | protectedRegion => exact .mk h _
  | _ => exact .mk (runRelease_alike h) _

theorem scrChecksum_alike (h : s.Alike live n t) : scrChecksum t = scrChecksum s := by cases h; rfl

theorem runCompare_sameRun (h : s.Alike False 0 t) : Hw.SameRun (runCompare fuel c rp s) (runCompare fuel c rp t) := by
  rw [runCompare, runCompare, scrChecksum_alike h]
  cases scrChecksum s with
  | some x =>
    simp only [Option.bind_some]
    split
    · exact .some (.mk (runRelease_alike (h.setRdata _)) _)
    · split
      · exact runRepair_sameRun (h.setRdata _)
      · exact .some (.mk (runRelease_alike (h.setRdata _)) _)
  | none => exact .none

theorem runChecksum_sameRun (h : s.Alike False 0 t) : Hw.SameRun (runChecksum fuel c rp s) (runChecksum fuel c rp t) := by
  obtain ⟨u, w, r, hs, ht, hacquired⟩ := exists_runAcquire_alike h
  rw [runChecksum, runChecksum, h.params, hs, ht]
  cases r with
  | ok =>
    refine rel_bind (runDump_sameRun nofun hacquired) fun _ _ ⟨h, r⟩ => ?_
    cases r with
    | ok => exact runCompare_sameRun h
    | _ => exact .some (.mk (runRelease_alike h) _)
  | _ => exact .some (.mk hacquired _)

/-! ### Every command -/

theorem sameRun_map {ρ ρ' : Type} {x y : Option (Hw × ρ)} (g : ρ → ρ') (h : Hw.SameRun x y) :
    Hw.SameRun (x.map fun x => (x.1, g x.2)) (y.map fun x => (x.1, g x.2)) :=
  rel_map h fun _ _ ⟨h, r⟩ => .mk h (g r)

theorem sameRun_statusEnding {x y : Option (Hw × StatusOutcome)} (h : Hw.SameRun x y) :
    Hw.SameRun (x.map statusEnding) (y.map statusEnding) :=
  rel_map h fun _ _ ⟨h, r⟩ => by
    cases r with
    | ok st => exact .mk (h.setRdata _) _
    | cancelled => exact .mk h _

theorem sameRun_checked {x y : Option (Hw × RCode)} (h : s.Alike False 0 t) (hxy : Hw.SameRun x y) :
    Hw.SameRun (checked s x) (checked t y) := by
  rw [checked, checked, h.latch]
  split
  · exact hxy
  · exact .some (.mk h _)

/-- A command runs alike from states that differ in scratch alone. -/
theorem runCommand_sameRun (i : Instr) (h : s.Alike False 0 t) : Hw.SameRun (runCommand fuel i s) (runCommand fuel i t) := by
  have buf : ∀ {a : Word}, (bufRef a).space ≠ .opb := nofun
  cases i with
  | transfer c sf df =>
    rw [runCommand, runCommand, h.latch]
    exact sameRun_map _ (runXfer_sameRun (transferArgs_known s.latch c sf df) h)
  | acquire =>
    obtain ⟨u, w, r, hs, ht, hacquired⟩ := exists_runAcquire_alike h
    rw [runCommand, runCommand, hs, ht]
    exact .some (.mk hacquired _)
  | release => exact .some (.mk (runRelease_alike h) _)
  | standby => exact .some (.mk (runStandby_alike h) _)
  | enableWrite c => exact sameRun_map _ (runEnableWrite_sameRun h)
  | writeStatus c =>
    rw [runCommand, runCommand, h.latch]
    exact sameRun_map _ (runWriteStatus_sameRun h)
  | readStatus c => exact sameRun_statusEnding (runReadStatus_sameRun h)
  | writePage c =>
    rw [runCommand, runCommand, h.latch]
    exact sameRun_checked h (sameRun_map _ (runWritePage_sameRun buf h))
  | readPage c =>
    rw [runCommand, runCommand, h.latch]
    exact sameRun_checked h (sameRun_map _ (runReadPage_sameRun buf h))
  | pollReady c => exact sameRun_statusEnding (runPollReady_sameRun h)
  | clearBp c => exact sameRun_map _ (runClearBp_sameRun h)
  | dump c =>
    rw [runCommand, runCommand, h.latch]
    exact sameRun_checked h (sameRun_map _ (runDump_sameRun buf h))
  | program c =>
    rw [runCommand, runCommand, h.latch]
    exact sameRun_checked h (sameRun_map _ (runProgram_sameRun buf h))
  | erase c => exact sameRun_map _ (runErase_sameRun h)
  | unlock c => exact sameRun_map _ (runUnlock_sameRun h)
  | checksum c rp => exact runChecksum_sameRun h

theorem Hw.SameRun.exists {ρ : Type} {x y : Option (Hw × ρ)} {r : ρ} (h : Hw.SameRun x y) (hx : x = some (s, r)) :
    ∃ t, y = some (t, r) ∧ s.Alike False 0 t := by
  subst hx
  obtain ⟨h, r⟩ := h
  exact ⟨_, rfl, ‹_›⟩

/-- Nothing that is observed depends on scratch (00_scope.md R12). -/
theorem finish_observe_alike (h : s.Alike live n t) (u : State) (code : RCode) :
    (State.finish { u with hw := t } code).hw.observe = (State.finish { u with hw := s } code).hw.observe := by
  cases h
  rfl

end

/-- Settles O55: the run from the other scratch is alike, and it is the machine's. -/
theorem scratchIsNotObservable : Obligations.ScratchIsNotObservable := by
  intro i s h code ls opb hs hsound hc
  obtain ⟨fuel, h', hrun, heq⟩ := runsPseudocode_of_commandEnds hs hsound hc
  have hquiet : State.Quiet { s with hw := { s.hw with ls := ls, opb := opb } } :=
    ⟨hs.quiet.ops, hs.quiet.posted, hs.quiet.turns⟩
  have hscratch : s.hw.Alike False 0 { s.hw with ls := ls, opb := opb } := .mk ls opb nofun nofun
  obtain ⟨t, hrun', halike⟩ := (runCommand_sameRun i hscratch).exists hrun
  refine ⟨t, commandEnds_of_runCommand ⟨hs.seq, hs.busy, hquiet⟩ ⟨hsound.params, hsound.mem, hsound.scr, hsound.pageSize⟩
    hrun', ?_⟩
  rw [heq]
  exact finish_observe_alike halike s code

end Sys2Proof.Machine
end
